-- ==== Sys2Proof/Word.lean ====
section
/-! DEFINITION. The widths the manual counts in, and the plainest arithmetic over them (00, Conventions). -/

namespace Sys2Proof

abbrev Byte := BitVec 8

/-- A station number 0..15 as a frame header or the straps carry it (R154, R169); stations proper are 1..15. -/
abbrev Station := Fin 16

/-- A station mask: bit n names station n (R183). -/
abbrev StationMask := BitVec 16

/-- The low 16 bits of a millisecond index, as frames carry it (R63). -/
abbrev Ms16 := BitVec 16

/-- A full millisecond index (R62). -/
abbrev Ms := BitVec 32

/-- A signed 29-bit encoder count (R18). -/
abbrev Count := BitVec 29

/-- Clamping to [a, b] (00, Arithmetic). -/
def clampInt (a b x : Int) : Int := if x < a then a else if b < x then b else x

/-- Saturation to ±n (00, Arithmetic). -/
def satInt (n x : Int) : Int := clampInt (-n) n x

/-- A counter that saturates at m. -/
def satInc (m n : Nat) : Nat := if n < m then n + 1 else m

/-- The station mask names the station. -/
def maskNames (m : StationMask) (st : Station) : Bool := m.getLsbD st.val

/-- A table over stations, channels or slots, each place changed by f. -/
def vmap {α β : Type} {n : Nat} (f : α → β) (v : Vector α n) : Vector β n :=
  Vector.ofFn fun i => f v[i]

/-- The stations 1..15, in ascending order. -/
def allStations : List Station := [1, 2, 3, 4, 5, 6, 7, 8, 9, 10, 11, 12, 13, 14, 15]

end Sys2Proof
end

