-- ==== Sys2Proof/Syntax.lean ====
section
/-! DEFINITION. The commands of the node: one constructor of Instr for each row of spec/opcode_table.json, and the named sets their operands are drawn from. -/

namespace Sys2Proof

/-- Role of a station (R168), code 0 and 1 (R183). -/
inductive Role | axis | control
deriving DecidableEq, Repr

/-- Axis kinds in the order of 00 (codes 0..9, R183). -/
inductive AxisKind | swing | lift | telescope | track | pan | tilt | roll | focus | iris | zoom
deriving DecidableEq, Repr

/-- Start states (R168), codes 0..6. -/
inductive StartState | straps | storeId | configLoad | scan | parked | run | configFault
deriving DecidableEq, Repr

/-- Fault reasons of CONFIG-FAULT (R168), codes 1..4; no reason is code 0. -/
inductive FaultReason | station | absent | check | range
deriving DecidableEq, Repr

/-- Drive states (R84), codes 0..4. -/
inductive DriveState | parked | waking | enabled | stopping | stopped
deriving DecidableEq, Repr

/-- Home states (R40), codes 0..2. -/
inductive HomeState | unhomed | homing | homed
deriving DecidableEq, Repr

/-- Reasons of a failed homing (R40). -/
inductive HomeFail | travel | stop | park | encoder
deriving DecidableEq, Repr

/-- Reasons of a refused HOME (R40). -/
inductive HomeRefusal | notEnabled | busy
deriving DecidableEq, Repr

/-- The last home outcome (R40). -/
inductive HomeOutcome
  | none
  | done
  | failed (r : HomeFail)
  | refused (r : HomeRefusal)
deriving DecidableEq, Repr

/-- The two kinds of stop (06). -/
inductive StopKind | hard | ramp
deriving DecidableEq, Repr

/-- The seven local causes in the order of R85 (codes 1..7, R183). -/
inductive Cause | chain | encoderFault | followError | halt | peerLost | linkFault | overrun
deriving DecidableEq, Repr

/-- A hold: its kind and its cause code; no code is code 0 on the link (R84, R183). -/
structure Hold where
  kind : StopKind
  code : Option Cause
deriving DecidableEq, Repr

/-- Job states (R104), codes 0..7. -/
inductive JobState | idle | prepared | cueing | cued | recording | running | runout | closing
deriving DecidableEq, Repr

/-- Reason codes of takes in the order of R183 (codes 1..21). -/
inductive Reason
  | notHomed | notEnabled | busy | locked | noTake | broken | directoryFull | storeFull | storeRead
  | storeWrite | recordOverrun | notCued | late | tooFar | deviated | sync | stop | parked
  | movingMark | badMark | operator
deriving DecidableEq, Repr

/-- The last outcome of the take job (R104). Reason and origin are bytes: an ABORT is taken whatever
its reason code, and the outcome carries the code as received (R183). -/
inductive TakeOutcome
  | none
  | completed
  | aborted (reason origin : Byte)
  | refused (reason : Byte)
deriving DecidableEq, Repr

/-- Time states (R62), codes 0..2. -/
inductive TimeState | unset | own | agreed
deriving DecidableEq, Repr

/-- Channel kinds (R25), codes 0 and 1. -/
inductive ChannelKind | wheel | lever
deriving DecidableEq, Repr

/-- A crane time as a frame or a receive-queue entry carries it (R64, R180). -/
structure Stamp where
  ms16 : Ms16
  phase : Nat
deriving DecidableEq, Repr

/-- The items of a STATUS frame (R165 and its table in R183). -/
structure StatusItems where
  role : Role
  kind : Option AxisKind
  startState : StartState
  fault : Option FaultReason
  drive : DriveState
  wakeRefused : Bool
  demandStale : Bool
  hold : Option Hold
  firstCause : Option Station
  home : HomeState
  posValid : Bool
  homeOutcome : HomeOutcome
  position : Int
  move : Int
  job : JobState
  takeNumber : Byte
  outcome : TakeOutcome
  timeState : TimeState
  timeStepped : Bool
  syncLost : Bool
  /-- bit i set: crew input i reports present -/
  crew : BitVec 4
  /-- bit n - 1 set: zone n is in the active set -/
  zones : BitVec 8
  factor : BitVec 16
  stamp : Stamp
deriving DecidableEq, Repr

/-- The items of a DEMAND frame (R27). Values are signed 16-bit. -/
structure DemandItems where
  kinds : Vector ChannelKind 4
  values : Vector (BitVec 16) 4
  seq : BitVec 4
deriving DecidableEq, Repr

/-- The subkinds of a TAKE frame with what each carries (07; R183). -/
inductive TakeCmd
  | prepare (n : Byte) (mask : StationMask)
  | cue (n : Byte) (mask : StationMask) (inMark outMark : Byte)
  | roll (n : Byte) (t : Ms16)
  | cut (n : Byte) (t : Ms16)
  | abort (n : Byte) (reason origin : Byte)
  | delete (n : Byte)
  | lock (n : Byte)
  /-- a subkind byte outside 0..6, 7 + excess: delivered like any TAKE, ignored by TKS (R183); rest is bytes 2..5 -/
  | unnamed (excess : Fin 249) (n : Byte) (rest : Vector Byte 4)
deriving DecidableEq, Repr

/-- What a TAKE frame whose subkind byte lies outside 0..6 carries beside its byte 1 (R183, log 30). -/
structure UnnamedTake where
  excess : Fin 249
  rest : Vector Byte 4
deriving DecidableEq, Repr

/-- How a START finds the take memory (R151, R168, R170, R182, log 9): the reset pin leaves it powered, so that its
operation goes on to its end and a suspended erase stays suspended; a power loss cuts an operation short and leaves the
bytes given (none: as they were). -/
inductive MemoryPower
  | kept
  | lost (left : Option (List Byte))
deriving DecidableEq, Repr

/-- One quadrature transition as its two lines show it (R18, R19, R25). -/
inductive QuadStep | plus | minus | illegal
deriving DecidableEq, Repr

/-- The four buttons of a control station (R102). -/
inductive Button | resume | mark | wake | park
deriving DecidableEq, Repr

/-- Where in an update the STATUS frame is queued (R36 allows it before the factor is computed). -/
inductive StatusPoint | beforeProfile | beforeFactor | last
deriving DecidableEq, Repr

/-- What an update finds on the node's lines, and the orders the manual leaves open inside it. -/
structure UpdateInputs where
  /-- level of the four crew lines, a set bit at the present level (R74) -/
  crew : BitVec 4
  /-- values presented on the lever inputs (R25) -/
  levers : Vector Int 4
  /-- the HALT input reads active (R87) -/
  haltActive : Bool
  /-- the four station straps (R169) -/
  straps : Station
  /-- the role strap reads high, which selects CONTROL (R169) -/
  roleHigh : Bool
  /-- the take memory's status reports busy at this update's poll (R170) -/
  storeBusy : Bool
  /-- the hand demand is formed before the profile update (R6) -/
  demandFirst : Bool
  /-- the zones are evaluated before the profile update (R6, R76) -/
  zonesFirst : Bool
  /-- the causes an update raises (HALT, PEER-LOST) are raised before the profile update -/
  causesFirst : Bool
  statusPoint : StatusPoint
  /-- what the take memory is left with where an operation has run out of its updates here (R127); none: as before -/
  left : Option (List Byte)
deriving DecidableEq, Repr

/-- The commands. Operands are the model's (log 1); a received frame's first operand is the station its header names. The
bits of a link command, true recessive, are those the line showed since LNK last counted it
(R153, log 21); none are named where the operand is left out. -/
inductive Instr
  /-- START (R168): the chain line as read, and how the take memory is found -/
  | start (chainOpen : Bool) (memory : MemoryPower)
  | restartFrame (st : Station) (mask : StationMask)
  | restartCommand
  | update (inp : UpdateInputs)
  | correctionApply
  | timeOwn (inp : UpdateInputs)
  | timeSteppedClear (inp : UpdateInputs)
  | strapsRead (inp : UpdateInputs)
  | identification (b0 b1 b2 : Byte)
  | storeIdTimeout (inp : UpdateInputs)
  | configLoad (seen : Option (List Byte))
  | scanSectorRead (seen : Option (List Byte))
  | scanEnd
  /-- driveFirst: at an illegal transition STC takes the drive change before HOM takes the fault (R51) -/
  | encoderTransition (q : QuadStep) (driveFirst : Bool)
  | encoderFaultEnd (inp : UpdateInputs)
  | switchCapture
  | stall (inp : UpdateInputs)
  | chainOpen
  | chainClose
  | buttonPress (b : Button)
  | wheelTransition (ch : Fin 4) (q : QuadStep)
  | crewAbsent (inp : UpdateInputs)
  | followError (inp : UpdateInputs)
  | demandStale (inp : UpdateInputs)
  | peerLost (inp : UpdateInputs)
  | wakingEnd (inp : UpdateInputs)
  | eraseSuspended
  | readComplete (seen : Option (List Byte))
  /-- reportOnly: status reports the program ended and its verify read begins, whose end is another such command (log 22) -/
  | programComplete (seen : Option (List Byte)) (reportOnly : Bool := false)
  /-- reportOnly: status reports the erase ended and its check begins, whose end is another such command (log 22) -/
  | eraseComplete (seen : Option (List Byte)) (reportOnly : Bool := false)
  | flashTimeout (inp : UpdateInputs)
  | heldAbortPlace
  | transmitStart (line : List Bool := [])
  | arbitrationLost
  /-- line: the bits read up to the wrong one -/
  | bitError (line : List Bool := [])
  /-- a dominant bit after the bits of line: the 65th of its run fires the test (R162) -/
  | stuckLine (line : List Bool := [])
  | faultPauseEnd (line : List Bool := [])
  | transmitComplete
  /-- the bits of the frame as read after its start bit, to the one at which the failure is found (R163) -/
  | frameDiscard (bits : List Bool := [])
  | stopFrame (st : Station) (kind : StopKind) (code : Option Cause)
  | releaseFrame (st : Station)
  | resume (st : Station)
  | wake (st : Station) (mask : StationMask)
  | park (st : Station) (mask : StationMask)
  | home (st : Station) (mask : StationMask)
  | demandFrame (st : Station) (items : DemandItems)
  | statusFrame (st : Station) (items : StatusItems)
  | takePrepare (st : Station) (n : Byte) (mask : StationMask)
  | takeCue (st : Station) (n : Byte) (mask : StationMask) (inMark outMark : Byte)
  | takeRoll (st : Station) (n : Byte) (t : Ms16)
  | takeCut (st : Station) (n : Byte) (t : Ms16)
  | takeAbort (st : Station) (n reason origin : Byte)
  | takeDelete (st : Station) (n : Byte)
  /-- unnamed: none in a LOCK; else the frame is the TAKE of no named subkind that it spells, which has no row (log 30) -/
  | takeLock (st : Station) (n : Byte) (unnamed : Option UnnamedTake := none)
  | mark (st : Station) (t : Ms16)
  | send (kind : Byte) (payload : List Byte)
  | halt
  | unhalt
  | receive
  | receiveCopyEnd
  | filter (kinds : BitVec 16)
  | snapshot (section_ index : Byte)
  | configWrite (block : List Byte)
  | format
  | shortTransaction
  /-- a command byte: of no command, or, where it names one, clocked in ahead of its payload (R178, log 60) -/
  | badCommand (command : Byte)
  /-- a dominant bit after the bits of line: a start bit where the line is idle (R153) -/
  | receivedStartBit (line : List Bool := [])
deriving DecidableEq, Repr

end Sys2Proof
end

