-- ==== Sys2Proof/Decode.lean ====
section
/-! DEFINITION. The table's word form of a command: spec/opcode_table.json gives no row any bits, so no word spells one (log 2). Payload lengths, and the commands that port transactions spell (R155, R178). -/

namespace Sys2Proof

/-- No row of the opcode table has fixed bits or fields: every word is answered with none. -/
def decodeTableWord (_nbits _w : Nat) : Option Instr := none

end Sys2Proof

namespace Sys2Proof

/-- Payload bytes of a frame kind, numbered class × 16 + kind (R155, R179); none: no frame of the table. -/
def kindPayload (k : Nat) : Option Nat :=
  if k = 0x00 then some 1 else if k = 0x01 then some 0
  else if k = 0x10 then some 0
  else if k = 0x11 ∨ k = 0x12 ∨ k = 0x13 ∨ k = 0x14 ∨ k = 0x16 then some 2
  else if k = 0x15 then some 6
  else if k = 0x20 then some 9 else if k = 0x30 then some 24 else none

/-- The commands of the companion port (R178). -/
inductive PortCommand | send | halt | unhalt | receive | filter | snapshot | configWrite | format | restart
deriving DecidableEq, Repr

/-- The command byte of each (table of R178). -/
def PortCommand.byte : PortCommand → Byte
  | .send => 0x10 | .halt => 0x20 | .unhalt => 0x21 | .receive => 0x30 | .filter => 0x31 | .snapshot => 0x40
  | .configWrite => 0x50 | .format => 0x51 | .restart => 0x60

/-- The command a byte names; none: a byte of no command (R178). -/
def portCommandOf (b : Byte) : Option PortCommand :=
  [.send, .halt, .unhalt, .receive, .filter, .snapshot, .configWrite, .format, .restart].find? fun c => c.byte == b

/-- Payload bytes of a port command; a SEND's are its kind byte and that kind's, one byte where the kind is none (R178). -/
def PortCommand.payload (kind : Option Byte) : PortCommand → Nat
  | .send => 1 + (match kind with | some k => (kindPayload k.toNat).getD 0 | none => 0)
  | .filter | .snapshot => 2
  | .configWrite => 371
  | .halt | .unhalt | .receive | .format | .restart => 0

/-- The command that the bytes of a transaction make: too few for its payload cut it short, and bytes past the payload only
clock the answer out (R178). -/
def transactionOf : List Byte → Instr
  | [] => .shortTransaction
  | c :: bytes =>
    match portCommandOf c with
    | none => .badCommand c
    | some cmd =>
      let n := cmd.payload bytes.head?
      if bytes.length < n then .shortTransaction
      else
        match cmd, bytes.take n with
        | .send, k :: bs => .send k bs
        | .halt, _ => .halt
        | .unhalt, _ => .unhalt
        | .receive, _ => .receive
        | .filter, [a, b] => .filter (a ++ b)
        | .snapshot, [a, b] => .snapshot a b
        | .configWrite, bs => .configWrite bs
        | .format, _ => .format
        | .restart, _ => .restartCommand
        | .send, [] | .filter, _ | .snapshot, _ => .shortTransaction

end Sys2Proof
end

