-- ==== Sys2Proof/Config.lean ====
section
/-! DEFINITION. The fixed figures of the part, each with its rule, and the model's one free value. -/

namespace Sys2Proof.Config

/-- An entry is fresh while its age is 12 or less (R59). -/
def freshAge : Nat := 12
/-- A demand is stale when its age exceeds 5 updates (R31). -/
def demandStaleAge : Nat := 5
/-- An expected peer is lost when its age exceeds 24 (R60). -/
def lostAge : Nat := 24
/-- Ages saturate at 255 (R58). -/
def maxAge : Nat := 255
/-- WAKING ends at this settle count (R97). -/
def settleEnd : Nat := 120
/-- A crew input is absent at this many consecutive clear samples (R74). -/
def crewClear : Nat := 40
/-- Clean updates that end ENCODER-FAULT (R19). -/
def cleanUpdates : Nat := 1000
/-- The follow counter that raises FOLLOW-ERROR (R24). -/
def followTrip : Nat := 3
/-- The stall counter that ends a HARD-STOP seek (R47). -/
def stallTrip : Nat := 20
/-- TIME-STEPPED is cleared at this step age (R71). -/
def stepAgeEnd : Nat := 1000
/-- A node that has adopted nothing takes its own time at this index (R66). -/
def ownIndex : Nat := 200
/-- Polls of STORE-ID before ABSENT (R170). -/
def storeIdPolls : Nat := 1000
/-- Updates the take memory is allowed for an operation (R127). -/
def flashUpdates : Nat := 1000
/-- Places of the command FIFO (R156). -/
def fifoPlaces : Nat := 4
/-- Places of the receive queue (R180). -/
def rxPlaces : Nat := 32
/-- Places of the write queue (R134). -/
def writePlaces : Nat := 6
/-- Places of the take directory (R130). -/
def directoryPlaces : Nat := 32
/-- Marks of a take (R104). -/
def markPlaces : Nat := 12
/-- Deltas in a page and in a segment (R128). -/
def pageDeltas : Nat := 127
def segmentDeltas : Nat := 1905
/-- The take sectors are 1..4,095 (R127). -/
def lastSector : Nat := 4095
/-- Bytes of a sector, of a page and of the whole take memory (R127). -/
def sectorBytes : Nat := 4096
def pageBytes : Nat := 256
def memoryBytes : Nat := 16777216
/-- Bit errors in a row that raise LINK-FAULT (R161). -/
def linkFaultErrors : Nat := 4
/-- Recessive bit times of an idle line (R153). -/
def idleBits : Nat := 12
/-- Recessive end bits of a frame (R154). -/
def endBits : Nat := 8
/-- Dominant bits of an error flag (R159). -/
def flagBits : Nat := 12
/-- Recessive bit times that end the fault pause (R161). -/
def pauseBits : Nat := 256
/-- The dominant bit at which the stuck-line test fires (R162). -/
def stuckBits : Nat := 65
/-- Travel bounds of an axis that is not homed, in sub-counts (R1). -/
def unhomedLo : Int := -68719476736
def unhomedHi : Int := 68719476480
/-- The largest hand demand (R28) and drive output (R22). -/
def maxDemand : Int := 8388607
def maxDrive : Int := 32767
/-- The largest wheel sum (R25, R28). -/
def maxWheel : Int := 32767
/-- The window of a ROLL and the reach of a CUT (R111, R118). -/
def rollEarliest : Int := 5
def rollLatest : Int := 10000
/-- The format code of this part's block layout (R184). -/
def formatCode : Nat := 0x4E31
/-- Bytes of a parameter block (R182). -/
def blockBytes : Nat := 371

/-- FREE VALUE (log 10): the 2-byte length of a snapshot copy, whose byte layout the manual leaves out (R181).
The k-th snapshot answered by the node has length snapshotLength k. -/
opaque snapshotLength : Nat → BitVec 16

end Sys2Proof.Config
end

