-- ==== Sys2Proof/Machine/State.lean ====
section
/-! DEFINITION. The state of the node, block by block as 00 lists them, its value right after START, and the reasons a step may stop. -/

namespace Sys2Proof.Machine

/-- The node has no fault that stops it: every fault of the manual is a next state. No constructor, so no
step can raise one; safe. -/
inductive Fault
deriving DecidableEq, Repr

/-- Why a command may have no meaning. -/
inductive Refusal
  /-- raised by exec for a row that has no meaning yet (none is left); safe -/
  | notModelled (mnemonic : String)
deriving DecidableEq, Repr

/-! ### Start controller -/

/-- The items of the parameter block that a check can name (R172). -/
inductive ItemName
  | role | axisKind | lo | hi | vMax | aMax | aStop | vGoto | vHome | followMax
  | homeMode | homeDirection | homeOffset | homeMaxTravel | stallThreshold | backOff
  | routePresent | routeSource | routeChannel | routeDeadband | routeInvert | routeCoupling | routeFMin
  | lensCount | lensPosition | lensFactor | channelKind
  | zoneCount | zoneNumber | zoneSensorStation | zoneSensorInput | zoneAxisAStation | zoneAxisALo | zoneAxisAHi
  | zoneAxisBPresent | zoneAxisBStation | zoneAxisBLo | zoneAxisBHi | zoneMembers | expectedMask
deriving DecidableEq, Repr

/-- The failing item: the item's name and, for a table entry, its index (R168), counted from 0 in every table, that of the
zones too (log 17). -/
structure FailingItem where
  name : ItemName
  index : Option Nat
deriving DecidableEq, Repr

/-- A lens-table point (R34). -/
structure LensPoint where
  pos : Int
  factor : Nat
deriving DecidableEq, Repr

/-- A zone entry as stored (R72, R184). -/
structure ZoneEntry where
  number : Nat
  sensorStation : Nat
  sensorInput : Nat
  aStation : Nat
  aLo : Int
  aHi : Int
  bPresent : Nat
  bStation : Nat
  bLo : Int
  bHi : Int
  members : StationMask
  fraction : Nat
deriving DecidableEq, Repr

/-- The items of a parameter block, codes as stored (R184). -/
structure Block where
  format : Nat
  role : Nat
  axisKind : Nat
  lo : Int
  hi : Int
  vMax : Nat
  aMax : Nat
  aStop : Nat
  vGoto : Nat
  vHome : Nat
  kf : Nat
  kp : Nat
  followMax : Nat
  homeMode : Nat
  homeDirection : Nat
  homeOffset : Int
  homeMaxTravel : Nat
  stallThreshold : Nat
  backOff : Nat
  routePresent : Nat
  source : Nat
  channel : Nat
  invert : Nat
  gain : Nat
  deadband : Nat
  coupling : Nat
  lensCount : Nat
  fMin : Nat
  expected : StationMask
  channelKinds : Vector Nat 4
  zoneCount : Nat
  lens : List LensPoint
  zones : List ZoneEntry
deriving DecidableEq, Repr

/-- The three bytes of an identification (R170). -/
structure IdentAnswer where
  b0 : Byte
  b1 : Byte
  b2 : Byte
deriving DecidableEq, Repr

/-- CFG (R168). params is the items of an image that passed its checks, as handed to the blocks (R172). resumeIssued: the
erase resume of this STORE-ID has been issued; heldErase: the sector whose erase the take memory still holds from before a
START (R170). -/
structure Cfg where
  startState : StartState
  faultReason : Option FaultReason
  failingItem : Option FailingItem
  station : Option Station
  role : Option Role
  identAnswer : Option IdentAnswer
  image : Option (List Byte)
  params : Option Block
  restartCount : BitVec 8
  refusedRestarts : Nat
  storeIdPolls : Nat
  identIssued : Bool
  resumeIssued : Bool
  heldErase : Option Nat
deriving DecidableEq, Repr

/-! ### Crane clock and peer table -/

/-- A crane time (R62). -/
structure CraneTime where
  ms : Ms
  phase : Nat
deriving DecidableEq, Repr

/-- A correction that has been decided and waits for phase 500 (R65). -/
inductive Correction
  | adopt (c : Int)
  | slew (c : Int)
  | step (t : Int)
deriving DecidableEq, Repr

/-- CCK (R62). -/
structure Cck where
  ms : Ms
  phase : Nat
  timeState : TimeState
  timeStepped : Bool
  stepAge : Nat
  syncLost : Bool
  stepCount : BitVec 16
  pending : Option Correction
deriving DecidableEq, Repr

/-- A peer entry (R54); it has been heard when items is present. The offset is a stored one from the first STATUS on (R64). -/
structure PeerEntry where
  items : Option StatusItems
  age : Nat
  offset : Int
  offsetValid : Bool
deriving DecidableEq, Repr

/-- A demand entry (R54). -/
structure DemandEntry where
  items : Option DemandItems
  age : Nat
deriving DecidableEq, Repr

/-- PTB (R54, R55, R60). Place 0 of each table belongs to no station and is never written. -/
structure Ptb where
  peers : Vector PeerEntry 16
  demands : Vector DemandEntry 16
  lost : StationMask
  duplicates : Nat
deriving DecidableEq, Repr

/-- The channels of a control station (R25, R27). -/
structure Chan where
  wheels : Vector Int 4
  seq : BitVec 4
deriving DecidableEq, Repr

/-! ### Motion -/

/-- Profiler modes (R1). -/
inductive Mode | hold | hand | homing | goto_ | playback | runout
deriving DecidableEq, Repr

/-- DMR's items (R28). -/
structure DmrItems where
  armed : Bool
  pendingWheel : Int
  lastKind : Option ChannelKind
  rawDemand : Int
  factor : Nat
  handDemand : Int
  stale : Bool
deriving DecidableEq, Repr

/-- DMR (R28). shown is its items as they stood at the last update, which a snapshot carries (R39, log 46). -/
structure Dmr extends DmrItems where
  shown : DmrItems
deriving DecidableEq, Repr

/-- MPR (R1, R35). -/
structure Mpr where
  p : Int
  v : Int
  mode : Mode
  g : Option Int
  atLo : Bool
  atHi : Bool
  factor : Nat
deriving DecidableEq, Repr

/-- SVO (R18, R19, R22, R24). -/
structure Svo where
  raw : Count
  origin : Count
  encFault : Bool
  clean : Nat
  follow : Nat
  u : Int
  err : Int
deriving DecidableEq, Repr

/-- Phases of a homing (R40). -/
inductive HomePhase | seek | decel | backOff
deriving DecidableEq, Repr

/-- HOM (R40). -/
structure Hom where
  state : HomeState
  phase : Option HomePhase
  seekStart : Option Int
  stall : Nat
  armed : Bool
  outcome : HomeOutcome
deriving DecidableEq, Repr

/-! ### Zones -/

/-- Where a crew finding came from (R75). -/
inductive CrewSource | live | stale
deriving DecidableEq, Repr

/-- The finding of a range test (R76). -/
inductive RangeFinding | inside | outside | invalid | stale
deriving DecidableEq, Repr

/-- An evaluation record (R77). -/
structure ZoneRecord where
  crew : Bool
  source : CrewSource
  axisA : RangeFinding
  axisB : Option RangeFinding
  active : Bool
deriving DecidableEq, Repr

/-- A crew-input release filter with its raw sample (R74). -/
structure CrewFilter where
  raw : Bool
  present : Bool
  clear : Nat
deriving DecidableEq, Repr

/-- ZMN (R73, R74); place n - 1 of records is zone n. -/
structure Zmn where
  active : BitVec 8
  records : Vector (Option ZoneRecord) 8
  memberCap : Nat
  filters : Vector CrewFilter 4
deriving DecidableEq, Repr

/-! ### Stop controller -/

/-- STC (R84). The conditions of ENCODER-FAULT, PEER-LOST and LINK-FAULT are held by SVO, PTB and LNK. -/
structure Stc where
  drive : DriveState
  chainOpen : Bool
  followLatch : Bool
  haltLatch : Bool
  overrunLatch : Bool
  haltInput : Bool
  hold : Option Hold
  holders : Vector (Option Hold) 16
  settle : Nat
  parkPending : Bool
  companionHalt : Bool
  wakeRefused : Bool
deriving DecidableEq, Repr

/-! ### Takes -/

/-- A mark of the recording in progress; stored when at is present, with position and move (R104, R116). -/
structure JobMark where
  index : Nat
  at_ : Option (Int × Int)
deriving DecidableEq, Repr

/-- The items a CUE was given, kept to know a repeated CUE (R109, log 16). -/
structure CueItems where
  mask : StationMask
  inMark : Byte
  outMark : Byte
deriving DecidableEq, Repr

/-- An ABORT that waits for room (R107). -/
structure HeldAbort where
  n : Byte
  reason : Byte
  origin : Byte
deriving DecidableEq, Repr

/-- TKS's job record (R104). jobTake is the take the job in progress is on (log 13); playMove the recorded
move of index k - 1 in a playback (R120). -/
structure Tks where
  job : JobState
  takeNumber : Byte
  jobTake : Byte
  mask : Option StationMask
  rollTime : Option Ms16
  cutTime : Option Ms16
  t0 : Option Ms
  inIndex : Option Nat
  endIndex : Option Nat
  k : Nat
  prevMove : Option Int
  playMove : Option Int
  cue : Option CueItems
  marks : List JobMark
  marksFull : Bool
  markLate : Bool
  storeLowSent : Bool
  outcome : TakeOutcome
  held : Option HeldAbort
deriving DecidableEq, Repr

/-! ### Take store -/

/-- A sector of a segment list (R129, R130). -/
structure Segment where
  sector : Nat
  seq : Nat
  programmed : Bool
  retire : Bool
deriving DecidableEq, Repr

/-- A stored mark (R128, R130). -/
structure TakeMark where
  index : Nat
  position : Int
  move : Int
deriving DecidableEq, Repr

/-- The contents of a take close (R128). -/
structure TakeClose where
  length : Nat
  endPos : Int
  marks : List TakeMark
deriving DecidableEq, Repr

inductive StoredState | complete | locked | broken
deriving DecidableEq, Repr

/-- The stored take of an entry (R130). -/
structure StoredTake where
  generation : BitVec 8
  state : StoredState
  lockPending : Bool
  mask : StationMask
  startPos : Int
  initialMove : Int
  length : Nat
  endPos : Option Int
  marks : List TakeMark
  segments : List Segment
deriving DecidableEq, Repr

/-- The recording of an entry (R130). -/
structure Recording where
  generation : BitVec 8
  mask : StationMask
  startPos : Int
  initialMove : Int
  count : Nat
  segments : List Segment
deriving DecidableEq, Repr

/-- A directory entry (R130). -/
structure DirEntry where
  number : Byte
  stored : Option StoredTake
  recording : Option Recording
deriving DecidableEq, Repr

/-- The three programs of a write-queue entry (R134). -/
inductive RecordStep | header | page | segClose
deriving DecidableEq, Repr

/-- A write-queue entry; steps are the programs not yet verified, in order (R134). -/
structure WriteEntry where
  sector : Nat
  seq : Nat
  page : Nat
  deltas : List Int
  steps : List RecordStep
deriving DecidableEq, Repr

/-- The close-and-lock list's requests (R139). -/
inductive CloseWork
  | segClose
  | takeClose
  | lock (n : Byte)
  | configErase
  | configPage (i : Nat)
deriving DecidableEq, Repr

/-- A take page, named by sequence and page number (R143). -/
structure TakePage where
  seq : Nat
  page : Nat
deriving DecidableEq, Repr

/-- A read-ahead slot (R143). -/
inductive Slot
  | empty
  | requested (page : TakePage)
  | filled (sector : Nat) (page : TakePage) (deltas : List Int)
  | failed (page : TakePage)
deriving DecidableEq, Repr

/-- A read: a playback read into a slot (second: the reread of R144), a read whose data are not kept, the
parameter block's or a scan read (R171, R148). -/
inductive ReadJob
  | slot (i : Fin 4) (page : TakePage) (sector : Nat) (second : Bool)
  | dropped
  | config
  | scan
deriving DecidableEq, Repr

/-- What a program in flight is for (R134, R136, R145, R182); abandoned: its verify is not acted on (R138). -/
inductive ProgWork
  | record (step : RecordStep)
  | segClose
  | takeClose
  | lock (n : Byte)
  | config (i : Nat)
  | abandoned
deriving DecidableEq, Repr

/-- A program in flight: where, and the bytes sent (R127). -/
structure Program where
  work : ProgWork
  address : Nat
  data : List Byte
deriving DecidableEq, Repr

/-- The flash unit (R139) with its operation; the erase of sector 0 is CONFIG-WRITE's. -/
inductive FlashUnit
  | idle
  | reading (j : ReadJob)
  | programming (p : Program)
  | erasing (sector : Nat) (suspending : Bool)
  | suspended (sector : Nat) (read : Option ReadJob)
deriving DecidableEq, Repr

/-- A take sector noted IN-USE in the read pass (R148). -/
structure ScanNote where
  sector : Nat
  number : Byte
  generation : BitVec 8
  seq : Nat
  mask : StationMask
  startPos : Int
  initialMove : Int
  segCount : Option Nat
  close : Option TakeClose
  locked : Bool
deriving DecidableEq, Repr

/-- TSC (R129 to R151). reported: status has reported the program or erase in flight ended, and its verify or check read runs
(R127, R139). -/
structure Tsc where
  cursor : Nat
  eraseQueue : List Nat
  bad : List Nat
  directory : List DirEntry
  generations : Vector (Option (BitVec 8)) 100
  pageBuffer : List Int
  writeQueue : List WriteEntry
  closeList : List CloseWork
  closing : Option TakeClose
  slots : Vector Slot 4
  nextPage : Option TakePage
  reads : List ReadJob
  unit : FlashUnit
  opAge : Nat
  suspendAge : Nat
  reported : Bool
  rereads : Nat
  draining : Bool
  scanNext : Nat
  scanNotes : List ScanNote
deriving DecidableEq, Repr

/-! ### Crane link -/

/-- What a frame carries (R155). -/
inductive Body
  | stop (kind : StopKind) (code : Option Cause)
  | release
  | resume
  | wake (mask : StationMask)
  | park (mask : StationMask)
  | home (mask : StationMask)
  | restart (mask : StationMask)
  | take (c : TakeCmd)
  | mark (t : Ms16)
  | demand (d : DemandItems)
  | status (i : StatusItems)
deriving DecidableEq, Repr

/-- A frame with the station its header names (R154). -/
structure Frame where
  station : Station
  body : Body
deriving DecidableEq, Repr

/-- The transmit slots (R156). -/
inductive TxSlot | safety | command | demand | status
deriving DecidableEq, Repr

/-- The transmission in flight: its slot, the frame as sent, the crane time at its start bit, whether its slot
was refilled during it (R160), and whether a RESTART has cut it off from the node's blocks (R156). -/
structure Tx where
  slot : TxSlot
  frame : Frame
  start : CraneTime
  refilled : Bool
  orphan : Bool
deriving DecidableEq, Repr

/-- LNK (R153, R156, R159, R161, R162, R167). The slots hold bodies; the node's own station is put in the header. level is
the line as last read outside the node's own driving, true recessive; errorFlag counts the flag bits still to drive;
pauseCount is the fault pause's own count of recessive bit times. -/
structure Lnk where
  safety : Option Body
  fifo : List Body
  demand : Option DemandItems
  status : Option StatusItems
  tx : Option Tx
  receiving : Bool
  capture : Option CraneTime
  rxErrors : Nat
  bitErrors : Nat
  bitErrorTotal : Nat
  linkFault : Bool
  faultPause : Bool
  pauseCount : Nat
  level : Bool
  errorFlag : Nat
  recessiveRun : Nat
  dominantRun : Nat
deriving DecidableEq, Repr

/-! ### Companion port -/

/-- Answers (R178), codes 0..4. -/
inductive Answer | accepted | busy | notNow | bad | empty
deriving DecidableEq, Repr

/-- Write states (R182), codes 0..3. -/
inductive WriteState | idle | inProgress | done | failed
deriving DecidableEq, Repr

/-- A receive-queue entry (R180). -/
structure RxEntry where
  header : BitVec 10
  own : Bool
  time : Stamp
  payload : List Byte
deriving DecidableEq, Repr

/-- The port status byte's named fields (R178; its two low bits are not named, log 11). -/
structure PortStatus where
  interrupt : Bool
  freePlaces : Nat
  write : WriteState
deriving DecidableEq, Repr

/-- The first cause: a station, or the node itself, whose number may not be known yet (R84, R91). -/
inductive FirstCause
  | own
  | station (st : Station)
deriving DecidableEq, Repr

/-- A local cause as the snapshot carries it: its condition, and its latch where it is latched (R85, R103). -/
structure CauseReport where
  cause : Cause
  condition : Bool
  latch : Option Bool
deriving DecidableEq, Repr

/-- What a snapshot carries of STC beside its registers (R84, R103). -/
structure StopReport where
  causes : List CauseReport
  firstCause : Option FirstCause
deriving DecidableEq, Repr

/-- A slot frame's header: class and kind as one number, and the own station once it is known (R155, R156). -/
structure SlotHeader where
  kindNumber : Nat
  station : Option Station
deriving DecidableEq, Repr

/-- The headers of the frames in the four slots (R156). -/
structure SlotHeaders where
  safety : Option SlotHeader
  fifo : List SlotHeader
  demand : Option SlotHeader
  status : Option SlotHeader
deriving DecidableEq, Repr

/-- A peer's stored offset with its validity, as CCK's items of a snapshot carry it (R71). -/
structure StoredOffset where
  station : Station
  offset : Int
  valid : Bool
deriving DecidableEq, Repr

/-- A snapshot section's copy: the named contents of R181, each block's items as they stand at the take, DMR's as at the last update (R39). -/
inductive SnapshotCopy
  | node (cfg : Cfg) (stc : Stc) (stops : StopReport) (mpr : Mpr) (svo : Svo) (e : Int) (hom : Hom) (dmr : DmrItems) (cck : Cck)
      (offsets : List StoredOffset)
  | peer (entry : PeerEntry) (demand : DemandEntry) (lost : StationMask) (duplicates : Nat)
  | zones (table : List ZoneEntry) (zmn : Zmn)
  | take (tks : Tks)
  | store (tsc : Tsc) (erased dirty inUse bad : Nat)
  | directory (entry : Option DirEntry)
  | link (lnk : Lnk) (headers : SlotHeaders) (filter : BitVec 11) (overflow shortCount fill : Nat) (write : WriteState)
deriving DecidableEq, Repr

/-- What the port clocks out after its answer (R178). -/
inductive Response
  | none
  | entry (bytes : List Byte)
  | snapshot (length : BitVec 16) (copy : SnapshotCopy)
deriving DecidableEq, Repr

/-- CPT (R178 to R182). status is the byte shifted out in the last transaction; began: the command byte of a transaction is in,
with that status shifted out, and its command is not yet taken (R178). -/
structure Cpt where
  rxQueue : List RxEntry
  filter : BitVec 11
  overflow : Nat
  copying : Bool
  answer : Option Answer
  response : Response
  status : Option PortStatus
  began : Bool
  shortCount : Nat
  writeState : WriteState
  writeBuffer : Option (List Byte)
deriving DecidableEq, Repr

/-! ### The node -/

/-- The take memory: (address, byte) pairs in ascending address, none of them 0xFF (R127). -/
abbrev Memory := List Host.Cell

/-- The whole node, with the take memory on its port and the queue of waiting commands. -/
structure State where
  cfg : Cfg
  cck : Cck
  ptb : Ptb
  chan : Chan
  dmr : Dmr
  mpr : Mpr
  svo : Svo
  hom : Hom
  zmn : Zmn
  stc : Stc
  tks : Tks
  tsc : Tsc
  lnk : Lnk
  cpt : Cpt
  flash : Memory
  freeCount : Nat
  pending : List Instr
deriving DecidableEq, Repr

/-! ### Values after START -/

def Cfg.start : Cfg :=
  { startState := .straps, faultReason := none, failingItem := none, station := none, role := none,
    identAnswer := none, image := none, params := none, restartCount := 0, refusedRestarts := 0,
    storeIdPolls := 0, identIssued := false, resumeIssued := false, heldErase := none }

def Cck.start : Cck :=
  { ms := 0, phase := 0, timeState := .unset, timeStepped := false, stepAge := 0, syncLost := false,
    stepCount := 0, pending := none }

/-- An entry not heard (R54). The rules give its offset no number, only that it is not valid; the model holds 0 (log 61). -/
def PeerEntry.start : PeerEntry := { items := none, age := 255, offset := 0, offsetValid := false }

def DemandEntry.start : DemandEntry := { items := none, age := 255 }

def Ptb.start : Ptb :=
  { peers := Vector.replicate 16 PeerEntry.start, demands := Vector.replicate 16 DemandEntry.start,
    lost := 0, duplicates := 0 }

def Chan.start : Chan := { wheels := Vector.replicate 4 0, seq := 0 }

/-- DMR's items after either reset, with the factor of its route (R28). -/
def DmrItems.start (factor : Nat) : DmrItems :=
  { armed := false, pendingWheel := 0, lastKind := none, rawDemand := 0, factor := factor, handDemand := 0,
    stale := true }

/-- DMR after either reset; until the first update a snapshot shows the reset's items (log 46). -/
def Dmr.start (factor : Nat) : Dmr := { DmrItems.start factor with shown := DmrItems.start factor }

def Mpr.start (p : Int) : Mpr :=
  { p := p, v := 0, mode := .hold, g := none, atLo := false, atHi := false, factor := 0 }

def Svo.start : Svo :=
  { raw := 0, origin := 0, encFault := false, clean := 0, follow := 0, u := 0, err := 0 }

def Hom.start : Hom :=
  { state := .unhomed, phase := none, seekStart := none, stall := 0, armed := false, outcome := .none }

def CrewFilter.start : CrewFilter := { raw := true, present := true, clear := 0 }

def Zmn.start (cap : Nat) : Zmn :=
  { active := 0, records := Vector.replicate 8 none, memberCap := cap,
    filters := Vector.replicate 4 CrewFilter.start }

def Stc.start : Stc :=
  { drive := .parked, chainOpen := false, followLatch := false, haltLatch := false, overrunLatch := false,
    haltInput := false, hold := none, holders := Vector.replicate 16 none, settle := 0, parkPending := false,
    companionHalt := false, wakeRefused := false }

/-- TKS after either reset (R104); the value of k is the model's (log 25). -/
def Tks.start : Tks :=
  { job := .idle, takeNumber := 0, jobTake := 0, mask := none, rollTime := none, cutTime := none, t0 := none,
    inIndex := none, endIndex := none, k := 0, prevMove := none, playMove := none, cue := none, marks := [],
    marksFull := false, markLate := false, storeLowSent := false, outcome := .none, held := none }

/-- TSC after either reset, with the cursor and reread counter of R151. -/
def Tsc.start (cursor rereads : Nat) : Tsc :=
  { cursor := cursor, eraseQueue := [], bad := [], directory := [], generations := Vector.replicate 100 none,
    pageBuffer := [], writeQueue := [], closeList := [], closing := none, slots := Vector.replicate 4 .empty,
    nextPage := none, reads := [], unit := .idle, opAge := 0, suspendAge := 0, reported := false, rereads := rereads,
    draining := false, scanNext := 1, scanNotes := [] }

def Lnk.start : Lnk :=
  { safety := none, fifo := [], demand := none, status := none, tx := none, receiving := false,
    capture := none, rxErrors := 0, bitErrors := 0, bitErrorTotal := 0, linkFault := false,
    faultPause := false, pauseCount := 0, level := true, errorFlag := 0, recessiveRun := 0, dominantRun := 0 }

/-- STOP, RELEASE, RESUME, TAKE and MARK, at their places in the frame table (R180). -/
def Cpt.defaultFilter : BitVec 11 := 0b00110000111

def Cpt.start : Cpt :=
  { rxQueue := [], filter := Cpt.defaultFilter, overflow := 0, copying := false, answer := none,
    response := .none, status := none, began := false, shortCount := 0, writeState := .idle, writeBuffer := none }

/-- The node right after START with the stop chain closed, an erased take memory and no command waiting. -/
def State.reset : State :=
  { cfg := Cfg.start, cck := Cck.start, ptb := Ptb.start, chan := Chan.start, dmr := Dmr.start 4096,
    mpr := Mpr.start 0, svo := Svo.start, hom := Hom.start, zmn := Zmn.start 0, stc := Stc.start,
    tks := Tks.start, tsc := Tsc.start 1 0, lnk := Lnk.start, cpt := Cpt.start, flash := [], freeCount := 0,
    pending := [] }

end Sys2Proof.Machine
end

