-- ==== Sys2Proof/Machine/Ops.lean ====
section
/-! DEFINITION. The named operations over the take memory, the station tables, the transmit slots and the node's identity. -/

namespace Sys2Proof.Machine

/-! ### Take memory (R127) -/

/-- A byte; an address not listed reads 0xFF. -/
def memRead : Memory → Nat → Byte
  | [], _ => 255#8
  | (b, x) :: m, a => if a = b then x else if a < b then 255#8 else memRead m a

/-- One byte stored in the canonical form, wherever it lies. -/
def memSet : Memory → Nat → Byte → Memory
  | [], a, v => if v = 255#8 then [] else [(a, v)]
  | (b, x) :: m, a, v =>
    if a < b then (if v = 255#8 then (b, x) :: m else (a, v) :: (b, x) :: m)
    else if a = b then (if v = 255#8 then m else (a, v) :: m)
    else (b, x) :: memSet m a v

/-- One byte stored; an address past the 16 MB is no place of the memory. -/
def memWrite (m : Memory) (a : Nat) (v : Byte) : Memory :=
  if a < Config.memoryBytes then memSet m a v else m

/-- The bytes from a on, n of them. -/
def memRun (m : Memory) (a : Nat) : Nat → List Byte
  | 0 => []
  | n + 1 => memRead m a :: memRun m (a + 1) n

/-- A run of bytes stored as given. -/
def memStore (m : Memory) (a : Nat) : List Byte → Memory
  | [] => m
  | v :: vs => memStore (memWrite m a v) (a + 1) vs

/-- What a program of the bytes leaves: bits go from 1 to 0 only (R127). -/
def programmed (old sent : List Byte) : List Byte := List.zipWith (· &&& ·) old sent

/-- A sector erased to 0xFF. -/
def memErase (m : Memory) (sector : Nat) : Memory :=
  m.filter fun c => c.1 / Config.sectorBytes ≠ sector

/-- The canonical form: addresses strictly rising from lo, inside the memory, no entry 0xFF. -/
def memWfFrom (lo : Nat) : Memory → Bool
  | [] => true
  | (a, v) :: m => decide (lo ≤ a) && decide (a < Config.memoryBytes) && decide (v ≠ 255#8) && memWfFrom (a + 1) m

def memWf (m : Memory) : Bool := memWfFrom 0 m

/-- The address of byte o of page p of a sector. -/
def memAddress (sector page o : Nat) : Nat := sector * Config.sectorBytes + page * Config.pageBytes + o

/-- Bytes the sender says the memory returned, else those it holds. -/
def seenOr (seen : Option (List Byte)) (held : List Byte) : List Byte :=
  match seen with
  | none => held
  | some bs => bs

/-- The bytes a run is left with: the first of those the sender gives, else those the operation makes. -/
def leftRun (given : Option (List Byte)) (made : List Byte) : List Byte :=
  match given with
  | none => made
  | some bs => (bs.take made.length) ++ made.drop bs.length

/-! ### The node's identity -/

def isAxis (s : State) : Bool := s.cfg.role == some .axis

def isControl (s : State) : Bool := s.cfg.role == some .control

/-- An AXIS node that has reached PARKED (R168). -/
def axisUp (s : State) : Bool := isAxis s && s.cfg.startState == .parked

/-- A CONTROL node in RUN. -/
def controlUp (s : State) : Bool := isControl s && s.cfg.startState == .run

/-- The mask names this node; a mask names stations 1..15 only (R183), and none while the own number is not known (log 47). -/
def namesOwn (m : StationMask) (s : State) : Bool :=
  match s.cfg.station with
  | none => false
  | some st => st != 0 && maskNames m st

/-- The own station for a header or an origin; 0 before the straps are read. -/
def ownStation (s : State) : Station := s.cfg.station.getD 0

def isOwn (st : Station) (s : State) : Bool := s.cfg.station == some st

/-! ### Transmit slots (R156) -/

/-- A slot is being refilled while a transmission from it is in flight (R160). -/
def Lnk.markRefilled (l : Lnk) (slot : TxSlot) : Lnk :=
  match l.tx with
  | some t => if t.slot = slot then { l with tx := some { t with refilled := true } } else l
  | none => l

/-- A STOP or RELEASE queued in the safety slot, latest wins. -/
def queueSafety (b : Body) (s : State) : State :=
  { s with lnk := { s.lnk.markRefilled .safety with safety := some b } }

def queueDemand (d : DemandItems) (s : State) : State :=
  { s with lnk := { s.lnk.markRefilled .demand with demand := some d } }

def queueStatus (i : StatusItems) (s : State) : State :=
  { s with lnk := { s.lnk.markRefilled .status with status := some i } }

/-- The command FIFO has a free place. -/
def fifoRoom (s : State) : Bool := decide (s.lnk.fifo.length < Config.fifoPlaces)

/-- A frame queued at the tail of the command FIFO; a full FIFO takes none. -/
def queueCommand (b : Body) (s : State) : State :=
  if fifoRoom s then { s with lnk := { s.lnk with fifo := s.lnk.fifo ++ [b] } } else s

/-! ### The line (R153, R159, R161, R162) -/

/-- One bit time: the node reads what the rest of the line shows, true recessive, and its own error flag over it. The runs
are counted as far as their tests look: 12 recessive bits, 256 under the fault pause, 64 dominant bits, as the 65th is
STUCK_LINE's. -/
def Lnk.bitTime (l : Lnk) (outside : Bool) : Lnk :=
  if outside && l.errorFlag == 0 then
    { l with
      level := outside, dominantRun := 0
      recessiveRun := min Config.idleBits (l.recessiveRun + 1)
      pauseCount := if l.faultPause then min Config.pauseBits (l.pauseCount + 1) else l.pauseCount }
  else
    { l with
      level := outside, errorFlag := l.errorFlag - 1, recessiveRun := 0, pauseCount := 0
      dominantRun := if l.dominantRun < Config.stuckBits then min (Config.stuckBits - 1) (l.dominantRun + 1) else l.dominantRun }

/-- The bits the line has shown, in order. -/
def hearLine (bits : List Bool) (s : State) : State := { s with lnk := bits.foldl Lnk.bitTime s.lnk }

/-- The line is idle at the node: 12 recessive bit times, the node's own error flag over (R153, R159). -/
def Lnk.idle (l : Lnk) : Bool := decide (Config.idleBits ≤ l.recessiveRun) && l.errorFlag == 0

/-- The node is in no frame, its own or a received one. -/
def Lnk.free (l : Lnk) : Bool := l.tx.isNone && !l.receiving

/-- The first bit of a frame, dominant. -/
def Lnk.startBit (l : Lnk) : Lnk := { l with level := true, recessiveRun := 0, pauseCount := 0, dominantRun := 1 }

/-- The last end bit of a frame, after which a gap of 4 makes the line idle (R154); the fault pause counts from here (R161). -/
def Lnk.frameEnd (l : Lnk) : Lnk :=
  { l with level := true, errorFlag := 0, recessiveRun := Config.endBits, pauseCount := 0, dominantRun := 0 }

/-! ### Crane time (R62, R63, R65) -/

/-- The low 16 bits of a millisecond index. -/
def low16 (m : Ms) : Ms16 := m.setWidth 16

/-- a − b as a signed 16-bit difference (R63). -/
def diff16 (a b : Ms16) : Int := (a - b).toInt

/-- Index and phase moved together by c µs, carrying and borrowing between them. -/
def CraneTime.move (t : CraneTime) (c : Int) : CraneTime :=
  let total := ((t.ms.toNat : Int) * 1000 + t.phase + c) % 4294967296000
  { ms := BitVec.ofNat 32 (total / 1000).toNat, phase := (total % 1000).toNat }

/-- The present crane time. -/
def now (s : State) : CraneTime := { ms := s.cck.ms, phase := s.cck.phase }

def CraneTime.stamp (t : CraneTime) : Stamp := { ms16 := low16 t.ms, phase := t.phase }

end Sys2Proof.Machine
end

