-- ==== Sys2Proof/Machine/Flags.lean ====
section
/-! DEFINITION. The flags and derived sets: local causes, own hold, stops in force, first cause, freshness, the drive lines. -/

namespace Sys2Proof.Machine

/-- The kind of each local cause (table of R85). -/
def causeKind : Cause → StopKind
  | .chain | .encoderFault | .followError => .hard
  | .halt | .peerLost | .linkFault | .overrun => .ramp

/-- The causes in the order of the table of R85. -/
def causeOrder : List Cause :=
  [.chain, .encoderFault, .followError, .halt, .peerLost, .linkFault, .overrun]

/-- The condition of a cause, as it stands (R85). FOLLOW-ERROR and OVERRUN are single events. -/
def causeCondition (s : State) : Cause → Bool
  | .chain => s.stc.chainOpen
  | .encoderFault => s.svo.encFault
  | .followError => false
  | .halt => s.stc.haltInput || s.stc.companionHalt
  | .peerLost => s.ptb.lost != 0
  | .linkFault => s.lnk.linkFault
  | .overrun => false

/-- A cause is present: its latch if it is latched, its condition otherwise (R85). -/
def causePresent (s : State) : Cause → Bool
  | .followError => s.stc.followLatch
  | .halt => s.stc.haltLatch
  | .overrun => s.stc.overrunLatch
  | c => causeCondition s c

/-- The latch of a cause; none where it is not latched (R85). -/
def causeLatch (s : State) : Cause → Option Bool
  | .followError => some s.stc.followLatch
  | .halt => some s.stc.haltLatch
  | .overrun => some s.stc.overrunLatch
  | .chain | .encoderFault | .peerLost | .linkFault => none

/-- The local cause set, in the order of R85. -/
def localCauses (s : State) : List Cause := causeOrder.filter (causePresent s)

/-- The hold a cause set makes: HARD if any cause is HARD, the first cause's code (R88, R101). -/
def formHold : List Cause → Option Hold
  | [] => none
  | c :: cs => some { kind := if (c :: cs).any (fun x => causeKind x == .hard) then .hard else .ramp, code := some c }

/-- A HARD stop is in force: the own hold or a holder entry is HARD (R92). -/
def hardInForce (s : State) : Bool :=
  (match s.stc.hold with | some h => h.kind == .hard | none => false) ||
  s.stc.holders.toList.any fun e => match e with | some h => h.kind == .hard | none => false

/-- A stop is in force: the node holds, or its holder set is not empty (R93, R95). -/
def stopInForce (s : State) : Bool := s.stc.hold.isSome || s.stc.holders.toList.any Option.isSome

/-- The lowest-numbered station of the holder set. -/
def firstHolder (s : State) : Option Station := allStations.find? fun st => s.stc.holders[st].isSome

/-- The lowest-numbered holder, counting the node itself when it holds (R84, R91). A node that holds is its own first cause
while its number is not known, and is left out where the number is 0, which is no station 1..15 (log 50). -/
def firstCause (s : State) : Option FirstCause :=
  let others := (firstHolder s).map FirstCause.station
  if s.stc.hold.isSome then
    match s.cfg.station with
    | none => some .own
    | some own =>
      if own = 0 then others
      else match firstHolder s with
        | some st => if st < own then some (.station st) else some .own
        | none => some .own
  else others

/-- The first cause as STATUS carries it, a station number (R91). -/
def firstCauseStation (s : State) : Option Station :=
  (firstCause s).bind fun c => match c with | .own => s.cfg.station | .station st => some st

/-- What a snapshot carries of STC beside its registers (R84, R85, R103). -/
def stopReport (s : State) : StopReport :=
  { causes := causeOrder.map fun c => { cause := c, condition := causeCondition s c, latch := causeLatch s c }
    firstCause := firstCause s }

/-- Drive enable is asserted in ENABLED and STOPPING (R23). -/
def driveEnable (s : State) : Bool := s.stc.drive == .enabled || s.stc.drive == .stopping

/-- The brake is released while drive enable is asserted and engaged otherwise (R23). -/
def brakeEngaged (s : State) : Bool := !driveEnable s

/-- The interrupt line is asserted while the receive queue holds an entry (R180). -/
def interruptLine (s : State) : Bool := !s.cpt.rxQueue.isEmpty

/-- Fresh and stale (R59). -/
def isFresh (age : Nat) : Bool := decide (age ≤ Config.freshAge)

/-- The job is RECORDING, RUNNING or RUNOUT (R69, R124). -/
def jobRunning (s : State) : Bool :=
  match s.tks.job with
  | .recording | .running | .runout => true
  | _ => false

/-- A CONFIG-WRITE transaction is in progress (R182). -/
def writeInProgress (s : State) : Bool := s.cpt.writeState == .inProgress

end Sys2Proof.Machine
end

