-- ==== Sys2Proof/Machine/Operands.lean ====
section
/-! DEFINITION. What the blocks read of one another: measured position, travel bounds, the own STATUS items, peer and demand entries. -/

namespace Sys2Proof.Machine

/-- A signed 29-bit difference of counts (R18). -/
def countDiff (a b : Count) : Int := (a - b).toInt

/-- The measured position e; 0 on a CONTROL node (R18). -/
def measured (s : State) : Int := if isControl s then 0 else countDiff s.svo.raw s.svo.origin

def isHomed (s : State) : Bool := s.hom.state == .homed

/-- A parameter of the block handed out; 0 while there is none. -/
def param (s : State) (f : Block → Int) : Int :=
  match s.cfg.params with
  | some b => f b
  | none => 0

/-- The travel bounds (R1): the soft limits on a homed axis, the images of the count range otherwise. -/
def travelLo (s : State) : Int := if isHomed s then param s (·.lo) * 256 else Config.unhomedLo

def travelHi (s : State) : Int := if isHomed s then param s (·.hi) * 256 else Config.unhomedHi

/-- The axis kinds by code (R183). -/
def axisKindOf : Nat → Option AxisKind
  | 0 => some .swing | 1 => some .lift | 2 => some .telescope | 3 => some .track | 4 => some .pan
  | 5 => some .tilt | 6 => some .roll | 7 => some .focus | 8 => some .iris | 9 => some .zoom
  | _ => none

/-- The axis kind an AXIS node reports once its image has passed (R177). -/
def ownKind (s : State) : Option AxisKind :=
  if isAxis s then (match s.cfg.params with | some b => axisKindOf b.axisKind | none => none) else none

/-- A ZOOM node that has reached PARKED (R35). -/
def isZoom (s : State) : Bool := axisUp s && ownKind s == some .zoom

/-- The position a node reports: floor(p/256) (R17). -/
def position (s : State) : Int := s.mpr.p / 256

/-- The filtered crew inputs as STATUS carries them (R74). -/
def crewBits (s : State) : BitVec 4 :=
  BitVec.ofBool s.zmn.filters[3].present ++ BitVec.ofBool s.zmn.filters[2].present ++
    BitVec.ofBool s.zmn.filters[1].present ++ BitVec.ofBool s.zmn.filters[0].present

/-- The STATUS items of the node as they stand (R165 and the rules it names). -/
def ownItems (s : State) : StatusItems :=
  { role := s.cfg.role.getD .axis
    kind := ownKind s
    startState := s.cfg.startState
    fault := s.cfg.faultReason
    drive := s.stc.drive
    wakeRefused := s.stc.wakeRefused
    demandStale := s.dmr.stale
    hold := s.stc.hold
    firstCause := firstCauseStation s
    home := s.hom.state
    posValid := isHomed s
    homeOutcome := s.hom.outcome
    position := position s
    move := s.mpr.v
    job := s.tks.job
    takeNumber := s.tks.takeNumber
    outcome := s.tks.outcome
    timeState := s.cck.timeState
    timeStepped := s.cck.timeStepped
    syncLost := s.cck.syncLost
    crew := crewBits s
    zones := s.zmn.active
    factor := BitVec.ofNat 16 s.mpr.factor
    stamp := (now s).stamp }

/-- The items of a STATUS frame taken at its start bit: stamp, time flags and holding items (R157). -/
def stampStatus (s : State) (i : StatusItems) : StatusItems :=
  { i with
    hold := s.stc.hold
    firstCause := firstCauseStation s
    timeState := s.cck.timeState
    timeStepped := s.cck.timeStepped
    syncLost := s.cck.syncLost
    stamp := (now s).stamp }

/-- The peer entry of a station as a reader finds it; the own entry is the node's present state (R56). In STRAPS the own number
is not known, and no entry reads as the own one (log 57). -/
def peerEntry (s : State) (st : Station) : PeerEntry :=
  if isOwn st s then { items := some (ownItems s), age := 0, offset := 0, offsetValid := true }
  else s.ptb.peers[st]

def peerFresh (s : State) (st : Station) : Bool := isFresh (peerEntry s st).age

/-- A peer is ready: fresh, with start state PARKED or RUN (R59). -/
def peerReady (s : State) (st : Station) : Bool :=
  peerFresh s st &&
  match (peerEntry s st).items with
  | some i => i.startState == .parked || i.startState == .run
  | none => false

/-- The expected peers named by the block (R60). The mask is handed on at a load that passes (R172), and a RESTART drops the
image (R168): which mask stands from an accepted RESTART to that load, or in CONFIG-FAULT after it, the rules leave open, and
the model has none then, so that no peer is expected (log 64). -/
def expected (s : State) (st : Station) : Bool :=
  match s.cfg.params with
  | some b => maskNames b.expected st
  | none => false

/-- The rig is ready: every expected peer is fresh and ready (R59). -/
def rigReady (s : State) : Bool := allStations.all fun st => !expected s st || peerReady s st

/-- A station number of the block as a station; numbers are checked to 0..15 (R172). -/
def stationOf (n : Nat) : Station := Fin.ofNat 16 n

end Sys2Proof.Machine
end

