-- ==== Sys2Proof/Machine/Profiler.lean ====
section
/-! DEFINITION. MPR and SVO: braking speed, the six stages, the playback step, tracking, origin change, drive output, follow counter (01; the field factor of 02). -/

namespace Sys2Proof.Machine

/-! ### The arithmetic of one profile update -/

/-- Bits b - 1 .. 0 of the floor square root of n, above the bits already in x. -/
def isqrtFrom (n : Nat) : Nat → Nat → Nat
  | 0, x => x
  | b + 1, x => isqrtFrom n b (if (x + 2 ^ b) * (x + 2 ^ b) ≤ n then x + 2 ^ b else x)

/-- The floor integer square root of a 64-bit term (R9). -/
def isqrt (n : Nat) : Nat := isqrtFrom n 32 0

/-- The braking speed v_lim(r, a) (R9). -/
def vLim (r a : Int) : Int := ((isqrt (a * a + 8 * a * r).toNat : Int) - a) / 2

/-- What one profile update reads (R6). g is present in GOTO only. -/
structure ProfileIn where
  p : Int
  v : Int
  d0 : Int
  cap : Int
  aEff : Int
  aMax : Int
  lo : Int
  hi : Int
  homed : Bool
  g : Option Int
deriving DecidableEq, Repr

/-- What it hands on (R16): made is p' − p. -/
structure ProfileOut where
  p : Int
  v : Int
  made : Int
  arrival : Bool
  overrun : Bool
deriving DecidableEq, Repr

/-- Stage 2: the speed cap (R8). -/
def stageCap (i : ProfileIn) : Int := clampInt (-i.cap) i.cap i.d0

/-- Stage 3 toward the soft limits, on a homed axis (R9). -/
def boundLimits (i : ProfileIn) (d : Int) : Int :=
  if i.homed then
    if 0 < d then min d (vLim (i.hi - i.p) i.aEff)
    else if d < 0 then max d (-vLim (i.p - i.lo) i.aEff) else d
  else d

/-- Stage 3 toward the goto target (R9). -/
def boundGoto (i : ProfileIn) (d : Int) : Int :=
  match i.g with
  | none => d
  | some g =>
    if 0 ≤ d then min d (vLim |g - i.p| i.aEff) else max d (-vLim |g - i.p| i.aEff)

/-- Stage 4: the new move (R10). -/
def stageMove (i : ProfileIn) : Int :=
  i.v + clampInt (-i.aEff) i.aEff (boundGoto i (boundLimits i (stageCap i)) - i.v)

/-- The target is reached or passed by a position that goes from p to q (R12). -/
def reaches (p q g : Int) : Bool := decide ((p < g ∧ g ≤ q) ∨ (g < p ∧ q ≤ g) ∨ (p = g ∧ q = g))

/-- Stages 1 to 6 of the profile update, stage 1's demand being d0 (R7 to R13). -/
def profile (i : ProfileIn) : ProfileOut :=
  let v' := stageMove i
  let q := i.p + v'
  let passes : Bool := decide (i.hi < q) || decide (q < i.lo)
  let q1 := if i.hi < q then i.hi else if q < i.lo then i.lo else q
  let small : Bool := decide (|v'| ≤ i.aEff)
  let arrival : Bool :=
    match i.g with
    | none => false
    | some g => decide (|v'| ≤ i.aMax) && reaches i.p q1 g
  let p' := match i.g with | some g => if arrival then g else q1 | none => q1
  { p := p', v := if passes || arrival then 0 else p' - i.p, made := p' - i.p, arrival := arrival,
    overrun := passes && !small }

/-- The three checks of the playback step (R15). -/
def playable (m v p cap aMax lo hi : Int) : Bool :=
  decide (|m| ≤ cap) && decide (|m - v| ≤ 2 * aMax) && decide (lo ≤ p + m ∧ p + m ≤ hi)

/-- The drive output before saturation and after (R22). -/
def driveOutput (kf kp v err : Int) : Int := satInt Config.maxDrive ((kf * v + kp * err).tdiv 256)

/-! ### MPR in the node -/

/-- What became of the recorded move at a playback update (R15, R120). -/
inductive Play | notPlaying | played (m : Int) | deviated | noMove
deriving DecidableEq, Repr

/-- The result an update hands on (R16). -/
structure Result where
  rest : Bool
  arrival : Bool
  overrun : Bool
  made : Int
  play : Play
deriving DecidableEq, Repr

/-- The limit flags follow p (R1, R13). -/
def setLimitFlags (s : State) : State :=
  { s with mpr := { s.mpr with atLo := decide (s.mpr.p = travelLo s), atHi := decide (s.mpr.p = travelHi s) } }

/-- Tracking (R3): p to e·256, clamped on a homed axis; v to 0; HOLD; no target. -/
def track (s : State) : State :=
  let p0 := measured s * 256
  let p := if isHomed s then clampInt (travelLo s) (travelHi s) p0 else p0
  setLimitFlags { s with mpr := { s.mpr with p := p, v := 0, mode := .hold, g := none } }

/-- A mode request, taken while the drive state is ENABLED (R4). -/
def requestMode (m : Mode) (s : State) : State :=
  if s.stc.drive = .enabled then { s with mpr := { s.mpr with mode := m, g := none } } else s

/-- A GOTO request; the target is clamped to the soft limits on a homed axis (R4). -/
def requestGoto (target : Int) (s : State) : State :=
  if s.stc.drive = .enabled then
    { s with mpr := { s.mpr with
        mode := .goto_, g := some (if isHomed s then clampInt (travelLo s) (travelHi s) target else target) } }
  else s

/-- The cap c of stage 2 (R8). -/
def speedCap (s : State) : Int :=
  let c := min (param s (fun b => b.vMax)) (s.zmn.memberCap : Int)
  if isHomed s then c else min c (param s (fun b => b.vHome))

/-- Stage 1: the source demand of a mode (R7). -/
def sourceDemand (s : State) (m : Mode) : Int :=
  match m with
  | .hold | .runout | .playback => 0
  | .hand => s.dmr.handDemand
  | .goto_ =>
    match s.mpr.g with
    | some g => Int.sign (g - s.mpr.p) * param s (fun b => b.vGoto)
    | none => 0
  | .homing => if param s (fun b => b.homeDirection) = 0 then param s (fun b => b.vHome) else -param s (fun b => b.vHome)

/-- The deceleration in use (R6). -/
def aEffective (s : State) : Int :=
  if s.stc.drive = .stopping then param s (fun b => b.aStop) else param s (fun b => b.aMax)

/-- The inputs of the profile update in a mode (R6). -/
def profileInputs (s : State) (m : Mode) : ProfileIn :=
  { p := s.mpr.p, v := s.mpr.v, d0 := sourceDemand s m, cap := speedCap s, aEff := aEffective s,
    aMax := param s (fun b => b.aMax), lo := travelLo s, hi := travelHi s, homed := isHomed s,
    g := if m = .goto_ then s.mpr.g else none }

/-- One profile update in the mode MPR holds. -/
def profileUpdate (s : State) : State × Result :=
  let o := profile (profileInputs s s.mpr.mode)
  (setLimitFlags { s with mpr := { s.mpr with p := o.p, v := o.v } },
   { rest := decide (o.v = 0), arrival := o.arrival, overrun := o.overrun, made := o.made, play := .notPlaying })

/-- One update in PLAYBACK with the move TKS supplies (R15). -/
def playbackUpdate (supplied : Option Int) (s : State) : State × Result :=
  let held := profileUpdate { s with mpr := { s.mpr with mode := .hold } }
  match supplied with
  | none => (held.1, { held.2 with play := .noMove })
  | some m =>
    if playable m s.mpr.v s.mpr.p (speedCap s) (param s (fun b => b.aMax)) (travelLo s) (travelHi s) then
      (setLimitFlags { s with mpr := { s.mpr with p := s.mpr.p + m, v := m } },
       { rest := decide (m = 0), arrival := false, overrun := false, made := m, play := .played m })
    else (held.1, { held.2 with play := .deviated })

/-- HOLD or RUNOUT gives way to HAND (R5). -/
def modeToHand (s : State) : State :=
  if s.stc.drive = .enabled ∧ s.mpr.v = 0 ∧ (s.tks.job = .idle ∨ s.tks.job = .prepared) ∧ s.hom.state ≠ .homing ∧
      (s.mpr.mode = .hold ∨ s.mpr.mode = .runout) then
    { s with mpr := { s.mpr with mode := .hand } }
  else s

/-- The profile update or the playback step, by the mode (R6, R15). -/
def moveInMode (supplied : Option Int) (s : State) : State × Result :=
  if s.mpr.mode = .playback then playbackUpdate supplied s else profileUpdate s

/-- MPR's part of an update: profile, playback step or tracking by the drive state (R3, R6, R15); in STOPPING the profile update
is computed in HOLD, whatever mode was in force (R6). -/
def motion (supplied : Option Int) (s : State) : State × Result :=
  match s.stc.drive with
  | .enabled => moveInMode supplied (modeToHand s)
  | .stopping => profileUpdate { s with mpr := { s.mpr with mode := .hold, g := none } }
  | .parked | .waking | .stopped =>
    (track s, { rest := true, arrival := false, overrun := false, made := 0, play := .notPlaying })

/-! ### SVO -/

/-- SVO's part of an update: err, u and the follow counter (R22, R24). mode is the one the update was taken in. -/
def servo (s : State) : State :=
  if driveEnable s then
    let err := s.mpr.p - measured s * 256
    { s with svo := { s.svo with
        err := err
        u := driveOutput (param s (fun b => b.kf)) (param s (fun b => b.kp)) s.mpr.v err
        follow :=
          if s.mpr.mode = .homing then 0
          else if param s (fun b => b.followMax) * 256 < |err| then min Config.followTrip (s.svo.follow + 1) else 0 } }
  else { s with svo := { s.svo with u := 0, follow := 0 } }

/-- What the measured position e moves by at an origin change: the 29-bit difference of the origins, taken where e wraps so
that the new e lies in the range of a count (R18, R21). -/
def originShift (origin : Count) (s : State) : Int :=
  countDiff s.svo.raw origin - countDiff s.svo.raw s.svo.origin

/-- An origin change (R21): p, and g in GOTO, move with e, so that the following error p - e·256 is kept in every case; an error
that so carries p past the range of R1 is left (log 54). -/
def originChange (origin : Count) (s : State) : State :=
  let shift := originShift origin s * 256
  { s with
    svo := { s.svo with origin := origin }
    mpr := { s.mpr with p := s.mpr.p + shift, g := s.mpr.g.map (· + shift) } }

/-- The origin that makes the present raw count read home_offset, modulo 2^29 (R44, R45, R47). -/
def homeOrigin (s : State) : Count := s.svo.raw - BitVec.ofInt 29 (param s (·.homeOffset))

/-! ### Field factor (R35) -/

/-- The interpolation on the segments of the table from x on; last is the factor past the end. -/
def lensFactor (z : Int) : List LensPoint → Int
  | [] => 0
  | [x] => x.factor
  | x :: y :: rest =>
    if z < x.pos then x.factor
    else if z < y.pos then
      (x.factor : Int) + ((z - x.pos) * ((y.factor : Int) - x.factor)).tdiv (y.pos - x.pos)
    else lensFactor z (y :: rest)

/-- The field factor a ZOOM node forms (R35); 0 everywhere else and on an axis that is not homed. -/
def fieldFactor (s : State) : Nat :=
  if isZoom s && isHomed s then
    match s.cfg.params with
    | some b => (lensFactor (position s) b.lens).toNat
    | none => 0
  else 0

def updateFactor (s : State) : State := { s with mpr := { s.mpr with factor := fieldFactor s } }

end Sys2Proof.Machine
end

