-- ==== Sys2Proof/Machine/Peers.lean ====
section
/-! DEFINITION. PTB and CCK: recording, ageing, lost peers, offsets, the lower median, corrections (04). -/

namespace Sys2Proof.Machine

/-! ### Ages (R58) -/

/-- Every entry is one update older (R58). -/
def ageEntries (s : State) : State :=
  { s with ptb := { s.ptb with
      peers := vmap (fun e => { e with age := satInc Config.maxAge e.age }) s.ptb.peers
      demands := vmap (fun e => { e with age := satInc Config.maxAge e.age }) s.ptb.demands } }

/-! ### Lost peers (R60) -/

/-- The drive is WAKING, ENABLED or STOPPING. -/
def driveActive : DriveState → Bool
  | .waking | .enabled | .stopping => true
  | .parked | .stopped => false

/-- The node is active (R60): an AXIS node by its drive state, a CONTROL node while a fresh AXIS peer is. -/
def nodeActive (s : State) : Bool :=
  match s.cfg.role with
  | some .axis => driveActive s.stc.drive
  | some .control => allStations.any fun st =>
      peerFresh s st && match (peerEntry s st).items with
        | some i => i.role == .axis && driveActive i.drive
        | none => false
  | none => false

/-- An expected peer that the update finds lost (R60). -/
def lostNow (s : State) (st : Station) : Bool :=
  nodeActive s && expected s st && decide (Config.lostAge < (peerEntry s st).age)

/-- A set with a station added, or taken out. -/
def withStation (m : StationMask) (st : Station) : StationMask := m ||| BitVec.ofNat 16 (2 ^ st.val)

def withoutStation (m : StationMask) (st : Station) : StationMask := m &&& ~~~ BitVec.ofNat 16 (2 ^ st.val)

/-- The lost set of an update (R60). -/
def lostUpdate (s : State) : State :=
  { s with ptb := { s.ptb with
      lost := allStations.foldl (fun m st => if lostNow s st then withStation m st else m) s.ptb.lost } }

/-! ### Offsets and corrections (R64 to R69) -/

/-- The sender's offset from a stamp and a capture (R64). -/
def offsetOf (stamp : Stamp) (captured : CraneTime) : Int :=
  diff16 stamp.ms16 (low16 captured.ms) * 1000 + ((stamp.phase : Int) - captured.phase)

/-- A STATUS frame recorded in another station's entry (R55, R64, R60). -/
def recordStatus (st : Station) (i : StatusItems) (captured : CraneTime) (s : State) : State :=
  { s with ptb := { s.ptb with
      peers := s.ptb.peers.set st { items := some i, age := 0, offset := offsetOf i.stamp captured
                                    offsetValid := i.timeState != .unset }
      lost := withoutStation s.ptb.lost st } }

/-- What CCK does at the recording of an offset: adoption in UNSET, AGREED in OWN (R66, R67). -/
def clockHears (offset : Int) (valid : Bool) (s : State) : State :=
  if valid then
    match s.cck.timeState with
    | .unset =>
      match s.cck.pending with
      | none => { s with cck := { s.cck with pending := some (.adopt offset) } }
      | some _ => s
    | .own => { s with cck := { s.cck with timeState := .agreed } }
    | .agreed => s
  else s

/-- Insertion in ascending order. -/
def insertAsc (x : Int) : List Int → List Int
  | [] => [x]
  | y :: ys => if x ≤ y then x :: y :: ys else y :: insertAsc x ys

def sortAsc : List Int → List Int
  | [] => []
  | x :: xs => insertAsc x (sortAsc xs)

/-- The lower median of a list (R68). -/
def lowerMedian (xs : List Int) : Int := (sortAsc xs).getD ((xs.length - 1) / 2) 0

/-- The set S of R68: the node's own 0 and the valid offsets of the fresh peers. -/
def offsetSet (s : State) : List Int :=
  0 :: allStations.filterMap fun st =>
    if isOwn st s then none
    else
      let e := s.ptb.peers[st]
      if isFresh e.age && e.offsetValid then some e.offset else none

/-- The slew of a lower median (R68). -/
def slewOf (t : Int) : Int := clampInt (-2) 2 t

/-- CCK's decision at an update (R68, R69). -/
def clockDecide (s : State) : State :=
  if s.cck.timeState = .unset then s else
  let xs := offsetSet s
  if xs.length = 1 then s
  else
    let t := lowerMedian xs
    if |t| ≤ 500 then { s with cck := { s.cck with pending := some (.slew (slewOf t)), syncLost := false } }
    else { s with cck := { s.cck with pending := some (.step t) } }

/-- A stored offset reduced by a correction (R65). An entry not heard holds no stored offset, only the value of START (R64,
log 61). -/
def PeerEntry.corrected (c : Int) (e : PeerEntry) : PeerEntry :=
  if e.items.isSome then { e with offset := e.offset - c } else e

/-- The time moved by c at phase 500, with the stored offsets and the captures of frames in progress (R65). -/
def moveTime (c : Int) (s : State) : State :=
  let t := CraneTime.move { ms := s.cck.ms, phase := 500 } c
  { s with
    cck := { s.cck with ms := t.ms, phase := t.phase }
    ptb := { s.ptb with peers := vmap (PeerEntry.corrected c) s.ptb.peers }
    lnk := { s.lnk with
      capture := if s.lnk.receiving then s.lnk.capture.map (·.move c) else s.lnk.capture
      tx := s.lnk.tx.map fun t => { t with start := t.start.move c } } }

/-- The wrap of the phase: the index carries, or the update at which no adoption has been decided is labelled 0
and the state becomes OWN (R62, R66); captures and offsets stay as they are (log 48). -/
def clockWrap (s : State) : State :=
  if s.cck.timeState = .unset ∧ s.cck.pending = none ∧ (s.cck.ms + 1).toNat = Config.ownIndex then
    { s with cck := { s.cck with ms := 0, phase := 0, timeState := .own } }
  else { s with cck := { s.cck with ms := s.cck.ms + 1, phase := 0 } }

/-- TIME-STEPPED ages by one update and is cleared at 1,000 (R71). -/
def stepAging (s : State) : State :=
  if s.cck.timeStepped then
    let n := s.cck.stepAge + 1
    if Config.stepAgeEnd ≤ n then { s with cck := { s.cck with stepAge := Config.stepAgeEnd, timeStepped := false } }
    else { s with cck := { s.cck with stepAge := n } }
  else s

end Sys2Proof.Machine
end

