-- ==== Sys2Proof/Machine/Demand.lean ====
section
/-! DEFINITION. DMR and the control-station channels: wheel accumulators, DEMAND frames, the route's demand, arming and coupling (02). -/

namespace Sys2Proof.Machine

/-! ### Control station (R25 to R27) -/

/-- A lever sample clamped (R25). -/
def clampLever (x : Int) : Int := clampInt (-2048) 2047 x

/-- A wheel accumulator at one transition (R25). -/
def wheelStep (q : QuadStep) (a : Int) : Int :=
  match q with
  | .plus => satInt Config.maxWheel (a + 1)
  | .minus => satInt Config.maxWheel (a - 1)
  | .illegal => a

/-- The channel kinds of the block (R172). -/
def channelKind (s : State) (ch : Fin 4) : ChannelKind :=
  match s.cfg.params with
  | some b => if b.channelKinds[ch] = 1 then .lever else .wheel
  | none => .wheel

/-- The DEMAND frame a CONTROL node queues at an update, with the lever samples of that moment (R27). -/
def demandItems (levers : Vector Int 4) (s : State) : DemandItems :=
  { kinds := Vector.ofFn (channelKind s)
    values := Vector.ofFn fun ch =>
      BitVec.ofInt 16 (match channelKind s ch with | .lever => clampLever levers[ch] | .wheel => s.chan.wheels[ch])
    seq := s.chan.seq + 1 }

/-- The DEMAND of an update is queued (R27). -/
def queueUpdateDemand (levers : Vector Int 4) (s : State) : State :=
  if controlUp s then
    let d := demandItems levers s
    queueDemand d { s with chan := { s.chan with seq := d.seq } }
  else s

/-- Each WHEEL accumulator less the value a completed frame carried (R26). -/
def reduceWheels (d : DemandItems) (s : State) : State :=
  { s with chan := { s.chan with
      wheels := Vector.ofFn fun ch =>
        match d.kinds[ch] with
        | .wheel => s.chan.wheels[ch] - (d.values[ch]).toInt
        | .lever => s.chan.wheels[ch] } }

/-- The WHEEL values of a newer DEMAND less those of the frame that completed (R160). -/
def reduceNewer (d newer : DemandItems) : DemandItems :=
  { newer with
    values := Vector.ofFn fun ch =>
      match d.kinds[ch] with
      | .wheel => BitVec.ofInt 16 ((newer.values[ch]).toInt - (d.values[ch]).toInt)
      | .lever => newer.values[ch] }

/-! ### The route (R28 to R38) -/

/-- DMR disarms the route, clears the pending wheel sum and makes the hand demand 0 (R33). -/
def Dmr.disarm (d : Dmr) : Dmr := { d with armed := false, pendingWheel := 0, handDemand := 0 }

def disarm (s : State) : State := { s with dmr := s.dmr.disarm }

/-- The route is disarmed at the end of WAKING (R97). That is no event of R33: the pending wheel sum stays for its update. -/
def disarmRoute (s : State) : State := { s with dmr := { s.dmr with armed := false, handDemand := 0 } }

/-- A frame of another kind than the last disarms the route; the kind is kept (R29). -/
def Dmr.takeKind (kind : ChannelKind) (d : Dmr) : Dmr :=
  { (match d.lastKind with | some k => if k = kind then d else d.disarm | none => d) with lastKind := some kind }

/-- A WHEEL value adds to the pending sum, saturating; a LEVER value is read at the update (R29). -/
def Dmr.takeValue (kind : ChannelKind) (x : Int) (d : Dmr) : Dmr :=
  match kind with
  | .wheel => { d with pendingWheel := satInt Config.maxWheel (d.pendingWheel + x) }
  | .lever => d

/-- DMR takes the route's channel of a DEMAND frame from the route's source (R29). -/
def takeDemand (st : Station) (d : DemandItems) (s : State) : State :=
  match s.cfg.params with
  | none => s
  | some b =>
    if axisUp s && decide (b.source = st.val) then
      let ch : Fin 4 := Fin.ofNat 4 b.channel
      { s with dmr := (s.dmr.takeKind d.kinds[ch]).takeValue d.kinds[ch] (d.values[ch]).toInt }
    else s

/-- The lever value with the deadband subtracted (R30). -/
def deadbanded (deadband x : Int) : Int := if |x| ≤ deadband then 0 else x - Int.sign x * deadband

/-- The raw demand of a channel value and a gain: exact, saturated, then inverted (R30). -/
def rawDemand (value gain : Int) (invert : Bool) : Int :=
  let d := satInt Config.maxDemand (value * gain)
  if invert then -d else d

/-- The hand demand of an armed route (R38). -/
def scaleDemand (raw : Int) (factor : Nat) : Int := (raw * factor).tdiv 4096

/-- The factor in use for a coupling source's entry (R37). -/
def usedFactor (fMin : Nat) (fresh : Bool) (fSrc : Nat) : Nat :=
  if fresh && decide (1 ≤ fSrc ∧ fSrc ≤ 4096) then max fSrc fMin else fMin

/-- The factor in use for the route (R37). -/
def routeFactor (s : State) (b : Block) : Nat :=
  if b.coupling = 0 then 4096
  else
    let st := stationOf b.coupling
    usedFactor b.fMin (peerFresh s st)
      (match (peerEntry s st).items with | some i => i.factor.toNat | none => 0)

/-- The route's demand is stale (R31). -/
def routeStale (s : State) (b : Block) : Bool :=
  decide (Config.demandStaleAge < s.ptb.demands[stationOf b.source].age)

/-- The lever value the source's demand entry holds for the channel. -/
def leverValue (s : State) (b : Block) : Int :=
  match s.ptb.demands[stationOf b.source].items with
  | some d => (d.values[(Fin.ofNat 4 b.channel : Fin 4)]).toInt
  | none => 0

/-- The demand of an update before gain: wheel delta or deadbanded lever, and whether it is neutral (R30, R32). -/
def routeDemand (s : State) (b : Block) : Int × Bool :=
  match s.dmr.lastKind with
  | none => (0, false)
  | some .wheel => (s.dmr.pendingWheel, decide (s.dmr.pendingWheel = 0))
  | some .lever => (deadbanded b.deadband (leverValue s b), decide (|leverValue s b| ≤ (b.deadband : Int)))

/-- DMR's part of an update of an AXIS node that has reached PARKED (R30 to R33, R37, R38). A DEMAND that changes the kind,
taken at this update's instant and before it, is judged here like any other: a neutral value arms the route (log 45). -/
def demandUpdate (s : State) : State :=
  match s.cfg.params with
  | none => s
  | some b =>
    if axisUp s then
      let stale := routeStale s b
      let (value, neutral) := routeDemand s b
      let raw := rawDemand value b.gain (b.invert == 1)
      let factor := routeFactor s b
      let hand : Bool := s.mpr.mode == .hand
      let armed : Bool :=
        hand && !stale && (s.dmr.armed || (s.stc.drive == .enabled && s.dmr.lastKind.isSome && neutral))
      { s with dmr := { s.dmr with
          armed := armed
          pendingWheel := if stale || !hand || s.dmr.lastKind == some .wheel then 0 else s.dmr.pendingWheel
          rawDemand := raw
          factor := factor
          handDemand := if armed then scaleDemand raw factor else 0
          stale := stale } }
    else s

/-- DMR's items as an update leaves them are what a snapshot carries until the next (R39). -/
def showDemand (s : State) : State := { s with dmr := { s.dmr with shown := s.dmr.toDmrItems } }

end Sys2Proof.Machine
end

