-- ==== Sys2Proof/Machine/Formats.lean ====
section
/-! DEFINITION. The byte layouts: check value, link frames, segment page 0, delta pages, parameter block (R154, R155, R183, R184). -/

namespace Sys2Proof.Machine

/-! ### Bytes, most significant first (R183) -/

def beNat (bs : List Byte) : Nat := bs.foldl (fun a b => a * 256 + b.toNat) 0

/-- A two's-complement value of the given bytes. -/
def beInt (bs : List Byte) : Int :=
  let n := beNat bs
  if 2 * n < 256 ^ bs.length then n else (n : Int) - 256 ^ bs.length

/-- n in k bytes. -/
def natBytes (n : Nat) : Nat → List Byte
  | 0 => []
  | k + 1 => BitVec.ofNat 8 (n / 256 ^ k) :: natBytes n k

/-- A signed value in k bytes. -/
def intBytes (x : Int) (k : Nat) : List Byte := natBytes (x % 256 ^ k).toNat k

/-- Bytes o..o+n-1 of a record. -/
def field (bs : List Byte) (o n : Nat) : List Byte := (bs.drop o).take n

def fieldNat (bs : List Byte) (o n : Nat) : Nat := beNat (field bs o n)

def fieldInt (bs : List Byte) (o n : Nat) : Int := beInt (field bs o n)

/-! ### The check value (R183) -/

/-- One covered bit: the register is shifted, and folded with 0x1021 where the bit differs from its top bit. -/
def crcStep (r : BitVec 16) (b : Bool) : BitVec 16 :=
  if b != r.getLsbD 15 then (r <<< 1) ^^^ 0x1021 else r <<< 1

def crcBits (bits : List Bool) : BitVec 16 := bits.foldl crcStep 0xFFFF

/-- The bits of a byte, most significant first. -/
def byteBits (b : Byte) : List Bool :=
  [b.getLsbD 7, b.getLsbD 6, b.getLsbD 5, b.getLsbD 4, b.getLsbD 3, b.getLsbD 2, b.getLsbD 1, b.getLsbD 0]

def crcBytes (bs : List Byte) : BitVec 16 := crcBits (bs.flatMap byteBits)

/-- A part with its check after it. -/
def withCheck (bs : List Byte) : List Byte := bs ++ natBytes (crcBytes bs).toNat 2

/-- A part whose last two bytes are the check of the others. -/
def checkMatches (bs : List Byte) : Bool :=
  (crcBytes (bs.take (bs.length - 2))).toNat == beNat (bs.drop (bs.length - 2))

def allErased (bs : List Byte) : Bool := bs.all (· == 0xFF)

/-! ### Codes (R183) -/

def roleCode : Role → Nat
  | .axis => 0 | .control => 1

def axisKindCode : AxisKind → Nat
  | .swing => 0 | .lift => 1 | .telescope => 2 | .track => 3 | .pan => 4 | .tilt => 5 | .roll => 6
  | .focus => 7 | .iris => 8 | .zoom => 9

def startCode : StartState → Nat
  | .straps => 0 | .storeId => 1 | .configLoad => 2 | .scan => 3 | .parked => 4 | .run => 5 | .configFault => 6

def faultCode : Option FaultReason → Nat
  | none => 0 | some .station => 1 | some .absent => 2 | some .check => 3 | some .range => 4

def driveCode : DriveState → Nat
  | .parked => 0 | .waking => 1 | .enabled => 2 | .stopping => 3 | .stopped => 4

def homeCode : HomeState → Nat
  | .unhomed => 0 | .homing => 1 | .homed => 2

def homeOutcomeCode : HomeOutcome → Nat
  | .none => 0 | .done => 1 | .failed .travel => 2 | .failed .stop => 3 | .failed .park => 4
  | .failed .encoder => 5 | .refused .notEnabled => 6 | .refused .busy => 7

def causeCode : Option Cause → Nat
  | none => 0 | some .chain => 1 | some .encoderFault => 2 | some .followError => 3 | some .halt => 4
  | some .peerLost => 5 | some .linkFault => 6 | some .overrun => 7

def jobCode : JobState → Nat
  | .idle => 0 | .prepared => 1 | .cueing => 2 | .cued => 3 | .recording => 4 | .running => 5
  | .runout => 6 | .closing => 7

/-- Reason codes 1..21 (R183). -/
def reasonCode : Reason → Byte
  | .notHomed => 1 | .notEnabled => 2 | .busy => 3 | .locked => 4 | .noTake => 5 | .broken => 6
  | .directoryFull => 7 | .storeFull => 8 | .storeRead => 9 | .storeWrite => 10 | .recordOverrun => 11
  | .notCued => 12 | .late => 13 | .tooFar => 14 | .deviated => 15 | .sync => 16 | .stop => 17
  | .parked => 18 | .movingMark => 19 | .badMark => 20 | .operator => 21

def outcomeKindCode : TakeOutcome → Nat
  | .none => 0 | .completed => 1 | .aborted _ _ => 2 | .refused _ => 3

def outcomeReason : TakeOutcome → Byte
  | .none => 0 | .completed => 0 | .aborted r _ => r | .refused r => r

def outcomeOrigin : TakeOutcome → Byte
  | .none => 0 | .completed => 0 | .aborted _ o => o | .refused _ => 0

def timeCode : TimeState → Nat
  | .unset => 0 | .own => 1 | .agreed => 2

def channelCode : ChannelKind → Nat
  | .wheel => 0 | .lever => 1

def boolNat (b : Bool) : Nat := if b then 1 else 0

/-- The answer byte of a port transaction (R178). -/
def answerByte : Answer → Byte
  | .accepted => 0x00 | .busy => 0x01 | .notNow => 0x02 | .bad => 0x03 | .empty => 0x04

/-- The write state's code in the port status byte (R178); no table lists the four states, so their order is the model's (log 56). -/
def writeCode : WriteState → Nat
  | .idle => 0 | .inProgress => 1 | .done => 2 | .failed => 3

/-- Bits 7..2 of the port status byte: interrupt line, free places of the FIFO, write state (R178; bits 1..0: log 11). -/
def statusHead (p : PortStatus) : BitVec 6 :=
  BitVec.ofBool p.interrupt ++ BitVec.ofNat 3 p.freePlaces ++ BitVec.ofNat 2 (writeCode p.write)

/-! ### Link frames (R154, R155, R183) -/

/-- class × 16 + kind of a frame (R155, R179). -/
def Body.kindNumber : Body → Nat
  | .stop _ _ => 0x00 | .release => 0x01 | .resume => 0x10 | .wake _ => 0x11 | .park _ => 0x12
  | .home _ => 0x13 | .restart _ => 0x14 | .take _ => 0x15 | .mark _ => 0x16 | .demand _ => 0x20
  | .status _ => 0x30

/-- The frame's place 0..10 in the frame table, which names its bit of the filter (R180). -/
def Body.place : Body → Nat
  | .stop _ _ => 0 | .release => 1 | .resume => 2 | .wake _ => 3 | .park _ => 4 | .home _ => 5
  | .restart _ => 6 | .take _ => 7 | .mark _ => 8 | .demand _ => 9 | .status _ => 10

/-- The 10-bit header value: class × 256 + kind × 16 + station (R155). -/
def Frame.header (f : Frame) : Nat := f.body.kindNumber * 16 + f.station.val

def maskBytes (m : StationMask) : List Byte := natBytes m.toNat 2

/-- The hold byte of a STOP: bit 7 the kind, bits 2..0 the cause code; bits 6..3, which no table names, are 0 (log 52). -/
def stopByte (k : StopKind) (c : Option Cause) : Byte :=
  BitVec.ofNat 8 ((if k = .hard then 128 else 0) + causeCode c)

/-- The six bytes of a TAKE; bytes a subkind does not use are 0. -/
def takeBytes : TakeCmd → List Byte
  | .prepare n m => [0, n] ++ maskBytes m ++ [0, 0]
  | .cue n m i o => [1, n] ++ maskBytes m ++ [i, o]
  | .roll n t => [2, n] ++ maskBytes t ++ [0, 0]
  | .cut n t => [3, n] ++ maskBytes t ++ [0, 0]
  | .abort n r o => [4, n, r, o, 0, 0]
  | .delete n => [5, n, 0, 0, 0, 0]
  | .lock n => [6, n, 0, 0, 0, 0]
  | .unnamed x n rest => BitVec.ofNat 8 (7 + x.val) :: n :: rest.toList

/-- DEMAND byte 0 (kinds, channel 0 in bit 7; sequence) and the four values. -/
def demandBytes (d : DemandItems) : List Byte :=
  BitVec.ofNat 8 (channelCode d.kinds[0] * 128 + channelCode d.kinds[1] * 64 + channelCode d.kinds[2] * 32 + channelCode d.kinds[3] * 16
    + d.seq.toNat) ::
  (natBytes d.values[0].toNat 2 ++ natBytes d.values[1].toNat 2 ++ natBytes d.values[2].toNat 2 ++
    natBytes d.values[3].toNat 2)

/-- The 24 bytes of a STATUS; bits 2..0 of byte 12, which the table does not name, are 0 (log 52). -/
def statusBytes (i : StatusItems) : List Byte :=
  [ BitVec.ofNat 8 (roleCode i.role * 128 + (match i.kind with | some k => axisKindCode k | none => 15) * 8 + startCode i.startState),
    BitVec.ofNat 8 (faultCode i.fault * 32 + driveCode i.drive * 4 + boolNat i.wakeRefused * 2 + boolNat i.demandStale),
    BitVec.ofNat 8 (boolNat i.hold.isSome * 128
      + (match i.hold with | some h => (if h.kind = .hard then 64 else 0) + causeCode h.code * 8 | none => 0)
      + homeCode i.home * 2 + boolNat i.posValid),
    BitVec.ofNat 8 ((match i.firstCause with | some st => st.val | none => 0) * 16 + homeOutcomeCode i.homeOutcome) ]
  ++ intBytes i.position 4 ++ intBytes i.move 4 ++
  [ BitVec.ofNat 8 (jobCode i.job * 32 + outcomeKindCode i.outcome * 8), i.takeNumber, outcomeReason i.outcome, outcomeOrigin i.outcome,
    BitVec.ofNat 8 (timeCode i.timeState * 64 + boolNat i.timeStepped * 32 + boolNat i.syncLost * 16 + i.crew.toNat),
    i.zones ]
  ++ natBytes i.factor.toNat 2 ++ natBytes i.stamp.ms16.toNat 2 ++ natBytes i.stamp.phase 2

/-- The payload of a frame. -/
def Body.bytes : Body → List Byte
  | .stop k c => [stopByte k c]
  | .release => []
  | .resume => []
  | .wake m => maskBytes m
  | .park m => maskBytes m
  | .home m => maskBytes m
  | .restart m => maskBytes m
  | .take c => takeBytes c
  | .mark t => maskBytes t
  | .demand d => demandBytes d
  | .status i => statusBytes i

/-- The bits of the header, most significant first. -/
def headerBits (h : Nat) : List Bool :=
  [h.testBit 9, h.testBit 8, h.testBit 7, h.testBit 6, h.testBit 5, h.testBit 4, h.testBit 3, h.testBit 2,
    h.testBit 1, h.testBit 0]

/-- The check of a frame covers the 10 header bits and the payload bits (R183). -/
def Frame.check (f : Frame) : BitVec 16 := crcBits (headerBits f.header ++ f.body.bytes.flatMap byteBits)

/-- The frame as it stands on the line, true recessive: start bit, header, separators, payload, check, end bits (R154). -/
def Frame.lineBits (f : Frame) : List Bool :=
  [false] ++ headerBits f.header ++ [true] ++
  f.body.bytes.flatMap (fun b => byteBits b ++ [true]) ++
  (natBytes f.check.toNat 2).flatMap (fun b => byteBits b ++ [true]) ++
  List.replicate 8 true

/-! ### What a receiver makes of the bits it reads (R154, R155, R163) -/

/-- A run of bits as a number, most significant first. -/
def bitsNat (bits : List Bool) : Nat := bits.foldl (fun a b => a * 2 + boolNat b) 0

/-- The payload length that the header, the first 10 bits after the start bit, fixes; none: no frame of the table. -/
def readLength (bits : List Bool) : Option Nat := kindPayload (bitsNat (bits.take 10) / 16)

/-- The eight bits of payload or check byte i, as they lie after the start bit. -/
def readByteBits (bits : List Bool) (i : Nat) : List Bool := (bits.drop (11 + 9 * i)).take 8

/-- Place i after the start bit is a separator or an end bit of a frame of n payload bytes (R154). -/
def separatorAt (n i : Nat) : Bool :=
  decide (i = 10) || (decide (11 ≤ i ∧ i < 29 + 9 * n) && decide ((i - 11) % 9 = 8)) ||
    decide (29 + 9 * n ≤ i ∧ i < 37 + 9 * n)

/-- A separator or end bit of those read is dominant. -/
def separatorFails (n : Nat) (bits : List Bool) : Bool :=
  (List.range bits.length).any fun i => separatorAt n i && bits[i]? == some false

/-- All 16 check bits have been read and differ from the check of the header and payload read (R163, R183). -/
def checkFails (n : Nat) (bits : List Bool) : Bool :=
  decide (28 + 9 * n ≤ bits.length) &&
    (crcBits (bits.take 10 ++ (List.range n).flatMap (readByteBits bits))).toNat !=
      bitsNat (readByteBits bits n ++ readByteBits bits (n + 1))

/-- The bits read after a start bit show a form error or a check mismatch (R163). -/
def frameFails (bits : List Bool) : Bool :=
  decide (10 ≤ bits.length) &&
    match readLength bits with
    | none => true
    | some n => separatorFails n bits || checkFails n bits

/-- The bits read after a start bit are a whole frame with no failure: it is delivered at their last (R164). -/
def frameWhole (bits : List Bool) : Bool :=
  !frameFails bits && match readLength bits with | none => false | some n => bits.length == 37 + 9 * n

/-! ### Frames as the port spells them (R179) -/

/-- The TAKE a payload spells; none where the subkind is outside its set. -/
def takeOfBytes (bs : List Byte) : Option TakeCmd :=
  let n := BitVec.ofNat 8 (fieldNat bs 1 1)
  let w := BitVec.ofNat 16 (fieldNat bs 2 2)
  match fieldNat bs 0 1 with
  | 0 => some (.prepare n w)
  | 1 => some (.cue n w (BitVec.ofNat 8 (fieldNat bs 4 1)) (BitVec.ofNat 8 (fieldNat bs 5 1)))
  | 2 => some (.roll n w)
  | 3 => some (.cut n w)
  | 4 => some (.abort n (BitVec.ofNat 8 (fieldNat bs 2 1)) (BitVec.ofNat 8 (fieldNat bs 3 1)))
  | 5 => some (.delete n)
  | 6 => some (.lock n)
  | _ => none

/-- A mask that names station 0 is outside its set (R179). -/
def maskOk (m : StationMask) : Bool := !m.getLsbD 0

/-- The frame a SEND spells, for the kinds SEND takes; none is answered BAD (R178, R179). -/
def sendBody (control : Bool) (kind : Nat) (bs : List Byte) : Option Body :=
  if kindPayload kind ≠ some bs.length then none else
  let w : BitVec 16 := BitVec.ofNat 16 (beNat bs)
  match kind with
  | 0x10 => if control then some .resume else none
  | 0x11 => if maskOk w then some (.wake w) else none
  | 0x12 => if maskOk w then some (.park w) else none
  | 0x13 => if maskOk w then some (.home w) else none
  | 0x14 => if maskOk w then some (.restart w) else none
  | 0x15 =>
    match takeOfBytes bs with
    | some (.prepare n m) => if maskOk m then some (.take (.prepare n m)) else none
    | some (.cue n m i o) => if maskOk m then some (.take (.cue n m i o)) else none
    | some c => some (.take c)
    | none => none
  | 0x16 => some (.mark w)
  | _ => none

/-! ### Segment page 0 and delta pages (R128, R184) -/

/-- The header, bytes 0..23. -/
def headerPart (number : Byte) (generation : BitVec 8) (seq : Nat) (mask : StationMask)
    (startPos initialMove : Int) : List Byte :=
  withCheck ([number, generation] ++ natBytes seq 2 ++ maskBytes mask ++ intBytes startPos 8 ++ intBytes initialMove 8)

/-- The segment close, bytes 24..29. -/
def segClosePart (count : Nat) : List Byte := withCheck (natBytes count 4)

def markBytes (m : TakeMark) : List Byte := natBytes m.index 4 ++ intBytes m.position 8 ++ intBytes m.move 4

/-- The take close, bytes 32..238; unused marks stay erased. -/
def takeClosePart (c : TakeClose) : List Byte :=
  let marks := c.marks.flatMap markBytes
  withCheck (natBytes c.length 4 ++ intBytes c.endPos 8 ++ natBytes c.marks.length 1 ++
    (marks ++ List.replicate (192 - marks.length) 0xFF))

/-- A delta page: 127 deltas, unused slots erased, and the page check. -/
def deltaPage (deltas : List Int) : List Byte :=
  let bs := deltas.flatMap fun d => intBytes d 2
  withCheck (bs ++ List.replicate (254 - bs.length) 0xFF)

/-- The 127 deltas of a page read back. -/
def pageDeltas (bs : List Byte) : Nat → List Int
  | 0 => []
  | n + 1 => beInt (bs.take 2) :: pageDeltas (bs.drop 2) n

/-- How a part of page 0 reads (R128). -/
inductive PartRead | erased | valid | failed
deriving DecidableEq, Repr

def partRead (bs : List Byte) : PartRead :=
  if allErased bs then .erased else if checkMatches bs then .valid else .failed

/-- The marks of a take close, n of them. -/
def readMarks (bs : List Byte) : Nat → List TakeMark
  | 0 => []
  | n + 1 =>
    { index := fieldNat bs 0 4, position := fieldInt bs 4 8, move := fieldInt bs 12 4 } :: readMarks (bs.drop 16) n

/-- The take close of a page 0, where it is valid; of a mark count above 12, for which the page has no place, 12 are read (log 53). -/
def readTakeClose (page : List Byte) : Option TakeClose :=
  let part := field page 32 207
  if partRead part = .valid then
    some { length := fieldNat part 0 4, endPos := fieldInt part 4 8,
           marks := readMarks (field part 13 192) (min (fieldNat part 12 1) Config.markPlaces) }
  else none

/-- The segment close's count, where it is valid. -/
def readSegClose (page : List Byte) : Option Nat :=
  let part := field page 24 6
  if partRead part = .valid then some (fieldNat part 0 4) else none

/-- What the read pass notes of an IN-USE sector's page 0 (R148). -/
def noteOf (sector : Nat) (page : List Byte) : ScanNote :=
  { sector := sector, number := BitVec.ofNat 8 (fieldNat page 0 1), generation := BitVec.ofNat 8 (fieldNat page 1 1),
    seq := fieldNat page 2 2, mask := BitVec.ofNat 16 (fieldNat page 4 2), startPos := fieldInt page 6 8,
    initialMove := fieldInt page 14 8, segCount := readSegClose page, close := readTakeClose page,
    locked := fieldNat page 255 1 == 0 && decide (255 < page.length) }

/-! ### Parameter block (R184) -/

def readLens (bs : List Byte) : Nat → List LensPoint
  | 0 => []
  | n + 1 => { pos := fieldInt bs 0 4, factor := fieldNat bs 4 2 } :: readLens (bs.drop 6) n

def readZones (bs : List Byte) : Nat → List ZoneEntry
  | 0 => []
  | n + 1 =>
    { number := fieldNat bs 0 1, sensorStation := fieldNat bs 1 1, sensorInput := fieldNat bs 2 1,
      aStation := fieldNat bs 3 1, aLo := fieldInt bs 4 4, aHi := fieldInt bs 8 4, bPresent := fieldNat bs 12 1,
      bStation := fieldNat bs 13 1, bLo := fieldInt bs 14 4, bHi := fieldInt bs 18 4,
      members := BitVec.ofNat 16 (fieldNat bs 22 2), fraction := fieldNat bs 24 1 } :: readZones (bs.drop 25) n

/-- The items of a block; lens points and zones beyond their counts are not read. -/
def readBlock (bs : List Byte) : Block :=
  { format := fieldNat bs 0 2, role := fieldNat bs 2 1, axisKind := fieldNat bs 3 1
    lo := fieldInt bs 4 4, hi := fieldInt bs 8 4, vMax := fieldNat bs 12 4
    aMax := fieldNat bs 16 2, aStop := fieldNat bs 18 2, vGoto := fieldNat bs 20 4, vHome := fieldNat bs 24 4
    kf := fieldNat bs 28 2, kp := fieldNat bs 30 2, followMax := fieldNat bs 32 4
    homeMode := fieldNat bs 36 1, homeDirection := fieldNat bs 37 1
    homeOffset := fieldInt bs 38 4, homeMaxTravel := fieldNat bs 42 4
    stallThreshold := fieldNat bs 46 4, backOff := fieldNat bs 50 4
    routePresent := fieldNat bs 54 1, source := fieldNat bs 55 1, channel := fieldNat bs 56 1, invert := fieldNat bs 57 1
    gain := fieldNat bs 58 2, deadband := fieldNat bs 60 2, coupling := fieldNat bs 62 1
    lensCount := fieldNat bs 63 1, fMin := fieldNat bs 64 2
    expected := BitVec.ofNat 16 (fieldNat bs 66 2)
    channelKinds := #v[fieldNat bs 68 1, fieldNat bs 69 1, fieldNat bs 70 1, fieldNat bs 71 1]
    zoneCount := fieldNat bs 72 1
    lens := readLens (field bs 73 96) (min (fieldNat bs 63 1) 16)
    zones := readZones (field bs 169 200) (min (fieldNat bs 72 1) 8) }

/-- The integrity of an image: its format code, and its check over bytes 0..368 (R171, R184). -/
def blockIntact (bs : List Byte) : Bool :=
  decide (bs.length = Config.blockBytes) && fieldNat bs 0 2 == Config.formatCode && checkMatches bs

end Sys2Proof.Machine
end

