-- ==== Sys2Proof/Machine/Store.lean ====
section
/-! DEFINITION. TSC: sector table, directory, recording into the store, read-ahead, the flash arbiter, the scan (08). -/

namespace Sys2Proof.Machine

/-! ### Sector table and directory (R129 to R132) -/

/-- The segment lists of an entry, stored take first. -/
def DirEntry.segments (e : DirEntry) : List Segment :=
  (match e.stored with | some t => t.segments | none => []) ++
  (match e.recording with | some r => r.segments | none => [])

/-- The sectors IN-USE: those of the segment lists and, during a scan, those noted so far. -/
def Tsc.inUse (t : Tsc) : List Nat :=
  t.directory.flatMap (fun e => e.segments.map (·.sector)) ++ t.scanNotes.map (·.sector)

/-- A sector that the scan has read and that is in no other place is ERASED (R129). -/
def Tsc.isErased (t : Tsc) (sector : Nat) : Bool :=
  decide (1 ≤ sector ∧ sector < t.scanNext) && !t.eraseQueue.contains sector && !t.bad.contains sector &&
    !t.inUse.contains sector

/-- The count of the ERASED pool (R129). -/
def Tsc.erased (t : Tsc) : Nat := (t.scanNext - 1) - (t.eraseQueue.length + t.bad.length + t.inUse.length)

/-- The directory entry of a take number. -/
def Tsc.entry (t : Tsc) (n : Byte) : Option DirEntry := t.directory.find? fun e => e.number == n

/-- An entry's parts changed; an entry with neither part is removed (R130). -/
def Tsc.mapEntry (n : Byte) (f : DirEntry → DirEntry) (t : Tsc) : Tsc :=
  { t with
    directory := (t.directory.map fun e => if e.number = n then f e else e).filter
      (fun e => e.stored.isSome || e.recording.isSome) }

/-- The entry that holds a recording, with it; there is at most one. -/
def Tsc.recordingOf (t : Tsc) : Option (DirEntry × Recording) :=
  t.directory.findSome? fun e => e.recording.map fun r => (e, r)

def Tsc.mapRecording (f : Recording → Recording) (t : Tsc) : Tsc :=
  { t with directory := t.directory.map fun e => { e with recording := e.recording.map f } }

/-- The sector of a segment list's sequence. -/
def sectorOf (segs : List Segment) (seq : Nat) : Option Nat := (segs.find? fun g => g.seq == seq).map (·.sector)

/-- The sector's programmed flag is set, in whichever recording holds it (R129). -/
def Tsc.markProgrammed (sector : Nat) (t : Tsc) : Tsc :=
  t.mapRecording fun r => { r with
    segments := r.segments.map fun g => if g.sector = sector then { g with programmed := true } else g }

/-- A stored take's sectors leave it in sequence order: to the erase queue, or to BAD with the retire mark (R137, R146). -/
def retireSegments (segs : List Segment) (t : Tsc) : Tsc :=
  { t with
    eraseQueue := t.eraseQueue ++ (segs.filter fun g => !g.retire).map (·.sector)
    bad := t.bad ++ (segs.filter fun g => g.retire).map (·.sector) }

/-! ### Generations (R131) -/

/-- g1 is newer than g2. -/
def newer (g1 g2 : BitVec 8) : Bool :=
  let d := (g1 - g2).toNat
  decide (1 ≤ d ∧ d ≤ 127) || (decide (d = 128) && decide (g2.toNat < g1.toNat))

/-- A take number's place in the generation memory. -/
def generationPlace (n : Byte) : Fin 100 := Fin.ofNat 100 n.toNat

/-- The generation a new recording of n is given. -/
def Tsc.nextGeneration (t : Tsc) (n : Byte) : BitVec 8 :=
  match t.generations[generationPlace n] with
  | some g => g + 1
  | none => 0

/-! ### Recording (R133, R134, R136, R138) -/

/-- What TSC reports of an allocation or a page: RECORD-OVERRUN's cause, store low. -/
structure StoreReport where
  overrun : Bool
  low : Bool
deriving DecidableEq, Repr

def StoreReport.quiet : StoreReport := { overrun := false, low := false }

/-- The take sector after this one, 4,095 followed by 1. -/
def nextSector (c : Nat) : Nat := if c < Config.lastSector then c + 1 else 1

/-- The first ERASED sector at or after c, looking at the given number of sectors. -/
def Tsc.findErased (t : Tsc) : Nat → Nat → Option Nat
  | 0, _ => none
  | n + 1, c => if t.isErased c then some c else t.findErased n (nextSector c)

/-- The allocation of a sequence of the recording (R133). -/
def allocate (seq : Nat) (t : Tsc) : Tsc × StoreReport :=
  match t.findErased Config.lastSector t.cursor with
  | none => (t, { overrun := true, low := false })
  | some sector =>
    let seg : Segment := { sector := sector, seq := seq, programmed := false, retire := false }
    let t := Tsc.mapRecording (fun r => { r with segments := r.segments ++ [seg] }) { t with cursor := nextSector sector }
    (t, { overrun := false, low := decide (t.erased = 1) })

/-- The opening of a recording of n (R131, R133); a full directory without n takes none, as a full pool does. -/
def openRecording (n : Byte) (mask : StationMask) (startPos initialMove : Int) (t : Tsc) : Tsc × StoreReport :=
  let g := t.nextGeneration n
  let r : Recording :=
    { generation := g, mask := mask, startPos := startPos, initialMove := initialMove, count := 0, segments := [] }
  let t := { t with generations := t.generations.set (generationPlace n) (some g), pageBuffer := [] }
  match t.entry n with
  | some _ => allocate 0 (t.mapEntry n fun e => { e with recording := some r })
  | none =>
    if t.directory.length < Config.directoryPlaces then
      allocate 0 { t with directory := t.directory ++ [{ number := n, stored := none, recording := some r }] }
    else (t, { overrun := true, low := false })

/-- The programs of a page of n deltas, in order: the close of 1,905 goes with a whole page 15 (R134), that of a partial
last page is asked for by itself (R136). -/
def pageSteps (page n : Nat) : List RecordStep :=
  (if page = 1 then [.header] else []) ++ [.page] ++ (if page = 15 ∧ n = Config.pageDeltas then [.segClose] else [])

/-- The sequence and page of a take index (R128). -/
def pageOf (i : Nat) : TakePage :=
  { seq := i / Config.segmentDeltas, page := 1 + i % Config.segmentDeltas / Config.pageDeltas }

/-- The buffered deltas, the last of index i, become a write-queue entry, or find the queue full (R134, R136). -/
def formPage (i : Nat) (t : Tsc) : Tsc × StoreReport :=
  let t' := { t with pageBuffer := [] }
  match t.recordingOf with
  | none => (t', StoreReport.quiet)
  | some (_, r) =>
    if t.writeQueue.length < Config.writePlaces then
      let w := pageOf i
      let entry : WriteEntry :=
        { sector := (sectorOf r.segments w.seq).getD 0, seq := w.seq, page := w.page, deltas := t.pageBuffer
          steps := pageSteps w.page t.pageBuffer.length }
      ({ t' with writeQueue := t.writeQueue ++ [entry] }, { overrun := false, low := decide (t.erased ≤ 1) })
    else (t', { overrun := true, low := false })

/-- One delta handed over at a recorded update (R134). -/
def acceptDelta (d : Int) (t : Tsc) : Tsc × StoreReport :=
  match t.recordingOf with
  | none => (t, StoreReport.quiet)
  | some (_, r) =>
    let (t, first) :=
      if 0 < r.count ∧ r.count % Config.segmentDeltas = 0 then allocate (r.count / Config.segmentDeltas) t
      else (t, StoreReport.quiet)
    if first.overrun then (t, first)
    else
      let t := Tsc.mapRecording (fun r => { r with count := r.count + 1 }) { t with pageBuffer := t.pageBuffer ++ [d] }
      if t.pageBuffer.length = Config.pageDeltas then
        let (t, page) := formPage r.count t
        (t, { overrun := page.overrun, low := first.low || page.low })
      else (t, first)

/-- The take close is handed over: the partial page is queued, and the closes are requested (R136), both at the hand-over, which
puts them before a LOCK or CONFIG-WRITE that arrives in CLOSING (log 59). -/
def requestClose (c : TakeClose) (t : Tsc) : Tsc × StoreReport :=
  let (t, page) := if t.pageBuffer.isEmpty then (t, StoreReport.quiet) else formPage (c.length - 1) t
  ({ t with
      closing := some c
      closeList := t.closeList ++ (if c.length % Config.segmentDeltas = 0 then [.takeClose] else [.segClose, .takeClose]) },
    page)

/-- A program of the recording in flight, whose verify is no longer acted on (R138). -/
def abandon (p : Program) : Program :=
  match p.work with
  | .record _ | .segClose | .takeClose => { p with work := .abandoned }
  | .lock _ | .config _ | .abandoned => p

/-- The recording is discarded (R138). -/
def discardRecording (t : Tsc) : Tsc :=
  let segs := match t.recordingOf with | some (_, r) => r.segments | none => []
  { t with
    pageBuffer := []
    writeQueue := []
    closing := none
    closeList := t.closeList.filter fun w => w != .segClose && w != .takeClose
    unit := match t.unit with | .programming p => .programming (abandon p) | u => u
    eraseQueue := t.eraseQueue ++
      ((segs.filter fun g => g.programmed && !t.bad.contains g.sector).map (·.sector))
    directory := (t.directory.map fun e => { e with recording := none }).filter fun e => e.stored.isSome }

/-- The verified take close makes the recording the stored take; the older one is retired (R137). -/
def completeRecording (t : Tsc) : Tsc :=
  match t.recordingOf, t.closing with
  | some (e, r), some c =>
    let take : StoredTake :=
      { generation := r.generation, state := .complete, lockPending := false, mask := r.mask, startPos := r.startPos,
        initialMove := r.initialMove, length := c.length, endPos := some c.endPos, marks := c.marks,
        segments := r.segments }
    retireSegments (match e.stored with | some old => old.segments | none => [])
      (Tsc.mapEntry e.number (fun e => { e with stored := some take, recording := none }) { t with closing := none })
  | _, _ => t

/-- DELETE (R146): the entry goes at once, its sectors in sequence order. -/
def deleteTake (n : Byte) (t : Tsc) : Tsc :=
  match t.entry n with
  | some e => retireSegments e.segments (t.mapEntry n fun e => { e with stored := none, recording := none })
  | none => t

/-- A stored take changed. -/
def Tsc.mapStored (n : Byte) (f : StoredTake → StoredTake) (t : Tsc) : Tsc :=
  t.mapEntry n fun e => { e with stored := e.stored.map f }

/-- FORMAT as accepted (R147): every sector neither BAD nor queued joins the queue, retired ones go to BAD. -/
def formatStore (t : Tsc) : Tsc :=
  let retired := (t.directory.flatMap DirEntry.segments).filter (·.retire) |>.map (·.sector)
  let rest := (List.range Config.lastSector).map (· + 1) |>.filter fun c =>
    !t.bad.contains c && !t.eraseQueue.contains c && !retired.contains c
  { t with directory := [], eraseQueue := t.eraseQueue ++ rest, bad := t.bad ++ retired }

/-- FORMAT is taken with the job IDLE and no lock request waiting (R147). -/
def formatFree (s : State) : Bool :=
  s.tks.job == .idle && s.tsc.closeList.all fun w => match w with | .lock _ => false | _ => true

/-! ### Read-ahead (R141, R143) -/

/-- The page after this one in take order. -/
def TakePage.next (w : TakePage) : TakePage :=
  if w.page < 15 then { w with page := w.page + 1 } else { seq := w.seq + 1, page := 1 }

/-- The first index a page holds. -/
def TakePage.firstIndex (w : TakePage) : Nat := w.seq * Config.segmentDeltas + (w.page - 1) * Config.pageDeltas

/-- A playback read is requested; an erase in flight is told to suspend, one in its erase check is not (R141). -/
def requestRead (j : ReadJob) (t : Tsc) : Tsc :=
  let t := { t with reads := t.reads ++ [j] }
  match t.unit with
  | .erasing sector false => if t.reported then t else { t with unit := .erasing sector true, suspendAge := 0 }
  | _ => t

/-- The next page is requested into a slot while it lies before the end index (R143). -/
def fetchInto (segs : List Segment) (endIndex : Nat) (i : Fin 4) (t : Tsc) : Tsc :=
  match t.nextPage with
  | none => t
  | some w =>
    if w.firstIndex < endIndex then
      requestRead (.slot i w ((sectorOf segs w.seq).getD 0) false)
        { t with slots := t.slots.set i (.requested w), nextPage := some w.next }
    else t

/-- The fill asked for at a CUE (R143). -/
def fillReadAhead (segs : List Segment) (inIndex endIndex : Nat) (t : Tsc) : Tsc :=
  let t := { t with slots := Vector.replicate 4 .empty, nextPage := some (pageOf inIndex) }
  fetchInto segs endIndex 3 (fetchInto segs endIndex 2 (fetchInto segs endIndex 1 (fetchInto segs endIndex 0 t)))

/-- The slot that holds the page of an index, filled. -/
def Tsc.filledSlot (t : Tsc) (w : TakePage) : Option (Fin 4 × List Int) :=
  [(0 : Fin 4), 1, 2, 3].findSome? fun i =>
    match t.slots[i] with
    | .filled _ w' ds => if w' = w then some (i, ds) else none
    | _ => none

/-- The delta of a take index, where the read-ahead holds it (R120). -/
def Tsc.deltaAt (t : Tsc) (k : Nat) : Option Int :=
  (t.filledSlot (pageOf k)).bind fun x => x.2[k % Config.segmentDeltas % Config.pageDeltas]?

/-- The delta of index k has been taken: at the end of its page, or of the take, its slot is emptied and refilled (R143). -/
def tookDelta (segs : List Segment) (endIndex k : Nat) (t : Tsc) : Tsc :=
  if k % Config.segmentDeltas % Config.pageDeltas + 1 = Config.pageDeltas ∨ k + 1 = endIndex then
    match t.filledSlot (pageOf k) with
    | some (i, _) => fetchInto segs endIndex i { t with slots := t.slots.set i .empty }
    | none => t
  else t

/-- A read in flight whose data are not kept. -/
def dropRead : ReadJob → ReadJob
  | .slot _ _ _ _ => .dropped
  | j => j

/-- The buffer is emptied at the job's return to IDLE (R143). -/
def releaseReadAhead (t : Tsc) : Tsc :=
  { t with
    slots := Vector.replicate 4 .empty
    nextPage := none
    reads := []
    unit := match t.unit with
      | .reading j => .reading (dropRead j)
      | .suspended sector j => .suspended sector (j.map dropRead)
      | u => u }

/-! ### The flash arbiter (R139 to R142) -/

/-- While the job is RECORDING an erase waits for a write queue of one page or none (R140). -/
def eraseGate (s : State) : Bool := axisUp s && (s.tks.job != .recording || decide (s.tsc.writeQueue.length ≤ 1))

/-- The bytes of a record program and where they go (R128, R184). -/
def recordProgram (number : Byte) (r : Recording) (w : WriteEntry) (step : RecordStep) : Program :=
  match step with
  | .header =>
    { work := .record .header, address := memAddress w.sector 0 0,
      data := headerPart number r.generation w.seq r.mask r.startPos r.initialMove }
  | .page => { work := .record .page, address := memAddress w.sector w.page 0, data := deltaPage w.deltas }
  | .segClose =>
    { work := .record .segClose, address := memAddress w.sector 0 24, data := segClosePart Config.segmentDeltas }

/-- The delta count of a recording's last segment: whole segments hold 1,905. -/
def lastCount (length : Nat) : Nat :=
  if length % Config.segmentDeltas = 0 then Config.segmentDeltas else length % Config.segmentDeltas

/-- The program of a request of the close-and-lock list; none: the erase of sector 0, or nothing left to program. -/
def closeProgram (s : State) (w : CloseWork) : Option Program :=
  let first (segs : List Segment) : Nat := (sectorOf segs 0).getD 0
  match w with
  | .segClose =>
    match s.tsc.recordingOf, s.tsc.closing with
    | some (_, r), some c =>
      some { work := .segClose, address := memAddress ((sectorOf r.segments ((c.length - 1) / Config.segmentDeltas)).getD 0) 0 24,
             data := segClosePart (lastCount c.length) }
    | _, _ => none
  | .takeClose =>
    match s.tsc.recordingOf, s.tsc.closing with
    | some (_, r), some c =>
      some { work := .takeClose, address := memAddress (first r.segments) 0 32, data := takeClosePart c }
    | _, _ => none
  | .lock n =>
    match (s.tsc.entry n).bind (·.stored) with
    | some t => some { work := .lock n, address := memAddress (first t.segments) 0 255, data := [0x00] }
    | none => none
  | .configPage i =>
    match s.cpt.writeBuffer with
    | some bs => some { work := .config i, address := memAddress 0 i 0, data := field bs (i * Config.pageBytes) Config.pageBytes }
    | none => none
  | .configErase => none

/-- An operation whose end status reports is issued: a program or an erase (R127). -/
def Tsc.issue (u : FlashUnit) (t : Tsc) : Tsc := { t with unit := u, opAge := 0, reported := false }

/-- A program is started: its sector's programmed flag is set (R129). -/
def startProgram (p : Program) (t : Tsc) : Tsc :=
  (t.markProgrammed (p.address / Config.sectorBytes)).issue (.programming p)

/-- The highest-ranked waiting work is started where the unit is IDLE (R139). -/
def startWork (s : State) : State :=
  if s.tsc.unit = .idle ∧ s.tsc.draining = false then
    match s.tsc.reads with
    | j :: rest => { s with tsc := { s.tsc with unit := .reading j, reads := rest, opAge := 0 } }
    | [] =>
    match s.tsc.writeQueue, s.tsc.recordingOf with
    | w :: _, some (e, r) =>
      { s with tsc := startProgram (recordProgram e.number r w (w.steps.headD .page)) s.tsc }
    | _, _ =>
    match s.tsc.closeList with
    | .configErase :: _ => { s with tsc := s.tsc.issue (.erasing 0 false) }
    | w :: rest =>
      match closeProgram s w with
      | some p => { s with tsc := startProgram p s.tsc }
      | none => { s with tsc := { s.tsc with closeList := rest } }
    | [] =>
    match s.tsc.eraseQueue with
    | sector :: _ =>
      if eraseGate s then { s with tsc := s.tsc.issue (.erasing sector false) } else s
    | [] => s
  else s

/-- The unit has become IDLE: a RESTART that waits for it drops every list now (R151), else work is started. -/
def unitIdle (s : State) : State :=
  let t := { s.tsc with unit := .idle, suspendAge := 0, reported := false }
  if t.draining then { s with tsc := Tsc.start t.cursor t.rereads } else startWork { s with tsc := t }

/-- In SUSPENDED: the next waiting read is made, or the erase is resumed (R141). -/
def suspendedWork (sector : Nat) (t : Tsc) : Tsc :=
  match t.reads with
  | j :: rest => { t with unit := .suspended sector (some j), reads := rest }
  | [] => { t with unit := .erasing sector false, suspendAge := 0 }

/-- RESTART at TSC (R151): an operation in flight runs to its end before the lists are dropped. -/
def restartStore (t : Tsc) : Tsc :=
  match t.unit with
  | .idle => Tsc.start t.cursor t.rereads
  | .reading j => { t with draining := true, reads := [], unit := .reading (dropRead j) }
  | .programming p => { t with draining := true, reads := [], unit := .programming { p with work := .abandoned } }
  | .erasing sector suspending => { t with draining := true, reads := [], unit := .erasing sector suspending }
  | .suspended sector j => { t with draining := true, reads := [], unit := .suspended sector (j.map dropRead) }

/-- What a cut-short or failed operation leaves in the memory: the bytes given, else nothing changed (log 9). -/
def leaveMemory (left : Option (List Byte)) (u : FlashUnit) (m : Memory) : Memory :=
  match left, u with
  | none, _ => m
  | some bs, .programming p => memStore m p.address (bs.take p.data.length)
  | some bs, .erasing sector _ => memStore m (memAddress sector 0 0) (bs.take Config.sectorBytes)
  | some bs, .suspended sector _ => memStore m (memAddress sector 0 0) (bs.take Config.sectorBytes)
  | some _, .idle => m
  | some _, .reading _ => m

/-! ### The scan (R148 to R150) -/

/-- The class of a take sector's page 0 in the read pass. -/
inductive SectorClass | erased | dirty | inUse
deriving DecidableEq, Repr

def classify (page : List Byte) : SectorClass :=
  if allErased page then .erased
  else if partRead (field page 0 24) = .valid ∧ 1 ≤ fieldNat page 0 1 ∧ fieldNat page 0 1 ≤ 99 then .inUse
  else .dirty

/-- One sector of the read pass (R148). -/
def scanSector (sector : Nat) (page : List Byte) (t : Tsc) : Tsc :=
  let t := { t with scanNext := sector + 1 }
  match classify page with
  | .erased => t
  | .dirty => { t with eraseQueue := t.eraseQueue ++ [sector] }
  | .inUse =>
    let note := noteOf sector page
    let place := generationPlace note.number
    { t with
      scanNotes := t.scanNotes ++ [note]
      generations := match t.generations[place] with
        | none => t.generations.set place (some note.generation)
        | some g => if newer note.generation g then t.generations.set place (some note.generation) else t.generations }

/-- The rest of the read pass from the memory as it stands, for n sectors (log 18). -/
def scanRest (m : Memory) : Nat → Tsc → Tsc
  | 0, t => t
  | n + 1, t =>
    if t.scanNext ≤ Config.lastSector then
      scanRest m n (scanSector t.scanNext (memRun m (memAddress t.scanNext 0 0) Config.pageBytes) t)
    else t

/-- Insertion in ascending sequence. -/
def insertSeq (x : ScanNote) : List ScanNote → List ScanNote
  | [] => [x]
  | y :: ys => if x.seq < y.seq then x :: y :: ys else y :: insertSeq x ys

/-- Notes in sequence order; equal sequences keep their order. -/
def sortSeq (xs : List ScanNote) : List ScanNote := xs.foldl (fun acc x => insertSeq x acc) []

/-- The notes of one group that stay in it (R149); notes come in ascending sector, so the lower sector stays. -/
def keepFirst (xs : List ScanNote) : List ScanNote :=
  xs.foldl (fun acc x => if acc.any (fun y => y.seq == x.seq) then acc else acc ++ [x]) []

/-- A group of the assembly pass: one take number and generation, its notes in sequence order (R149). -/
structure Group where
  number : Byte
  generation : BitVec 8
  notes : List ScanNote
deriving DecidableEq, Repr

/-- The IN-USE notes that stay in a group once duplicates are out. -/
def groupNotes (notes : List ScanNote) (n : Byte) (g : BitVec 8) : List ScanNote :=
  keepFirst (notes.filter fun x => x.number == n && x.generation == g)

/-- The sectors whose sequence a lower sector of their group already carries, in ascending order. -/
def duplicateSectors (notes : List ScanNote) : List Nat :=
  (notes.filter fun x => !(groupNotes notes x.number x.generation).contains x).map (·.sector)

/-- The groups of a take number in ascending generation value. -/
def groupsOf (notes : List ScanNote) (n : Byte) : List Group :=
  (List.range 256).filterMap fun g =>
    match groupNotes notes n (BitVec.ofNat 8 g) with
    | [] => none
    | x :: xs => some { number := n, generation := BitVec.ofNat 8 g, notes := sortSeq (x :: xs) }

/-- Sequences 0..k with none missing. -/
def sequencesRun : Nat → List ScanNote → Bool
  | _, [] => true
  | k, x :: xs => x.seq == k && sequencesRun (k + 1) xs

/-- Every segment close valid, 1,905 in every segment but the last. -/
def countsRun : List ScanNote → Bool
  | [] => false
  | [x] => match x.segCount with | some c => decide (1 ≤ c ∧ c ≤ Config.segmentDeltas) | none => false
  | x :: xs => x.segCount == some Config.segmentDeltas && countsRun xs

/-- The sum of the delta counts. -/
def countSum (xs : List ScanNote) : Nat := xs.foldl (fun a x => a + x.segCount.getD 0) 0

/-- The group is COMPLETE (R149), with its take close. -/
def Group.complete (g : Group) : Option TakeClose :=
  match g.notes with
  | [] => none
  | x :: xs =>
    match x.close with
    | none => none
    | some c =>
      if sequencesRun 0 (x :: xs) && countsRun (x :: xs) &&
          xs.all (fun y => y.mask == x.mask && y.startPos == x.startPos && y.initialMove == x.initialMove) &&
          c.length == countSum (x :: xs) then some c
      else none

/-- The stored take of a group (R149). -/
def Group.take (g : Group) : StoredTake :=
  let segs : List Segment := g.notes.map fun x =>
    { sector := x.sector, seq := x.seq, programmed := true, retire := false }
  let head := g.notes.head?
  let base : StoredTake :=
    { generation := g.generation, state := .broken, lockPending := false
      mask := (head.map (·.mask)).getD 0, startPos := (head.map (·.startPos)).getD 0
      initialMove := (head.map (·.initialMove)).getD 0, length := 0, endPos := none, marks := [], segments := segs }
  match g.complete with
  | none => base
  | some c =>
    { base with
      state := if (head.map (·.locked)).getD false then .locked else .complete
      length := c.length, endPos := some c.endPos, marks := c.marks }

/-- The newest group of a list, compared from its last on, which matters where three generations are each newer than
another of them (R131, R150, log 40). -/
def newestGroup : List Group → Option Group
  | [] => none
  | g :: gs =>
    match newestGroup gs with
    | none => some g
    | some h => if newer g.generation h.generation then some g else some h

/-- The group kept for a number (R150). -/
def keptGroup (gs : List Group) : Option Group :=
  match newestGroup (gs.filter fun g => g.complete.isSome) with
  | some g => some g
  | none => newestGroup gs

/-- The sectors of the groups of a number that are not kept, in ascending generation. -/
def discardedSectors (gs : List Group) : List Nat :=
  match keptGroup gs with
  | none => []
  | some k => (gs.filter fun g => g.generation != k.generation).flatMap fun g => g.notes.map (·.sector)

/-- The take numbers 1..99. -/
def takeNumbers : List Byte := (List.range 99).map fun i => BitVec.ofNat 8 (i + 1)

/-- The assembly and resolution passes (R149, R150); the directory comes out in ascending take number (log 23). -/
def resolveScan (t : Tsc) : Tsc :=
  let groups := takeNumbers.map (groupsOf t.scanNotes)
  let kept := groups.filterMap fun gs => (keptGroup gs).map fun g => (g.number, g.take)
  let ofState (st : StoredState) := kept.filter fun x => x.2.state == st
  let chosen := ((ofState .locked ++ ofState .complete ++ ofState .broken).take Config.directoryPlaces).map (·.1)
  { t with
    scanNotes := []
    scanNext := Config.lastSector + 1
    directory := (kept.filter fun x => chosen.contains x.1).map fun x =>
      { number := x.1, stored := some x.2, recording := none }
    eraseQueue := t.eraseQueue ++ duplicateSectors t.scanNotes ++ groups.flatMap discardedSectors ++
      ((kept.filter fun x => !chosen.contains x.1).flatMap fun x => x.2.segments.map (·.sector)) }

end Sys2Proof.Machine
end

