-- ==== Sys2Proof/Machine/Takes.lean ====
section
/-! DEFINITION. TKS: the job record, refusals and the ABORT broadcast, recording, playback, delete and lock (07). -/

namespace Sys2Proof.Machine

/-! ### Ends of a job (R107, R123, R124) -/

/-- The own station as an ABORT and an outcome carry it. -/
def ownByte (s : State) : Byte := BitVec.ofNat 8 (ownStation s).val

/-- A held ABORT is placed where the FIFO has room (R107). -/
def placeHeld (s : State) : State :=
  match s.tks.held with
  | some h =>
    if fifoRoom s then
      let s := queueCommand (.take (.abort h.n h.reason h.origin)) s
      { s with tks := { s.tks with held := none } }
    else s
  | none => s

/-- ABORT(n, reason, own station) is queued, held, or dropped behind a held one (R107). -/
def broadcastAbort (n : Byte) (r : Reason) (s : State) : State :=
  if fifoRoom s then queueCommand (.take (.abort n (reasonCode r) (ownByte s))) s
  else
    match s.tks.held with
    | some _ => s
    | none =>
      { s with tks := { s.tks with held := some { n := n, reason := reasonCode r, origin := ownByte s } } }

/-- Pending marks leave the list when a recording ends, and MARK-LATE is set for them (R116). -/
def dropPendingMarks (t : Tks) : Tks :=
  { t with
    marks := t.marks.filter fun m => m.at_.isSome
    markLate := t.markLate || t.marks.any fun m => m.at_.isNone }

/-- The job to IDLE: the items that IDLE lacks become absent, the take number is the ended job's (R107, log 13), and the
read-ahead is emptied (R104, R143). -/
def jobToIdle (s : State) : State :=
  { s with
    tks := { s.tks with
      job := .idle, takeNumber := s.tks.jobTake, mask := none, rollTime := none, cutTime := none, t0 := none, inIndex := none, endIndex := none
      prevMove := none, playMove := none, cue := none }
    tsc := releaseReadAhead s.tsc }

/-- The effect of an ABORT by the job's state (table of R123), with the outcome it leaves. -/
def endJob (o : TakeOutcome) (s : State) : State :=
  let s :=
    match s.tks.job with
    | .cueing | .running | .runout => requestMode .hold s
    | .recording => { s with tks := dropPendingMarks s.tks, tsc := discardRecording s.tsc }
    | .idle | .prepared | .cued | .closing => s
  let s := jobToIdle s
  { s with tks := { s.tks with outcome := o } }

/-- The job ended by the node's own decision, and broadcast (R107, R124). -/
def abortOwn (r : Reason) (s : State) : State :=
  broadcastAbort s.tks.jobTake r (endJob (.aborted (reasonCode r) (ownByte s)) s)

/-- The jobs that a stop or a PARK aborts (R124). -/
def jobAbortable : JobState → Bool
  | .prepared | .cueing | .cued | .recording | .running | .runout => true
  | .idle | .closing => false

/-- STOP or PARK handed by STC (R98, R99, R124). -/
def handedToTakes (r : Reason) (s : State) : State := if jobAbortable s.tks.job then abortOwn r s else s

/-- The abort of a job that runs: the axis leaves HOMED, or SYNC-LOST is set (R124). -/
def abortRunning (r : Reason) (s : State) : State := if jobRunning s then abortOwn r s else s

/-- A refusal of a PREPARE, CUE or ROLL (R107); one in CLOSING is not broadcast (R119, log 14). -/
def refuse (n : Byte) (r : Reason) (s : State) : State :=
  if s.tks.job = .closing then
    { s with tks := { s.tks with outcome := .refused (reasonCode r), takeNumber := n } }
  else
    let s := if s.tks.job ≠ .idle ∧ s.tks.jobTake = n then endJob (.refused (reasonCode r)) s else s
    broadcastAbort n r { s with tks := { s.tks with outcome := .refused (reasonCode r), takeNumber := n } }

/-- A take number a TAKE frame may name (R105). -/
def takeNumberOk (n : Byte) : Bool := decide (1 ≤ n.toNat ∧ n.toNat ≤ 99)

/-- The job in progress is on take n. -/
def jobOn (n : Byte) (s : State) : Bool := s.tks.job != .idle && s.tks.jobTake == n

/-- The job in CLOSING is addressed: every TAKE frame on its take is refused with BUSY (R119). -/
def closingOn (n : Byte) (s : State) : Bool := s.tks.job == .closing && jobOn n s

/-! ### PREPARE, CUE, ROLL (R108 to R112) -/

/-- An entry whose stored take is LOCKED or lock-pending (R130). -/
def DirEntry.lockedIn (e : DirEntry) : Bool :=
  match e.stored with
  | some t => t.state == .locked || t.lockPending
  | none => false

/-- The first condition of R108 that fails. -/
def prepareFails (n : Byte) (s : State) : Option Reason :=
  if s.stc.drive ≠ .enabled ∨ s.stc.parkPending = true then some .notEnabled
  else if !isHomed s then some .notHomed
  else if s.tks.job ≠ .idle ∨ s.mpr.mode ≠ .hand then some .busy
  else if (s.tsc.entry n).any DirEntry.lockedIn then some .locked
  else if (s.tsc.entry n).isNone ∧ Config.directoryPlaces ≤ s.tsc.directory.length then some .directoryFull
  else if s.tsc.erased < 2 ∨ s.tsc.erased + s.tsc.eraseQueue.length < 8 then some .storeFull
  else none

/-- PREPARE (R105, R108). -/
def takePrepare (n : Byte) (mask : StationMask) (s : State) : State :=
  if !takeNumberOk n || !namesOwn mask s then s
  else if controlUp s then refuse n .notEnabled s
  else if !axisUp s then s
  else if s.tks.job = .prepared ∧ s.tks.jobTake = n ∧ s.tks.mask = some mask then s
  else if closingOn n s then refuse n .busy s
  else
    match prepareFails n s with
    | some r => refuse n r s
    | none =>
      { s with tks := { s.tks with
          job := .prepared, takeNumber := n, jobTake := n, mask := some mask, outcome := .none } }

/-- A mark of a take by its number, 0 for the start: index, position, move (R109). -/
def startMark (t : StoredTake) (number : Nat) : Option TakeMark :=
  if number = 0 then some { index := 0, position := t.startPos, move := t.initialMove } else t.marks[number - 1]?

/-- The end index an out number names (R109). -/
def endMark (t : StoredTake) (number : Nat) : Option Nat :=
  if number = 0 then some t.length else (t.marks[number - 1]?).map (·.index)

/-- The in mark and end index of a CUE, where condition 6 of R109 holds. -/
def cueMarks (s : State) (t : StoredTake) (inMark outMark : Nat) : Option (TakeMark × Nat) :=
  match startMark t inMark, endMark t outMark with
  | some m, some e =>
    if m.index < e ∧ param s (·.lo) * 256 ≤ m.position ∧ m.position ≤ param s (·.hi) * 256 then some (m, e) else none
  | _, _ => none

/-- What a CUE finds: a refusal, or its take, in mark and end index (R109). -/
def cueTest (n inMark outMark : Byte) (s : State) : Except Reason (StoredTake × TakeMark × Nat) :=
  if s.stc.drive ≠ .enabled ∨ s.stc.parkPending = true then .error .notEnabled
  else if !isHomed s then .error .notHomed
  else if s.tks.job ≠ .idle then .error .busy
  else
    match s.tsc.entry n with
    | none => .error .noTake
    | some e =>
      match e.stored with
      | none => .error .broken
      | some t =>
        if t.state = .broken then .error .broken
        else
          match cueMarks s t inMark.toNat outMark.toNat with
          | none => .error .badMark
          | some (m, e) => if m.move = 0 then .ok (t, m, e) else .error .movingMark

/-- CUE (R105, R109). -/
def takeCue (n : Byte) (mask : StationMask) (inMark outMark : Byte) (s : State) : State :=
  let given : CueItems := { mask := mask, inMark := inMark, outMark := outMark }
  if !takeNumberOk n || !namesOwn mask s then s
  else if controlUp s then refuse n .notEnabled s
  else if !axisUp s then s
  else if (s.tks.job = .cueing ∨ s.tks.job = .cued) ∧ s.tks.jobTake = n ∧ s.tks.cue = some given then s
  else if closingOn n s then refuse n .busy s
  else
    match cueTest n inMark outMark s with
    | .error r => refuse n r s
    | .ok (t, m, e) =>
      let s := requestGoto m.position s
      { s with
        tks := { s.tks with
          job := .cueing, takeNumber := n, jobTake := n, mask := some t.mask, inIndex := some m.index
          endIndex := some e, k := m.index, playMove := some m.move, cue := some given, outcome := .none }
        tsc := fillReadAhead t.segments m.index e s.tsc }

/-- The participant check (R112): every named station is fresh and in the state, on the take. -/
def participantsReady (n : Byte) (job : JobState) (s : State) : Bool :=
  allStations.all fun st =>
    !(match s.tks.mask with | some m => maskNames m st | none => false) ||
      (peerFresh s st && match (peerEntry s st).items with
        | some i => i.job == job && i.takeNumber == n
        | none => false)

/-- The tests of a ROLL in PREPARED or CUED (R111, R112). -/
def rollFails (n : Byte) (t : Ms16) (s : State) : Option Reason :=
  let d := diff16 t (low16 s.cck.ms)
  if d < Config.rollEarliest then some .late
  else if Config.rollLatest < d then some .tooFar
  else if participantsReady n s.tks.job s then none else some .notCued

/-- ROLL (R110 to R112). -/
def takeRoll (n : Byte) (t : Ms16) (s : State) : State :=
  if !takeNumberOk n || !axisUp s || !jobOn n s then s
  else
    match s.tks.job with
    | .prepared | .cued =>
      if s.tks.rollTime.isSome then s
      else
        match rollFails n t s with
        | some r => refuse n r s
        | none => { s with tks := { s.tks with rollTime := some t, outcome := .none } }
    | .cueing => refuse n .notCued s
    | .closing => refuse n .busy s
    | .idle | .recording | .running | .runout => s

/-! ### CUT, ABORT, MARK (R116, R118, R121, R123) -/

/-- The low 16 bits of the next update's index (R62). -/
def nextMs16 (s : State) : Ms16 := low16 (s.cck.ms + 1)

/-- The distance of a cut time from the next update: what lies before that update is below 0 (R63, R118, R121). -/
def cutAhead (t : Ms16) (s : State) : Int := diff16 t (nextMs16 s)

/-- The earlier of a cut time present and a new one, both seen from the next update (R118, R121; log 37). -/
def earliestCut (t : Ms16) (s : State) : Option Ms16 :=
  match s.tks.cutTime with
  | none => some t
  | some c => if cutAhead t s < cutAhead c s then some t else some c

/-- CUT (R118, R121). -/
def takeCut (n : Byte) (t : Ms16) (s : State) : State :=
  if !takeNumberOk n || !axisUp s || !jobOn n s then s
  else
    let d := cutAhead t s
    match s.tks.job with
    | .recording =>
      if d < 0 ∨ (d = 0 ∧ s.tks.k = 0) then abortOwn .late s
      else if Config.rollLatest < d then abortOwn .tooFar s
      else { s with tks := { s.tks with cutTime := earliestCut t s } }
    | .running =>
      if Config.rollLatest < d then s
      else { s with tks := { s.tks with cutTime := earliestCut t s } }
    | .closing => refuse n .busy s
    | .idle | .prepared | .cueing | .cued | .runout => s

/-- A held ABORT for take n is dropped (R123). -/
def dropHeld (n : Byte) (s : State) : State :=
  match s.tks.held with
  | some h => if h.n = n then { s with tks := { s.tks with held := none } } else s
  | none => s

/-- ABORT (R119, R123); another station's ABORT drops a held one for the same take. -/
def takeAbort (own : Bool) (n reason origin : Byte) (s : State) : State :=
  if !takeNumberOk n || !axisUp s || !jobOn n s then s
  else if s.tks.job = .closing then refuse n .busy s
  else
    let s := endJob (.aborted reason origin) s
    if own then s else dropHeld n s

/-- A mark entered in ascending index (R116). -/
def insertMark (m : JobMark) : List JobMark → List JobMark
  | [] => [m]
  | x :: xs => if m.index < x.index then m :: x :: xs else x :: insertMark m xs

/-- MARK (R116). -/
def takeMark (t : Ms16) (s : State) : State :=
  if !axisUp s || s.tks.job != .recording then s
  else
    let d := diff16 t (nextMs16 s)
    if d < 0 then { s with tks := { s.tks with markLate := true } }
    else
      let i := s.tks.k + d.toNat
      if s.tks.marks.any (fun m => m.index == i) then s
      else if Config.markPlaces ≤ s.tks.marks.length then { s with tks := { s.tks with marksFull := true } }
      else
        let stored := if d = 0 then some (s.mpr.p, s.tks.prevMove.getD 0) else none
        { s with tks := { s.tks with marks := insertMark { index := i, at_ := stored } s.tks.marks } }

/-! ### DELETE and LOCK (R125, R126) -/

/-- The result of a DELETE is reported unless a job is in progress on another take (R125, log 15). -/
def setResult (n : Byte) (o : TakeOutcome) (s : State) : State :=
  if s.tks.job = .idle ∨ s.tks.jobTake = n then { s with tks := { s.tks with takeNumber := n, outcome := o } } else s

/-- DELETE (R125). -/
def takeDelete (n : Byte) (s : State) : State :=
  if !takeNumberOk n || !axisUp s then s
  else
    match s.tsc.entry n with
    | none => s
    | some e =>
      if e.lockedIn then setResult n (.refused (reasonCode .locked)) s
      else if jobOn n s then setResult n (.refused (reasonCode .busy)) s
      else setResult n .completed { s with tsc := deleteTake n s.tsc }

/-- The result of a LOCK is reported while the job is IDLE (R126). -/
def setIdleResult (n : Byte) (o : TakeOutcome) (s : State) : State :=
  if s.tks.job = .idle then setResult n o s else s

/-- LOCK (R126; in CLOSING R119). -/
def takeLock (n : Byte) (s : State) : State :=
  if !takeNumberOk n || !axisUp s then s
  else
    match s.tsc.entry n with
    | none => s
    | some e =>
      if closingOn n s then setResult n (.refused (reasonCode .busy)) s
      else
        match e.stored with
        | none => setIdleResult n (.refused (reasonCode .busy)) s
        | some t =>
          if t.lockPending then s
          else
            match t.state with
            | .locked => setIdleResult n .completed s
            | .broken => setIdleResult n (.refused (reasonCode .broken)) s
            | .complete =>
              if jobOn n s then setIdleResult n (.refused (reasonCode .busy)) s
              else
                setIdleResult n .completed { s with tsc :=
                  let t := s.tsc.mapStored n fun x => { x with lockPending := true }
                  { t with closeList := t.closeList ++ [.lock n] } }

/-! ### The update's part (R110, R113 to R122) -/

/-- The store-low CUT (R117). -/
def storeLow (s : State) : State :=
  if s.tks.job = .recording ∧ s.tks.storeLowSent = false ∧ fifoRoom s = true then
    let s := queueCommand (.take (.cut s.tks.jobTake (low16 (s.cck.ms + 20)))) s
    { s with tks := { s.tks with storeLowSent := true } }
  else s

/-- TKS acts on what TSC reports while recording (R115, R117). -/
def storeReport (r : StoreReport) (s : State) : State :=
  if r.overrun then abortOwn .recordOverrun s else if r.low then storeLow s else s

/-- The roll time's roll point is this update's result (R113, R114). -/
def atRollPoint (s : State) : Bool :=
  match s.tks.rollTime with
  | some t => low16 s.cck.ms == t - 1
  | none => false

/-- The roll point of a recording (R113). -/
def beginRecording (s : State) : State :=
  let (t, report) := openRecording s.tks.jobTake (s.tks.mask.getD 0) s.mpr.p s.mpr.v s.tsc
  storeReport report
    { s with
      tks := { s.tks with
        job := .recording, t0 := some (s.cck.ms + 1), k := 0, prevMove := some s.mpr.v, marks := [], marksFull := false
        markLate := false, storeLowSent := false, rollTime := none, cutTime := none }
      tsc := t }

/-- The roll point of a playback (R114). -/
def beginPlayback (s : State) : State :=
  requestMode .playback
    { s with tks := { s.tks with
        job := .running, t0 := some (s.cck.ms + 1 - BitVec.ofNat 32 (s.tks.inIndex.getD 0)), rollTime := none } }

/-- The job to CLOSING with its take close (R118, R119, R136). -/
def beginClosing (endPos : Int) (s : State) : State :=
  let marks := s.tks.marks.filterMap fun m =>
    m.at_.map fun x => ({ index := m.index, position := x.1, move := x.2 } : TakeMark)
  let (t, report) := requestClose { length := s.tks.k, endPos := endPos, marks := marks } s.tsc
  if report.overrun then abortOwn .recordOverrun s
  else
    { s with
      tks := { dropPendingMarks s.tks with job := .closing, cutTime := none, prevMove := none }
      tsc := t }

/-- At a result, the distance of the cut time in force from the next update; none without one. It is the difference from the
update just made less 1, so that a cut time as far back as R63 can name is reached at the next result too (R118, R121). -/
def cutDistance (s : State) : Option Int := s.tks.cutTime.map fun c => diff16 c (low16 s.cck.ms) - 1

/-- One recorded update (R115, R116). -/
def recordMove (made : Int) (s : State) : State :=
  let (t, report) := acceptDelta (made - s.tks.prevMove.getD 0) s.tsc
  storeReport report
    { s with
      tks := { s.tks with
        prevMove := some made
        marks := s.tks.marks.map fun m =>
          if m.index = s.tks.k + 1 ∧ m.at_ = none then { m with at_ := some (s.mpr.p, made) } else m
        k := s.tks.k + 1 }
      tsc := t }

/-- A result while RECORDING: the recorded move, then the cut point (R115, R118). -/
def recordingUpdate (r : Result) (s : State) : State :=
  match cutDistance s with
  | some d =>
    if d < 0 then beginClosing (s.mpr.p - r.made) s
    else
      let s := recordMove r.made s
      if d = 0 ∧ s.tks.job = .recording then beginClosing s.mpr.p s else s
  | none => recordMove r.made s

/-- The move of index k that TKS supplies in RUNNING (R120). -/
def suppliedMove (s : State) : Option Int :=
  if s.tks.job = .running then (s.tsc.deltaAt s.tks.k).map (· + s.tks.playMove.getD 0) else none

/-- The job to RUNOUT (R121). -/
def beginRunout (s : State) : State :=
  requestMode .runout { s with tks := { s.tks with job := .runout, cutTime := none } }

/-- The segment list of the take that is played. -/
def playedSegments (s : State) : List Segment :=
  match (s.tsc.entry s.tks.jobTake).bind (·.stored) with
  | some t => t.segments
  | none => []

/-- The cut point of a playback (R121). -/
def playbackCut (s : State) : State :=
  match cutDistance s with
  | some d => if d ≤ 0 then beginRunout s else s
  | none => s

/-- A result while RUNNING (R120, R121). -/
def playbackResult (r : Result) (s : State) : State :=
  match r.play with
  | .deviated => abortOwn .deviated s
  | .noMove => abortOwn .storeRead s
  | .notPlaying => playbackCut s
  | .played m =>
    let endIndex := s.tks.endIndex.getD 0
    let s := { s with
      tks := { s.tks with k := s.tks.k + 1, playMove := some m }
      tsc := tookDelta (playedSegments s) endIndex s.tks.k s.tsc }
    if s.tks.k = endIndex then beginRunout s else playbackCut s

/-- TKS's part of an update, on MPR's result. -/
def takesUpdate (r : Result) (s : State) : State :=
  match s.tks.job with
  | .prepared => if atRollPoint s then beginRecording s else s
  | .cueing =>
    if r.arrival then requestMode .hold { s with tks := { s.tks with job := .cued } } else s
  | .cued => if atRollPoint s then beginPlayback s else s
  | .recording => recordingUpdate r s
  | .running => playbackResult r s
  | .runout =>
    if r.rest then
      let s := jobToIdle s
      { s with tks := { s.tks with outcome := .completed } }
    else s
  | .idle | .closing => s

/-! ### Reports of the take store (R119, R126, R135, R137) -/

/-- The job ends with its close, verified or failed, and nothing is broadcast (R119). -/
def closingEnds (o : TakeOutcome) (s : State) : State :=
  let s := jobToIdle s
  { s with tks := { s.tks with outcome := o } }

/-- STORE-WRITE reported: a recording is aborted and broadcast, a closing ends by itself (R115, R119). -/
def storeWriteFailed (s : State) : State :=
  match s.tks.job with
  | .recording => abortOwn .storeWrite s
  | .closing =>
    closingEnds (.aborted (reasonCode .storeWrite) (ownByte s)) { s with tsc := discardRecording s.tsc }
  | .idle | .prepared | .cueing | .cued | .running | .runout => s

end Sys2Proof.Machine
end

