-- ==== Sys2Proof/Machine/Stops.lean ====
section
/-! DEFINITION. STC: local causes and the own hold, the holder set, the drive state machine, WAKE, PARK, RESUME (06). -/

namespace Sys2Proof.Machine

/-! ### What a stop and a PARK do to HOM (R50) -/

/-- A homing in progress fails: UNHOMED, the reason, the capture disarmed, HOLD requested (R49, R50, R51). -/
def failHoming (r : HomeFail) (s : State) : State :=
  if s.hom.state = .homing then
    requestMode .hold { s with hom :=
      { state := .unhomed, phase := none, seekStart := none, stall := 0, armed := false, outcome := .failed r } }
  else s

/-- STOP handed to HOM, DMR and TKS (R99). -/
def handStop (s : State) : State := handedToTakes .stop (disarm (failHoming .stop s))

/-- PARK handed to HOM, DMR and TKS (R98). -/
def handPark (s : State) : State := handedToTakes .parked (disarm (failHoming .park s))

/-! ### Drive state (R23, R24, R92 to R95) -/

/-- A change of drive state: the follow counter is 0 (R24). -/
def setDrive (d : DriveState) (s : State) : State :=
  { s with stc := { s.stc with drive := d }, svo := { s.svo with follow := 0 } }

/-- Entry to STOPPED (R92, R3): drive output 0, MPR tracks, the settle count is 0 (log 49); leaving ENABLED hands STOP on (R99). -/
def enterStopped (s : State) : State :=
  let left := s.stc.drive
  let s := setDrive .stopped s
  let s := track { s with
    stc := { s.stc with settle := 0, parkPending := false }
    svo := { s.svo with u := 0 } }
  if left = .enabled then handStop s else s

/-- Entry to PARKED (R4, R13, R98): no motion is left, the mode is HOLD, the settle count is 0 (log 49). -/
def enterParked (s : State) : State :=
  let s := setDrive .parked (if s.stc.drive = .enabled then disarm s else s)
  { s with
    stc := { s.stc with settle := 0, parkPending := false }
    svo := { s.svo with u := 0 }
    mpr := { s.mpr with v := 0, mode := .hold, g := none } }

/-- A node in STOPPED with no stop in force goes to PARKED (R95). -/
def leaveStopped (s : State) : State :=
  if s.stc.drive = .stopped ∧ stopInForce s = false then enterParked s else s

/-- The end of STOPPING (R94): to PARKED with park pending, to STOPPED otherwise; MPR tracks. -/
def endStopping (s : State) : State :=
  if s.stc.parkPending then enterParked (track s) else leaveStopped (enterStopped s)

/-- Entry to STOPPING (R93, R99), which ends at once where the stored move is 0 (R94). -/
def enterStopping (s : State) : State :=
  let s := setDrive .stopping s
  let s := handStop { s with mpr := { s.mpr with mode := .hold, g := none } }
  if s.mpr.v = 0 then endStopping s else s

/-- The drive state follows the stops in force (R92, R93, R95). -/
def reactStops (s : State) : State :=
  leaveStopped
    (if hardInForce s then
      match s.stc.drive with
      | .waking | .enabled | .stopping => enterStopped s
      | .parked | .stopped => s
    else if stopInForce s then
      match s.stc.drive with
      | .waking => enterStopped s
      | .enabled => enterStopping s
      | .parked | .stopping | .stopped => s
    else s)

/-! ### The own hold (R88) -/

/-- The own hold formed of the causes present, with a STOP queued for it (R88, R101). -/
def holdAgain (s : State) : State :=
  match formHold (localCauses s) with
  | some h => queueSafety (.stop h.kind h.code) { s with stc := { s.stc with hold := some h } }
  | none => s

/-- The hold as an arising cause leaves it: begun, escalated, or as it was (R88). -/
def holdFor (c : Cause) (s : State) : State :=
  match s.stc.hold with
  | none => holdAgain s
  | some h =>
    if h.kind = .ramp ∧ causeKind c = .hard then
      queueSafety (.stop .hard (some c)) { s with stc := { s.stc with hold := some { kind := .hard, code := some c } } }
    else s

/-- A cause arises (R88, R92, R93). -/
def causeArises (c : Cause) (s : State) : State := reactStops (holdFor c s)

/-- A cause is raised by the change f; one already present does not arise again (R85). -/
def raiseCause (c : Cause) (f : State → State) (s : State) : State :=
  if causePresent s c then f s else causeArises c (f s)

/-- OVERRUN is raised (R11, R14). -/
def raiseOverrun (s : State) : State :=
  raiseCause .overrun (fun s => { s with stc := { s.stc with overrunLatch := true } }) s

/-- FOLLOW-ERROR is raised (R24). -/
def raiseFollow (s : State) : State :=
  raiseCause .followError (fun s => { s with
    stc := { s.stc with followLatch := true }, svo := { s.svo with follow := 0 } }) s

/-- HALT is set where its condition is found present (R87). -/
def raiseHalt (s : State) : State :=
  if causeCondition s .halt then
    raiseCause .halt (fun s => { s with stc := { s.stc with haltLatch := true } }) s
  else s

/-- LINK-FAULT is raised (R161). -/
def raiseLinkFault (s : State) : State :=
  raiseCause .linkFault (fun s => { s with lnk := { s.lnk with linkFault := true } }) s

/-- The lost set of an update is formed, and PEER-LOST arises with it (R60). -/
def raisePeerLost (f : State → State) (s : State) : State :=
  let t := f s
  if !causePresent s .peerLost && causePresent t .peerLost then causeArises .peerLost t else t

/-- The stop chain line opens (R86). -/
def openChain (s : State) : State :=
  raiseCause .chain (fun s => { s with stc := { s.stc with chainOpen := true } }) s

/-- A hold begun in one event names the first cause present at that event (R88). -/
def settleHold (before : State) (s : State) : State :=
  if before.stc.hold = none ∧ s.stc.hold ≠ none ∧ s.stc.hold ≠ formHold (localCauses s) then reactStops (holdAgain s)
  else s

/-! ### The holder set (R89, R90) -/

/-- The holder entry of another station is set or removed; the own station's is never (R89, R90). While the own number is not
known, every number is another station's (log 47). -/
def setHolder (st : Station) (h : Option Hold) (s : State) : State :=
  if isOwn st s ∨ st = 0 then s
  else reactStops { s with stc := { s.stc with holders := s.stc.holders.set st h } }

/-! ### RESUME (R100, R101) -/

/-- The RESUME of a station is accepted (R100). -/
def resumeAccepted (st : Station) (s : State) : Bool :=
  match (peerEntry s st).items with
  | some i => i.role == .control
  | none => false

/-- Latched causes whose condition is absent are cleared (R101). HALT is judged by the input's sample of the last update (R87,
log 62). -/
def clearLatches (s : State) : State :=
  { s with stc := { s.stc with
      followLatch := false, overrunLatch := false, haltLatch := s.stc.haltLatch && causeCondition s .halt } }

/-- An accepted RESUME (R101). -/
def resumeStops (s : State) : State :=
  let s := clearLatches s
  if s.stc.hold.isNone then s
  else if (localCauses s).isEmpty then
    reactStops (queueSafety .release { s with stc := { s.stc with hold := none } })
  else reactStops (holdAgain s)

/-! ### WAKE and PARK (R96 to R98) -/

/-- The conditions of a WAKE in PARKED (R96). -/
def wakeAccepted (s : State) : Bool :=
  !stopInForce s && (localCauses s).isEmpty && rigReady s && axisUp s && !writeInProgress s

/-- A WAKE taken by an AXIS node it names (R96). -/
def takeWake (mask : StationMask) (s : State) : State :=
  if isAxis s && namesOwn mask s then
    match s.stc.drive with
    | .parked =>
      if wakeAccepted s then
        let s := setDrive .waking s
        { s with
          stc := { s.stc with settle := 0, wakeRefused := false }
          mpr := { s.mpr with mode := .hold, g := none } }
      else { s with stc := { s.stc with wakeRefused := true } }
    | .stopping | .stopped => { s with stc := { s.stc with wakeRefused := true } }
    | .waking | .enabled => s
  else s

/-- A PARK taken by an AXIS node it names (R98). -/
def takePark (mask : StationMask) (s : State) : State :=
  if isAxis s && namesOwn mask s then
    match s.stc.drive with
    | .waking => enterParked (handPark s)
    | .enabled =>
      let s := handPark s
      if s.mpr.v = 0 then enterParked s
      else requestMode .hold { s with stc := { s.stc with parkPending := true } }
    | .stopping =>
      let s := handPark s
      { s with stc := { s.stc with parkPending := true } }
    | .parked | .stopped => s
  else s

/-- The end of WAKING (R97): ENABLED, MPR tracks once more, the mode is HAND, the route is disarmed. -/
def endWaking (s : State) : State :=
  let s := track (disarmRoute (setDrive .enabled s))
  { s with mpr := { s.mpr with mode := .hand } }

/-- The settle count of an update (R97); it stays at 120 in ENABLED, to the next PARKED or STOPPED (log 49). -/
def wakingUpdate (s : State) : State :=
  if s.stc.drive = .waking then
    let s := { s with stc := { s.stc with settle := s.stc.settle + 1 } }
    if Config.settleEnd ≤ s.stc.settle then endWaking { s with stc := { s.stc with settle := Config.settleEnd } } else s
  else s

/-- STC's part of a result: rest ends STOPPING and completes a park (R94, R98). -/
def restUpdate (r : Result) (s : State) : State :=
  if r.rest then
    match s.stc.drive with
    | .stopping => endStopping s
    | .enabled => if s.stc.parkPending then enterParked s else s
    | .parked | .waking | .stopped => s
  else s

end Sys2Proof.Machine
end

