-- ==== Sys2Proof/Machine/Homing.lean ====
section
/-! DEFINITION. HOM: the HOME frame, the three modes, capture, stall, completion and failure (03). -/

namespace Sys2Proof.Machine

/-- The home modes by code (R41, R183). -/
inductive HomeMode | switch | hardStop | preset
deriving DecidableEq, Repr

def homeMode (s : State) : HomeMode :=
  match param s (fun b => b.homeMode) with
  | 0 => .switch
  | 1 => .hardStop
  | _ => .preset

/-- MPR's clamp when the axis has become homed (R14). -/
def clampHomed (s : State) : State :=
  if s.mpr.p < travelLo s ∨ travelHi s < s.mpr.p then
    raiseOverrun (setLimitFlags { s with mpr := { s.mpr with
      p := clampInt (travelLo s) (travelHi s) s.mpr.p, v := 0 } })
  else s

/-- The homing is done: HOMED, outcome DONE, the capture disarmed, then R14 (R20, R44, R46, R48). -/
def becomeHomed (s : State) : State :=
  clampHomed { s with hom :=
    { state := .homed, phase := none, seekStart := none, stall := 0, armed := false, outcome := .done } }

/-- The seek of a SWITCH or HARD-STOP homing begins (R43): the capture is armed for a SWITCH, the follow counter is 0 (R24). -/
def startSeek (capture : Bool) (s : State) : State :=
  requestMode .homing { s with
    svo := { s.svo with follow := 0 }
    hom :=
      { state := .homing, phase := some .seek, seekStart := some s.mpr.p, stall := 0, armed := capture, outcome := .none } }

/-- The homing starts by the home mode (R43, R44). -/
def startHoming (s : State) : State :=
  match homeMode s with
  | .preset => becomeHomed (originChange (homeOrigin s) s)
  | .switch => startSeek true s
  | .hardStop => startSeek false s

/-- A HOME frame (R42). -/
def takeHome (mask : StationMask) (s : State) : State :=
  if axisUp s && namesOwn mask s then
    if s.hom.state = .homing then s
    else if s.stc.drive = .enabled ∧ s.stc.parkPending = false then
      if s.tks.job = .idle then startHoming s
      else { s with hom := { s.hom with outcome := .refused .busy } }
    else { s with hom := { s.hom with outcome := .refused .notEnabled } }
  else s

/-- The switch edge latched while the capture is armed (R20, R45). -/
def captureEdge (s : State) : State :=
  if s.hom.armed then
    let s := requestMode .hold (originChange (homeOrigin s) s)
    { s with hom := { s.hom with armed := false, phase := some .decel, seekStart := none } }
  else s

/-- The back-off target on the new origin (R47). -/
def backOffTarget (s : State) : Int :=
  if param s (fun b => b.homeDirection) = 0 then (param s (·.homeOffset) - param s (fun b => b.backOff)) * 256
  else (param s (·.homeOffset) + param s (fun b => b.backOff)) * 256

/-- The stall counter of an update in SEEK (R47). -/
def stallCount (s : State) : Nat :=
  if param s (fun b => b.stallThreshold) * 256 < |s.svo.err| then s.hom.stall + 1 else 0

/-- The stall (R47). -/
def stalled (s : State) : State :=
  let s := requestGoto (backOffTarget s) (originChange (homeOrigin s) s)
  { s with hom := { s.hom with stall := 0, phase := some .backOff, seekStart := none } }

/-- The seek has gone further than home_max_travel (R49). -/
def travelExceeded (s : State) : Bool :=
  decide (param s (fun b => b.homeMaxTravel) * 256 < |s.mpr.p - s.hom.seekStart.getD s.mpr.p|)

/-- The travel test of an update in SEEK (R49). -/
def travelUpdate (s : State) : State := if travelExceeded s then failHoming .travel s else s

/-- HOM's part of an update, on MPR's result and SVO's error (R46 to R49). -/
def homingUpdate (r : Result) (s : State) : State :=
  if s.hom.state = .homing then
    match s.hom.phase with
    | some .seek =>
      if homeMode s = .hardStop then
        let n := stallCount s
        if Config.stallTrip ≤ n then stalled s
        else travelUpdate { s with hom := { s.hom with stall := n } }
      else travelUpdate s
    | some .decel => if r.rest then becomeHomed s else s
    | some .backOff => if r.arrival then becomeHomed (requestMode .hold s) else s
    | none => s
  else s

/-- HOM and TKS at the ENCODER-FAULT (R51). -/
def faultHoming (s : State) : State :=
  let s :=
    match s.hom.state with
    | .homing => failHoming .encoder s
    | .homed => { s with hom := { s.hom with state := .unhomed } }
    | .unhomed => s
  abortRunning .stop s

/-- An illegal encoder transition (R19, R51); the drive change or the fault is taken first (log 6). -/
def encoderFault (driveFirst : Bool) (s : State) : State :=
  let set (s : State) : State := { s with svo := { s.svo with encFault := true, clean := 0 } }
  if s.svo.encFault then set s
  else if driveFirst then faultHoming (causeArises .encoderFault (set s))
  else causeArises .encoderFault (faultHoming (set s))

/-- A quadrature transition of the encoder (R18, R19); in STRAPS, with the role not known, it is taken as an axis takes it (log 31). -/
def encoderStep (q : QuadStep) (driveFirst : Bool) (s : State) : State :=
  if isControl s then s
  else
    match q with
    | .plus => { s with svo := { s.svo with raw := s.svo.raw + 1 } }
    | .minus => { s with svo := { s.svo with raw := s.svo.raw - 1 } }
    | .illegal => encoderFault driveFirst s

/-- A clean update while the condition is present; the 1,000th ends it (R19), and the count stays at 1,000 (log 55). -/
def cleanUpdate (s : State) : State :=
  if s.svo.encFault then
    if Config.cleanUpdates ≤ s.svo.clean + 1 then
      { s with svo := { s.svo with encFault := false, clean := Config.cleanUpdates } }
    else { s with svo := { s.svo with clean := s.svo.clean + 1 } }
  else s

end Sys2Proof.Machine
end

