-- ==== Sys2Proof/Machine/Start.lean ====
section
/-! DEFINITION. CFG: straps, identification, the block's checks, the scan's place in the sequence, START and RESTART (10). -/

namespace Sys2Proof.Machine

/-! ### The range check (R172, with R34, R41, R72 and the route table of 02) -/

def item (n : ItemName) : FailingItem := { name := n, index := none }

def itemAt (n : ItemName) (i : Nat) : FailingItem := { name := n, index := some i }

/-- The first failing item of a list of tests, in order. -/
def firstFailing : List (Bool × FailingItem) → Option FailingItem
  | [] => none
  | (ok, f) :: rest => if ok then firstFailing rest else some f

def inRange (a b x : Int) : Bool := decide (a ≤ x ∧ x ≤ b)

/-- The least and the greatest count. -/
def countMin : Int := -268435456
def countMax : Int := 268435455

/-- Orders 3 to 7 of R172. -/
def motionTests (b : Block) : List (Bool × FailingItem) :=
  [ (inRange countMin countMax b.lo, item .lo), (inRange countMin countMax b.hi && decide (b.lo < b.hi), item .hi),
    (inRange 1 8388607 b.vMax, item .vMax), (inRange 1 16383 b.aMax, item .aMax),
    (inRange b.aMax 65535 b.aStop, item .aStop),
    (inRange 1 b.vMax b.vGoto, item .vGoto), (inRange 1 b.vMax b.vHome, item .vHome),
    (inRange 1 1000000 b.followMax, item .followMax) ]

/-- Order 8 of R172 (R41). -/
def homingTests (b : Block) : List (Bool × FailingItem) :=
  [ (inRange 0 2 b.homeMode, item .homeMode), (inRange 0 1 b.homeDirection, item .homeDirection),
    (inRange countMin countMax b.homeOffset, item .homeOffset), (inRange 1 countMax b.homeMaxTravel, item .homeMaxTravel),
    (inRange 1 1000000 b.stallThreshold, item .stallThreshold),
    (b.homeMode != 1 || inRange 0 1000000 b.backOff, item .backOff) ]

/-- Order 9 of R172: each item of the route table, f_min with or without a coupling source (log 17). -/
def routeTests (b : Block) : List (Bool × FailingItem) :=
  [ (b.routePresent == 1, item .routePresent), (inRange 1 15 b.source, item .routeSource),
    (inRange 0 3 b.channel, item .routeChannel), (inRange 0 2047 b.deadband, item .routeDeadband),
    (inRange 0 1 b.invert, item .routeInvert), (inRange 0 15 b.coupling, item .routeCoupling),
    (inRange 64 4096 b.fMin, item .routeFMin) ]

/-- The lens points from index i on: each position above the one before, each factor in range (R34). -/
def lensTests : Nat → Option Int → List LensPoint → List (Bool × FailingItem)
  | _, _, [] => []
  | i, before, x :: xs =>
    [ (match before with | some p => decide (p < x.pos) | none => true, itemAt .lensPosition i),
      (inRange 64 4096 x.factor, itemAt .lensFactor i) ] ++ lensTests (i + 1) (some x.pos) xs

/-- Order 10 of R172. -/
def lensTableTests (b : Block) : List (Bool × FailingItem) :=
  (inRange 2 16 b.lensCount, item .lensCount) :: lensTests 0 none b.lens

/-- Order 11 of R172. -/
def channelTests (b : Block) : List (Bool × FailingItem) :=
  [ (inRange 0 1 b.channelKinds[0], itemAt .channelKind 0), (inRange 0 1 b.channelKinds[1], itemAt .channelKind 1),
    (inRange 0 1 b.channelKinds[2], itemAt .channelKind 2), (inRange 0 1 b.channelKinds[3], itemAt .channelKind 3) ]

/-- The three items of a zone's axis (R72); an lo above hi is charged to hi (log 17). -/
def zoneAxisTests (station : Nat) (lo hi : Int) (stationItem loItem hiItem : FailingItem) : List (Bool × FailingItem) :=
  [ (inRange 1 15 station, stationItem), (inRange countMin countMax lo, loItem),
    (inRange countMin countMax hi && decide (lo ≤ hi), hiItem) ]

/-- The zone entries from index i on; seen are the numbers before (R72). No rule says from which number the entries count; the
model counts them from 0, as the lens points and the channels (log 17). -/
def zoneTests : Nat → List Nat → List ZoneEntry → List (Bool × FailingItem)
  | _, _, [] => []
  | i, seen, z :: zs =>
    [ (inRange 1 8 z.number && !seen.contains z.number, itemAt .zoneNumber i),
      (inRange 1 15 z.sensorStation, itemAt .zoneSensorStation i), (inRange 0 3 z.sensorInput, itemAt .zoneSensorInput i) ] ++
    zoneAxisTests z.aStation z.aLo z.aHi (itemAt .zoneAxisAStation i) (itemAt .zoneAxisALo i) (itemAt .zoneAxisAHi i) ++
    [(inRange 0 1 z.bPresent, itemAt .zoneAxisBPresent i)] ++
    (if z.bPresent = 0 then []
      else zoneAxisTests z.bStation z.bLo z.bHi (itemAt .zoneAxisBStation i) (itemAt .zoneAxisBLo i) (itemAt .zoneAxisBHi i)) ++
    [(maskOk z.members, itemAt .zoneMembers i)] ++ zoneTests (i + 1) (z.number :: seen) zs

/-- Order 12 of R172. -/
def zoneTableTests (b : Block) : List (Bool × FailingItem) :=
  (inRange 0 8 b.zoneCount, item .zoneCount) :: zoneTests 0 [] b.zones

/-- The items checked for a role, in the order of R172. -/
def blockTests (role : Role) (b : Block) : List (Bool × FailingItem) :=
  [(b.role == roleCode role, item .role)] ++
  (match role with
    | .axis =>
      [(inRange 0 9 b.axisKind, item .axisKind)] ++ motionTests b ++ homingTests b ++ routeTests b ++
        (if b.axisKind = 9 then lensTableTests b else [])
    | .control => channelTests b) ++
  zoneTableTests b ++ [(maskOk b.expected, item .expectedMask)]

/-- The failing item of a block for a role; none: it passes (R172). -/
def checkBlock (role : Role) (b : Block) : Option FailingItem := firstFailing (blockTests role b)

/-! ### The start states (R168 to R174) -/

/-- CONFIG-FAULT with its reason and failing item (R174). -/
def configFault (r : FaultReason) (f : Option FailingItem) (s : State) : State :=
  { s with cfg := { s.cfg with startState := .configFault, faultReason := some r, failingItem := f } }

/-- The straps are sampled (R169); STORE-ID begins with an erase resume (R170). A holder entry that a frame of STRAPS set
for the own number stays (log 47). -/
def readStraps (inp : UpdateInputs) (s : State) : State :=
  let s := { s with cfg := { s.cfg with
    station := some inp.straps, role := some (if inp.roleHigh then .control else .axis), startState := .storeId } }
  if inp.straps = 0 then configFault .station none s
  else { s with cfg := { s.cfg with resumeIssued := true } }

/-- STORE-ID waits for TSC's operation in flight, then polls (R170). -/
def storeIdPolls (s : State) : Bool :=
  s.cfg.startState == .storeId && !s.cfg.identIssued && !s.tsc.draining

/-- The memory reports not busy after the erase resume: an erase it still held has run to its end (R170). -/
def finishErase (s : State) : State :=
  match s.cfg.heldErase with
  | some sector => { s with flash := memErase s.flash sector, cfg := { s.cfg with heldErase := none } }
  | none => s

/-- One poll of the memory's status (R170); after a RESTART the erase resume goes before the first. -/
def pollStore (inp : UpdateInputs) (s : State) : State :=
  if storeIdPolls s then
    let s := { s with cfg := { s.cfg with
      resumeIssued := true, storeIdPolls := s.cfg.storeIdPolls + 1, identIssued := !inp.storeBusy } }
    if inp.storeBusy then
      if Config.storeIdPolls ≤ s.cfg.storeIdPolls then configFault .absent none s else s
    else finishErase s
  else s

/-- CFG's part of an update: STRAPS ends at the first, STORE-ID polls at each (R169, R170). -/
def startUpdate (inp : UpdateInputs) (s : State) : State :=
  if s.cfg.startState = .straps then readStraps inp s else pollStore inp s

/-- The identification answer is judged (R170). Three bytes 0xFF or 0x00 are no answer and are held as read (log 63). -/
def judgeIdentification (b0 b1 b2 : Byte) (s : State) : State :=
  if s.cfg.startState = .storeId ∧ s.tsc.draining = false then
    let s := finishErase { s with cfg := { s.cfg with
      resumeIssued := true, identIssued := true, identAnswer := some { b0 := b0, b1 := b1, b2 := b2 } } }
    if b2 = 24 then
      { s with
        cfg := { s.cfg with startState := .configLoad }
        tsc := { s.tsc with unit := .reading .config, opAge := 0 } }
    else configFault .absent none s
  else s

/-- The blocks take their items from an image that has passed (R172, R173). -/
def handParameters (b : Block) (s : State) : State :=
  let s := { s with cfg := { s.cfg with params := some b } }
  if isControl s then { s with cfg := { s.cfg with startState := .run } }
  else
    { s with
      cfg := { s.cfg with startState := .scan }
      dmr := { s.dmr with factor := if b.coupling = 0 then 4096 else b.fMin }
      zmn := { s.zmn with memberCap := b.vMax }
      tsc := { s.tsc with unit := .reading .scan, scanNext := 1, opAge := 0 } }

/-- The image is held, and TSC's read has ended (R171). -/
def holdImage (bs : List Byte) (s : State) : State :=
  { s with cfg := { s.cfg with image := some bs }, tsc := { s.tsc with unit := .idle } }

/-- The block's bytes have been read: integrity, ranges, and what follows (R171, R172). -/
def loadBlock (bs : List Byte) (s : State) : State :=
  if blockIntact bs then
    match checkBlock (s.cfg.role.getD .axis) (readBlock bs) with
    | some f => configFault .range (some f) (holdImage bs s)
    | none => handParameters (readBlock bs) (holdImage bs s)
  else configFault .check none (holdImage bs s)

/-- The read of sector 0 ends (R171). -/
def configLoaded (seen : Option (List Byte)) (s : State) : State :=
  if s.cfg.startState = .configLoad then loadBlock (seenOr seen (memRun s.flash 0 Config.blockBytes)) s else s

/-- A read of the scan ends (R148). -/
def scanRead (seen : Option (List Byte)) (s : State) : State :=
  if s.cfg.startState = .scan ∧ s.tsc.scanNext ≤ Config.lastSector then
    let c := s.tsc.scanNext
    let t := scanSector c (seenOr seen (memRun s.flash (memAddress c 0 0) Config.pageBytes)) s.tsc
    { s with tsc := { t with unit := if t.scanNext ≤ Config.lastSector then .reading .scan else .idle } }
  else s

/-- The scan has ended: assembly and resolution, then PARKED (R149, R150, R173). -/
def scanEnded (s : State) : State :=
  if s.cfg.startState = .scan then
    startWork { s with
      cfg := { s.cfg with startState := .parked }
      tsc := { resolveScan (scanRest s.flash Config.lastSector s.tsc) with unit := .idle } }
  else s

/-! ### The two resets (R168, R176 and the table of 10) -/

/-- The operation that the memory itself still runs: none once status has reported it ended (R127). -/
def memoryUnit (t : Tsc) : FlashUnit := if t.reported then .idle else t.unit

/-- The sector under erase in the memory: TSC's, else one held from before a START (R127, R170). -/
def sectorInErase (s : State) : Option Nat :=
  match memoryUnit s.tsc with
  | .erasing sector _ | .suspended sector _ => some sector
  | .idle | .reading _ | .programming _ => s.cfg.heldErase

/-- A memory that keeps its power ends the operation in flight by itself; a suspended erase waits for its resume (R170). -/
def endInMemory (u : FlashUnit) (m : Memory) : Memory :=
  match u with
  | .programming p => memStore m p.address (programmed (memRun m p.address p.data.length) p.data)
  | .erasing sector false => memErase m sector
  | .erasing _ true | .suspended _ _ | .idle | .reading _ => m

/-- The erase that a memory with power still holds at a START: one that TSC has suspended or told to, or one held before. -/
def stillHeld (s : State) : Option Nat :=
  match memoryUnit s.tsc with
  | .erasing sector true | .suspended sector _ => some sector
  | .erasing _ false | .programming _ => none
  | .idle | .reading _ => s.cfg.heldErase

/-- What a power loss leaves of the operation in flight (R127, R151, log 9). -/
def cutShort (left : Option (List Byte)) (s : State) : Memory :=
  match sectorInErase s with
  | some sector => leaveMemory left (.erasing sector false) s.flash
  | none => leaveMemory left (memoryUnit s.tsc) s.flash

/-- A write of sector 0 is in flight, and the memory does not yet hold all of it (R182). -/
def blockCut (s : State) (m : Memory) : Bool :=
  match s.tsc.unit with
  | .erasing sector _ | .suspended sector _ => sector == 0
  | .programming p =>
    match p.work with
    | .config i => i != 1 || memRun m p.address p.data.length != p.data
    | _ => false
  | .idle | .reading _ => false

/-- A CONFIG-WRITE cut short by a power loss leaves a block that fails its check (R171, R182); bytes given that would pass are
not such a loss, and the sector is then left erased (log 9). -/
def lostMemory (left : Option (List Byte)) (s : State) : Memory :=
  let m := cutShort left s
  if blockCut s m && blockIntact (memRun m 0 Config.blockBytes) then memErase m 0 else m

/-- START: every block at its START values; the take memory is what it was left as (R151, R170, log 9). R156 has every slot empty
at START, and R88 queues the STOP of a chain that reads open as soon as LNK can send: the model queues it in the START event,
and it waits in its slot to the end of STRAPS (R153, log 65). -/
def startPart (chainOpen : Bool) (memory : MemoryPower) (s : State) : State :=
  let fresh : State := { State.reset with
    cfg := { Cfg.start with heldErase := match memory with | .kept => stillHeld s | .lost _ => none }
    flash := match memory with | .kept => endInMemory (memoryUnit s.tsc) s.flash | .lost left => lostMemory left s
    freeCount := s.freeCount
    pending := s.pending }
  if chainOpen then openChain fresh else fresh

/-- A RESTART request is accepted (R175). -/
def restartAccepted (s : State) : Bool :=
  ((s.cfg.startState == .parked && s.stc.drive == .parked) || s.cfg.startState == .run || s.cfg.startState == .configFault)
    && !writeInProgress s

/-- STC at a RESTART (R84, R86). -/
def Stc.restart (t : Stc) : Stc :=
  { t with
    drive := .parked, settle := 0, parkPending := false, companionHalt := false, wakeRefused := false
    followLatch := false, haltLatch := false, overrunLatch := false, hold := none }

/-- ZMN at a RESTART (R73, R74): the filters are as at START; the raw samples stand as last taken. -/
def Zmn.restart (z : Zmn) : Zmn :=
  { Zmn.start 0 with filters := vmap (fun f => { CrewFilter.start with raw := f.raw }) z.filters }

/-- LNK at a RESTART: slots emptied; a transmission in flight runs on, cut off from the node's blocks (R156, R161). -/
def Lnk.restart (l : Lnk) : Lnk :=
  { l with
    safety := none, fifo := [], demand := none, status := none
    tx := l.tx.map fun t => { t with orphan := true } }

/-- CPT at a RESTART (R178, R180, R182). -/
def Cpt.restart (c : Cpt) : Cpt :=
  { c with rxQueue := [], copying := false, writeState := .idle, writeBuffer := none }

/-- CFG at a RESTART (R168, R176). -/
def Cfg.restart (c : Cfg) : Cfg :=
  let zero : Bool := c.station == some 0
  { c with
    startState := if zero then .configFault else .storeId
    faultReason := if zero then some .station else none
    failingItem := none, image := none, params := none, restartCount := c.restartCount + 1
    storeIdPolls := 0, identIssued := false, resumeIssued := false }

/-- An accepted RESTART (R176): the hold is formed again and a STOP queued for it (R84). -/
def restartPart (s : State) : State :=
  holdAgain { s with
    cfg := s.cfg.restart
    chan := Chan.start
    dmr := Dmr.start 4096
    mpr := Mpr.start (measured s * 256)
    svo := { s.svo with follow := 0, u := 0, err := 0 }
    hom := Hom.start
    zmn := s.zmn.restart
    stc := s.stc.restart
    tks := Tks.start
    tsc := restartStore s.tsc
    lnk := s.lnk.restart
    cpt := s.cpt.restart }

/-- A RESTART request (R175). -/
def requestRestart (s : State) : State :=
  if restartAccepted s then restartPart s
  else { s with cfg := { s.cfg with refusedRestarts := satInc 255 s.cfg.refusedRestarts } }

end Sys2Proof.Machine
end

