-- ==== Sys2Proof/Machine/Link.lean ====
section
/-! DEFINITION. LNK and what it hands over: the receive queue, each frame's blocks, attempts, errors, completions (09; R180). -/

namespace Sys2Proof.Machine

/-! ### Delivery (R164, R180) -/

/-- The bit of the receive filter a kind has (R180). -/
def filterTakes (filter : BitVec 11) (b : Body) : Bool := filter.getLsbD b.place

/-- The receive-queue entry of a frame (R180). -/
def entryOf (f : Frame) (own : Bool) (captured : CraneTime) : RxEntry :=
  { header := BitVec.ofNat 10 f.header, own := own, time := captured.stamp, payload := f.body.bytes }

/-- A frame joins the receive queue where its kind is in the filter, or is dropped and counted (R180). -/
def joinQueue (f : Frame) (own : Bool) (captured : CraneTime) (s : State) : State :=
  if filterTakes s.cpt.filter f.body then
    if s.cpt.rxQueue.length < Config.rxPlaces then
      { s with cpt := { s.cpt with rxQueue := s.cpt.rxQueue ++ [entryOf f own captured] } }
    else { s with cpt := { s.cpt with overflow := satInc 65535 s.cpt.overflow } }
  else s

/-- A DEMAND is recorded, and DMR takes the route's channel (R57, R29). -/
def recordDemand (st : Station) (d : DemandItems) (s : State) : State :=
  if isOwn st s && !isControl s then s
  else
    takeDemand st d { s with ptb := { s.ptb with demands := s.ptb.demands.set st { items := some d, age := 0 } } }

/-- A STATUS that names the own station and is not the node's own is counted (R55). -/
def countDuplicate (s : State) : State := { s with ptb := { s.ptb with duplicates := satInc 255 s.ptb.duplicates } }

/-- A STATUS of another station is recorded: PTB, CCK and STC act on it; one in the own name is counted (R55, R90). While
the own number is not known, every number is another station's (log 47). -/
def receiveStatus (own : Bool) (st : Station) (i : StatusItems) (captured : CraneTime) (s : State) : State :=
  if own then s
  else if isOwn st s then countDuplicate s
  else
    setHolder st i.hold
      (clockHears (offsetOf i.stamp captured) (i.timeState != .unset) (recordStatus st i captured s))

/-- A TAKE handed to TKS, which ignores a subkind outside 0..6 (R105, R183). -/
def handTake (own : Bool) (c : TakeCmd) (s : State) : State :=
  match c with
  | .prepare n m => takePrepare n m s
  | .cue n m i o => takeCue n m i o s
  | .roll n t => takeRoll n t s
  | .cut n t => takeCut n t s
  | .abort n r o => takeAbort own n r o s
  | .delete n => takeDelete n s
  | .lock n => takeLock n s
  | .unnamed _ _ _ => s

/-- The block that acts on each kind (table of R164). -/
def handBlocks (own : Bool) (f : Frame) (captured : CraneTime) (s : State) : State :=
  match f.body with
  | .stop k c => setHolder f.station (some { kind := k, code := c }) s
  | .release => setHolder f.station none s
  | .resume => if resumeAccepted f.station s then resumeStops s else s
  | .wake m => takeWake m s
  | .park m => takePark m s
  | .home m => takeHome m s
  | .restart m => if namesOwn m s then requestRestart s else s
  | .take c => handTake own c s
  | .mark t => takeMark t s
  | .demand d => recordDemand f.station d s
  | .status i => receiveStatus own f.station i captured s

/-- PTB takes a frame of station 0: recorded in no entry; a node of station 0 counts a STATUS it has not sent (R55, R164). -/
def handZero (own : Bool) (b : Body) (s : State) : State :=
  match b with
  | .status _ => if !own && isOwn 0 s then countDuplicate s else s
  | _ => s

/-- A frame handed over, a received one or the node's own (R160, R164); station 0 reaches PTB and CPT only. -/
def handFrame (own : Bool) (f : Frame) (captured : CraneTime) (s : State) : State :=
  let s := joinQueue f own captured s
  if f.station = 0 then handZero own f.body s else handBlocks own f captured s

/-- The crane time of the frame in progress: that captured at its start bit (R64, log 27). -/
def capturedTime (s : State) : CraneTime := s.lnk.capture.getD (now s)

/-- A frame received from the line is delivered at its last end bit (R164). -/
def deliver (st : Station) (b : Body) (s : State) : State :=
  startWork (handFrame false { station := st, body := b } (capturedTime s)
    { s with lnk := { s.lnk.frameEnd with receiving := false } })

/-! ### Attempts (R157 to R159) -/

/-- The frame offered: the lowest header among the slots; a node of station 0 offers STATUS only (R157). -/
def offered (s : State) : Option (TxSlot × Body) :=
  let status := s.lnk.status.map fun i => (TxSlot.status, Body.status i)
  if s.cfg.station = some 0 then status
  else
    match s.lnk.safety, s.lnk.fifo, s.lnk.demand with
    | some b, _, _ => some (.safety, b)
    | none, b :: _, _ => some (.command, b)
    | none, [], some d => some (.demand, .demand d)
    | none, [], none => status

/-- LNK may start a transmission: STRAPS has ended, the line is idle, no fault pause runs (R153, R161). -/
def mayTransmit (s : State) : Bool :=
  s.lnk.free && s.lnk.idle && !s.lnk.faultPause && s.cfg.startState != .straps && s.cfg.station.isSome

/-- The items a STATUS attempt takes at its start bit (R157). -/
def stamped (s : State) : Body → Body
  | .status i => .status (stampStatus s i)
  | b => b

/-- The start bit of an attempt (R157). -/
def sendStartBit (s : State) : State :=
  match offered s with
  | none => s
  | some (slot, b) =>
    if mayTransmit s then
      let tx : Tx :=
        { slot := slot, frame := { station := ownStation s, body := stamped s b }, start := now s, refilled := false
          orphan := false }
      { s with lnk := { s.lnk.startBit with tx := some tx } }
    else s

/-- An attempt on the line as it has been read (R153, R157). -/
def startAttempt (line : List Bool) (s : State) : State := sendStartBit (hearLine line s)

/-- Arbitration lost: the node receives the frame whose start bit it captured with its own (R158). -/
def loseArbitration (s : State) : State :=
  match s.lnk.tx with
  | some t => { s with lnk := { s.lnk with tx := none, receiving := true, capture := some t.start } }
  | none => s

/-- An attempt has ended in a bit error: the counts, and the frame stays in its slot (R159, R167). -/
def countBitError (l : Lnk) : Lnk :=
  { l with
    tx := none
    bitErrors := satInc 255 l.bitErrors
    bitErrorTotal := satInc 65535 l.bitErrorTotal }

/-- While LINK-FAULT is present the fault pause applies (R161). -/
def applyPause (s : State) : State :=
  if s.lnk.linkFault then { s with lnk := { s.lnk with faultPause := true, pauseCount := 0 } } else s

/-- A bit error of the attempt in flight: it ends, and the error flag begins at the next bit (R159, R161). -/
def failAttempt (s : State) : State :=
  match s.lnk.tx with
  | none => s
  | some _ =>
    let s := { s with lnk := { countBitError s.lnk with errorFlag := Config.flagBits } }
    applyPause (if Config.linkFaultErrors ≤ s.lnk.bitErrors then raiseLinkFault s else s)

/-- A bit error at the last of the bits read (R159). -/
def bitError (line : List Bool) (s : State) : State := failAttempt (hearLine line s)

/-- The frame in progress, sent or read, as the stuck line leaves it: an error of its kind is counted, and the node drives
nothing more (R162). -/
def abandonFrame (l : Lnk) : Lnk :=
  let l := if l.tx.isSome then countBitError l else l
  let l := if l.receiving then { l with rxErrors := satInc 65535 l.rxErrors, receiving := false } else l
  { l with level := false, errorFlag := 0, recessiveRun := 0, pauseCount := 0, dominantRun := Config.stuckBits }

/-- A dominant bit: the 65th of its run fires the stuck-line test, once in the run (R162). -/
def dominantBit (s : State) : State :=
  if s.lnk.dominantRun + 1 = Config.stuckBits then applyPause (raiseLinkFault { s with lnk := abandonFrame s.lnk })
  else hearLine [false] s

/-- A dominant bit after those of the line, which may be the 65th of its run (R162). -/
def stuckLine (line : List Bool) (s : State) : State := dominantBit (hearLine line s)

/-- The fault pause ends once 256 recessive bit times have passed under it (R161). -/
def releasePause (s : State) : State :=
  if s.lnk.faultPause && decide (Config.pauseBits ≤ s.lnk.pauseCount) then
    { s with lnk := { s.lnk with faultPause := false, pauseCount := 0 } }
  else s

/-- The end of the fault pause on the line as it has been read (R161). -/
def endPause (line : List Bool) (s : State) : State := releasePause (hearLine line s)

/-! ### Completions (R160) -/

/-- The sent frame leaves its slot; a refilled slot keeps its newer frame, a newer DEMAND is reduced (R160). -/
def clearSlot (t : Tx) (l : Lnk) : Lnk :=
  match t.slot with
  | .safety => if t.refilled then l else { l with safety := none }
  | .command => { l with fifo := l.fifo.tail }
  | .status => if t.refilled then l else { l with status := none }
  | .demand =>
    if t.refilled then
      match t.frame.body with
      | .demand d => { l with demand := l.demand.map (reduceNewer d) }
      | _ => l
    else { l with demand := none }

/-- A completed DEMAND reduces the wheel accumulators (R26). -/
def reduceSent (b : Body) (s : State) : State :=
  match b with
  | .demand d => reduceWheels d s
  | _ => s

/-- The completion ends the bit-error count, LINK-FAULT and the fault pause (R160, R161). -/
def completeLink (l : Lnk) : Lnk :=
  { l.frameEnd with tx := none, bitErrors := 0, linkFault := false, faultPause := false }

/-- A transmission completes (R160): slot, held ABORT, wheels, then the node's own blocks. A held ABORT takes the freed
place before those blocks act, so that an ABORT they decide finds the FIFO as it leaves it, and LINK-FAULT has ended when a
completed RESUME is taken (log 51). -/
def completeAttempt (s : State) : State :=
  match s.lnk.tx with
  | none => s
  | some t =>
    if t.orphan then { s with lnk := completeLink s.lnk }
    else
      startWork (handFrame true t.frame t.start
        (reduceSent t.frame.body (placeHeld { s with lnk := clearSlot t (completeLink s.lnk) })))

/-- The event that frees a place for a held ABORT: the place is there, or the FIFO's head completes (R107, log 5). -/
def placeAbort (s : State) : State :=
  match s.tks.held with
  | none => s
  | some _ =>
    if fifoRoom s then placeHeld s
    else
      match s.lnk.tx with
      | some t => if t.slot = .command then completeAttempt s else s
      | none => s

/-! ### Reception (R163, R164) -/

/-- A frame being read is discarded where its bits show a form error or a check mismatch, and counted once (R163). -/
def discardFrame (bits : List Bool) (s : State) : State :=
  let t := hearLine bits s
  if s.lnk.tx.isNone && s.lnk.receiving && frameFails bits then
    { t with lnk := { t.lnk with rxErrors := satInc 65535 s.lnk.rxErrors, receiving := false } }
  else t

/-- A dominant bit while the node is in no frame: on an idle line it is a start bit, whose crane time is captured; on any
other it starts no frame (R64, R153, R163). -/
def firstBit (s : State) : State :=
  if s.lnk.free then
    if s.lnk.idle then { s with lnk := { s.lnk.startBit with receiving := true, capture := some (now s) } }
    else hearLine [false] s
  else s

/-- A dominant bit after those of the line (R153). -/
def startBit (line : List Bool) (s : State) : State := firstBit (hearLine line s)

end Sys2Proof.Machine
end

