-- ==== Sys2Proof/Machine/FrameCommands.lean ====
section
/-! DEFINITION. The commands of received frames (R164). -/

namespace Sys2Proof.Machine

/-- RESTART_FRAME (R175). -/
def execRestartFrame (st : Station) (mask : StationMask) (s : State) : Host.Outcome State Fault Refusal :=
  .next (deliver st (.restart mask) s)

/-- STOP_FRAME (R89). -/
def execStopFrame (st : Station) (kind : StopKind) (code : Option Cause) (s : State) : Host.Outcome State Fault Refusal :=
  .next (deliver st (.stop kind code) s)

/-- RELEASE_FRAME (R90). -/
def execReleaseFrame (st : Station) (s : State) : Host.Outcome State Fault Refusal :=
  .next (deliver st .release s)

/-- RESUME (R100, R101). -/
def execResume (st : Station) (s : State) : Host.Outcome State Fault Refusal :=
  .next (deliver st .resume s)

/-- WAKE (R96). -/
def execWake (st : Station) (mask : StationMask) (s : State) : Host.Outcome State Fault Refusal :=
  .next (deliver st (.wake mask) s)

/-- PARK (R98). -/
def execPark (st : Station) (mask : StationMask) (s : State) : Host.Outcome State Fault Refusal :=
  .next (deliver st (.park mask) s)

/-- HOME (R42). -/
def execHome (st : Station) (mask : StationMask) (s : State) : Host.Outcome State Fault Refusal :=
  .next (deliver st (.home mask) s)

/-- DEMAND_FRAME (R57, R29). -/
def execDemandFrame (st : Station) (items : DemandItems) (s : State) : Host.Outcome State Fault Refusal :=
  .next (deliver st (.demand items) s)

/-- STATUS_FRAME (R55, R64, R90). -/
def execStatusFrame (st : Station) (items : StatusItems) (s : State) : Host.Outcome State Fault Refusal :=
  .next (deliver st (.status items) s)

/-- TAKE_PREPARE (R108). -/
def execTakePrepare (st : Station) (n : Byte) (mask : StationMask) (s : State) : Host.Outcome State Fault Refusal :=
  .next (deliver st (.take (.prepare n mask)) s)

/-- TAKE_CUE (R109). -/
def execTakeCue (st : Station) (n : Byte) (mask : StationMask) (inMark outMark : Byte) (s : State) : Host.Outcome State Fault Refusal :=
  .next (deliver st (.take (.cue n mask inMark outMark)) s)

/-- TAKE_ROLL (R111, R112). -/
def execTakeRoll (st : Station) (n : Byte) (t : Ms16) (s : State) : Host.Outcome State Fault Refusal :=
  .next (deliver st (.take (.roll n t)) s)

/-- TAKE_CUT (R118, R121). -/
def execTakeCut (st : Station) (n : Byte) (t : Ms16) (s : State) : Host.Outcome State Fault Refusal :=
  .next (deliver st (.take (.cut n t)) s)

/-- TAKE_ABORT (R123). -/
def execTakeAbort (st : Station) (n reason origin : Byte) (s : State) : Host.Outcome State Fault Refusal :=
  .next (deliver st (.take (.abort n reason origin)) s)

/-- TAKE_DELETE (R125). -/
def execTakeDelete (st : Station) (n : Byte) (s : State) : Host.Outcome State Fault Refusal :=
  .next (deliver st (.take (.delete n)) s)

/-- TAKE_LOCK (R126), or the TAKE frame of no named subkind that its operand spells (R183, log 30). -/
def execTakeLock (st : Station) (n : Byte) (s : State) (unnamed : Option UnnamedTake := none) :
    Host.Outcome State Fault Refusal :=
  .next (deliver st (.take (match unnamed with | none => .lock n | some x => .unnamed x.excess n x.rest)) s)

/-- MARK (R116). -/
def execMark (st : Station) (t : Ms16) (s : State) : Host.Outcome State Fault Refusal :=
  .next (deliver st (.mark t) s)

end Sys2Proof.Machine
end

