-- ==== Sys2Proof/Machine/LinkCommands.lean ====
section
/-! DEFINITION. The commands of the link's attempts and receptions. -/

namespace Sys2Proof.Machine

/-- HELD_ABORT_PLACE: a held ABORT finds a place in the command FIFO (R107). -/
def execHeldAbortPlace (s : State) : Host.Outcome State Fault Refusal :=
  .next (placeAbort s)

/-- TRANSMIT_START: the arbiter's offer and its start bit (R157). -/
def execTransmitStart (s : State) (line : List Bool := []) : Host.Outcome State Fault Refusal :=
  .next (startAttempt line s)

/-- ARBITRATION_LOST (R158). -/
def execArbitrationLost (s : State) : Host.Outcome State Fault Refusal :=
  .next (loseArbitration s)

/-- BIT_ERROR (R159, R161). -/
def execBitError (s : State) (line : List Bool := []) : Host.Outcome State Fault Refusal :=
  .next (startWork (bitError line s))

/-- STUCK_LINE (R162). -/
def execStuckLine (s : State) (line : List Bool := []) : Host.Outcome State Fault Refusal :=
  .next (startWork (stuckLine line s))

/-- FAULT_PAUSE_END (R161). -/
def execFaultPauseEnd (s : State) (line : List Bool := []) : Host.Outcome State Fault Refusal :=
  .next (endPause line s)

/-- TRANSMIT_COMPLETE (R160). -/
def execTransmitComplete (s : State) : Host.Outcome State Fault Refusal :=
  .next (completeAttempt s)

/-- FRAME_DISCARD (R163). -/
def execFrameDiscard (s : State) (bits : List Bool := []) : Host.Outcome State Fault Refusal :=
  .next (discardFrame bits s)

/-- RECEIVED_START_BIT (R64). -/
def execReceivedStartBit (s : State) (line : List Bool := []) : Host.Outcome State Fault Refusal :=
  .next (startBit line s)

end Sys2Proof.Machine
end

