-- ==== Sys2Proof/Machine/Port.lean ====
section
/-! DEFINITION. CPT: the companion transactions, their answers and copies (11). -/

namespace Sys2Proof.Machine

/-- The port status byte of the present moment (R178). -/
def portStatus (s : State) : PortStatus :=
  { interrupt := interruptLine s, freePlaces := Config.fifoPlaces - s.lnk.fifo.length, write := s.cpt.writeState }

/-- The status byte a transaction has shifted out with its command byte: that of the command byte where it has gone before, else
that of the present event (R178, log 60). -/
def shownStatus (s : State) : Option PortStatus := if s.cpt.began then s.cpt.status else some (portStatus s)

/-- The port after a command taken in s: its status, answer and response; a RECEIVE copy cut short keeps its head (R178, R180). -/
def answered (s : State) (a : Answer) (r : Response) (t : State) : State :=
  { t with cpt := { t.cpt with
      status := shownStatus s, began := false, answer := some a, response := r, copying := false } }

/-- An answer with no effect and no response. -/
def refused (a : Answer) (s : State) : State := answered s a .none s

/-- The start states in which SEND is taken (R178). -/
def sendState (s : State) : Bool := s.cfg.startState == .parked || s.cfg.startState == .run

/-- SEND (R179); NOT-NOW, then BAD, then BUSY (log 12). -/
def portSend (kind : Byte) (payload : List Byte) (s : State) : State :=
  if !sendState s then refused .notNow s
  else
    match sendBody (isControl s) kind.toNat payload with
    | none => refused .bad s
    | some b => if fifoRoom s then answered s .accepted .none (queueCommand b s) else refused .busy s

/-- HALT and UNHALT are taken in every start state but CONFIG-FAULT (R178). -/
def portHalt (s : State) : State :=
  if s.cfg.startState = .configFault then refused .notNow s
  else answered s .accepted .none (raiseHalt { s with stc := { s.stc with companionHalt := true } })

def portUnhalt (s : State) : State :=
  if s.cfg.startState = .configFault then refused .notNow s
  else answered s .accepted .none { s with stc := { s.stc with companionHalt := false } }

/-- The bytes of a receive-queue entry (R180). -/
def RxEntry.bytes (e : RxEntry) : List Byte :=
  natBytes e.header.toNat 2 ++ natBytes (boolNat e.own) 1 ++ natBytes e.time.ms16.toNat 2 ++ natBytes e.time.phase 2 ++ e.payload

/-- RECEIVE (R180): a copy of the head entry, which stays until the copy's last bit. -/
def portReceive (s : State) : State :=
  match s.cpt.rxQueue with
  | [] => refused .empty s
  | e :: _ =>
    let t := answered s .accepted (.entry e.bytes) s
    { t with cpt := { t.cpt with copying := true } }

/-- The last bit of a RECEIVE copy: the head is removed (R180). -/
def portCopyEnd (s : State) : State :=
  if s.cpt.copying then
    { s with cpt := { s.cpt with rxQueue := s.cpt.rxQueue.tail, copying := false } }
  else s

/-- FILTER (R180). -/
def portFilter (kinds : BitVec 16) (s : State) : State :=
  if s.cfg.startState = .configFault then refused .notNow s
  else if kinds.toNat < 2048 then
    answered s .accepted .none { s with cpt := { s.cpt with filter := kinds.setWidth 11 } }
  else refused .bad s

/-- The headers of the frames in the slots (R156). -/
def slotHeaders (s : State) : SlotHeaders :=
  let header (b : Body) : SlotHeader := { kindNumber := b.kindNumber, station := s.cfg.station }
  { safety := s.lnk.safety.map header, fifo := s.lnk.fifo.map header
    demand := s.lnk.demand.map fun d => header (.demand d), status := s.lnk.status.map fun i => header (.status i) }

/-- Each peer's stored offset with its validity, in ascending station (R54, R71). -/
def storedOffsets (s : State) : List StoredOffset :=
  allStations.map fun st =>
    { station := st, offset := (peerEntry s st).offset, valid := (peerEntry s st).offsetValid }

/-- The copy of a section (table of R181), every item as it stands at the take, DMR's as at the last update (R39, log 46). The
zone table is empty while no image has passed its checks, also where a failed one is kept (log 58). -/
def snapshotCopy (section_ index : Nat) (s : State) : Option SnapshotCopy :=
  match section_, index with
  | 0, 0 => some (.node s.cfg s.stc (stopReport s) s.mpr s.svo (measured s) s.hom s.dmr.shown s.cck (storedOffsets s))
  | 1, i =>
    if 1 ≤ i ∧ i ≤ 15 then
      some (.peer (peerEntry s (stationOf i)) s.ptb.demands[stationOf i] s.ptb.lost s.ptb.duplicates)
    else none
  | 2, 0 => some (.zones (match s.cfg.params with | some b => b.zones | none => []) s.zmn)
  | 3, 0 => some (.take s.tks)
  | 4, 0 =>
    some (.store { s.tsc with directory := [] } s.tsc.erased s.tsc.eraseQueue.length s.tsc.inUse.length s.tsc.bad.length)
  | 5, i => if i ≤ 31 then some (.directory s.tsc.directory[i]?) else none
  | 6, 0 => some (.link s.lnk (slotHeaders s) s.cpt.filter s.cpt.overflow s.cpt.shortCount s.cpt.rxQueue.length s.cpt.writeState)
  | _, _ => none

/-- SNAPSHOT (R181); the copy's length is a free value (log 10). -/
def portSnapshot (section_ index : Byte) (s : State) : State :=
  match snapshotCopy section_.toNat index.toNat s with
  | some c =>
    answered s .accepted (.snapshot (Config.snapshotLength s.freeCount) c) { s with freeCount := s.freeCount + 1 }
  | none => refused .bad s

/-- The states in which CONFIG-WRITE is taken (R178). -/
def writeState (s : State) : Bool :=
  (s.cfg.startState == .parked && s.stc.drive == .parked) || s.cfg.startState == .run || s.cfg.startState == .configFault

/-- CONFIG-WRITE (R182): BUSY first, then NOT-NOW. -/
def portConfigWrite (block : List Byte) (s : State) : State :=
  if writeInProgress s then refused .busy s
  else if writeState s then
    startWork (answered s .accepted .none { s with
      cpt := { s.cpt with writeState := .inProgress, writeBuffer := some block }
      tsc := { s.tsc with closeList := s.tsc.closeList ++ [.configErase, .configPage 0, .configPage 1] } })
  else refused .notNow s

/-- FORMAT (R147, R182). -/
def portFormat (s : State) : State :=
  if axisUp s && s.stc.drive == .parked then
    if formatFree s then startWork (answered s .accepted .none { s with tsc := formatStore s.tsc }) else refused .busy s
  else refused .notNow s

/-- The companion RESTART (R175, R179). -/
def portRestart (s : State) : State :=
  answered s (if restartAccepted s then .accepted else .notNow) .none (requestRestart s)

/-- The command byte of a command is in, with the status byte shifted out; its payload follows (R178). -/
def commandByte (s : State) : State :=
  { s with cpt := { s.cpt with status := some (portStatus s), began := true, copying := false } }

/-- A command byte: one that names no command is answered BAD, any other begins its transaction (R178, log 60). -/
def badByte (command : Byte) (s : State) : State :=
  if (portCommandOf command).isNone then refused .bad s else commandByte s

/-- A transaction cut short before its take; its status byte stands (R178, log 60). -/
def portShort (s : State) : State :=
  { s with cpt := { s.cpt with
      status := shownStatus s, began := false, shortCount := satInc 255 s.cpt.shortCount, copying := false } }

/-! ### Buttons (R102) and wheels (R25) of a control station -/

/-- The frame of a button; T of a MARK is the own index plus 5 (R102, R116). -/
def buttonBody (b : Button) (s : State) : Body :=
  let mask := match s.cfg.params with | some p => p.expected | none => 0
  match b with
  | .resume => .resume
  | .mark => .mark (low16 (s.cck.ms + 5))
  | .wake => .wake mask
  | .park => .park mask

/-- A press queues its frame, or is dropped by a full FIFO (R102). -/
def pressButton (b : Button) (s : State) : State := if controlUp s then queueCommand (buttonBody b s) s else s

/-- A wheel transition; the lines are not used on an AXIS node (R25). -/
def turnWheel (ch : Fin 4) (q : QuadStep) (s : State) : State :=
  if isAxis s then s
  else { s with chan := { s.chan with wheels := s.chan.wheels.set ch (wheelStep q s.chan.wheels[ch]) } }

end Sys2Proof.Machine
end

