-- ==== Sys2Proof/Machine/StoreEvents.lean ====
section
/-! DEFINITION. TSC: the ends of reads, programs and erases, the suspend, and operations that run out of their updates (08). -/

namespace Sys2Proof.Machine

/-! ### Ends of a program (R135, R137, R142, R145, R182) -/

/-- The write-queue head's verified program leaves it; an entry with none left leaves the queue (R134). -/
def stepVerified (t : Tsc) : Tsc :=
  match t.writeQueue with
  | [] => t
  | w :: rest =>
    match w.steps with
    | [] | [_] => { t with writeQueue := rest }
    | _ :: more => { t with writeQueue := { w with steps := more } :: rest }

/-- The request at the head of the close-and-lock list has ended. -/
def closeDone (t : Tsc) : Tsc := { t with closeList := t.closeList.tail }

/-- The lock of n has ended, on a match or a mismatch (R145); TKS is told (R126). -/
def lockEnds (n : Byte) (ok : Bool) (s : State) : State :=
  let f (t : StoredTake) : StoredTake :=
    if ok then { t with state := .locked, lockPending := false }
    else { t with
      lockPending := false
      segments := t.segments.map fun g => if g.seq = 0 then { g with retire := true } else g }
  let s := { s with tsc := closeDone (s.tsc.mapStored n f) }
  if s.tks.job = .idle then
    { s with tks := { s.tks with
        takeNumber := n, outcome := if ok then .completed else .refused (reasonCode .storeWrite) } }
  else s

/-- A CONFIG-WRITE step failed: FAILED, and what was not started is dropped (R182). -/
def configFails (s : State) : State :=
  { s with
    cpt := { s.cpt with writeState := .failed, writeBuffer := none }
    tsc := { s.tsc with closeList := s.tsc.closeList.filter fun w =>
      match w with | .configErase | .configPage _ => false | _ => true } }

/-- A verified program (R134, R136, R137, R145, R182). -/
def programMatched (w : ProgWork) (s : State) : State :=
  match w with
  | .record _ => { s with tsc := stepVerified s.tsc }
  | .segClose => { s with tsc := closeDone s.tsc }
  | .takeClose => closingEnds .completed { s with tsc := completeRecording (closeDone s.tsc) }
  | .lock n => lockEnds n true s
  | .config i =>
    let s := { s with tsc := closeDone s.tsc }
    if i = 1 then { s with cpt := { s.cpt with writeState := .done, writeBuffer := none } } else s
  | .abandoned => s

/-- A sector withdrawn after a failed verify (R129). -/
def withdraw (sector : Nat) (s : State) : State := { s with tsc := { s.tsc with bad := s.tsc.bad ++ [sector] } }

/-- A program whose verify failed (R135, R137, R145, R182). -/
def programFailed (p : Program) (s : State) : State :=
  match p.work with
  | .record _ | .segClose | .takeClose => storeWriteFailed (withdraw (p.address / Config.sectorBytes) s)
  | .lock n => lockEnds n false s
  | .config _ => configFails s
  | .abandoned => s

/-- Status has reported the operation in flight ended, and the read that belongs to it, its verify or its check, runs (R127). -/
def operationReported (s : State) : State := { s with tsc := { s.tsc with reported := true } }

/-- The bytes a program has made in the memory: those it makes, or, once it is reported ended, those that stand there (R127). -/
def programMade (p : Program) (s : State) : List Byte :=
  let present := memRun s.flash p.address p.data.length
  if s.tsc.reported then present else programmed present p.data

/-- A program has ended in the memory, and its verify read has too unless the command is status's report alone (R127, R142). -/
def programEnded (seen : Option (List Byte)) (reportOnly : Bool) (s : State) : State :=
  match s.tsc.unit with
  | .programming p =>
    if reportOnly && s.tsc.reported then s
    else
      let held := leftRun seen (programMade p s)
      let s := { s with flash := memStore s.flash p.address held }
      if reportOnly then operationReported s
      else unitIdle (if held = p.data then programMatched p.work s else programFailed p s)
  | .idle | .reading _ | .erasing _ _ | .suspended _ _ => s

/-! ### Ends of an erase (R140, R182) -/

/-- The erase has ended with its check: the head leaves the queue for the pool or for BAD (R132, R140). -/
def eraseResult (sector : Nat) (ok : Bool) (s : State) : State :=
  if sector = 0 then (if ok then { s with tsc := closeDone s.tsc } else configFails s)
  else
    let s := { s with tsc := { s.tsc with eraseQueue := s.tsc.eraseQueue.tail } }
    if ok then s else withdraw sector s

/-- The memory as an erase leaves it: erased, or, once it is reported ended, as it stands (R127). -/
def eraseMade (sector : Nat) (s : State) : Memory :=
  if s.tsc.reported then s.flash else memErase s.flash sector

/-- A sector erase has ended in the memory, and its check has too unless the command is status's report alone (R127, R140); an
erase that status reports ended is not told to suspend any more (R141). -/
def eraseEnded (seen : Option (List Byte)) (reportOnly : Bool) (s : State) : State :=
  match s.tsc.unit with
  | .erasing sector _ =>
    if reportOnly && s.tsc.reported then s
    else
      let made := eraseMade sector s
      let page := leftRun seen (memRun made (memAddress sector 0 0) Config.pageBytes)
      let s := { s with flash := memStore made (memAddress sector 0 0) page }
      if reportOnly then operationReported { s with tsc := { s.tsc with unit := .erasing sector false, suspendAge := 0 } }
      else unitIdle (eraseResult sector (allErased page) s)
  | .idle | .reading _ | .programming _ | .suspended _ _ => s

/-! ### Suspend and reads (R141, R143, R144) -/

/-- Status reports the erase suspended (R141). -/
def eraseSuspended (s : State) : State :=
  match s.tsc.unit with
  | .erasing sector true => { s with tsc := suspendedWork sector s.tsc }
  | .erasing _ false | .idle | .reading _ | .programming _ | .suspended _ _ => s

/-- The bytes of a playback read are judged: the slot is filled, the read made again, or the slot failed (R143, R144). -/
def readResult (j : ReadJob) (bs : List Byte) (t : Tsc) : Tsc :=
  match j with
  | .slot i page sector second =>
    if checkMatches bs then
      { t with
        slots := t.slots.set i (.filled sector page (pageDeltas bs Config.pageDeltas))
        rereads := if second then satInc 65535 t.rereads else t.rereads }
    else if second then { t with slots := t.slots.set i (.failed page), nextPage := none }
    else { t with reads := .slot i page sector true :: t.reads }
  | .dropped | .config | .scan => t

/-- The bytes a playback read returns: the whole page (R143). -/
def readBytes (seen : Option (List Byte)) (m : Memory) (j : ReadJob) : List Byte :=
  match j with
  | .slot _ page sector _ => seenOr seen (memRun m (memAddress sector page.page 0) Config.pageBytes)
  | .dropped | .config | .scan => []

/-- A playback read has ended (R141, R143, R144). -/
def readEnded (seen : Option (List Byte)) (s : State) : State :=
  match s.tsc.unit with
  | .reading (.slot i page sector second) =>
    let j : ReadJob := .slot i page sector second
    unitIdle { s with tsc := readResult j (readBytes seen s.flash j) s.tsc }
  | .reading .dropped => unitIdle s
  | .suspended sector (some j) =>
    { s with tsc := suspendedWork sector (readResult j (readBytes seen s.flash j) s.tsc) }
  | .reading .config | .reading .scan | .suspended _ none | .idle | .programming _ | .erasing _ _ => s

/-! ### Operations that run out of their updates (R127) -/

/-- An update of the operation in flight; an erase's updates in SUSPENDED do not count, nor do those of a verify or check read,
which begins with status's report (R127). -/
def ageOperation (t : Tsc) : Tsc :=
  if t.reported then t
  else
    match t.unit with
    | .programming _ | .erasing _ false => { t with opAge := t.opAge + 1 }
    | .erasing _ true => { t with opAge := t.opAge + 1, suspendAge := t.suspendAge + 1 }
    | .idle | .reading _ | .suspended _ _ => t

/-- The operation has not been reported within its 1,000 updates. -/
def operationLate (t : Tsc) : Bool :=
  !t.reported && (decide (Config.flashUpdates ≤ t.opAge) || decide (Config.flashUpdates ≤ t.suspendAge))

/-- The operation has failed: a program as a verify mismatch, an erase as a failed check (R127). -/
def operationFailed (left : Option (List Byte)) (s : State) : State :=
  let s := { s with flash := leaveMemory left s.tsc.unit s.flash }
  match s.tsc.unit with
  | .programming p => unitIdle (programFailed p s)
  | .erasing sector _ => unitIdle (eraseResult sector false s)
  | .idle | .reading _ | .suspended _ _ => s

/-- The update counts for the operation in flight, and the suspend, that stand at its start: one issued in the update has its
first update in the next (R127). -/
def countUpdate (s : State) : State := { s with tsc := ageOperation s.tsc }

/-- TSC's part at the end of an update: an operation that has run out of its updates has failed (R127). -/
def operationUpdate (left : Option (List Byte)) (s : State) : State :=
  if operationLate s.tsc then operationFailed left s else s

end Sys2Proof.Machine
end

