-- ==== Sys2Proof/Machine/Zones.lean ====
section
/-! DEFINITION. ZMN: crew-input filters, zone evaluation, member cap (05). -/

namespace Sys2Proof.Machine

/-- A release filter at one sample (R74). -/
def filterStep (present : Bool) (f : CrewFilter) : CrewFilter :=
  if present then { raw := true, present := true, clear := 0 }
  else
    let n := satInc Config.crewClear f.clear
    { raw := false, present := f.present && decide (n < Config.crewClear), clear := n }

/-- The crew lines sampled at an update (R74). -/
def crewUpdate (lines : BitVec 4) (s : State) : State :=
  { s with zmn := { s.zmn with
      filters := Vector.ofFn fun i : Fin 4 => filterStep (lines.getLsbD i.val) s.zmn.filters[i] } }

/-- The crew-present test and its source (R75). -/
def crewTest (s : State) (station input : Nat) : Bool × CrewSource :=
  let st := stationOf station
  let i : Fin 4 := Fin.ofNat 4 input
  if isOwn st s then (s.zmn.filters[i].present, .live)
  else if peerFresh s st then
    match (peerEntry s st).items with
    | some items => (items.crew.getLsbD i.val, .live)
    | none => (true, .stale)
  else (true, .stale)

/-- The range test of an axis (R76). -/
def rangeTest (s : State) (station : Nat) (lo hi : Int) : RangeFinding :=
  let st := stationOf station
  if peerFresh s st then
    match (peerEntry s st).items with
    | some items =>
      if items.posValid then (if lo ≤ items.position ∧ items.position ≤ hi then .inside else .outside) else .invalid
    | none => .stale
  else .stale

/-- A range test that passes: inside, or a test that could not be made (R76). -/
def RangeFinding.passes : RangeFinding → Bool
  | .outside => false
  | .inside | .invalid | .stale => true

/-- The evaluation of one zone (R77). -/
def evaluateZone (s : State) (z : ZoneEntry) : ZoneRecord :=
  let (crew, source) := crewTest s z.sensorStation z.sensorInput
  let a := rangeTest s z.aStation z.aLo z.aHi
  let b := if z.bPresent = 1 then some (rangeTest s z.bStation z.bLo z.bHi) else none
  { crew := crew, source := source, axisA := a, axisB := b,
    active := crew && a.passes && (match b with | some f => f.passes | none => true) }

/-- The zones of the table that name the node. -/
def memberZones (s : State) : List ZoneEntry :=
  match s.cfg.params with
  | some b => b.zones.filter fun z => namesOwn z.members s
  | none => []

/-- A zone's cap (R78). -/
def zoneCap (vMax : Nat) (z : ZoneEntry) : Nat := vMax * z.fraction / 256

/-- The member cap of the zones found active (R78). -/
def memberCapOf (vMax : Nat) (active : List ZoneEntry) : Nat := active.foldl (fun c z => min c (zoneCap vMax z)) vMax

/-- v_max, which a CONTROL node does not have (R73). -/
def ownVMax (s : State) : Nat :=
  if isAxis s then (match s.cfg.params with | some b => b.vMax | none => 0) else 0

/-- The evaluation of an update (R77, R78); nothing before PARKED or RUN and in CONFIG-FAULT (R73). -/
def zoneUpdate (s : State) : State :=
  if axisUp s || controlUp s then
    let found := (memberZones s).map fun z => (z, evaluateZone s z)
    let active := (found.filter fun x => x.2.active).map (·.1)
    { s with zmn := { s.zmn with
        active := active.foldl (fun m z => m ||| BitVec.ofNat 8 (2 ^ (z.number - 1))) 0
        records := Vector.ofFn fun i : Fin 8 => (found.find? fun x => x.1.number == i.val + 1).map (·.2)
        memberCap := memberCapOf (ownVMax s) active } }
  else s

end Sys2Proof.Machine
end

