-- ==== Sys2Proof/Machine/Update.lean ====
section
/-! DEFINITION. The update event, in the order the model gives its parts (log 6), and the correction of the crane time (04 and every chapter's "at each update"). -/

namespace Sys2Proof.Machine

/-- The HALT input is read on a CONTROL node (R87). -/
def readHalt (inp : UpdateInputs) (s : State) : State :=
  { s with stc := { s.stc with haltInput := isControl s && inp.haltActive } }

/-- The causes an update raises: HALT, PEER-LOST (R60, R87). -/
def updateCauses (s : State) : State := raisePeerLost lostUpdate (raiseHalt s)

/-- The node's STATUS is due at an update (R165). -/
def statusDue (s : State) : Bool := s.cck.ms.toNat % 4 == (ownStation s).val % 4

/-- A STATUS of the items as they stand is queued, where it is due and this is its place in the update (R36, R165). -/
def statusAt (here : Bool) (s : State) : State :=
  if here && statusDue s then queueStatus (ownItems s) s else s

/-- The part of an update before the profile: the operation's updates, clock, start sequence, inputs, ageing conditions, decisions. Where the demand is
formed here, it reads the mode before the change to HAND of R5, which the profile makes (log 6). -/
def beforeMotion (inp : UpdateInputs) (known : Bool) (s : State) : State :=
  let s := readHalt inp (crewUpdate inp.crew (startUpdate inp (stepAging (clockWrap (countUpdate s)))))
  let s := cleanUpdate s
  let s := if inp.causesFirst then updateCauses s else s
  let s := clockDecide s
  let s := if inp.zonesFirst then zoneUpdate s else s
  let s := if inp.demandFirst then demandUpdate s else s
  statusAt (known && inp.statusPoint == .beforeProfile) s

/-- The profile, playback step or tracking, and the drive output (R3, R6, R15, R22). -/
def withMotion (s : State) : State × Result :=
  let (s, r) := motion (suppliedMove s) s
  (servo s, r)

/-- The update as far as the drive output and the follow counter. -/
def toServo (inp : UpdateInputs) (s : State) : State × Result :=
  withMotion (beforeMotion inp s.cfg.station.isSome s)

/-- FOLLOW-ERROR and OVERRUN of the result (R11, R24). -/
def resultCauses (r : Result) (s : State) : State :=
  let s := if Config.followTrip ≤ s.svo.follow then raiseFollow s else s
  if r.overrun then raiseOverrun s else s

/-- The blocks that take the result: STC for its causes, HOM, STC for rest, the settle count, TKS (R16). -/
def takeResult (r : Result) (s : State) : State :=
  takesUpdate r (wakingUpdate (restUpdate r (homingUpdate r (resultCauses r s))))

/-- The part of an update after the result has been taken. -/
def afterMotion (inp : UpdateInputs) (known : Bool) (s : State) : State :=
  let s := if inp.zonesFirst then s else zoneUpdate s
  let s := if inp.demandFirst then s else demandUpdate s
  let s := if inp.causesFirst then s else updateCauses s
  let s := updateFactor (statusAt (known && inp.statusPoint == .beforeFactor) s)
  let s := queueUpdateDemand inp.levers s
  let s := statusAt (known && inp.statusPoint == .last) s
  operationUpdate inp.left (ageEntries s)

/-- The update event. -/
def update (inp : UpdateInputs) (s : State) : State :=
  let m := toServo inp s
  startWork (showDemand (settleHold s (afterMotion inp s.cfg.station.isSome (takeResult m.2 m.1))))

/-! ### The outcomes that rows of the table name (log 5) -/

/-- The update is labelled 0 and the time becomes OWN (R66). -/
def ownDue (s : State) : Bool :=
  s.cck.timeState == .unset && s.cck.pending.isNone && (s.cck.ms + 1).toNat == Config.ownIndex

/-- The update brings the step age to 1,000 (R71). -/
def stepClearDue (s : State) : Bool := s.cck.timeStepped && decide (Config.stepAgeEnd ≤ s.cck.stepAge + 1)

/-- The 1,000th busy poll (R170). -/
def storeIdTimeoutDue (inp : UpdateInputs) (s : State) : Bool :=
  storeIdPolls s && inp.storeBusy && decide (Config.storeIdPolls ≤ s.cfg.storeIdPolls + 1)

/-- The 1,000th clean update (R19). -/
def faultEndDue (s : State) : Bool := s.svo.encFault && decide (Config.cleanUpdates ≤ s.svo.clean + 1)

/-- The stall counter reaches 20 at the update (R47). -/
def stallDue (inp : UpdateInputs) (s : State) : Bool :=
  let m := toServo inp s
  let t := resultCauses m.2 m.1
  t.hom.state == .homing && t.hom.phase == some .seek && decide (homeMode t = .hardStop) &&
    decide (Config.stallTrip ≤ stallCount t)

/-- A crew input's 40th consecutive clear sample (R74). -/
def crewAbsentDue (inp : UpdateInputs) (s : State) : Bool :=
  [(0 : Fin 4), 1, 2, 3].any fun i =>
    s.zmn.filters[i].present && !inp.crew.getLsbD i.val && decide (Config.crewClear ≤ s.zmn.filters[i].clear + 1)

/-- The follow counter reaches 3 at the update (R24). -/
def followDue (inp : UpdateInputs) (s : State) : Bool := decide (Config.followTrip ≤ (toServo inp s).1.svo.follow)

/-- The route's demand is stale at the update (R31). -/
def staleDue (s : State) : Bool :=
  axisUp s && match s.cfg.params with | some b => routeStale s b | none => false

/-- The update finds a peer lost (R60). -/
def peerLostDue (inp : UpdateInputs) (s : State) : Bool := (update inp s).ptb.lost != s.ptb.lost

/-- The settle count reaches 120 (R97). -/
def wakingEndDue (s : State) : Bool := s.stc.drive == .waking && decide (Config.settleEnd ≤ s.stc.settle + 1)

/-- The operation in flight runs out of its updates (R127). -/
def flashLateDue (s : State) : Bool :=
  operationLate (ageOperation s.tsc) &&
    match s.tsc.unit with | .programming _ | .erasing _ _ => true | .idle | .reading _ | .suspended _ _ => false

/-- An update whose named outcome comes about; the command changes nothing where it does not (log 4). -/
def updateWhen (due : Bool) (inp : UpdateInputs) (s : State) : State := if due then update inp s else s

/-! ### Corrections (R65, R66, R69, R124) -/

/-- A step of the clock, or the slew that stands for it while a take runs (R69). -/
def applyStep (t : Int) (s : State) : State :=
  if jobRunning s then
    let s := moveTime (slewOf t) s
    abortRunning .sync { s with cck := { s.cck with syncLost := true } }
  else
    let s := moveTime t s
    let s := { s with cck := { s.cck with
      timeStepped := true, stepAge := 0, stepCount := s.cck.stepCount + 1, syncLost := false } }
    if s.tks.rollTime.isSome && (s.tks.job == .prepared || s.tks.job == .cued) then abortOwn .sync s else s

/-- The decided correction is applied at phase 500 (R65). -/
def applyCorrection (s : State) : State :=
  let t := { s with cck := { s.cck with pending := none } }
  match s.cck.pending with
  | none => s
  | some (.adopt c) =>
    let t := moveTime c t
    { t with cck := { t.cck with timeState := .agreed } }
  | some (.slew c) => moveTime c t
  | some (.step c) => startWork (applyStep c t)

end Sys2Proof.Machine
end

