-- ==== Sys2Proof/Machine/NodeCommands.lean ====
section
/-! DEFINITION. The commands of the resets, the update and the clock, the start sequence, and the node's lines. -/

namespace Sys2Proof.Machine

/-- START: every block to its START values (R168, R151). -/
def execStart (chainOpen : Bool) (memory : MemoryPower) (s : State) : Host.Outcome State Fault Refusal :=
  .next (startPart chainOpen memory s)

/-- RESTART_COMMAND: CFG accepts or refuses, the port answers (R175, R179). -/
def execRestartCommand (s : State) : Host.Outcome State Fault Refusal :=
  .next (portRestart s)

/-- UPDATE: one update event (R62 and what every chapter does at each update). -/
def execUpdate (inp : UpdateInputs) (s : State) : Host.Outcome State Fault Refusal :=
  .next (update inp s)

/-- CORRECTION_APPLY: the decided correction at phase 500 (R65, R66, R69). -/
def execCorrectionApply (s : State) : Host.Outcome State Fault Refusal :=
  .next (applyCorrection s)

/-- TIME_OWN: the update labelled 0, at which the state becomes OWN (R66). -/
def execTimeOwn (inp : UpdateInputs) (s : State) : Host.Outcome State Fault Refusal :=
  .next (updateWhen (ownDue s) inp s)

/-- TIME_STEPPED_CLEAR: the update that brings the step age to 1,000 (R71). -/
def execTimeSteppedClear (inp : UpdateInputs) (s : State) : Host.Outcome State Fault Refusal :=
  .next (updateWhen (stepClearDue s) inp s)

/-- STRAPS_READ: the first update after START (R169). -/
def execStrapsRead (inp : UpdateInputs) (s : State) : Host.Outcome State Fault Refusal :=
  .next (updateWhen (s.cfg.startState == .straps) inp s)

/-- IDENTIFICATION: the answer is judged (R170). -/
def execIdentification (b0 b1 b2 : Byte) (s : State) : Host.Outcome State Fault Refusal :=
  .next (judgeIdentification b0 b1 b2 s)

/-- STORE_ID_TIMEOUT: the 1,000th busy poll (R170). -/
def execStoreIdTimeout (inp : UpdateInputs) (s : State) : Host.Outcome State Fault Refusal :=
  .next (updateWhen (storeIdTimeoutDue inp s) inp s)

/-- CONFIG_LOAD: the read of sector 0 ends (R171, R172). -/
def execConfigLoad (seen : Option (List Byte)) (s : State) : Host.Outcome State Fault Refusal :=
  .next (configLoaded seen s)

/-- SCAN_SECTOR_READ: a take sector is classified (R148). -/
def execScanSectorRead (seen : Option (List Byte)) (s : State) : Host.Outcome State Fault Refusal :=
  .next (scanRead seen s)

/-- SCAN_END: assembly, resolution, PARKED (R149, R150, R173). -/
def execScanEnd (s : State) : Host.Outcome State Fault Refusal :=
  .next (scanEnded s)

/-- ENCODER_TRANSITION (R18, R19, R51). -/
def execEncoderTransition (q : QuadStep) (driveFirst : Bool) (s : State) : Host.Outcome State Fault Refusal :=
  .next (startWork (encoderStep q driveFirst s))

/-- ENCODER_FAULT_END: the 1,000th clean update (R19). -/
def execEncoderFaultEnd (inp : UpdateInputs) (s : State) : Host.Outcome State Fault Refusal :=
  .next (updateWhen (faultEndDue s) inp s)

/-- SWITCH_CAPTURE: the edge while the capture is armed (R20, R45). -/
def execSwitchCapture (s : State) : Host.Outcome State Fault Refusal :=
  .next (captureEdge s)

/-- STALL: the update at which the stall counter reaches 20 (R47). -/
def execStall (inp : UpdateInputs) (s : State) : Host.Outcome State Fault Refusal :=
  .next (updateWhen (stallDue inp s) inp s)

/-- CHAIN_OPEN: the line goes from closed to open (R86). -/
def execChainOpen (s : State) : Host.Outcome State Fault Refusal :=
  .next (startWork (openChain s))

/-- CHAIN_CLOSE: the line goes from open to closed; the own hold stays (R86, R88). -/
def execChainClose (s : State) : Host.Outcome State Fault Refusal :=
  .next ({ s with stc := { s.stc with chainOpen := false } })

/-- BUTTON_PRESS (R102). -/
def execButtonPress (b : Button) (s : State) : Host.Outcome State Fault Refusal :=
  .next (pressButton b s)

/-- WHEEL_TRANSITION (R25). -/
def execWheelTransition (ch : Fin 4) (q : QuadStep) (s : State) : Host.Outcome State Fault Refusal :=
  .next (turnWheel ch q s)

/-- CREW_ABSENT: the 40th consecutive clear sample (R74). -/
def execCrewAbsent (inp : UpdateInputs) (s : State) : Host.Outcome State Fault Refusal :=
  .next (updateWhen (crewAbsentDue inp s) inp s)

/-- FOLLOW_ERROR: the update at which the follow counter reaches 3 (R24). -/
def execFollowError (inp : UpdateInputs) (s : State) : Host.Outcome State Fault Refusal :=
  .next (updateWhen (followDue inp s) inp s)

/-- DEMAND_STALE: an update at which the route's demand is stale (R31). -/
def execDemandStale (inp : UpdateInputs) (s : State) : Host.Outcome State Fault Refusal :=
  .next (updateWhen (staleDue s) inp s)

/-- PEER_LOST: the update at which a peer joins the lost set (R60). -/
def execPeerLost (inp : UpdateInputs) (s : State) : Host.Outcome State Fault Refusal :=
  .next (updateWhen (peerLostDue inp s) inp s)

/-- WAKING_END: the update that brings the settle count to 120 (R97). -/
def execWakingEnd (inp : UpdateInputs) (s : State) : Host.Outcome State Fault Refusal :=
  .next (updateWhen (wakingEndDue s) inp s)

end Sys2Proof.Machine
end

