-- ==== Sys2Proof/Machine/PortCommands.lean ====
section
/-! DEFINITION. The commands of the companion port (R178). -/

namespace Sys2Proof.Machine

/-- SEND (R179). -/
def execSend (kind : Byte) (payload : List Byte) (s : State) : Host.Outcome State Fault Refusal :=
  .next (portSend kind payload s)

/-- HALT (R87, R179). -/
def execHalt (s : State) : Host.Outcome State Fault Refusal :=
  .next (startWork (portHalt s))

/-- UNHALT (R179). -/
def execUnhalt (s : State) : Host.Outcome State Fault Refusal :=
  .next (portUnhalt s)

/-- RECEIVE (R180). -/
def execReceive (s : State) : Host.Outcome State Fault Refusal :=
  .next (portReceive s)

/-- RECEIVE_COPY_END (R180). -/
def execReceiveCopyEnd (s : State) : Host.Outcome State Fault Refusal :=
  .next (portCopyEnd s)

/-- FILTER (R180). -/
def execFilter (kinds : BitVec 16) (s : State) : Host.Outcome State Fault Refusal :=
  .next (portFilter kinds s)

/-- SNAPSHOT (R181). -/
def execSnapshot (section_ index : Byte) (s : State) : Host.Outcome State Fault Refusal :=
  .next (portSnapshot section_ index s)

/-- CONFIG_WRITE (R182). -/
def execConfigWrite (block : List Byte) (s : State) : Host.Outcome State Fault Refusal :=
  .next (portConfigWrite block s)

/-- FORMAT (R147). -/
def execFormat (s : State) : Host.Outcome State Fault Refusal :=
  .next (portFormat s)

/-- SHORT_TRANSACTION (R178). -/
def execShortTransaction (s : State) : Host.Outcome State Fault Refusal :=
  .next (portShort s)

/-- BAD_COMMAND: a byte of no command is answered BAD with no effect (R178); a payload outside its set is answered by its own
command's row, and a byte that names a command begins its transaction (log 60). -/
def execBadCommand (command : Byte) (s : State) : Host.Outcome State Fault Refusal :=
  .next (badByte command s)

end Sys2Proof.Machine
end

