-- ==== Sys2Proof/Machine/StoreCommands.lean ====
section
/-! DEFINITION. The commands of the take memory. -/

namespace Sys2Proof.Machine

/-- ERASE_SUSPENDED: status reports the erase suspended (R141). -/
def execEraseSuspended (s : State) : Host.Outcome State Fault Refusal :=
  .next (eraseSuspended s)

/-- READ_COMPLETE: a playback read ends (R143, R144). -/
def execReadComplete (seen : Option (List Byte)) (s : State) : Host.Outcome State Fault Refusal :=
  .next (readEnded seen s)

/-- PROGRAM_COMPLETE: a program and its verify end (R142), or status reports the program ended (R127, log 22). -/
def execProgramComplete (seen : Option (List Byte)) (s : State) (reportOnly : Bool := false) :
    Host.Outcome State Fault Refusal :=
  .next (programEnded seen reportOnly s)

/-- ERASE_COMPLETE: an erase and its check end (R140), or status reports the erase ended (R127, log 22). -/
def execEraseComplete (seen : Option (List Byte)) (s : State) (reportOnly : Bool := false) :
    Host.Outcome State Fault Refusal :=
  .next (eraseEnded seen reportOnly s)

/-- FLASH_TIMEOUT: the update at which an operation has run out of its 1,000 (R127). -/
def execFlashTimeout (inp : UpdateInputs) (s : State) : Host.Outcome State Fault Refusal :=
  .next (updateWhen (flashLateDue s) inp s)

end Sys2Proof.Machine
end

