-- ==== Sys2Proof/Machine/Dispatch.lean ====
section
/-! DEFINITION. One arm per command. -/

namespace Sys2Proof.Machine

def exec (i : Instr) (s : State) : Host.Outcome State Fault Refusal :=
  match i with
  | .start chainOpen memory => Sys2Proof.Machine.execStart chainOpen memory s
  | .restartFrame st mask => Sys2Proof.Machine.execRestartFrame st mask s
  | .restartCommand => Sys2Proof.Machine.execRestartCommand s
  | .update inp => Sys2Proof.Machine.execUpdate inp s
  | .correctionApply => Sys2Proof.Machine.execCorrectionApply s
  | .timeOwn inp => Sys2Proof.Machine.execTimeOwn inp s
  | .timeSteppedClear inp => Sys2Proof.Machine.execTimeSteppedClear inp s
  | .strapsRead inp => Sys2Proof.Machine.execStrapsRead inp s
  | .identification b0 b1 b2 => Sys2Proof.Machine.execIdentification b0 b1 b2 s
  | .storeIdTimeout inp => Sys2Proof.Machine.execStoreIdTimeout inp s
  | .configLoad seen => Sys2Proof.Machine.execConfigLoad seen s
  | .scanSectorRead seen => Sys2Proof.Machine.execScanSectorRead seen s
  | .scanEnd => Sys2Proof.Machine.execScanEnd s
  | .encoderTransition q driveFirst => Sys2Proof.Machine.execEncoderTransition q driveFirst s
  | .encoderFaultEnd inp => Sys2Proof.Machine.execEncoderFaultEnd inp s
  | .switchCapture => Sys2Proof.Machine.execSwitchCapture s
  | .stall inp => Sys2Proof.Machine.execStall inp s
  | .chainOpen => Sys2Proof.Machine.execChainOpen s
  | .chainClose => Sys2Proof.Machine.execChainClose s
  | .buttonPress b => Sys2Proof.Machine.execButtonPress b s
  | .wheelTransition ch q => Sys2Proof.Machine.execWheelTransition ch q s
  | .crewAbsent inp => Sys2Proof.Machine.execCrewAbsent inp s
  | .followError inp => Sys2Proof.Machine.execFollowError inp s
  | .demandStale inp => Sys2Proof.Machine.execDemandStale inp s
  | .peerLost inp => Sys2Proof.Machine.execPeerLost inp s
  | .wakingEnd inp => Sys2Proof.Machine.execWakingEnd inp s
  | .eraseSuspended => Sys2Proof.Machine.execEraseSuspended s
  | .readComplete seen => Sys2Proof.Machine.execReadComplete seen s
  | .programComplete seen reportOnly => Sys2Proof.Machine.execProgramComplete seen s reportOnly
  | .eraseComplete seen reportOnly => Sys2Proof.Machine.execEraseComplete seen s reportOnly
  | .flashTimeout inp => Sys2Proof.Machine.execFlashTimeout inp s
  | .heldAbortPlace => Sys2Proof.Machine.execHeldAbortPlace s
  | .transmitStart line => Sys2Proof.Machine.execTransmitStart s line
  | .arbitrationLost => Sys2Proof.Machine.execArbitrationLost s
  | .bitError line => Sys2Proof.Machine.execBitError s line
  | .stuckLine line => Sys2Proof.Machine.execStuckLine s line
  | .faultPauseEnd line => Sys2Proof.Machine.execFaultPauseEnd s line
  | .transmitComplete => Sys2Proof.Machine.execTransmitComplete s
  | .frameDiscard bits => Sys2Proof.Machine.execFrameDiscard s bits
  | .stopFrame st kind code => Sys2Proof.Machine.execStopFrame st kind code s
  | .releaseFrame st => Sys2Proof.Machine.execReleaseFrame st s
  | .resume st => Sys2Proof.Machine.execResume st s
  | .wake st mask => Sys2Proof.Machine.execWake st mask s
  | .park st mask => Sys2Proof.Machine.execPark st mask s
  | .home st mask => Sys2Proof.Machine.execHome st mask s
  | .demandFrame st items => Sys2Proof.Machine.execDemandFrame st items s
  | .statusFrame st items => Sys2Proof.Machine.execStatusFrame st items s
  | .takePrepare st n mask => Sys2Proof.Machine.execTakePrepare st n mask s
  | .takeCue st n mask inMark outMark => Sys2Proof.Machine.execTakeCue st n mask inMark outMark s
  | .takeRoll st n t => Sys2Proof.Machine.execTakeRoll st n t s
  | .takeCut st n t => Sys2Proof.Machine.execTakeCut st n t s
  | .takeAbort st n reason origin => Sys2Proof.Machine.execTakeAbort st n reason origin s
  | .takeDelete st n => Sys2Proof.Machine.execTakeDelete st n s
  | .takeLock st n unnamed => Sys2Proof.Machine.execTakeLock st n s unnamed
  | .mark st t => Sys2Proof.Machine.execMark st t s
  | .send kind payload => Sys2Proof.Machine.execSend kind payload s
  | .halt => Sys2Proof.Machine.execHalt s
  | .unhalt => Sys2Proof.Machine.execUnhalt s
  | .receive => Sys2Proof.Machine.execReceive s
  | .receiveCopyEnd => Sys2Proof.Machine.execReceiveCopyEnd s
  | .filter kinds => Sys2Proof.Machine.execFilter kinds s
  | .snapshot sec index => Sys2Proof.Machine.execSnapshot sec index s
  | .configWrite block => Sys2Proof.Machine.execConfigWrite block s
  | .format => Sys2Proof.Machine.execFormat s
  | .shortTransaction => Sys2Proof.Machine.execShortTransaction s
  | .badCommand command => Sys2Proof.Machine.execBadCommand command s
  | .receivedStartBit line => Sys2Proof.Machine.execReceivedStartBit s line

end Sys2Proof.Machine
end

