-- ==== Sys2Proof/Machine/Tick.lean ====
section
/-! DEFINITION. What one microsecond of the node's timebase does while no command waits (R62, R153; log 3). -/

namespace Sys2Proof.Machine

/-- The phase a microsecond later; it holds at 499 for a correction that waits, and at 999 for the update (R62, R65). -/
def tickPhase (c : Cck) : Nat :=
  if c.phase = 499 ∧ c.pending.isSome = true then 499 else if 999 ≤ c.phase then 999 else c.phase + 1

/-- Two bit times at the level the line was last read, while the node is in no frame (R153). -/
def tickLine (l : Lnk) : Lnk := if l.free then (l.bitTime l.level).bitTime l.level else l

/-- One microsecond. -/
def tick (s : State) : State :=
  { s with cck := { s.cck with phase := tickPhase s.cck }, lnk := tickLine s.lnk }

end Sys2Proof.Machine
end

