-- ==== Sys2Proof/Safety.lean ====
section
/-! DEFINITION. The properties that every step is claimed to keep, and the conditions the statements name. -/

namespace Sys2Proof.Safety

open Sys2Proof.Machine

/-- The take memory is in its canonical form. -/
def memoryForm (s : State) : Prop := memWf s.flash = true

/-- What the stop rules keep: WAKING and ENABLED only with no stop in force, STOPPING only with no HARD stop,
STOPPED only with a stop in force, a local cause only in a node that holds (R88, R92, R93, R95). -/
def stopSafe (s : State) : Prop :=
  (s.stc.drive = .waking ∨ s.stc.drive = .enabled → stopInForce s = false) ∧
  (s.stc.drive = .stopping → hardInForce s = false) ∧
  (s.stc.drive = .stopped → stopInForce s = true) ∧
  (∀ c, causePresent s c = true → s.stc.hold.isSome = true)

/-- A take job that a stop would abort is found only on an ENABLED, homed axis with no park pending (R99, R124). -/
def jobSafe (s : State) : Prop :=
  jobAbortable s.tks.job = true →
    s.stc.drive = .enabled ∧ s.hom.state = .homed ∧ s.stc.parkPending = false

/-- The block handed out on an AXIS node that scans or has reached PARKED has lo below hi (R172). -/
def limitsOrdered (s : State) : Prop :=
  s.cfg.role = some .axis → (s.cfg.startState = .scan ∨ s.cfg.startState = .parked) →
    ∃ b, s.cfg.params = some b ∧ b.lo < b.hi

/-- A homed axis has reached PARKED, its capture is armed in a homing only, and p is within the soft limits (R13, law 1). -/
def travelSafe (s : State) : Prop :=
  limitsOrdered s ∧
  (s.hom.armed = true → s.hom.state = .homing) ∧
  (s.hom.state = .homing ∨ s.hom.state = .homed → axisUp s = true) ∧
  (s.hom.state = .homed → travelLo s ≤ s.mpr.p ∧ s.mpr.p ≤ travelHi s)

/-- Parameters are held only where an image has passed the checks for the strap role, and are there from SCAN or RUN on (R171, R172). -/
def configSafe (s : State) : Prop :=
  match s.cfg.startState with
  | .scan | .parked => s.cfg.role = some .axis ∧ ∃ b, s.cfg.params = some b ∧ checkBlock .axis b = none
  | .run => s.cfg.role = some .control ∧ ∃ b, s.cfg.params = some b ∧ checkBlock .control b = none
  | .storeId | .configLoad | .configFault => s.cfg.role.isSome = true ∧ s.cfg.params = none
  | .straps => s.cfg.params = none

/-- The drive leaves PARKED only on an axis that has reached the start state PARKED, the move is 0 while the drive is off
and never exceeds v_max (R3, R84, law 2 of R13). -/
def moveSafe (s : State) : Prop :=
  (s.stc.drive ≠ .parked → axisUp s = true) ∧
  (s.stc.drive = .parked ∨ s.stc.drive = .waking ∨ s.stc.drive = .stopped → s.mpr.v = 0) ∧
  |s.mpr.v| ≤ param s (fun b => b.vMax)

/-- The bounds that the inputs of a profile update satisfy (R1, R6, R8). -/
def profileOrdered (i : ProfileIn) (vMax : Int) : Prop :=
  0 ≤ i.aEff ∧ i.aEff ≤ 65535 ∧ 0 ≤ i.cap ∧ i.cap ≤ vMax ∧ |i.v| ≤ vMax ∧ i.lo ≤ i.p ∧ i.p ≤ i.hi ∧
    (i.g.isSome = true → i.aMax = i.aEff)

/-- s once a frame received from the line is off it and has joined the companion port's receive queue where its kind is in
the filter (R164, R180); the blocks that act on the kind start from here. -/
def received (st : Station) (b : Body) (s : State) : State :=
  joinQueue { station := st, body := b } false (capturedTime s) { s with lnk := { s.lnk.frameEnd with receiving := false } }

/-- An axis that has reached PARKED at which an update raises no cause but by its profile: no HALT condition, every expected
peer young enough (R60, R87). -/
abbrev causeFree (s : State) : Prop :=
  axisUp s = true ∧ s.stc.companionHalt = false ∧ ∀ st, expected s st = true → (peerEntry s st).age ≤ 24

/-- The result of an update raises no cause: no following error and no overrun (R11, R24). -/
abbrev resultCalm (inp : UpdateInputs) (s : State) : Prop :=
  (toServo inp s).1.svo.follow < 3 ∧ (toServo inp s).2.overrun = false

/-- Nothing of an update stops the drive: it raises no cause, and no park is pending (R98). -/
def updateQuiet (inp : UpdateInputs) (s : State) : Prop := causeFree s ∧ resultCalm inp s ∧ s.stc.parkPending = false

end Sys2Proof.Safety
end

