-- ==== Sys2Proof/Certificates/Slice0/Obligations.lean ====
section
/-! DEFINITION. The statements for the provers: what each command and each kind of state does, by the rules named. -/

open Sys2Proof Sys2Proof.Machine Sys2Proof.Safety

/-! ### The machine -/

/-- The command at the front of the queue is taken, on the state with the queue's rest (log 2). -/
def Obligations.StepRunsFrontCommand : Prop :=
  ∀ (c : Instr) (rest : List Instr) (s : State), s.pending = c :: rest → step s = exec c { s with pending := rest }

/-- On an empty queue one microsecond passes (log 3): the phase advances, but holds at 499 for a waiting correction and at 999
for the update; while the node is in no frame two bit times pass at the level the line was last read, the node's own error flag
over it: recessive bits count up to 12, and up to 256 under the fault pause, dominant ones up to 64 (log 21). -/
def Obligations.IdleStepTicks : Prop :=
  ∀ s : State, s.pending = [] →
    let bit (l : Lnk) : Lnk :=
      if l.level = true ∧ l.errorFlag = 0 then { l with
        dominantRun := 0, recessiveRun := min 12 (l.recessiveRun + 1)
        pauseCount := if l.faultPause then min 256 (l.pauseCount + 1) else l.pauseCount }
      else { l with
        errorFlag := l.errorFlag - 1, recessiveRun := 0, pauseCount := 0
        dominantRun := if l.dominantRun < 65 then min 64 (l.dominantRun + 1) else l.dominantRun }
    step s = .next { s with
      cck := { s.cck with phase :=
        if s.cck.phase = 499 ∧ s.cck.pending.isSome = true then 499
        else if 999 ≤ s.cck.phase then 999 else s.cck.phase + 1 }
      lnk := if s.lnk.tx = none ∧ s.lnk.receiving = false then bit (bit s.lnk) else s.lnk }

/-- The values after START that the rules give (R2, R18, R19, R24, R27, R28, R40, R54, R55, R60, R62, R74, R84, R104, R133,
R144, R156, R161, R167, R168, R178, R180, R182), in State.reset. Three of them rest on the model's choices: the erased take
memory (log 8), the closed chain with no hold, no first cause and an empty safety slot (log 7), the empty queue of commands
(log 2). -/
def Obligations.ResetValues : Prop :=
  let s := State.reset
  (s.cfg.startState = .straps ∧ s.cfg.faultReason = none ∧ s.cfg.failingItem = none ∧ s.cfg.station = none ∧
    s.cfg.role = none ∧ s.cfg.identAnswer = none ∧ s.cfg.image = none ∧ s.cfg.restartCount = 0 ∧
    s.cfg.refusedRestarts = 0) ∧
  (s.cck.ms = 0 ∧ s.cck.phase = 0 ∧ s.cck.timeState = .unset ∧ s.cck.timeStepped = false ∧ s.cck.syncLost = false ∧
    s.cck.stepAge = 0 ∧ s.cck.stepCount = 0) ∧
  (∀ st : Station, s.ptb.peers[st].items = none ∧ s.ptb.peers[st].age = 255 ∧ s.ptb.peers[st].offsetValid = false ∧
    s.ptb.demands[st].items = none ∧ s.ptb.demands[st].age = 255) ∧
  (s.ptb.lost = 0 ∧ s.ptb.duplicates = 0) ∧
  ((∀ ch : Fin 4, s.chan.wheels[ch] = 0) ∧ s.chan.seq = 0) ∧
  (s.dmr.armed = false ∧ s.dmr.pendingWheel = 0 ∧ s.dmr.lastKind = none ∧ s.dmr.rawDemand = 0 ∧ s.dmr.handDemand = 0 ∧
    s.dmr.stale = true) ∧
  (s.mpr.p = 0 ∧ s.mpr.v = 0 ∧ s.mpr.mode = .hold ∧ s.mpr.g = none ∧ s.mpr.atLo = false ∧ s.mpr.atHi = false ∧
    s.mpr.factor = 0) ∧
  (s.svo.raw = 0 ∧ s.svo.origin = 0 ∧ s.svo.encFault = false ∧ s.svo.clean = 0 ∧ s.svo.follow = 0 ∧ s.svo.u = 0) ∧
  (s.hom.state = .unhomed ∧ s.hom.phase = none ∧ s.hom.seekStart = none ∧ s.hom.stall = 0 ∧ s.hom.armed = false ∧
    s.hom.outcome = .none) ∧
  (s.zmn.active = 0 ∧ (∀ z : Fin 8, s.zmn.records[z] = none) ∧
    ∀ i : Fin 4, s.zmn.filters[i].present = true ∧ s.zmn.filters[i].clear = 0) ∧
  (s.stc.drive = .parked ∧ (∀ st : Station, s.stc.holders[st] = none) ∧ s.stc.settle = 0 ∧ s.stc.parkPending = false ∧
    s.stc.companionHalt = false ∧ s.stc.wakeRefused = false ∧ localCauses s = [] ∧ s.stc.hold = none ∧
    firstCause s = none ∧ brakeEngaged s = true ∧ driveEnable s = false) ∧
  (s.tks.job = .idle ∧ s.tks.takeNumber = 0 ∧ s.tks.mask = none ∧ s.tks.rollTime = none ∧ s.tks.cutTime = none ∧
    s.tks.t0 = none ∧ s.tks.inIndex = none ∧ s.tks.endIndex = none ∧ s.tks.prevMove = none ∧ s.tks.marks = [] ∧
    s.tks.marksFull = false ∧ s.tks.markLate = false ∧ s.tks.storeLowSent = false ∧ s.tks.outcome = .none ∧
    s.tks.held = none) ∧
  (s.tsc.unit = .idle ∧ s.tsc.pageBuffer = [] ∧ s.tsc.writeQueue = [] ∧ s.tsc.closeList = [] ∧ s.tsc.cursor = 1 ∧
    s.tsc.rereads = 0 ∧ ∀ i : Fin 4, s.tsc.slots[i] = .empty) ∧
  (s.lnk.safety = none ∧ s.lnk.fifo = [] ∧ s.lnk.demand = none ∧ s.lnk.status = none ∧ s.lnk.tx = none ∧
    s.lnk.rxErrors = 0 ∧ s.lnk.bitErrors = 0 ∧ s.lnk.bitErrorTotal = 0 ∧ s.lnk.linkFault = false ∧
    s.lnk.faultPause = false ∧ s.lnk.capture = none) ∧
  (s.cpt.rxQueue = [] ∧ s.cpt.overflow = 0 ∧ s.cpt.shortCount = 0 ∧ s.cpt.writeState = .idle ∧ interruptLine s = false ∧
    ∀ n : Fin 11, s.cpt.filter.getLsbD n.val = (n.val == 0 || n.val == 1 || n.val == 2 || n.val == 7 || n.val == 8)) ∧
  s.pending = [] ∧ s.flash = []

/-- The invariants below hold in the state after START. -/
def Obligations.InvariantsHoldAtReset : Prop :=
  memoryForm State.reset ∧ stopSafe State.reset ∧ configSafe State.reset ∧ jobSafe State.reset ∧
    travelSafe State.reset ∧ moveSafe State.reset

/-- START puts every block at its START values whatever the state before; a chain that reads open is CHAIN, a HARD hold and a
queued STOP (R84, R86, R88, R151; that the STOP stands in its slot from START on, not from the end of STRAPS: log 65). A memory that keeps its power ends its operation by itself, and a suspended erase waits for
the resume (R170, log 9); an operation that status has reported ended has nothing left to end (R127, log 22); a power loss that
cuts a CONFIG-WRITE short leaves a block that fails its check (R171, R182); it changes no byte outside the operation in flight
(its bytes: log 9). -/
def Obligations.StartResetsEveryBlock : Prop :=
  ∀ (chainOpen : Bool) (memory : MemoryPower) (s : State), memoryForm s →
    ∃ t, exec (.start chainOpen memory) s = .next t ∧
      t = { State.reset with
        cfg := { Cfg.start with heldErase := t.cfg.heldErase }
        stc := { Stc.start with
          chainOpen := chainOpen, hold := if chainOpen then some { kind := .hard, code := some .chain } else none }
        lnk := { Lnk.start with safety := if chainOpen then some (.stop .hard (some .chain)) else none }
        flash := t.flash, freeCount := s.freeCount, pending := s.pending } ∧
      memoryForm t ∧ brakeEngaged t = true ∧ driveEnable t = false ∧
      (firstCause t = if chainOpen then some .own else none) ∧
      (memory = .kept →
        (s.tsc.reported = false →
          (∀ c j, s.tsc.unit = .suspended c j → t.cfg.heldErase = some c ∧ t.flash = s.flash) ∧
          (∀ c, s.tsc.unit = .erasing c true → t.cfg.heldErase = some c ∧ t.flash = s.flash) ∧
          (∀ c, s.tsc.unit = .erasing c false → t.cfg.heldErase = none ∧ t.flash = memErase s.flash c) ∧
          (∀ p, s.tsc.unit = .programming p → t.cfg.heldErase = none ∧
            t.flash = memStore s.flash p.address
              (List.zipWith (· &&& ·) (memRun s.flash p.address p.data.length) p.data))) ∧
        (s.tsc.reported = true → t.cfg.heldErase = s.cfg.heldErase ∧ t.flash = s.flash) ∧
        (s.tsc.unit = .idle → t.cfg.heldErase = s.cfg.heldErase ∧ t.flash = s.flash) ∧
        (∀ j, s.tsc.unit = .reading j → t.cfg.heldErase = s.cfg.heldErase ∧ t.flash = s.flash)) ∧
      (memory ≠ .kept →
        t.cfg.heldErase = none ∧
        ((∃ u, s.tsc.unit = .erasing 0 u) ∨ (∃ j, s.tsc.unit = .suspended 0 j) ∨
            (∃ p, s.tsc.unit = .programming p ∧ p.work = .config 0) →
          blockIntact (memRun t.flash 0 371) = false) ∧
        (s.cfg.heldErase = none → s.tsc.unit = .idle → t.flash = s.flash) ∧
        (∀ j, s.cfg.heldErase = none → s.tsc.unit = .reading j → t.flash = s.flash)) ∧
      ∀ a : Nat,
        (∀ p, s.tsc.unit = .programming p → a < p.address ∨ p.address + p.data.length ≤ a) →
        (∀ p i, s.tsc.unit = .programming p → p.work = .config i → 4096 ≤ a) →
        (∀ c u, s.tsc.unit = .erasing c u → a < c * 4096 ∨ c * 4096 + 4096 ≤ a) →
        (∀ c j, s.tsc.unit = .suspended c j → a < c * 4096 ∨ c * 4096 + 4096 ≤ a) →
        (∀ c, s.cfg.heldErase = some c → a < c * 4096 ∨ c * 4096 + 4096 ≤ a) →
          memRead t.flash a = memRead s.flash a

/-- Every step keeps the take memory in its canonical form. -/
def Obligations.StepKeepsMemoryForm : Prop :=
  ∀ s t : State, memoryForm s → step s = .next t → memoryForm t

/-- Every step keeps what the stop rules keep: no WAKING or ENABLED under a stop, no STOPPING under a HARD stop, STOPPED only
under a stop, a node with a local cause holds (R88, R92, R93, R95). -/
def Obligations.StepKeepsStops : Prop :=
  ∀ s t : State, stopSafe s → step s = .next t → stopSafe t

/-- Every step keeps: parameters only from an image that passed its checks, and there from SCAN or RUN on (R171, R172). -/
def Obligations.StepKeepsCheckedParameters : Prop :=
  ∀ s t : State, configSafe s → step s = .next t → configSafe t

/-- Every step keeps: a take job that a stop aborts is found only on an ENABLED, homed axis with no park pending (R99, R124). -/
def Obligations.StepKeepsJobs : Prop :=
  ∀ s t : State, jobSafe s → step s = .next t → jobSafe t

/-- Law 1 of R13: on a homed axis the commanded position stays within the soft limits, with what the law rests on. -/
def Obligations.StepKeepsSoftLimits : Prop :=
  ∀ s t : State, travelSafe s → step s = .next t → travelSafe t

/-- Law 2 of R13: the commanded move never exceeds v_max; it is 0 while the drive is off, which every node is but an axis that
has reached PARKED. -/
def Obligations.StepKeepsMoveLimit : Prop :=
  ∀ s t : State, configSafe s → travelSafe s → moveSafe s → step s = .next t → moveSafe t

/-! ### The profiler, the servo, the demand, the zones and the clock -/

/-- The laws of R13 over one profile update: p' within the bounds, |v| within v_max, the move changed by at most 2·a_eff but at
an overrun, which leaves the axis at a bound with move 0. -/
def Obligations.ProfileKeepsLaws : Prop :=
  ∀ (i : ProfileIn) (vMax : Int), profileOrdered i vMax →
    i.lo ≤ (profile i).p ∧ (profile i).p ≤ i.hi ∧ |(profile i).v| ≤ vMax ∧
    ((profile i).overrun = false → |(profile i).v - i.v| ≤ 2 * i.aEff ∧ |(profile i).made - i.v| ≤ 2 * i.aEff) ∧
    ((profile i).overrun = true → (profile i).v = 0 ∧ ((profile i).p = i.lo ∨ (profile i).p = i.hi)) ∧
    (profile i).made = (profile i).p - i.p

/-- The braking speed of R9: isqrt is the floor square root of a 64-bit term, v_lim is floor((isqrt(a² + 8ar) − a)/2), never
negative, 0 at r = 0. -/
def Obligations.BrakingSpeed : Prop :=
  (∀ n : Nat, n < 2 ^ 64 → isqrt n * isqrt n ≤ n ∧ n < (isqrt n + 1) * (isqrt n + 1)) ∧
  ∀ r a : Int, 0 ≤ r → 0 ≤ a → a * a + 8 * a * r < 2 ^ 64 →
    0 ≤ vLim r a ∧ vLim 0 a = 0 ∧
    2 * vLim r a ≤ (isqrt (a * a + 8 * a * r).toNat : Int) - a ∧ (isqrt (a * a + 8 * a * r).toNat : Int) - a < 2 * vLim r a + 2

/-- Stage 4 (R10): the new move is v plus the change d1 − v clamped to ±a_eff, whatever the travel bounds and the target; a move
further above d1 than a_eff steps down by a_eff. -/
def Obligations.StageFourLimitsTheChange : Prop :=
  (∀ i : ProfileIn, 0 ≤ i.aEff →
    let d1 := boundGoto i (boundLimits i (stageCap i))
    stageMove i = i.v + max (-i.aEff) (min i.aEff (d1 - i.v)) ∧
    (i.aEff < i.v - d1 → stageMove i = i.v - i.aEff) ∧ (i.aEff < d1 - i.v → stageMove i = i.v + i.aEff)) ∧
  ∀ i j : ProfileIn, i.v = j.v → i.aEff = j.aEff →
    boundGoto i (boundLimits i (stageCap i)) = boundGoto j (boundLimits j (stageCap j)) → stageMove i = stageMove j

/-- Stages 2 and 3 (R8, R9): the cap, the braking speed toward the soft limits of a homed axis and toward a goto target. Stages
5 and 6 (R11, R12, R13): a move within the bounds, a landing, an overrun, an arrival, a target passed too fast. -/
def Obligations.ProfileStages : Prop :=
  (∀ i : ProfileIn, 0 ≤ i.cap →
    let d1 := max (-i.cap) (min i.cap i.d0)
    let d2 :=
      if i.homed = true ∧ 0 < d1 then min d1 (vLim (i.hi - i.p) i.aEff)
      else if i.homed = true ∧ d1 < 0 then max d1 (-vLim (i.p - i.lo) i.aEff)
      else d1
    boundLimits i (stageCap i) = d2 ∧
    (i.g = none → boundGoto i d2 = d2) ∧
    ∀ g, i.g = some g → 0 ≤ vLim |g - i.p| i.aEff →
      |boundGoto i d2| = min |d2| (vLim |g - i.p| i.aEff) ∧ (0 ≤ d2 → 0 ≤ boundGoto i d2) ∧ (d2 ≤ 0 → boundGoto i d2 ≤ 0)) ∧
  (∀ i : ProfileIn, i.lo ≤ i.hi →
    let v' := stageMove i
    (i.g = none → i.lo ≤ i.p + v' → i.p + v' ≤ i.hi →
      profile i = { p := i.p + v', v := v', made := v', arrival := false, overrun := false }) ∧
    (i.g = none → i.hi < i.p + v' → |v'| ≤ i.aEff →
      profile i = { p := i.hi, v := 0, made := i.hi - i.p, arrival := false, overrun := false }) ∧
    (i.g = none → i.p + v' < i.lo → |v'| ≤ i.aEff →
      profile i = { p := i.lo, v := 0, made := i.lo - i.p, arrival := false, overrun := false }) ∧
    (i.g = none → i.hi < i.p + v' → i.aEff < |v'| →
      profile i = { p := i.hi, v := 0, made := i.hi - i.p, arrival := false, overrun := true }) ∧
    (i.g = none → i.p + v' < i.lo → i.aEff < |v'| →
      profile i = { p := i.lo, v := 0, made := i.lo - i.p, arrival := false, overrun := true }) ∧
    (∀ g, i.g = some g → i.lo ≤ i.p + v' → i.p + v' ≤ i.hi → |v'| ≤ i.aMax →
      (i.p < g ∧ g ≤ i.p + v' ∨ g < i.p ∧ i.p + v' ≤ g ∨ i.p = g ∧ v' = 0) →
      profile i = { p := g, v := 0, made := g - i.p, arrival := true, overrun := false }) ∧
    (∀ g, i.g = some g → i.lo ≤ i.p + v' → i.p + v' ≤ i.hi → i.aMax < |v'| →
      profile i = { p := i.p + v', v := v', made := v', arrival := false, overrun := false }))

/-- The playback step (R15): a recorded move that passes its three checks is made exactly; one that fails them, or none, gives
the profile update in HOLD, and the result says which. An update of a RUNNING take whose delta is not there, or whose move fails
a check, is the profile update in HOLD and aborts the take with STORE-READ or DEVIATED, broadcast (R107, R120, R123, R143,
R144). (The model's order: log 6; the take number: log 13.) -/
def Obligations.PlaybackStepIsExactOrHold : Prop :=
  (∀ s : State,
    (∀ m : Int, |m| ≤ speedCap s → |m - s.mpr.v| ≤ 2 * param s (fun b => b.aMax) → travelLo s ≤ s.mpr.p + m →
      s.mpr.p + m ≤ travelHi s →
      playbackUpdate (some m) s =
        ({ s with mpr := { s.mpr with
            p := s.mpr.p + m, v := m, atLo := decide (s.mpr.p + m = travelLo s), atHi := decide (s.mpr.p + m = travelHi s) } },
         { rest := decide (m = 0), arrival := false, overrun := false, made := m, play := .played m })) ∧
    (∀ m : Int, speedCap s < |m| ∨ 2 * param s (fun b => b.aMax) < |m - s.mpr.v| ∨ s.mpr.p + m < travelLo s ∨
        travelHi s < s.mpr.p + m →
      (playbackUpdate (some m) s).1 = (profileUpdate { s with mpr := { s.mpr with mode := .hold } }).1 ∧
      (playbackUpdate (some m) s).2.play = .deviated) ∧
    (playbackUpdate none s).1 = (profileUpdate { s with mpr := { s.mpr with mode := .hold } }).1 ∧
    (playbackUpdate none s).2.play = .noMove) ∧
  ∀ (inp : UpdateInputs) (s : State),
    s.stc.drive = .enabled → s.mpr.mode = .playback → s.tks.job = .running → s.hom.state = .homed → updateQuiet inp s →
    inp.zonesFirst = false →
    let held := (profileUpdate { s with mpr := { s.mpr with mode := .hold } }).1.mpr
    let aborted (x : Reason) : Prop := ∃ t, exec (.update inp) s = .next t ∧
      t.tks.job = .idle ∧ t.tks.outcome = .aborted (reasonCode x) (ownByte s) ∧ t.tks.takeNumber = s.tks.jobTake ∧
      t.mpr.p = held.p ∧ t.mpr.v = held.v ∧ t.mpr.mode = .hold ∧ t.stc.drive = .enabled ∧
      (∀ i : Fin 4, t.tsc.slots[i] = .empty) ∧ t.tsc.nextPage = none ∧
      (s.lnk.fifo.length < 4 → t.lnk.fifo = s.lnk.fifo ++ [.take (.abort s.tks.jobTake (reasonCode x) (ownByte s))])
    (s.tsc.deltaAt s.tks.k = none → aborted .storeRead) ∧
    ∀ d, s.tsc.deltaAt s.tks.k = some d →
      let m := d + s.tks.playMove.getD 0
      speedCap s < |m| ∨ 2 * param s (fun b => b.aMax) < |m - s.mpr.v| ∨ s.mpr.p + m < travelLo s ∨
        travelHi s < s.mpr.p + m → aborted .deviated

/-- Drive output, following error and follow counter of an update (R22, R24); nothing else of the node changes. Drive enable and
brake follow the drive state; off on a node that has not reached PARKED, after START and after an accepted RESTART (R23). -/
def Obligations.DriveOutputAndLines : Prop :=
  (∀ s : State, ∃ t, servo s = t ∧ t = { s with svo := t.svo } ∧
    t.svo.raw = s.svo.raw ∧ t.svo.origin = s.svo.origin ∧ t.svo.encFault = s.svo.encFault ∧ t.svo.clean = s.svo.clean ∧
    (s.stc.drive = .enabled ∨ s.stc.drive = .stopping →
      let err := s.mpr.p - measured s * 256
      let u := (param s (fun b => b.kf) * s.mpr.v + param s (fun b => b.kp) * err).tdiv 256
      t.svo.err = err ∧ t.svo.u = max (-32767) (min 32767 u) ∧
      (s.mpr.mode = .homing → t.svo.follow = 0) ∧
      (s.mpr.mode ≠ .homing → |err| ≤ param s (fun b => b.followMax) * 256 → t.svo.follow = 0) ∧
      (s.mpr.mode ≠ .homing → param s (fun b => b.followMax) * 256 < |err| → s.svo.follow < 3 →
        t.svo.follow = s.svo.follow + 1)) ∧
    (s.stc.drive = .parked ∨ s.stc.drive = .waking ∨ s.stc.drive = .stopped →
      t.svo.u = 0 ∧ t.svo.follow = 0 ∧ t.svo.err = s.svo.err)) ∧
  ((∀ s : State,
    (driveEnable s = true ↔ s.stc.drive = .enabled ∨ s.stc.drive = .stopping) ∧
    (brakeEngaged s = false ↔ s.stc.drive = .enabled ∨ s.stc.drive = .stopping)) ∧
  (∀ s : State, moveSafe s → axisUp s = false → driveEnable s = false ∧ brakeEngaged s = true) ∧
  (∀ chainOpen memory s t, exec (.start chainOpen memory) s = .next t → driveEnable t = false ∧ brakeEngaged t = true) ∧
  ∀ s t : State, restartAccepted s = true → exec .restartCommand s = .next t → driveEnable t = false ∧ brakeEngaged t = true)

/-- The hand demand of an update of an axis that has reached PARKED (R30, R31, R32, R33, R37, R38). The field factor an update
leaves: 0 but on a homed ZOOM node that has reached PARKED; there the factor of the lens table at the commanded position,
interpolated between two points with the division toward zero, f_0 below the first and f_last from the last on (R34, R35). An
update in which a hold begins may change the position after it (the model's order: log 6). -/
def Obligations.HandDemandOfAnUpdate : Prop :=
  (∀ (s : State) (b : Block), axisUp s = true → s.cfg.params = some b →
    ∃ t, demandUpdate s = t ∧ t = { s with dmr := t.dmr } ∧ t.dmr.lastKind = s.dmr.lastKind ∧
      (t.dmr.stale = true ↔ 5 < s.ptb.demands[stationOf b.source].age) ∧
      (t.dmr.stale = true → t.dmr.armed = false ∧ t.dmr.pendingWheel = 0 ∧ t.dmr.handDemand = 0) ∧
      (t.dmr.armed = true ↔ s.mpr.mode = .hand ∧ t.dmr.stale = false ∧
        (s.dmr.armed = true ∨ s.stc.drive = .enabled ∧
          (s.dmr.lastKind = some .wheel ∧ s.dmr.pendingWheel = 0 ∨
            s.dmr.lastKind = some .lever ∧ |leverValue s b| ≤ (b.deadband : Int)))) ∧
      (s.mpr.mode ≠ .hand → t.dmr.pendingWheel = 0) ∧
      (t.dmr.armed = false → t.dmr.handDemand = 0) ∧
      (t.dmr.armed = true → t.dmr.handDemand = (t.dmr.rawDemand * t.dmr.factor).tdiv 4096) ∧
      (s.dmr.lastKind = none → t.dmr.rawDemand = 0) ∧
      (s.dmr.lastKind = some .wheel → t.dmr.pendingWheel = 0 ∧
        t.dmr.rawDemand = (if b.invert = 1 then -1 else 1) * max (-8388607) (min 8388607 (s.dmr.pendingWheel * b.gain))) ∧
      (s.dmr.lastKind = some .lever →
        let x := leverValue s b
        let x' := if |x| ≤ (b.deadband : Int) then 0 else x - Int.sign x * b.deadband
        t.dmr.rawDemand = (if b.invert = 1 then -1 else 1) * max (-8388607) (min 8388607 (x' * b.gain))) ∧
      (b.coupling = 0 → t.dmr.factor = 4096) ∧
      (b.coupling ≠ 0 →
        (12 < (peerEntry s (stationOf b.coupling)).age ∨ (peerEntry s (stationOf b.coupling)).items = none →
          t.dmr.factor = b.fMin) ∧
        ∀ i, (peerEntry s (stationOf b.coupling)).age ≤ 12 → (peerEntry s (stationOf b.coupling)).items = some i →
          t.dmr.factor = if 1 ≤ i.factor.toNat ∧ i.factor.toNat ≤ 4096 then max i.factor.toNat b.fMin else b.fMin)) ∧
  ∀ (inp : UpdateInputs) (s : State), ∃ t, exec (.update inp) s = .next t ∧
    (s.stc.hold ≠ none ∨ t.stc.hold = none →
      let z := t.mpr.p / 256
      (axisUp t = false ∨ t.hom.state ≠ .homed ∨ (∀ b, t.cfg.params = some b → b.axisKind ≠ 9) → t.mpr.factor = 0) ∧
      ∀ b, axisUp t = true → t.hom.state = .homed → t.cfg.params = some b → b.axisKind = 9 →
        b.lens.Pairwise (fun x y => x.pos < y.pos) →
        (∀ x, b.lens.head? = some x → z < x.pos → t.mpr.factor = x.factor) ∧
        (∀ x, b.lens.getLast? = some x → x.pos ≤ z → t.mpr.factor = x.factor) ∧
        ∀ i x y, b.lens[i]? = some x → b.lens[i + 1]? = some y → x.pos ≤ z → z < y.pos →
          (t.mpr.factor : Int) = x.factor + ((z - x.pos) * ((y.factor : Int) - x.factor)).tdiv (y.pos - x.pos))

/-- The member cap (R78): the smallest zone cap floor(v_max × fraction / 256) of the zones found active, v_max where none is; 0
on a control node. -/
def Obligations.MemberCapOfTheActiveZones : Prop :=
  ∀ s : State, axisUp s = true ∨ controlUp s = true →
    let act := (memberZones s).filter fun z => (evaluateZone s z).active
    let cap := (zoneUpdate s).zmn.memberCap
    (act = [] → cap = ownVMax s) ∧
    (∀ z ∈ act, cap ≤ ownVMax s * z.fraction / 256) ∧
    (act ≠ [] → (∀ z ∈ act, z.fraction ≤ 255) → ∃ z ∈ act, cap = ownVMax s * z.fraction / 256) ∧
    cap ≤ ownVMax s ∧ (∀ z ∈ act, z.fraction ≤ 255 → ownVMax s * z.fraction / 256 ≤ ownVMax s * 255 / 256) ∧
    (controlUp s = true → cap = 0) ∧
    ((∀ z ∈ memberZones s, 1 ≤ z.number ∧ z.number ≤ 8) →
      ∀ n : Nat, n < 8 → ((zoneUpdate s).zmn.active.getLsbD n = true ↔ ∃ z ∈ act, z.number = n + 1)) ∧
    (∀ z : ZoneEntry,
      (z.fraction = 64 → zoneCap 6000 z = 1500 ∧ zoneCap 12000 z = 3000) ∧ (z.fraction = 200 → zoneCap 6000 z = 4687) ∧
      (z.fraction = 255 → zoneCap 8388607 z = 8355839 ∧ zoneCap 1 z = 0) ∧ (z.fraction = 0 → ∀ v, zoneCap v z = 0) ∧
      (∀ v, v * z.fraction < 256 → zoneCap v z = 0))

/-- One zone's evaluation (R75, R76, R77): crew from the own filter or a fresh entry, present where the entry is stale; a range
test passes unless a valid position lies outside; the zone is active when all hold. The evaluation of an update leaves one
record for each zone whose member mask names the node, none for any other number, and the set of the zones found active; it is
made in PARKED (AXIS) and RUN (CONTROL) only (R73, R77). An update stores it, on the crew filters of that update and the peer
entries as they stand before they age, the own position being that before or after the profile (the model's order: log 6). -/
def Obligations.ZoneEvaluation : Prop :=
  (∀ (s : State) (z : ZoneEntry),
    let st := stationOf z.sensorStation
    let i : Fin 4 := Fin.ofNat 4 z.sensorInput
    let r := evaluateZone s z
    (isOwn st s = true → r.crew = s.zmn.filters[i].present ∧ r.source = .live) ∧
    (isOwn st s = false → 12 < s.ptb.peers[st].age → r.crew = true ∧ r.source = .stale) ∧
    (∀ items, isOwn st s = false → s.ptb.peers[st].age ≤ 12 → s.ptb.peers[st].items = some items →
      r.crew = items.crew.getLsbD i.val ∧ r.source = .live) ∧
    (r.axisA = rangeTest s z.aStation z.aLo z.aHi) ∧
    (r.axisB = if z.bPresent = 1 then some (rangeTest s z.bStation z.bLo z.bHi) else none) ∧
    (r.active = true ↔ r.crew = true ∧ r.axisA ≠ .outside ∧ r.axisB ≠ some .outside) ∧
    ∀ (n : Nat) (lo hi : Int),
      (isOwn (stationOf n) s = true → isHomed s = true →
        rangeTest s n lo hi = if lo ≤ s.mpr.p / 256 ∧ s.mpr.p / 256 ≤ hi then .inside else .outside) ∧
      (isOwn (stationOf n) s = true → isHomed s = false → rangeTest s n lo hi = .invalid) ∧
      (isOwn (stationOf n) s = false → 12 < s.ptb.peers[stationOf n].age → rangeTest s n lo hi = .stale) ∧
      ∀ items, isOwn (stationOf n) s = false → s.ptb.peers[stationOf n].age ≤ 12 →
        s.ptb.peers[stationOf n].items = some items →
        rangeTest s n lo hi =
          if items.posValid then (if lo ≤ items.position ∧ items.position ≤ hi then .inside else .outside) else .invalid) ∧
  (∀ s : State,
    let own := memberZones s
    (∀ z, z ∈ own ↔ ∃ b, s.cfg.params = some b ∧ z ∈ b.zones ∧ namesOwn z.members s = true) ∧
    (axisUp s = false → controlUp s = false → zoneUpdate s = s) ∧
    (axisUp s = true ∨ controlUp s = true → (∀ z ∈ own, 1 ≤ z.number ∧ z.number ≤ 8) →
      own.Pairwise (fun x y => x.number ≠ y.number) →
      ∃ t, zoneUpdate s = t ∧ t = { s with zmn := t.zmn } ∧ t.zmn.filters = s.zmn.filters ∧
        (∀ n : Fin 8, (∀ z ∈ own, z.number ≠ n.val + 1) → t.zmn.records[n] = none ∧ t.zmn.active.getLsbD n.val = false) ∧
        ∀ n : Fin 8, ∀ z ∈ own, z.number = n.val + 1 →
          t.zmn.records[n] = some (evaluateZone s z) ∧ t.zmn.active.getLsbD n.val = (evaluateZone s z).active)) ∧
  ∀ (inp : UpdateInputs) (s : State), axisUp s = true ∨ controlUp s = true →
    (∀ z ∈ memberZones s, 1 ≤ z.number ∧ z.number ≤ 8) → (memberZones s).Pairwise (fun x y => x.number ≠ y.number) →
    ∃ t, exec (.update inp) s = .next t ∧
      (∀ n : Fin 8, (∀ z ∈ memberZones s, z.number ≠ n.val + 1) →
        t.zmn.records[n] = none ∧ t.zmn.active.getLsbD n.val = false) ∧
      ∀ n : Fin 8, ∀ z ∈ memberZones s, z.number = n.val + 1 →
        let before : State := { s with zmn := { s.zmn with filters := t.zmn.filters } }
        let after : State := { before with mpr := t.mpr }
        (isOwn (stationOf z.aStation) s = false ∧ (z.bPresent = 1 → isOwn (stationOf z.bStation) s = false) ∨
            inp.zonesFirst = true ∧ inp.causesFirst = false →
          t.zmn.records[n] = some (evaluateZone before z) ∧ t.zmn.active.getLsbD n.val = (evaluateZone before z).active) ∧
        (inp.zonesFirst = false → updateQuiet inp s → s.stc.drive = .enabled → s.tks.job = .idle → s.hom.state ≠ .homing →
          t.zmn.records[n] = some (evaluateZone after z) ∧ t.zmn.active.getLsbD n.val = (evaluateZone after z).active)

/-- CCK's decision at an update (R68, R69): nothing while UNSET or alone, a slew of the lower median clamped to ±2 within ±500,
else a step; the median stands at place (n − 1)/2 of the sorted offsets. -/
def Obligations.ClockDecisionAtAnUpdate : Prop :=
  (∀ xs : List Int, List.Perm (sortAsc xs) xs ∧ (sortAsc xs).Pairwise (· ≤ ·)) ∧
  ∀ s : State,
    let xs := offsetSet s
    let t := lowerMedian xs
    (s.cck.timeState = .unset ∨ xs.length = 1 → clockDecide s = s) ∧
    (s.cck.timeState ≠ .unset → xs.length ≠ 1 → |t| ≤ 500 →
      clockDecide s = { s with cck := { s.cck with pending := some (.slew (max (-2) (min 2 t))), syncLost := false } }) ∧
    (s.cck.timeState ≠ .unset → xs.length ≠ 1 → 500 < |t| →
      clockDecide s = { s with cck := { s.cck with pending := some (.step t) } }) ∧
    (sortAsc xs)[(xs.length - 1) / 2]? = some t

/-! ### The update -/

/-- The rows that name an update with a given outcome are that update where the outcome comes about, and change nothing where it
does not (logs 4 and 5). -/
def Obligations.NamedUpdatesAreUpdates : Prop :=
  ∀ (inp : UpdateInputs) (s : State),
    let row (c : Instr) (due : Prop) : Prop := (due → exec c s = exec (.update inp) s) ∧ (¬due → exec c s = .next s)
    row (.timeOwn inp) (s.cck.timeState = .unset ∧ s.cck.pending = none ∧ (s.cck.ms + 1).toNat = 200) ∧
    row (.timeSteppedClear inp) (s.cck.timeStepped = true ∧ 1000 ≤ s.cck.stepAge + 1) ∧
    row (.strapsRead inp) (s.cfg.startState = .straps) ∧
    row (.storeIdTimeout inp) (s.cfg.startState = .storeId ∧ s.cfg.identIssued = false ∧ s.tsc.draining = false ∧
      inp.storeBusy = true ∧ 1000 ≤ s.cfg.storeIdPolls + 1) ∧
    row (.encoderFaultEnd inp) (s.svo.encFault = true ∧ 1000 ≤ s.svo.clean + 1) ∧
    row (.stall inp) (stallDue inp s = true) ∧
    row (.crewAbsent inp) (∃ i : Fin 4,
      s.zmn.filters[i].present = true ∧ inp.crew.getLsbD i.val = false ∧ 40 ≤ s.zmn.filters[i].clear + 1) ∧
    row (.followError inp) (3 ≤ (toServo inp s).1.svo.follow) ∧
    row (.demandStale inp) (∃ b, s.cfg.params = some b ∧ axisUp s = true ∧ 5 < s.ptb.demands[stationOf b.source].age) ∧
    row (.peerLost inp) (∃ t, exec (.update inp) s = .next t ∧ t.ptb.lost ≠ s.ptb.lost) ∧
    row (.wakingEnd inp) (s.stc.drive = .waking ∧ 120 ≤ s.stc.settle + 1) ∧
    row (.flashTimeout inp)
      (s.tsc.reported = false ∧
        ((∃ p, s.tsc.unit = .programming p ∧ (1000 ≤ s.tsc.opAge + 1 ∨ 1000 ≤ s.tsc.suspendAge)) ∨
          (∃ c, s.tsc.unit = .erasing c false ∧ (1000 ≤ s.tsc.opAge + 1 ∨ 1000 ≤ s.tsc.suspendAge)) ∨
          ∃ c, s.tsc.unit = .erasing c true ∧ (1000 ≤ s.tsc.opAge + 1 ∨ 1000 ≤ s.tsc.suspendAge + 1)))

/-- UPDATE labels itself with the next index, wrapping, phase 0; at index 200 of a node that has adopted nothing it is labelled
0 and the time becomes OWN (R62, R66); TIME-STEPPED ends at step age 1,000 (R71). Every entry ages by one, saturating at 255
(R58); the four crew filters run (R74); a CONTROL node in RUN queues its DEMAND with the next sequence and the wheels (R26,
R27); at an index that is the station number modulo 4 the STATUS slot takes a STATUS of the node's items as they stand at its
place in the update, before the profile or after it (R36, R165; the order: log 6), at any other it stays. What a snapshot shows
of DMR is what the update leaves (R39). -/
def Obligations.UpdateClockAgesFiltersAndDemand : Prop :=
  (∀ (inp : UpdateInputs) (s : State), ∃ t, exec (.update inp) s = .next t ∧
    t.cck.phase = 0 ∧ t.cck.stepCount = s.cck.stepCount ∧
    (s.cck.timeState = .unset ∧ s.cck.pending = none ∧ (s.cck.ms + 1).toNat = 200 →
      t.cck.ms = 0 ∧ t.cck.timeState = .own) ∧
    (¬(s.cck.timeState = .unset ∧ s.cck.pending = none ∧ (s.cck.ms + 1).toNat = 200) →
      t.cck.ms = s.cck.ms + 1 ∧ t.cck.timeState = s.cck.timeState) ∧
    (s.cck.timeStepped = false → t.cck.timeStepped = false ∧ t.cck.stepAge = s.cck.stepAge) ∧
    (s.cck.timeStepped = true → s.cck.stepAge + 1 < 1000 → t.cck.timeStepped = true ∧ t.cck.stepAge = s.cck.stepAge + 1) ∧
    (s.cck.timeStepped = true → 1000 ≤ s.cck.stepAge + 1 → t.cck.timeStepped = false ∧ t.cck.stepAge = 1000)) ∧
  (∀ (inp : UpdateInputs) (s : State), ∃ t, exec (.update inp) s = .next t ∧
    (∀ st : Station, t.ptb.peers[st] = { s.ptb.peers[st] with age := min 255 (s.ptb.peers[st].age + 1) }) ∧
    (∀ st : Station, t.ptb.demands[st] = { s.ptb.demands[st] with age := min 255 (s.ptb.demands[st].age + 1) }) ∧
    (∀ i : Fin 4,
      (inp.crew.getLsbD i.val = true → t.zmn.filters[i] = { raw := true, present := true, clear := 0 }) ∧
      (inp.crew.getLsbD i.val = false → s.zmn.filters[i].clear + 1 < 40 →
        t.zmn.filters[i] = { raw := false, present := s.zmn.filters[i].present, clear := s.zmn.filters[i].clear + 1 }) ∧
      (inp.crew.getLsbD i.val = false → 40 ≤ s.zmn.filters[i].clear + 1 →
        t.zmn.filters[i] = { raw := false, present := false, clear := 40 })) ∧
    t.chan.wheels = s.chan.wheels ∧ t.dmr.shown = t.dmr.toDmrItems ∧
    (controlUp s = false → s.cfg.startState ≠ .straps → t.chan.seq = s.chan.seq ∧ t.lnk.demand = s.lnk.demand) ∧
    (controlUp s = true →
      t.chan.seq = s.chan.seq + 1 ∧
      ∃ d, t.lnk.demand = some d ∧ d.seq = s.chan.seq + 1 ∧
        ∀ ch : Fin 4, d.kinds[ch] = channelKind s ch ∧
          (channelKind s ch = .wheel → d.values[ch] = BitVec.ofInt 16 s.chan.wheels[ch]) ∧
          (channelKind s ch = .lever → d.values[ch] = BitVec.ofInt 16 (max (-2048) (min 2047 inp.levers[ch]))))) ∧
  (∀ (inp : UpdateInputs) (s : State), s.cfg.startState ≠ .straps → ∃ t, exec (.update inp) s = .next t ∧
    (s.cfg.station = none → t.lnk.status = s.lnk.status) ∧
    ∀ n, s.cfg.station = some n →
      (t.cck.ms.toNat % 4 ≠ n.val % 4 → t.lnk.status = s.lnk.status) ∧
      (t.cck.ms.toNat % 4 = n.val % 4 → ∃ i, t.lnk.status = some i ∧
        i.role = s.cfg.role.getD .axis ∧ i.wakeRefused = s.stc.wakeRefused ∧ i.crew = crewBits t ∧
        i.timeState = t.cck.timeState ∧ i.timeStepped = t.cck.timeStepped ∧ i.syncLost = t.cck.syncLost ∧
        i.stamp = { ms16 := t.cck.ms.setWidth 16, phase := 0 } ∧
        i.kind = ownKind s ∧ i.startState = t.cfg.startState ∧ i.fault = t.cfg.faultReason ∧
        (inp.statusPoint = .last → i.factor = BitVec.ofNat 16 t.mpr.factor) ∧
        (inp.statusPoint ≠ .last → i.factor = BitVec.ofNat 16 s.mpr.factor) ∧
        (inp.statusPoint ≠ .beforeProfile → i.zones = t.zmn.active ∧ i.demandStale = t.dmr.stale) ∧
        (inp.statusPoint ≠ .beforeProfile → s.stc.hold ≠ none ∨ t.stc.hold = none →
          i.position = t.mpr.p / 256 ∧ i.posValid = decide (t.hom.state = .homed) ∧ i.move = t.mpr.v ∧
          i.drive = t.stc.drive ∧ i.home = t.hom.state ∧ i.homeOutcome = t.hom.outcome ∧ i.hold = t.stc.hold ∧
          (operationLate (ageOperation s.tsc) = false →
            i.job = t.tks.job ∧ i.takeNumber = t.tks.takeNumber ∧ i.outcome = t.tks.outcome)) ∧
        (inp.statusPoint = .beforeProfile →
          (inp.zonesFirst = true → i.zones = t.zmn.active) ∧ (inp.zonesFirst = false → i.zones = s.zmn.active) ∧
          (inp.demandFirst = true → i.demandStale = t.dmr.stale) ∧ (inp.demandFirst = false → i.demandStale = s.dmr.stale) ∧
          (inp.causesFirst = false →
            i.position = s.mpr.p / 256 ∧ i.posValid = decide (s.hom.state = .homed) ∧ i.move = s.mpr.v ∧
            i.drive = s.stc.drive ∧ i.home = s.hom.state ∧ i.homeOutcome = s.hom.outcome ∧ i.hold = s.stc.hold ∧
            i.job = s.tks.job ∧ i.takeNumber = s.tks.takeNumber ∧ i.outcome = s.tks.outcome))))

/-- What no update changes: the queue, the encoder's counts, the link's receive side, its counters and the attempt in flight,
the holder set, the chain and the companion halt, the block and its image, what peers reported; and, while no operation of the
take memory runs out of its updates, the companion port, and the take memory but for an erase that STORE-ID finishes. The bytes
outside that erase's sector, and outside an operation that has run out of its updates, never change (R127, R170). -/
def Obligations.UpdateFrame : Prop :=
  ∀ (inp : UpdateInputs) (s : State), ∃ t, exec (.update inp) s = .next t ∧
    t.pending = s.pending ∧ t.freeCount = s.freeCount ∧
    t.svo.raw = s.svo.raw ∧
    (t.lnk.receiving = s.lnk.receiving ∧ t.lnk.capture = s.lnk.capture ∧ t.lnk.rxErrors = s.lnk.rxErrors ∧
      t.lnk.bitErrors = s.lnk.bitErrors ∧ t.lnk.bitErrorTotal = s.lnk.bitErrorTotal ∧ t.lnk.linkFault = s.lnk.linkFault ∧
      t.lnk.faultPause = s.lnk.faultPause ∧ t.lnk.recessiveRun = s.lnk.recessiveRun ∧
      t.lnk.dominantRun = s.lnk.dominantRun ∧ t.lnk.pauseCount = s.lnk.pauseCount ∧ t.lnk.level = s.lnk.level ∧
      t.lnk.errorFlag = s.lnk.errorFlag ∧
      t.lnk.tx.map (fun x => (x.slot, x.frame, x.start, x.orphan)) =
        s.lnk.tx.map (fun x => (x.slot, x.frame, x.start, x.orphan))) ∧
    (t.stc.holders = s.stc.holders ∧ t.stc.chainOpen = s.stc.chainOpen ∧ t.stc.companionHalt = s.stc.companionHalt ∧
      t.stc.wakeRefused = s.stc.wakeRefused) ∧
    (t.cfg.image = s.cfg.image ∧ t.cfg.params = s.cfg.params ∧ t.cfg.identAnswer = s.cfg.identAnswer ∧
      t.cfg.restartCount = s.cfg.restartCount ∧ t.cfg.refusedRestarts = s.cfg.refusedRestarts) ∧
    (t.ptb.duplicates = s.ptb.duplicates ∧ t.tsc.rereads = s.tsc.rereads) ∧
    (operationLate (ageOperation s.tsc) = false → t.cpt = s.cpt ∧ (s.cfg.heldErase = none → t.flash = s.flash)) ∧
    (memoryForm s → ∀ a : Nat,
      (∀ c, s.cfg.heldErase = some c → a < c * 4096 ∨ c * 4096 + 4096 ≤ a) →
      (operationLate (ageOperation s.tsc) = true →
        (∀ c u, s.tsc.unit = .erasing c u → a < c * 4096 ∨ c * 4096 + 4096 ≤ a) ∧
        ∀ p, s.tsc.unit = .programming p → a < p.address ∨ p.address + p.data.length ≤ a) →
      memRead t.flash a = memRead s.flash a)

/-- With the drive off (PARKED, STOPPED, or WAKING before its settle count is full) and no homing or job that a stop would end, an
update tracks: p follows the measured position, clamped to the soft limits on a homed axis, the move is 0, the mode HOLD, the
drive output 0; a WAKING that stays counts the update (R1, R3, R22, R97). One update of a homed or unhomed axis ENABLED in HAND,
or at rest in HOLD or RUNOUT, which give way to HAND, with no job or one PREPARED, no homing and nothing that stops it: p, v and
the limit flags are those of the profile update, on the hand demand and the member cap of this update or of the one before, as
the order of the update has it (R5, R6, R7, R8, R13). In every mode but PLAYBACK the profile update of an ENABLED or STOPPING
axis takes the source demand of its mode and the cap; STOPPING ramps in HOLD at a_stop, the others at a_max (R4, R6, R7, R8).
Its p and v are what an ENABLED axis keeps that no cause stops, whose job does not replay, arrive or roll. A STOPPING axis
that is not at rest stays STOPPING; at rest it tracks and is PARKED with a park pending, else STOPPED while a stop is in force
and PARKED where it has been released (R94, R95). A park pending in ENABLED completes at rest in PARKED (R98; that this entry
tracks from the next update on: log 33). An overrun sets the latch, begins a hold where the node held none, and leaves the axis
in STOPPED, or in PARKED with a park pending (R11, R88, R93, R94). (The model's order: log 6.) -/
def Obligations.UpdateTracksOrMoves : Prop :=
  (∀ (inp : UpdateInputs) (s : State),
    s.stc.drive = .parked ∨ s.stc.drive = .stopped ∨ s.stc.drive = .waking ∧ s.stc.settle + 1 < 120 →
    s.cfg.startState ≠ .straps → s.hom.state ≠ .homing → jobAbortable s.tks.job = false → travelSafe s →
    ∃ t, exec (.update inp) s = .next t ∧
      (s.stc.drive = .waking → t.stc.drive = .waking → t.stc.settle = s.stc.settle + 1) ∧
      t.mpr.p = (if isHomed s then max (travelLo s) (min (travelHi s) (measured s * 256)) else measured s * 256) ∧
      t.mpr.v = 0 ∧ t.mpr.mode = .hold ∧ t.mpr.g = none ∧ t.svo.u = 0 ∧ t.svo.follow = 0 ∧
      t.mpr.atLo = decide (t.mpr.p = travelLo s) ∧ t.mpr.atHi = decide (t.mpr.p = travelHi s) ∧
      brakeEngaged t = true ∧ t.hom = s.hom) ∧
  (∀ (inp : UpdateInputs) (s : State),
    s.stc.drive = .enabled → s.mpr.mode = .hand ∨ (s.mpr.mode = .hold ∨ s.mpr.mode = .runout) ∧ s.mpr.v = 0 →
    s.tks.job = .idle ∨ s.tks.job = .prepared ∧ s.tks.rollTime = none → s.hom.state ≠ .homing → updateQuiet inp s →
    ∃ t, exec (.update inp) s = .next t ∧
      let cap := if inp.zonesFirst then t.zmn.memberCap else s.zmn.memberCap
      let vMax := param s (fun b => b.vMax)
      let o := profile
        { p := s.mpr.p, v := s.mpr.v
          d0 := if inp.demandFirst then t.dmr.handDemand else s.dmr.handDemand
          cap := if isHomed s then min vMax cap else min (min vMax cap) (param s (fun b => b.vHome))
          aEff := param s (fun b => b.aMax), aMax := param s (fun b => b.aMax)
          lo := travelLo s, hi := travelHi s, homed := isHomed s, g := none }
      t.mpr.p = o.p ∧ t.mpr.v = o.v ∧ t.mpr.mode = .hand ∧ t.mpr.g = s.mpr.g ∧
      t.mpr.atLo = decide (o.p = travelLo s) ∧ t.mpr.atHi = decide (o.p = travelHi s) ∧
      t.stc.drive = .enabled ∧ brakeEngaged t = false ∧ t.hom = s.hom ∧ t.tks.job = s.tks.job) ∧
  (∀ (inp : UpdateInputs) (s : State), causeFree s → s.stc.drive = .enabled ∨ s.stc.drive = .stopping →
    let m := toServo inp s
    let mode :=
      if s.stc.drive = .stopping then .hold
      else if (s.mpr.mode = .hold ∨ s.mpr.mode = .runout) ∧ s.mpr.v = 0 ∧ (s.tks.job = .idle ∨ s.tks.job = .prepared) ∧
        s.hom.state ≠ .homing then .hand
      else s.mpr.mode
    let g := if s.stc.drive = .stopping then none else s.mpr.g
    let vMax := param s (fun b => b.vMax)
    let vHome := param s (fun b => b.vHome)
    let toward (x : Int) : Int := Int.sign (x - s.mpr.p) * param s (fun b => b.vGoto)
    let o := profile
      { p := s.mpr.p, v := s.mpr.v
        d0 :=
          match mode with
          | .hold | .runout | .playback => 0
          | .hand => m.1.dmr.handDemand
          | .goto_ => (g.map toward).getD 0
          | .homing => if param s (fun b => b.homeDirection) = 0 then vHome else -vHome
        cap := if isHomed s then min vMax m.1.zmn.memberCap else min (min vMax m.1.zmn.memberCap) vHome
        aEff := if s.stc.drive = .stopping then param s (fun b => b.aStop) else param s (fun b => b.aMax)
        aMax := param s (fun b => b.aMax), lo := travelLo s, hi := travelHi s, homed := isHomed s
        g := if mode = .goto_ then g else none }
    ∃ t, exec (.update inp) s = .next t ∧
      m.1.zmn.memberCap = (if inp.zonesFirst then t.zmn.memberCap else s.zmn.memberCap) ∧
      (inp.demandFirst = false → m.1.dmr = s.dmr) ∧
      (mode ≠ .playback →
        m.1.mpr = { s.mpr with
          p := o.p, v := o.v, mode := mode, g := g, atLo := decide (o.p = travelLo s), atHi := decide (o.p = travelHi s) } ∧
        m.1.svo.err = o.p - measured s * 256 ∧
        m.2 = { rest := decide (o.v = 0), arrival := o.arrival, overrun := o.overrun, made := o.made, play := .notPlaying })) ∧
  (∀ (inp : UpdateInputs) (s : State), s.stc.drive = .enabled → s.hom.state ≠ .homing → updateQuiet inp s →
    s.tks.job ≠ .running → (s.tks.job = .cueing → (toServo inp s).2.arrival = false) →
    (s.tks.job = .cued → s.tks.rollTime = none) →
    ∃ t, exec (.update inp) s = .next t ∧
      t.mpr = { (toServo inp s).1.mpr with factor := t.mpr.factor } ∧
      t.stc.drive = .enabled ∧ brakeEngaged t = false ∧ t.hom = s.hom) ∧
  (∀ (inp : UpdateInputs) (s : State), causeFree s → resultCalm inp s → travelSafe s → s.hom.state ≠ .homing →
    jobAbortable s.tks.job = false → s.stc.drive = .stopping ∨ s.stc.drive = .enabled ∧ s.stc.parkPending = true →
    let m := toServo inp s
    let tracked := if isHomed s then max (travelLo s) (min (travelHi s) (measured s * 256)) else measured s * 256
    ∃ t, exec (.update inp) s = .next t ∧
      t.stc.hold = s.stc.hold ∧ t.stc.holders = s.stc.holders ∧ t.hom = s.hom ∧
      (m.2.rest = false →
        t.stc.drive = s.stc.drive ∧ t.stc.parkPending = s.stc.parkPending ∧ brakeEngaged t = false ∧
        t.mpr = { m.1.mpr with factor := t.mpr.factor }) ∧
      (m.2.rest = true →
        t.stc.drive = (if s.stc.parkPending = false ∧ stopInForce s = true then .stopped else .parked) ∧
        t.stc.parkPending = false ∧ t.stc.settle = 0 ∧ brakeEngaged t = true ∧ t.svo.u = 0 ∧ t.svo.follow = 0 ∧
        t.mpr.p = (if s.stc.drive = .stopping then tracked else m.1.mpr.p) ∧
        t.mpr.v = 0 ∧ t.mpr.mode = .hold ∧ t.mpr.g = none ∧
        t.mpr.atLo = decide (t.mpr.p = travelLo s) ∧ t.mpr.atHi = decide (t.mpr.p = travelHi s))) ∧
  ∀ (inp : UpdateInputs) (s : State), causeFree s → stopSafe s → travelSafe s →
    s.stc.drive = .enabled ∨ s.stc.drive = .stopping ∧ s.hom.state ≠ .homing ∧ jobAbortable s.tks.job = false →
    (toServo inp s).1.svo.follow < 3 → (toServo inp s).2.overrun = true → s.stc.overrunLatch = false →
    ∃ t, exec (.update inp) s = .next t ∧
      t.stc.overrunLatch = true ∧ t.stc.drive = (if s.stc.parkPending then .parked else .stopped) ∧
      t.stc.hold = some (s.stc.hold.getD { kind := .ramp, code := some .overrun }) ∧
      brakeEngaged t = true ∧ t.svo.u = 0 ∧ t.mpr.v = 0 ∧ t.mpr.mode = .hold ∧ t.mpr.g = none ∧
      t.mpr.p = (if isHomed s then max (travelLo s) (min (travelHi s) (measured s * 256)) else measured s * 256)

/-- One update of a take that is RUNNING, with a delta to hand and a recorded move that passes its checks: the move is made
exactly, k goes on, and at the end index or the cut point the job is RUNOUT (R15, R120, R121); at rest in RUNOUT it is COMPLETED
(R122). One update of a recording that is not at the end of a page or segment: the move made goes to the page buffer as its
difference from the move before (R115, R134); at the cut point the recording goes to CLOSING with its length and end position,
with that move or, for a cut time already reached, without (R118). The roll point of a PREPARED and of a CUED job (R113, R114),
and the arrival of a CUE (R110). The 127th delta completes its page: it joins the write queue with its header on page 1 and its
segment close on page 15, or the recording is aborted with RECORD-OVERRUN where the queue holds 6 (R115, R134). The delta of a
positive multiple of 1,905 first takes the next sector, or aborts so where none is ERASED (R133). Where the pool then holds 1
sector, or at a completed page 1 or none, the store-low CUT is queued once, where the FIFO has room (R117, R133). (The model's
order: log 6.) -/
def Obligations.UpdateReplaysAndRecords : Prop :=
  (∀ (inp : UpdateInputs) (s : State) (d : Int),
    s.stc.drive = .enabled → s.mpr.mode = .playback → s.tks.job = .running → s.hom.state = .homed → updateQuiet inp s →
    inp.zonesFirst = false → s.tks.cutTime = none → s.tsc.deltaAt s.tks.k = some d →
    let m := d + s.tks.playMove.getD 0
    |m| ≤ speedCap s → |m - s.mpr.v| ≤ 2 * param s (fun b => b.aMax) → travelLo s ≤ s.mpr.p + m →
    s.mpr.p + m ≤ travelHi s →
    ∃ t, exec (.update inp) s = .next t ∧
      t.mpr.p = s.mpr.p + m ∧ t.mpr.v = m ∧ t.tks.k = s.tks.k + 1 ∧ t.tks.playMove = some m ∧
      (s.tks.k + 1 ≠ s.tks.endIndex.getD 0 → t.tks.job = .running ∧ t.mpr.mode = .playback) ∧
      (s.tks.k + 1 = s.tks.endIndex.getD 0 → t.tks.job = .runout ∧ t.mpr.mode = .runout)) ∧
  (∀ (inp : UpdateInputs) (s : State) (e : DirEntry) (r : Recording),
    s.stc.drive = .enabled → s.tks.job = .recording → s.hom.state = .homed → updateQuiet inp s →
    s.tks.cutTime = none → s.tsc.recordingOf = some (e, r) → operationLate (ageOperation s.tsc) = false →
    s.tsc.pageBuffer.length + 1 < 127 → ¬(0 < r.count ∧ r.count % 1905 = 0) →
    ∃ t, exec (.update inp) s = .next t ∧
      t.tks.job = .recording ∧ t.tks.k = s.tks.k + 1 ∧ t.tks.prevMove = some (t.mpr.p - s.mpr.p) ∧
      t.tsc.pageBuffer = s.tsc.pageBuffer ++ [t.mpr.p - s.mpr.p - s.tks.prevMove.getD 0] ∧
      t.tsc.recordingOf.map (fun x => x.2.count) = some (r.count + 1) ∧ t.tsc.writeQueue = s.tsc.writeQueue) ∧
  (∀ (inp : UpdateInputs) (s : State) (e : DirEntry) (r : Recording) (c : Ms16),
    s.stc.drive = .enabled → s.tks.job = .recording → s.hom.state = .homed → updateQuiet inp s → s.cck.timeState ≠ .unset →
    s.tks.cutTime = some c → s.tsc.recordingOf = some (e, r) → operationLate (ageOperation s.tsc) = false →
    s.tsc.pageBuffer.length + 1 < 127 → ¬(0 < r.count ∧ r.count % 1905 = 0) → s.tsc.writeQueue.length < 4 →
    let d := (c - (s.cck.ms + 1).setWidth 16).toInt - 1
    ∃ t, exec (.update inp) s = .next t ∧
      (0 < d → t.tks.job = .recording ∧ t.tks.k = s.tks.k + 1 ∧ t.tks.cutTime = some c) ∧
      (d ≤ 0 → t.tks.job = .closing ∧ t.tks.cutTime = none ∧ t.tks.prevMove = none ∧ t.tsc.pageBuffer = []) ∧
      (d = 0 → t.tks.k = s.tks.k + 1 ∧
        t.tsc.closing.map (fun x => (x.length, x.endPos)) = some (s.tks.k + 1, t.mpr.p)) ∧
      (d < 0 → t.tks.k = s.tks.k ∧ t.tsc.closing.map (fun x => (x.length, x.endPos)) = some (s.tks.k, s.mpr.p))) ∧
  (∀ (inp : UpdateInputs) (s : State) (roll : Ms16),
    s.stc.drive = .enabled → s.hom.state = .homed → updateQuiet inp s → s.cck.timeState ≠ .unset →
    s.tks.rollTime = some roll → operationLate (ageOperation s.tsc) = false →
    ∃ t, exec (.update inp) s = .next t ∧
      (roll ≠ (s.cck.ms + 2).setWidth 16 → s.tks.job = .prepared ∨ s.tks.job = .cued → t.tks = s.tks) ∧
      (roll = (s.cck.ms + 2).setWidth 16 →
        (s.tks.job = .cued →
          t.tks = { s.tks with
            job := .running, t0 := some (s.cck.ms + 2 - BitVec.ofNat 32 (s.tks.inIndex.getD 0)), rollTime := none } ∧
          t.mpr.mode = .playback) ∧
        (s.tks.job = .prepared → s.tsc.recordingOf = none →
          (s.tsc.findErased 4095 s.tsc.cursor = none →
            t.tks.job = .idle ∧ t.tks.outcome = .aborted (reasonCode .recordOverrun) (ownByte s)) ∧
          (s.tsc.findErased 4095 s.tsc.cursor ≠ none → s.tsc.directory.length < 32 ∨ s.tsc.entry s.tks.jobTake ≠ none →
            t.tks.job = .recording ∧ t.tks.t0 = some (s.cck.ms + 2) ∧ t.tks.k = 0 ∧ t.tks.prevMove = some t.mpr.v ∧
            t.tks.marks = [] ∧ t.tks.marksFull = false ∧ t.tks.markLate = false ∧ t.tks.rollTime = none ∧
            t.tks.cutTime = none ∧
            t.tsc.recordingOf.map (fun x => (x.1.number, x.2.mask, x.2.startPos, x.2.initialMove, x.2.count)) =
              some (s.tks.jobTake, s.tks.mask.getD 0, t.mpr.p, t.mpr.v, 0))))) ∧
  (∀ (inp : UpdateInputs) (s : State),
    s.stc.drive = .enabled → s.hom.state = .homed → updateQuiet inp s → operationLate (ageOperation s.tsc) = false →
    let m := toServo inp s
    ∃ t, exec (.update inp) s = .next t ∧
      (s.tks.job = .cueing → m.2.arrival = true →
        t.tks = { s.tks with job := .cued } ∧ t.mpr.mode = .hold ∧ t.mpr.g = none ∧ t.mpr.p = m.1.mpr.p) ∧
      (s.tks.job = .cueing → m.2.arrival = false → t.tks = s.tks ∧ t.mpr.mode = m.1.mpr.mode) ∧
      (s.tks.job = .runout → m.2.rest = true →
        t.tks.job = .idle ∧ t.tks.outcome = .completed ∧ t.tks.mask = none) ∧
      (s.tks.job = .runout → m.2.rest = false → t.tks = s.tks)) ∧
  (∀ (inp : UpdateInputs) (s : State) (d : Int) (c : Ms16),
    s.stc.drive = .enabled → s.mpr.mode = .playback → s.tks.job = .running → s.hom.state = .homed → updateQuiet inp s →
    inp.zonesFirst = false → s.cck.timeState ≠ .unset → s.tks.cutTime = some c →
    (c - (s.cck.ms + 1).setWidth 16).toInt ≤ 1 → s.tsc.deltaAt s.tks.k = some d →
    let m := d + s.tks.playMove.getD 0
    |m| ≤ speedCap s → |m - s.mpr.v| ≤ 2 * param s (fun b => b.aMax) → travelLo s ≤ s.mpr.p + m →
    s.mpr.p + m ≤ travelHi s →
    ∃ t, exec (.update inp) s = .next t ∧
      t.mpr.p = s.mpr.p + m ∧ t.mpr.v = m ∧ t.tks.k = s.tks.k + 1 ∧ t.tks.job = .runout ∧ t.mpr.mode = .runout ∧
      t.tks.cutTime = none) ∧
  (∀ (inp : UpdateInputs) (s : State) (e : DirEntry) (r : Recording),
    s.stc.drive = .enabled → s.tks.job = .recording → s.hom.state = .homed → updateQuiet inp s → s.cck.timeState ≠ .unset →
    s.tks.cutTime = none → s.tsc.recordingOf = some (e, r) → operationLate (ageOperation s.tsc) = false →
    ∃ t, exec (.update inp) s = .next t ∧
      let delta := t.mpr.p - s.mpr.p - s.tks.prevMove.getD 0
      let overrun := t.tks.job = .idle ∧ t.tks.outcome = .aborted (reasonCode .recordOverrun) (ownByte s) ∧
        t.tsc.recordingOf = none ∧ t.tsc.pageBuffer = [] ∧ t.tsc.writeQueue = [] ∧
        (s.lnk.fifo.length < 4 →
          t.lnk.fifo = s.lnk.fifo ++ [.take (.abort s.tks.jobTake (reasonCode .recordOverrun) (ownByte s))])
      let low := s.tks.storeLowSent = false ∧ s.lnk.fifo.length < 4
      let cut := t.lnk.fifo = s.lnk.fifo ++ [.take (.cut s.tks.jobTake ((s.cck.ms + 21).setWidth 16))] ∧
        t.tks.storeLowSent = true
      let quiet := t.lnk.fifo = s.lnk.fifo ∧ t.tks.storeLowSent = s.tks.storeLowSent
      (s.tsc.pageBuffer.length = 126 → ¬(0 < r.count ∧ r.count % 1905 = 0) →
        let w := pageOf r.count
        let page : WriteEntry :=
          { sector := (sectorOf r.segments w.seq).getD 0, seq := w.seq, page := w.page, deltas := s.tsc.pageBuffer ++ [delta]
            steps := (if w.page = 1 then [.header] else []) ++ [.page] ++ (if w.page = 15 then [.segClose] else []) }
        (6 ≤ s.tsc.writeQueue.length → overrun) ∧
        (s.tsc.writeQueue.length < 6 →
          t.tks.job = .recording ∧ t.tks.k = s.tks.k + 1 ∧ t.tsc.pageBuffer = [] ∧
          t.tsc.writeQueue = s.tsc.writeQueue ++ [page] ∧
          (s.tsc.erased ≤ 1 → low → cut) ∧ (1 < s.tsc.erased ∨ ¬low → quiet))) ∧
      (s.tsc.pageBuffer.length + 1 < 127 → 0 < r.count → r.count % 1905 = 0 →
        (s.tsc.findErased 4095 s.tsc.cursor = none → overrun) ∧
        ∀ c, s.tsc.findErased 4095 s.tsc.cursor = some c →
          t.tks.job = .recording ∧ t.tks.k = s.tks.k + 1 ∧ t.tsc.pageBuffer = s.tsc.pageBuffer ++ [delta] ∧
          t.tsc.cursor = (if c < 4095 then c + 1 else 1) ∧
          t.tsc.recordingOf.map (fun x => (x.2.count, x.2.segments.map (fun g => (g.sector, g.seq)))) =
            some (r.count + 1, r.segments.map (fun g => (g.sector, g.seq)) ++ [(c, r.count / 1905)]) ∧
          (t.tsc.erased = 1 → low → cut) ∧ (t.tsc.erased ≠ 1 ∨ ¬low → quiet)))

/-- TIME_OWN, TIME_STEPPED_CLEAR, STRAPS_READ, STORE_ID_TIMEOUT, CREW_ABSENT, ENCODER_FAULT_END and DEMAND_STALE complete with
the outcome they name (R19, R31, R66, R71, R74, R169, R170), and so do STALL, which leaves the axis in BACK-OFF (R47), and
WAKING_END, which leaves it ENABLED in HAND with the brake released (R3, R23, R97). The hold that ENCODER-FAULT began stays
(R88). That the clean count is left at 1,000 is the model's choice (log 55). -/
def Obligations.NamedOutcomesOfAnUpdate : Prop :=
  (∀ (inp : UpdateInputs) (s : State),
    (s.cck.timeState = .unset → s.cck.pending = none → s.cck.ms = 199 →
      ∃ t, exec (.timeOwn inp) s = .next t ∧ t.cck.ms = 0 ∧ t.cck.phase = 0 ∧ t.cck.timeState = .own) ∧
    (s.cck.timeStepped = true → s.cck.stepAge = 999 →
      ∃ t, exec (.timeSteppedClear inp) s = .next t ∧ t.cck.timeStepped = false ∧ t.cck.stepAge = 1000 ∧
        t.cck.stepCount = s.cck.stepCount) ∧
    (s.cfg.startState = .straps →
      ∃ t, exec (.strapsRead inp) s = .next t ∧
        t.cfg = { s.cfg with
          station := some inp.straps, role := some (if inp.roleHigh then .control else .axis)
          startState := if inp.straps = 0 then .configFault else .storeId
          faultReason := if inp.straps = 0 then some .station else s.cfg.faultReason
          failingItem := if inp.straps = 0 then none else s.cfg.failingItem
          resumeIssued := if inp.straps = 0 then s.cfg.resumeIssued else true } ∧
        (s.cfg.station = none → t.lnk.status = s.lnk.status) ∧ t.pending = s.pending) ∧
    (s.cfg.startState = .storeId → s.cfg.identIssued = false → s.tsc.draining = false → s.cfg.storeIdPolls = 999 →
      inp.storeBusy = true →
      ∃ t, exec (.storeIdTimeout inp) s = .next t ∧
        t.cfg = { s.cfg with
          startState := .configFault, faultReason := some .absent, failingItem := none, storeIdPolls := 1000
          resumeIssued := true })) ∧
  (∀ (inp : UpdateInputs) (s : State),
    (∀ i : Fin 4, s.zmn.filters[i].present = true → s.zmn.filters[i].clear = 39 → inp.crew.getLsbD i.val = false →
      ∃ t, exec (.crewAbsent inp) s = .next t ∧ t.zmn.filters[i] = { raw := false, present := false, clear := 40 }) ∧
    (s.svo.encFault = true → s.svo.clean = 999 →
      ∃ t, exec (.encoderFaultEnd inp) s = .next t ∧ t.svo.encFault = false ∧ t.svo.clean = 1000 ∧ t.svo.raw = s.svo.raw ∧
        (s.stc.hold.isSome = true → t.stc.hold.isSome = true)) ∧
    (∀ b, axisUp s = true → s.cfg.params = some b → 5 < s.ptb.demands[stationOf b.source].age →
      ∃ t, exec (.demandStale inp) s = .next t ∧
        t.dmr.stale = true ∧ t.dmr.armed = false ∧ t.dmr.pendingWheel = 0 ∧ t.dmr.handDemand = 0)) ∧
  (∀ (inp : UpdateInputs) (s : State),
    stallDue inp s = true → s.stc.drive = .enabled → s.tks.job = .idle → updateQuiet inp s →
    ∃ t, exec (.stall inp) s = .next t ∧ t.hom.state = .homing ∧ t.hom.phase = some .backOff) ∧
  ∀ (inp : UpdateInputs) (s : State),
    s.stc.drive = .waking → s.stc.settle = 119 → s.tks.job = .idle → s.hom.state ≠ .homing → updateQuiet inp s →
    ∃ t, exec (.wakingEnd inp) s = .next t ∧ t.stc.drive = .enabled ∧ t.mpr.mode = .hand ∧ brakeEngaged t = false

/-- STALL: the 20th update in SEEK with the error past the threshold sets the origin so that the axis reads home_offset, carries
the error over, and starts the back-off (R21, R47). WAKING_END: the update that brings the settle count to 120 makes the drive
ENABLED, releases the brake, makes the mode HAND with the move 0 and the route disarmed, and leaves it so on a demand that is
not neutral (R3, R23, R32, R97; that the settle count then stays at 120: the model's choice, log 49). In SEEK of a HARD-STOP
homing an update with the error strictly past the threshold adds one to the stall count, any other makes it 0; a SWITCH homing
leaves it; the stall is the update that brings it to 20 (R47). The rest report of a DECEL and the arrival of a BACK-OFF make the
axis HOMED (R46, R48); where p then lies outside the soft limits it is clamped with the move 0 and OVERRUN is raised, which
begins a hold and ends in STOPPED, where MPR tracks (R3, R14, R88, R93, R94). A seek that has gone further than home_max_travel
fails with TRAVEL and leaves the axis UNHOMED in HOLD (R49). Any other update moves by its profile result and leaves the
homing as it was. An update that shows both the stall and the travel test takes the stall (the model's choice: log 39). -/
def Obligations.StallAndWakingEnd : Prop :=
  (∀ (inp : UpdateInputs) (s : State),
    stallDue inp s = true → s.stc.drive = .enabled → s.tks.job = .idle → updateQuiet inp s →
    ∃ t, exec (.stall inp) s = .next t ∧
      t.svo.origin = s.svo.raw - BitVec.ofInt 29 (param s (fun b => b.homeOffset)) ∧ t.svo.raw = s.svo.raw ∧
      t.hom.state = .homing ∧ t.hom.phase = some .backOff ∧ t.hom.stall = 0 ∧ t.hom.seekStart = none ∧
      t.mpr.mode = .goto_ ∧
      t.mpr.g = some ((param s (fun b => b.homeOffset) + (if param s (fun b => b.homeDirection) = 0 then -1 else 1) *
        param s (fun b => b.backOff)) * 256) ∧
      t.mpr.p = (toServo inp s).1.mpr.p +
        (countDiff s.svo.raw t.svo.origin - countDiff s.svo.raw s.svo.origin) * 256 ∧
      t.mpr.v = (toServo inp s).1.mpr.v ∧ t.stc.drive = .enabled) ∧
  (∀ (inp : UpdateInputs) (s : State),
    s.stc.drive = .waking → s.stc.settle = 119 → s.tks.job = .idle → s.hom.state ≠ .homing → travelSafe s →
    updateQuiet inp s →
    ∃ t, exec (.wakingEnd inp) s = .next t ∧
      t.stc.drive = .enabled ∧ t.stc.settle = 120 ∧ driveEnable t = true ∧ brakeEngaged t = false ∧
      t.mpr.mode = .hand ∧ t.mpr.v = 0 ∧ t.mpr.g = none ∧ t.dmr.handDemand = 0 ∧
      (∀ b, s.cfg.params = some b → s.dmr.lastKind = none ∨ s.dmr.lastKind = some .wheel ∧ s.dmr.pendingWheel ≠ 0 ∨
        s.dmr.lastKind = some .lever ∧ (b.deadband : Int) < |leverValue s b| → t.dmr.armed = false) ∧
      t.mpr.p = (if isHomed s then max (travelLo s) (min (travelHi s) (measured s * 256)) else measured s * 256)) ∧
  (∀ (inp : UpdateInputs) (s : State),
    s.stc.drive = .enabled → s.tks.job = .idle → updateQuiet inp s → s.hom.state = .homing →
    let m := toServo inp s
    let done : Hom :=
      { state := .homed, phase := none, seekStart := none, stall := 0, armed := false, outcome := .done }
    let lo := param s (fun b => b.lo) * 256
    let hi := param s (fun b => b.hi) * 256
    let err := m.1.mpr.p - measured s * 256
    let past : Prop := param s (fun b => b.stallThreshold) * 256 < |err|
    ∃ t, exec (.update inp) s = .next t ∧ t.svo.raw = s.svo.raw ∧
      let moves : Prop := t.mpr = { m.1.mpr with factor := t.mpr.factor } ∧ t.stc.drive = .enabled
      let ends : Prop :=
        t.hom = done ∧ t.svo.origin = s.svo.origin ∧
        (lo ≤ m.1.mpr.p → m.1.mpr.p ≤ hi → t.mpr.p = m.1.mpr.p ∧ t.stc.drive = .enabled) ∧
        (m.1.mpr.p < lo ∨ hi < m.1.mpr.p → stopSafe s → limitsOrdered s → s.stc.overrunLatch = false →
          t.stc.overrunLatch = true ∧ t.stc.hold = some { kind := .ramp, code := some .overrun } ∧
          t.stc.drive = .stopped ∧ brakeEngaged t = true ∧ t.mpr.p = max lo (min hi (measured s * 256)) ∧
          t.mpr.v = 0 ∧ t.mpr.mode = .hold ∧ t.mpr.g = none)
      (s.hom.phase = some .decel → m.2.rest = false → t.hom = s.hom ∧ moves) ∧
      (s.hom.phase = some .decel → m.2.rest = true → ends) ∧
      (s.hom.phase = some .backOff → m.2.arrival = false → t.hom = s.hom ∧ moves) ∧
      (s.hom.phase = some .backOff → m.2.arrival = true → ends ∧ t.mpr.mode = .hold ∧ t.mpr.g = none) ∧
      (s.hom.phase = some .seek →
        (stallDue inp s = true ↔ param s (fun b => b.homeMode) = 1 ∧ past ∧ 20 ≤ s.hom.stall + 1)) ∧
      (∀ x, s.hom.phase = some .seek → s.hom.seekStart = some x → stallDue inp s = false →
        (param s (fun b => b.homeMaxTravel) * 256 < |m.1.mpr.p - x| →
          t.hom = { state := .unhomed, phase := none, seekStart := none, stall := 0, armed := false
                    outcome := .failed .travel } ∧
          t.mpr.mode = .hold ∧ t.mpr.v = m.1.mpr.v ∧ t.stc.drive = .enabled) ∧
        (|m.1.mpr.p - x| ≤ param s (fun b => b.homeMaxTravel) * 256 →
          (param s (fun b => b.homeMode) ≠ 1 → t.hom = s.hom) ∧
          (param s (fun b => b.homeMode) = 1 → past → t.hom = { s.hom with stall := s.hom.stall + 1 }) ∧
          (param s (fun b => b.homeMode) = 1 → ¬past → t.hom = { s.hom with stall := 0 }) ∧ moves)))

/-- FOLLOW_ERROR: the update that brings the follow counter to 3 sets the latch, holds HARD and stops the axis (R24, R88, R92).
PEER_LOST: the update of an active axis that finds an expected peer older than 24 updates adds it to the lost set, and a node
that did not hold then holds (R60, R88). (The model's order: log 6.) -/
def Obligations.FollowErrorAndPeerLostStopTheAxis : Prop :=
  (∀ (inp : UpdateInputs) (s : State),
    3 ≤ (toServo inp s).1.svo.follow → s.stc.followLatch = false → s.stc.drive = .enabled ∨ s.stc.drive = .stopping →
    ∃ t, exec (.followError inp) s = .next t ∧
      t.stc.followLatch = true ∧ t.stc.drive ≠ .enabled ∧ t.stc.drive ≠ .stopping ∧ brakeEngaged t = true ∧ t.mpr.v = 0 ∧
      t.svo.u = 0 ∧ t.svo.follow = 0 ∧ ∃ h, t.stc.hold = some h ∧ h.kind = .hard) ∧
  (∀ (inp : UpdateInputs) (s : State) (st : Station),
    axisUp s = true → s.stc.drive = .enabled ∨ s.stc.drive = .stopping ∨ s.stc.drive = .waking →
    (inp.causesFirst = true ∨ s.stc.drive = .enabled ∧ s.stc.parkPending = false ∧ s.hom.state ≠ .homing ∧
      (toServo inp s).1.svo.follow < 3 ∧ (toServo inp s).2.overrun = false) →
    s.stc.companionHalt = false → s.ptb.lost = 0 →
    st ≠ 0 → isOwn st s = false → expected s st = true → 24 < s.ptb.peers[st].age →
    ∃ t, exec (.peerLost inp) s = .next t ∧
      maskNames t.ptb.lost st = true ∧ t.stc.hold.isSome = true ∧ t.stc.drive ≠ .enabled ∧ t.stc.drive ≠ .waking)

/-- FLASH_TIMEOUT: a program or an erase that status has not reported at its 1,000th update, or a suspend not reported at its
1,000th, has failed (R127). An erase, told to suspend or not, ends as a failed check: its sector leaves the queue for BAD, and
the write of sector 0 has FAILED (R140, R182). A program ends as a verify mismatch: a record program ends the recording with
STORE-WRITE (R115, R135), as it and a close program do in CLOSING (R119, R137), a lock leaves its take COMPLETE with the retire
mark and is refused (R126, R145), a write of the block has FAILED (R182), an abandoned one is not acted on (R138). The updates
of a verify or check read do not count, nor does the update in which a suspend is issued. (Status's report: log 22.) -/
def Obligations.FlashTimeoutFailsTheOperation : Prop :=
  (∀ (inp : UpdateInputs) (s : State),
    s.tsc.reported = false → s.tsc.draining = false → axisUp s = true →
    s.tsc.opAge = 999 ∨ (∃ c, s.tsc.unit = .erasing c true ∧ s.tsc.suspendAge = 999) →
    let own := ownByte s
    (∀ (c : Nat) (u : Bool), s.tsc.unit = .erasing c u →
      ∃ t, exec (.flashTimeout inp) s = .next t ∧
        (c ≠ 0 → c ∈ t.tsc.bad ∧ (s.tks.job = .idle →
          t.tsc.bad = s.tsc.bad ++ [c] ∧ t.tsc.eraseQueue = s.tsc.eraseQueue.tail ∧
          (s.tsc.reads = [] → s.tsc.writeQueue = [] → s.tsc.closeList = [] → s.tsc.eraseQueue.tail = [] → t.tsc.unit = .idle))) ∧
        (c = 0 → t.cpt = { s.cpt with writeState := .failed, writeBuffer := none } ∧
          .configErase ∉ t.tsc.closeList ∧ ∀ i, .configPage i ∉ t.tsc.closeList)) ∧
    (∀ p : Program, s.tsc.unit = .programming p →
      ∃ t, exec (.flashTimeout inp) s = .next t ∧
        (∀ i, p.work = .config i → t.cpt = { s.cpt with writeState := .failed, writeBuffer := none } ∧
          ∀ k, .configPage k ∉ t.tsc.closeList) ∧
        (∀ n e x, p.work = .lock n → s.tks.job = .idle → s.tsc.entry n = some e → e.stored = some x →
          (t.tsc.entry n).bind (·.stored) = some { x with
            lockPending := false
            segments := x.segments.map fun g => if g.seq = 0 then { g with retire := true } else g } ∧
          t.tks = { s.tks with takeNumber := n, outcome := .refused (reasonCode .storeWrite) } ∧ t.tsc.bad = s.tsc.bad) ∧
        ((∃ st, p.work = .record st) ∨ p.work = .segClose ∨ p.work = .takeClose → s.tks.job = .closing →
          t.tks.job = .idle ∧ t.tks.outcome = .aborted (reasonCode .storeWrite) own ∧ t.tks.takeNumber = s.tks.jobTake ∧
          t.tsc.bad = s.tsc.bad ++ [p.address / 4096] ∧ t.tsc.recordingOf = none ∧ t.tsc.closing = none ∧
          t.tsc.writeQueue = [] ∧ t.lnk.fifo = s.lnk.fifo) ∧
        (∀ st e r, p.work = .record st → s.tks.job = .recording → s.stc.drive = .enabled → s.hom.state = .homed →
          updateQuiet inp s → s.tks.cutTime = none → s.tsc.recordingOf = some (e, r) → s.tsc.pageBuffer.length + 1 < 127 →
          ¬(0 < r.count ∧ r.count % 1905 = 0) →
          t.tks.job = .idle ∧ t.tks.outcome = .aborted (reasonCode .storeWrite) own ∧
          t.tsc.bad = s.tsc.bad ++ [p.address / 4096] ∧ t.tsc.recordingOf = none ∧ t.tsc.writeQueue = [] ∧
          t.tsc.pageBuffer = [] ∧
          (s.lnk.fifo.length < 4 →
            t.lnk.fifo = s.lnk.fifo ++ [.take (.abort s.tks.jobTake (reasonCode .storeWrite) own)])) ∧
        (p.work = .abandoned → s.tks.job = .idle → t.tks = s.tks ∧ t.cpt = s.cpt ∧ t.tsc.bad = s.tsc.bad ∧
          t.tsc.eraseQueue = s.tsc.eraseQueue))) ∧
  ∀ (inp : UpdateInputs) (s : State), ∃ t, exec (.update inp) s = .next t ∧
    (s.tsc.reported = true → (∃ p, s.tsc.unit = .programming p) ∨ (∃ c u, s.tsc.unit = .erasing c u) →
      t.tsc.reported = true ∧ t.tsc.opAge = s.tsc.opAge ∧ t.tsc.suspendAge = s.tsc.suspendAge) ∧
    (∀ c, s.tsc.unit = .erasing c false → s.tsc.reported = false → s.tsc.opAge + 1 < 1000 → s.tsc.suspendAge + 1 < 1000 →
      t.tsc.opAge = s.tsc.opAge + 1 ∧ (t.tsc.unit = .erasing c true → t.tsc.suspendAge = 0)) ∧
    (∀ c, s.tsc.unit = .erasing c true → s.tsc.reported = false → s.tsc.opAge + 1 < 1000 → s.tsc.suspendAge + 1 < 1000 →
      t.tsc.unit = .erasing c true ∧ t.tsc.opAge = s.tsc.opAge + 1 ∧ t.tsc.suspendAge = s.tsc.suspendAge + 1)

/-! ### The correction -/

/-- CORRECTION_APPLY: the decided correction moves index and phase together from phase 500, carrying and borrowing; every stored
offset falls by it; a capture of a frame in progress and the start of an attempt move with the time (R65). An adoption makes the
time AGREED (R66). A step with no job running sets TIME-STEPPED and counts (R69). A step while a take runs is withheld: a slew,
SYNC-LOST, and the job aborted with SYNC (R69, R124). (The model's choices: log 20; that the entry of a station not yet heard
has no stored offset to move: log 61.) -/
def Obligations.CorrectionIsApplied : Prop :=
  (∀ (t : CraneTime) (c : Int), t.phase < 1000 →
    (t.move c).phase < 1000 ∧
    (((t.move c).ms.toNat : Int) * 1000 + (t.move c).phase - ((t.ms.toNat : Int) * 1000 + t.phase + c)) % 4294967296000 = 0) ∧
  ∀ s : State,
    let moved (c : Int) : State :=
      let x := CraneTime.move { ms := s.cck.ms, phase := 500 } c
      { s with
        cck := { s.cck with ms := x.ms, phase := x.phase, pending := none }
        ptb := { s.ptb with
          peers := vmap (fun e => if e.items.isSome then { e with offset := e.offset - c } else e) s.ptb.peers }
        lnk := { s.lnk with
          capture := if s.lnk.receiving then s.lnk.capture.map (·.move c) else s.lnk.capture
          tx := s.lnk.tx.map fun t => { t with start := t.start.move c } } }
    (s.cck.pending = none → exec .correctionApply s = .next s) ∧
    (∀ c, s.cck.pending = some (.slew c) → exec .correctionApply s = .next (moved c)) ∧
    (∀ c, s.cck.pending = some (.adopt c) →
      exec .correctionApply s = .next { moved c with cck := { (moved c).cck with timeState := .agreed } }) ∧
    (∀ c, s.cck.pending = some (.step c) → jobRunning s = false →
      s.tks.rollTime = none ∨ (s.tks.job ≠ .prepared ∧ s.tks.job ≠ .cued) →
      exec .correctionApply s = .next (startWork { moved c with cck := { (moved c).cck with
        timeStepped := true, stepAge := 0, stepCount := s.cck.stepCount + 1, syncLost := false } })) ∧
    (∀ c, s.cck.pending = some (.step c) → jobRunning s = true →
      ∃ t, exec .correctionApply s = .next t ∧ t.cck.syncLost = true ∧ t.cck.ms = (moved (max (-2) (min 2 c))).cck.ms ∧
        t.cck.phase = (moved (max (-2) (min 2 c))).cck.phase ∧ t.tks.job = .idle ∧ t.cck.stepCount = s.cck.stepCount ∧
        t.tks.outcome = .aborted (reasonCode .sync) (ownByte s)) ∧
    (∀ c, s.cck.pending = some (.step c) → s.tks.rollTime.isSome = true → s.tks.job = .prepared ∨ s.tks.job = .cued →
      ∃ t, exec .correctionApply s = .next t ∧ t.cck = { (moved c).cck with
          timeStepped := true, stepAge := 0, stepCount := s.cck.stepCount + 1, syncLost := false } ∧
        t.tks.job = .idle ∧ t.tks.rollTime = none ∧ t.tks.outcome = .aborted (reasonCode .sync) (ownByte s))

/-! ### Start, configuration and the resets -/

/-- IDENTIFICATION: a capacity byte of 24 ends STORE-ID, any other gives CONFIG-FAULT ABSENT, and an erase the memory still held
has run to its end behind the resume (R170; an answer is judged without a poll seen: log 26). CONFIG_LOAD: the image is kept; a
wrong format code or check gives CHECK, an item that fails RANGE with that item; an image that passes hands out its items and
leads to RUN on a CONTROL node, to SCAN on an AXIS node (R28, R73, R171, R172). An image passes for a role if and only if each
item checked on that role lies in its range: those of R172, the homing items of R41, the route, the lens points of R34 on a
ZOOM axis, the zone entries of R72, the expected mask. The failing item is the first that fails in the order of R172, a
channel, lens point or zone with its index. The model's choices: the order of the items within a row and a table entry, a pair
(lo < hi, ascending positions, distinct numbers) charged to the later item, f_min checked on every route, a zone's index
counted from 0 (log 17), factor and member cap set at the load (log 19). An answer that is none is held as read (log 63). -/
def Obligations.StartSequenceChecksTheStore : Prop :=
  (∀ (b0 b1 b2 : Byte) (s : State), s.cfg.startState = .storeId → s.tsc.draining = false →
    let kept := { s.cfg with
      identIssued := true, identAnswer := some { b0 := b0, b1 := b1, b2 := b2 }, resumeIssued := true, heldErase := none }
    let flash := match s.cfg.heldErase with | none => s.flash | some c => memErase s.flash c
    (b2 = 24 → exec (.identification b0 b1 b2) s = .next { s with
      cfg := { kept with startState := .configLoad }, flash := flash
      tsc := { s.tsc with unit := .reading .config, opAge := 0 } }) ∧
    (b2 ≠ 24 → exec (.identification b0 b1 b2) s = .next { s with
      cfg := { kept with startState := .configFault, faultReason := some .absent, failingItem := none }
      flash := flash })) ∧
  (∀ (seen : Option (List Byte)) (s : State) (role : Role), s.cfg.startState = .configLoad → s.cfg.role = some role →
    let bs := seen.getD (memRun s.flash 0 371)
    let b := readBlock bs
    let intact := bs.length = 371 ∧ fieldNat bs 0 2 = 0x4E31 ∧ checkMatches bs = true
    let held : State := { s with cfg := { s.cfg with image := some bs }, tsc := { s.tsc with unit := .idle } }
    (¬intact → exec (.configLoad seen) s = .next { held with cfg := { held.cfg with
      startState := .configFault, faultReason := some .check, failingItem := none } }) ∧
    (∀ f, intact → checkBlock role b = some f → exec (.configLoad seen) s = .next { held with cfg := { held.cfg with
      startState := .configFault, faultReason := some .range, failingItem := some f } }) ∧
    (intact → checkBlock role b = none → role = .control → exec (.configLoad seen) s = .next { held with
      cfg := { held.cfg with params := some b, startState := .run } }) ∧
    (intact → checkBlock role b = none → role = .axis → exec (.configLoad seen) s = .next { held with
      cfg := { held.cfg with params := some b, startState := .scan }
      dmr := { s.dmr with factor := if b.coupling = 0 then 4096 else b.fMin }
      zmn := { s.zmn with memberCap := b.vMax }
      tsc := { s.tsc with unit := .reading .scan, scanNext := 1, opAge := 0 } })) ∧
  (∀ b : Block,
    let count (x : Int) : Prop := -268435456 ≤ x ∧ x ≤ 268435455
    let station (n : Nat) : Prop := 1 ≤ n ∧ n ≤ 15
    let shared : Prop :=
      b.zoneCount ≤ 8 ∧ (b.zones.map (·.number)).Nodup ∧
      (∀ z ∈ b.zones, 1 ≤ z.number ∧ z.number ≤ 8 ∧ station z.sensorStation ∧ z.sensorInput ≤ 3 ∧
        station z.aStation ∧ count z.aLo ∧ count z.aHi ∧ z.aLo ≤ z.aHi ∧ z.bPresent ≤ 1 ∧
        (z.bPresent = 1 → station z.bStation ∧ count z.bLo ∧ count z.bHi ∧ z.bLo ≤ z.bHi) ∧
        z.members.getLsbD 0 = false) ∧
      b.expected.getLsbD 0 = false
    (checkBlock .axis b = none ↔
      b.role = 0 ∧ b.axisKind ≤ 9 ∧ count b.lo ∧ count b.hi ∧ b.lo < b.hi ∧ 1 ≤ b.vMax ∧ b.vMax ≤ 8388607 ∧
      1 ≤ b.aMax ∧ b.aMax ≤ 16383 ∧ b.aMax ≤ b.aStop ∧ b.aStop ≤ 65535 ∧ 1 ≤ b.vGoto ∧ b.vGoto ≤ b.vMax ∧
      1 ≤ b.vHome ∧ b.vHome ≤ b.vMax ∧ 1 ≤ b.followMax ∧ b.followMax ≤ 1000000 ∧ b.homeMode ≤ 2 ∧ b.homeDirection ≤ 1 ∧
      count b.homeOffset ∧ 1 ≤ b.homeMaxTravel ∧ b.homeMaxTravel ≤ 268435455 ∧ 1 ≤ b.stallThreshold ∧
      b.stallThreshold ≤ 1000000 ∧ (b.homeMode = 1 → b.backOff ≤ 1000000) ∧ b.routePresent = 1 ∧ station b.source ∧
      b.channel ≤ 3 ∧ b.deadband ≤ 2047 ∧ b.invert ≤ 1 ∧ b.coupling ≤ 15 ∧ 64 ≤ b.fMin ∧ b.fMin ≤ 4096 ∧
      (b.axisKind = 9 → 2 ≤ b.lensCount ∧ b.lensCount ≤ 16 ∧ (b.lens.map (·.pos)).Pairwise (· < ·) ∧
        ∀ x ∈ b.lens, 64 ≤ x.factor ∧ x.factor ≤ 4096) ∧ shared) ∧
    (checkBlock .control b = none ↔ b.role = 1 ∧ (∀ ch : Fin 4, b.channelKinds[ch] ≤ 1) ∧ shared)) ∧
  (∀ b : Block,
    let one (n : ItemName) : Option FailingItem := some { name := n, index := none }
    let entry (n : ItemName) (i : Nat) : Option FailingItem := some { name := n, index := some i }
    (let found := checkBlock .axis b
      if b.role ≠ 0 then found = one .role
      else if 9 < b.axisKind then found = one .axisKind
      else if b.lo < -268435456 ∨ 268435455 < b.lo then found = one .lo
      else if b.hi ≤ b.lo ∨ 268435455 < b.hi then found = one .hi
      else if b.vMax < 1 ∨ 8388607 < b.vMax then found = one .vMax
      else if b.aMax < 1 ∨ 16383 < b.aMax then found = one .aMax
      else if b.aStop < b.aMax ∨ 65535 < b.aStop then found = one .aStop
      else if b.vGoto < 1 ∨ b.vMax < b.vGoto then found = one .vGoto
      else if b.vHome < 1 ∨ b.vMax < b.vHome then found = one .vHome
      else if b.followMax < 1 ∨ 1000000 < b.followMax then found = one .followMax
      else if 2 < b.homeMode then found = one .homeMode
      else if 1 < b.homeDirection then found = one .homeDirection
      else if b.homeOffset < -268435456 ∨ 268435455 < b.homeOffset then found = one .homeOffset
      else if b.homeMaxTravel < 1 ∨ 268435455 < b.homeMaxTravel then found = one .homeMaxTravel
      else if b.stallThreshold < 1 ∨ 1000000 < b.stallThreshold then found = one .stallThreshold
      else if b.homeMode = 1 ∧ 1000000 < b.backOff then found = one .backOff
      else if b.routePresent ≠ 1 then found = one .routePresent
      else if b.source < 1 ∨ 15 < b.source then found = one .routeSource
      else if 3 < b.channel then found = one .routeChannel
      else if 2047 < b.deadband then found = one .routeDeadband
      else if 1 < b.invert then found = one .routeInvert
      else if 15 < b.coupling then found = one .routeCoupling
      else if b.fMin < 64 ∨ 4096 < b.fMin then found = one .routeFMin
      else b.axisKind = 9 → b.lensCount < 2 ∨ 16 < b.lensCount → found = one .lensCount) ∧
    (b.role ≠ 1 → checkBlock .control b = one .role) ∧
    (∀ ch : Fin 4, b.role = 1 → 1 < b.channelKinds[ch] → (∀ d : Fin 4, d < ch → b.channelKinds[d] ≤ 1) →
      checkBlock .control b = entry .channelKind ch.val) ∧
    (∀ (before after : List LensPoint) (x : LensPoint), b.axisKind = 9 → b.lens = before ++ x :: after →
      checkBlock .axis { b with lens := before, zoneCount := 0, zones := [], expected := 0 } = none →
      ((∃ y, before.getLast? = some y ∧ x.pos ≤ y.pos) → checkBlock .axis b = entry .lensPosition before.length) ∧
      ((∀ y, before.getLast? = some y → y.pos < x.pos) → x.factor < 64 ∨ 4096 < x.factor →
        checkBlock .axis b = entry .lensFactor before.length)) ∧
    ∀ role : Role,
      let found := checkBlock role b
      (checkBlock role { b with zoneCount := 0, zones := [], expected := 0 } = none → 8 < b.zoneCount → found = one .zoneCount) ∧
      (∀ (before after : List ZoneEntry) (z : ZoneEntry), b.zones = before ++ z :: after →
        checkBlock role { b with zones := before, expected := 0 } = none →
        let i := before.length
        if z.number < 1 ∨ 8 < z.number ∨ z.number ∈ before.map (·.number) then found = entry .zoneNumber i
        else if z.sensorStation < 1 ∨ 15 < z.sensorStation then found = entry .zoneSensorStation i
        else if 3 < z.sensorInput then found = entry .zoneSensorInput i
        else if z.aStation < 1 ∨ 15 < z.aStation then found = entry .zoneAxisAStation i
        else if z.aLo < -268435456 ∨ 268435455 < z.aLo then found = entry .zoneAxisALo i
        else if z.aHi < z.aLo ∨ 268435455 < z.aHi then found = entry .zoneAxisAHi i
        else if 1 < z.bPresent then found = entry .zoneAxisBPresent i
        else if z.bPresent = 1 ∧ (z.bStation < 1 ∨ 15 < z.bStation) then found = entry .zoneAxisBStation i
        else if z.bPresent = 1 ∧ (z.bLo < -268435456 ∨ 268435455 < z.bLo) then found = entry .zoneAxisBLo i
        else if z.bPresent = 1 ∧ (z.bHi < z.bLo ∨ 268435455 < z.bHi) then found = entry .zoneAxisBHi i
        else z.members.getLsbD 0 = true → found = entry .zoneMembers i) ∧
      (checkBlock role { b with expected := 0 } = none → b.expected.getLsbD 0 = true → found = one .expectedMask))

/-- SCAN_SECTOR_READ: an erased page 0 leaves the sector ERASED; a header that is not valid, or names no take 1..99, sends it to
the erase queue; a valid one is noted, its generation remembered where newer (R148). SCAN_END: PARKED, with at most 32 stored
takes, none recording, none lock-pending, the notes spent (R149, R150, R173; sectors not yet read are read from the memory,
log 18). The groups of a number hold its notes by generation, in sequence order, one for each sequence, of the lowest sector; a
group is COMPLETE by the four conditions of R149. The group kept of a number is the newest of its COMPLETE ones, else the newest
of all; each kept group is an entry, of more than 32 the LOCKED first, then the COMPLETE, then the BROKEN, by number; behind the
sectors already queued stand the duplicates, the groups not kept and the numbers left over (R150; their order: log 40). -/
def Obligations.ScanReadsAndResolves : Prop :=
  (∀ (seen : Option (List Byte)) (s : State), s.cfg.startState = .scan → s.tsc.scanNext ≤ 4095 →
    let c := s.tsc.scanNext
    let page := seen.getD (memRun s.flash (c * 4096) 256)
    let unit : FlashUnit := if c + 1 ≤ 4095 then .reading .scan else .idle
    let n := fieldNat page 0 1
    let g := BitVec.ofNat 8 (fieldNat page 1 1)
    (page.all (· == 255) = true →
      exec (.scanSectorRead seen) s = .next { s with tsc := { s.tsc with scanNext := c + 1, unit := unit } }) ∧
    (page.all (· == 255) = false → partRead (field page 0 24) ≠ .valid ∨ n = 0 ∨ 99 < n →
      exec (.scanSectorRead seen) s = .next { s with tsc := { s.tsc with
        scanNext := c + 1, unit := unit, eraseQueue := s.tsc.eraseQueue ++ [c] } }) ∧
    (page.all (· == 255) = false → partRead (field page 0 24) = .valid → 1 ≤ n → n ≤ 99 →
      ∃ t, exec (.scanSectorRead seen) s = .next t ∧
        t = { s with tsc := { s.tsc with
          scanNext := c + 1, unit := unit, scanNotes := s.tsc.scanNotes ++ [noteOf c page], generations := t.tsc.generations } } ∧
        (∀ k : Fin 100, k.val ≠ n → t.tsc.generations[k] = s.tsc.generations[k]) ∧
        (∀ k : Fin 100, k.val = n → t.tsc.generations[k] =
          match s.tsc.generations[k] with
          | none => some g
          | some old => if newer g old then some g else some old))) ∧
  (∀ s : State, s.cfg.startState = .scan →
    ∃ t, exec .scanEnd s = .next t ∧
      t = { s with cfg := { s.cfg with startState := .parked }, tsc := t.tsc } ∧
      t.tsc.scanNotes = [] ∧ t.tsc.directory.length ≤ 32 ∧
      ∀ e ∈ t.tsc.directory, e.recording = none ∧ ∃ x, e.stored = some x ∧ x.lockPending = false) ∧
  (∀ (notes : List ScanNote) (n : Byte), notes.Pairwise (fun x y => x.sector < y.sector) →
    (groupsOf notes n).Pairwise (fun g h => g.generation.toNat < h.generation.toNat) ∧
    (∀ x ∈ notes, x.number = n → ∃ g ∈ groupsOf notes n, g.generation = x.generation) ∧
    ∀ g ∈ groupsOf notes n, g.number = n ∧ g.notes ≠ [] ∧ g.notes.Pairwise (fun x y => x.seq < y.seq) ∧
      ∀ x, x ∈ g.notes ↔ x ∈ notes ∧ x.number = n ∧ x.generation = g.generation ∧
        ∀ y ∈ notes, y.number = n → y.generation = g.generation → y.seq = x.seq → x.sector ≤ y.sector) ∧
  (∀ (g : Group) (x : ScanNote) (xs : List ScanNote), g.notes = x :: xs →
    (∀ c, g.complete = some c ↔
      x.close = some c ∧ c.length = ((x :: xs).map (fun y => y.segCount.getD 0)).sum ∧
      ∀ (i : Nat) (y : ScanNote), (x :: xs)[i]? = some y →
        y.seq = i ∧ y.mask = x.mask ∧ y.startPos = x.startPos ∧ y.initialMove = x.initialMove ∧
        ∃ k, y.segCount = some k ∧ (i < xs.length → k = 1905) ∧ (i = xs.length → 1 ≤ k ∧ k ≤ 1905)) ∧
    g.take.generation = g.generation ∧ g.take.mask = x.mask ∧ g.take.startPos = x.startPos ∧
    g.take.initialMove = x.initialMove ∧ g.take.lockPending = false ∧
    g.take.segments.map (fun y => (y.sector, y.seq)) = (x :: xs).map (fun y => (y.sector, y.seq)) ∧
    (g.complete = none → g.take.state = .broken ∧ g.take.length = 0 ∧ g.take.marks = []) ∧
    ∀ c, g.complete = some c → g.take.state = (if x.locked then .locked else .complete) ∧ g.take.length = c.length ∧
      g.take.endPos = some c.endPos ∧ g.take.marks = c.marks) ∧
  (∀ (gs : List Group),
    let candidate (g : Group) : Prop := g ∈ gs ∧ ((∃ h ∈ gs, h.complete ≠ none) → g.complete ≠ none)
    (keptGroup gs = none ↔ gs = []) ∧
    ∀ k, keptGroup gs = some k →
      candidate k ∧
      ∀ g, candidate g → (∀ h, candidate h → h = g ∨ newer g.generation h.generation = true) → k = g) ∧
  (∀ s : State, s.cfg.startState = .scan → s.tsc.scanNext = 4096 →
    s.tsc.scanNotes.Pairwise (fun x y => x.sector < y.sector) →
    let kept (n : Byte) : Option Group := keptGroup (groupsOf s.tsc.scanNotes n)
    let rank (x : StoredTake) : Nat := match x.state with | .locked => 0 | .complete => 1 | .broken => 2
    ∃ t, exec .scanEnd s = .next t ∧
      t.tsc.directory.Pairwise (fun x y => x.number.toNat < y.number.toNat) ∧
      (∀ e ∈ t.tsc.directory, 1 ≤ e.number.toNat ∧ e.number.toNat ≤ 99 ∧ ∃ g, kept e.number = some g ∧ e.stored = some g.take) ∧
      (∀ n g, 1 ≤ n.toNat → n.toNat ≤ 99 → kept n = some g → (t.tsc.entry n).isNone = true →
        t.tsc.directory.length = 32 ∧
        ∀ e ∈ t.tsc.directory, ∀ x, e.stored = some x →
          rank x < rank g.take ∨ rank x = rank g.take ∧ e.number.toNat < n.toNat) ∧
      t.tsc.eraseQueue = s.tsc.eraseQueue ++
        (s.tsc.scanNotes.filter fun x => s.tsc.scanNotes.any fun y => y.number == x.number && y.generation == x.generation &&
          y.seq == x.seq && decide (y.sector < x.sector)).map (·.sector) ++
        (takeNumbers.flatMap fun n =>
          ((groupsOf s.tsc.scanNotes n).filter fun g => (kept n).any (fun k => k.generation != g.generation)).flatMap
            fun g => g.notes.map (·.sector)) ++
        ((takeNumbers.filter fun n => (t.tsc.entry n).isNone).flatMap fun n =>
          match kept n with | some g => g.notes.map (·.sector) | none => []))

/-- What an accepted RESTART leaves (R2, R18, R19, R28, R40, R54, R62, R73, R84, R104, R151, R156, R168, R176, R180). It is
accepted in PARKED with the drive PARKED, RUN or CONFIG-FAULT with no CONFIG-WRITE in progress, refused and counted otherwise; a
RESTART_FRAME that does not name the node reaches only the receive queue; an accepted one joins it first and is emptied with it
(R175, R179). (The model's choices: logs 25, 29 and 38.) In STRAPS no mask names the node (the model's choice: log 47). -/
def Obligations.RestartRebuildsOrIsRefused : Prop :=
  (∀ s : State, ∃ t, restartPart s = t ∧
    t.cfg = { s.cfg with
      startState := if s.cfg.station = some 0 then .configFault else .storeId
      faultReason := if s.cfg.station = some 0 then some .station else none
      failingItem := none, image := none, params := none, restartCount := s.cfg.restartCount + 1
      storeIdPolls := 0, identIssued := false, resumeIssued := false } ∧
    t.cck = s.cck ∧ t.ptb = s.ptb ∧ t.chan = Chan.start ∧ t.hom = Hom.start ∧ t.tks = Tks.start ∧
    t.mpr = { p := measured s * 256, v := 0, mode := .hold, g := none, atLo := false, atHi := false, factor := 0 } ∧
    t.svo = { s.svo with follow := 0, u := 0, err := t.svo.err } ∧
    t.dmr.armed = false ∧ t.dmr.pendingWheel = 0 ∧ t.dmr.lastKind = none ∧ t.dmr.handDemand = 0 ∧ t.dmr.stale = true ∧
    t.zmn.active = 0 ∧ (∀ i : Fin 4, t.zmn.filters[i].present = true ∧ t.zmn.filters[i].clear = 0) ∧
    (t.stc.drive = .parked ∧ t.stc.holders = s.stc.holders ∧ t.stc.followLatch = false ∧ t.stc.haltLatch = false ∧
      t.stc.overrunLatch = false ∧ t.stc.companionHalt = false ∧ t.stc.wakeRefused = false ∧ t.stc.settle = 0 ∧
      t.stc.parkPending = false ∧ t.stc.chainOpen = s.stc.chainOpen) ∧
    t.stc.hold = formHold (localCauses t) ∧
    t.lnk.safety = t.stc.hold.map (fun h => .stop h.kind h.code) ∧ t.lnk.fifo = [] ∧ t.lnk.demand = none ∧ t.lnk.status = none ∧
    (t.lnk.rxErrors = s.lnk.rxErrors ∧ t.lnk.bitErrors = s.lnk.bitErrors ∧ t.lnk.bitErrorTotal = s.lnk.bitErrorTotal ∧
      t.lnk.linkFault = s.lnk.linkFault ∧ t.lnk.faultPause = s.lnk.faultPause ∧ t.lnk.capture = s.lnk.capture) ∧
    (∀ x, s.lnk.tx = some x → ∃ y, t.lnk.tx = some y ∧ y.orphan = true ∧ y.frame = x.frame) ∧
    t.cpt = { s.cpt with rxQueue := [], copying := false, writeState := .idle, writeBuffer := none } ∧
    (s.tsc.unit = .idle → t.tsc = Tsc.start s.tsc.cursor s.tsc.rereads) ∧
    (s.tsc.unit ≠ .idle → t.tsc.draining = true ∧ t.tsc.unit ≠ .idle ∧ t.tsc.cursor = s.tsc.cursor) ∧
    t.flash = s.flash ∧ t.freeCount = s.freeCount ∧ t.pending = s.pending) ∧
  (∀ (st : Station) (mask : StationMask) (s : State), st ≠ 0 →
    let r := received st (.restart mask) s
    let ok := (s.cfg.startState = .parked ∧ s.stc.drive = .parked ∨ s.cfg.startState = .run ∨ s.cfg.startState = .configFault) ∧
      s.cpt.writeState ≠ .inProgress
    let refusedOnce (x : State) : State := { x with cfg := { x.cfg with refusedRestarts := satInc 255 x.cfg.refusedRestarts } }
    let port (a : Answer) (x : State) : State :=
      { x with cpt := { x.cpt with
        status := shownStatus s, began := false, answer := some a, response := .none, copying := false } }
    (ok → exec .restartCommand s = .next (port .accepted (restartPart s))) ∧
    (¬ok → exec .restartCommand s = .next (port .notNow (refusedOnce s))) ∧
    (namesOwn mask s = true → ok → exec (.restartFrame st mask) s = .next (startWork (restartPart r))) ∧
    (namesOwn mask s = true → ¬ok → exec (.restartFrame st mask) s = .next (startWork (refusedOnce r))) ∧
    (namesOwn mask s = false → exec (.restartFrame st mask) s = .next (startWork r)))

/-! ### Encoder and homing -/

/-- ENCODER_TRANSITION: a legal one counts and changes nothing else; an illegal one leaves the count, sets ENCODER-FAULT with
its clean count 0, holds HARD, takes the drive off, leaves the axis UNHOMED and ends a running take with STOP; on a CONTROL node
the lines are not used (R18, R19, R51, R88, R92, R124). (The model's choices: the order, log 6; a transition in STRAPS,
log 31.) -/
def Obligations.EncoderTransitions : Prop :=
  ∀ (s : State) (first : Bool),
    (isControl s = true → ∀ q, exec (.encoderTransition q first) s = .next (startWork s)) ∧
    (isControl s = false →
      exec (.encoderTransition .plus first) s = .next (startWork { s with svo := { s.svo with raw := s.svo.raw + 1 } }) ∧
      exec (.encoderTransition .minus first) s = .next (startWork { s with svo := { s.svo with raw := s.svo.raw - 1 } }) ∧
      (s.svo.encFault = true →
        exec (.encoderTransition .illegal first) s = .next (startWork { s with svo := { s.svo with clean := 0 } })) ∧
      (s.svo.encFault = false →
        ∃ t, exec (.encoderTransition .illegal first) s = .next t ∧
          t.svo.raw = s.svo.raw ∧ t.svo.origin = s.svo.origin ∧ t.svo.encFault = true ∧ t.svo.clean = 0 ∧
          t.hom.state = .unhomed ∧ (∃ h, t.stc.hold = some h ∧ h.kind = .hard) ∧
          (s.stc.drive = .parked ∨ s.stc.drive = .stopped → t.stc.drive = s.stc.drive) ∧
          (s.stc.drive = .waking ∨ s.stc.drive = .enabled ∨ s.stc.drive = .stopping → t.stc.drive = .stopped) ∧
          brakeEngaged t = true ∧
          (s.hom.state ≠ .homing → t.hom.outcome = s.hom.outcome) ∧
          (s.hom.state = .homing → first = false → t.hom.outcome = .failed .encoder) ∧
          (s.hom.state = .homing → first = true → s.stc.drive = .enabled → t.hom.outcome = .failed .stop) ∧
          (jobRunning s = true → t.tks.job = .idle ∧ t.tks.outcome = .aborted (reasonCode .stop) (ownByte s)) ∧
          t = { s with svo := t.svo, hom := t.hom, stc := t.stc, mpr := t.mpr, dmr := t.dmr, tks := t.tks, tsc := t.tsc
                       lnk := t.lnk }))

/-- SWITCH_CAPTURE while armed: the origin that makes the edge read home_offset, p shifted with e, HOLD requested, phase DECEL,
the capture disarmed; unarmed, nothing (R20, R21, R45). The shift keeps p - e·256; it is the 29-bit difference of the origins,
and where e wraps the same less or more 2^29 counts (R18, R21; a p past its range at the range's end: log 54). HOME taken by an
axis it names: ignored while HOMING; refused BUSY or NOT-ENABLED; a seek begun; a PRESET homing made at once, clamped with
OVERRUN where p lies outside (R14, R42, R43, R44). -/
def Obligations.HomingStartsAndCaptures : Prop :=
  (∀ raw old new : Count,
    let shift := countDiff raw new - countDiff raw old
    (-268435456 ≤ countDiff raw old + countDiff old new → countDiff raw old + countDiff old new ≤ 268435455 →
      shift = countDiff old new) ∧
    (shift - countDiff old new) % 536870912 = 0) ∧
  (∀ s : State,
    (s.hom.armed = false → exec .switchCapture s = .next s) ∧
    (s.hom.armed = true → s.stc.drive = .enabled →
      let origin := s.svo.raw - BitVec.ofInt 29 (param s (fun b => b.homeOffset))
      exec .switchCapture s = .next { s with
        svo := { s.svo with origin := origin }
        mpr := { s.mpr with
          p := s.mpr.p + (countDiff s.svo.raw origin - countDiff s.svo.raw s.svo.origin) * 256, mode := .hold, g := none }
        hom := { s.hom with armed := false, phase := some .decel, seekStart := none } })) ∧
  (∀ (st : Station) (mask : StationMask) (s : State), st ≠ 0 →
    let r := received st (.home mask) s
    let seek (armed : Bool) : State := { r with
      svo := { s.svo with follow := 0 }
      hom := { state := .homing, phase := some .seek, seekStart := some s.mpr.p, stall := 0, armed := armed, outcome := .none }
      mpr := { s.mpr with mode := .homing, g := none } }
    let origin := s.svo.raw - BitVec.ofInt 29 (param s (fun b => b.homeOffset))
    let shift := (countDiff s.svo.raw origin - countDiff s.svo.raw s.svo.origin) * 256
    let homed : Hom :=
      { state := .homed, phase := none, seekStart := none, stall := 0, armed := false, outcome := .done }
    (axisUp s = false ∨ namesOwn mask s = false ∨ s.hom.state = .homing →
      exec (.home st mask) s = .next (startWork r)) ∧
    (axisUp s = true → namesOwn mask s = true → s.hom.state ≠ .homing →
      (s.stc.drive ≠ .enabled ∨ s.stc.parkPending = true →
        exec (.home st mask) s = .next (startWork { r with hom := { s.hom with outcome := .refused .notEnabled } })) ∧
      (s.stc.drive = .enabled → s.stc.parkPending = false → s.tks.job ≠ .idle →
        exec (.home st mask) s = .next (startWork { r with hom := { s.hom with outcome := .refused .busy } })) ∧
      (s.stc.drive = .enabled → s.stc.parkPending = false → s.tks.job = .idle →
        (param s (fun b => b.homeMode) = 0 → exec (.home st mask) s = .next (startWork (seek true))) ∧
        (param s (fun b => b.homeMode) = 1 → exec (.home st mask) s = .next (startWork (seek false))) ∧
        (param s (fun b => b.homeMode) = 2 →
          (param s (fun b => b.lo) * 256 ≤ s.mpr.p + shift → s.mpr.p + shift ≤ param s (fun b => b.hi) * 256 →
            exec (.home st mask) s = .next (startWork { r with
              svo := { s.svo with origin := origin }
              mpr := { s.mpr with p := s.mpr.p + shift, g := s.mpr.g.map (· + shift) }
              hom := homed })) ∧
          (param s (fun b => b.lo) ≤ param s (fun b => b.hi) →
            s.mpr.p + shift < param s (fun b => b.lo) * 256 ∨ param s (fun b => b.hi) * 256 < s.mpr.p + shift →
            ∃ t, exec (.home st mask) s = .next t ∧ t.hom = homed ∧ t.svo.origin = origin ∧ t.mpr.v = 0 ∧
              t.stc.overrunLatch = true ∧ (s.stc.overrunLatch = false → t.stc.drive ≠ .enabled) ∧
              param s (fun b => b.lo) * 256 ≤ t.mpr.p ∧ t.mpr.p ≤ param s (fun b => b.hi) * 256)))))

/-! ### Stops, wake and park -/

/-- The drive state follows the stops in force, and leaving ENABLED hands STOP to homing, demand and takes in the same event
(R3, R92, R93, R94, R95, R99). A stop in WAKING brings the settle count to 0 (R97), and a HARD stop clears park pending (R98).
That the settle count is 0 also at an entry to STOPPED from ENABLED or STOPPING is the model's choice (log 49). -/
def Obligations.StopsInForceMoveTheDrive : Prop :=
  ∀ s : State, ∃ t, reactStops s = t ∧
    (hardInForce s = true → s.stc.drive = .waking ∨ s.stc.drive = .enabled ∨ s.stc.drive = .stopping →
      t.stc.drive = .stopped ∧ brakeEngaged t = true ∧ t.svo.u = 0 ∧ t.mpr.v = 0 ∧ t.mpr.mode = .hold ∧ t.mpr.g = none ∧
      t.stc.settle = 0 ∧ t.stc.parkPending = false ∧ t.svo.follow = 0) ∧
    (hardInForce s = false → stopInForce s = true →
      (s.stc.drive = .waking → t.stc.drive = .stopped ∧ t.mpr.v = 0 ∧ t.stc.settle = 0) ∧
      (s.stc.drive = .enabled → s.mpr.v ≠ 0 →
        t.stc.drive = .stopping ∧ t.mpr.mode = .hold ∧ t.mpr.g = none ∧ t.mpr.v = s.mpr.v ∧ t.mpr.p = s.mpr.p ∧
        t.stc.parkPending = s.stc.parkPending) ∧
      (s.stc.drive = .enabled → s.mpr.v = 0 →
        t.stc.drive = (if s.stc.parkPending then .parked else .stopped) ∧ t.mpr.v = 0 ∧ brakeEngaged t = true) ∧
      (s.stc.drive = .stopping → t = s)) ∧
    (s.stc.drive = .parked → t = s) ∧
    (stopInForce s = true → s.stc.drive = .stopped → t = s) ∧
    (stopInForce s = false → s.stc.drive ≠ .stopped → t = s) ∧
    (stopInForce s = false → s.stc.drive = .stopped → t.stc.drive = .parked ∧ brakeEngaged t = true) ∧
    (s.stc.drive = .enabled → stopInForce s = true →
      t.dmr = { s.dmr with armed := false, pendingWheel := 0, handDemand := 0 } ∧
      (s.hom.state = .homing → t.hom =
        { state := .unhomed, phase := none, seekStart := none, stall := 0, armed := false, outcome := .failed .stop }) ∧
      (s.hom.state ≠ .homing → t.hom = s.hom) ∧
      (jobAbortable s.tks.job = true → t.tks.job = .idle ∧ t.tks.outcome = .aborted (reasonCode .stop) (ownByte s)) ∧
      (jobAbortable s.tks.job = false → t.tks = s.tks ∧ t.tsc = s.tsc ∧ t.lnk = s.lnk)) ∧
    (t.stc.hold = s.stc.hold ∧ t.stc.holders = s.stc.holders ∧ localCauses t = localCauses s ∧ t.stc.haltInput = s.stc.haltInput ∧
      t.stc.companionHalt = s.stc.companionHalt ∧ t.stc.wakeRefused = s.stc.wakeRefused) ∧
    (t.cfg = s.cfg ∧ t.cck = s.cck ∧ t.ptb = s.ptb ∧ t.chan = s.chan ∧ t.zmn = s.zmn ∧ t.cpt = s.cpt ∧ t.flash = s.flash ∧
      t.freeCount = s.freeCount ∧ t.pending = s.pending ∧ t.svo.raw = s.svo.raw ∧ t.svo.origin = s.svo.origin ∧
      t.lnk.safety = s.lnk.safety ∧ t.lnk.tx = s.lnk.tx)

/-- CHAIN_OPEN begins a HARD hold with code CHAIN or escalates a RAMP one, and queues its STOP; a HARD hold stays and queues
nothing; CHAIN_CLOSE ends the cause and not the hold (R86, R88). STOP_FRAME and RELEASE_FRAME of another station set or remove
its holder entry, and the drive follows; station 0 and the own station leave the holder set alone (R89, R90, R164). In STRAPS no
number is known as the own one, and every station 1..15 counts as another (the model's choice: log 47). -/
def Obligations.StopSources : Prop :=
  (∀ s : State,
    let opened : State := { s with stc := { s.stc with chainOpen := true } }
    let held : State := { opened with
      stc := { opened.stc with hold := some { kind := .hard, code := some .chain } }
      lnk := { s.lnk.markRefilled .safety with safety := some (.stop .hard (some .chain)) } }
    (s.stc.chainOpen = true → exec .chainOpen s = .next (startWork opened)) ∧
    (s.stc.chainOpen = false → s.stc.hold = none → exec .chainOpen s = .next (startWork (reactStops held))) ∧
    (∀ h, s.stc.chainOpen = false → s.stc.hold = some h → h.kind = .ramp →
      exec .chainOpen s = .next (startWork (reactStops held))) ∧
    (∀ h, s.stc.chainOpen = false → s.stc.hold = some h → h.kind = .hard →
      exec .chainOpen s = .next (startWork (reactStops opened))) ∧
    exec .chainClose s = .next { s with stc := { s.stc with chainOpen := false } }) ∧
  (∀ (st : Station) (kind : StopKind) (code : Option Cause) (s : State),
    let r := received st (.stop kind code) s
    let q := received st .release s
    (st ≠ 0 → isOwn st s = false →
      exec (.stopFrame st kind code) s = .next (startWork (reactStops { r with
        stc := { s.stc with holders := s.stc.holders.set st (some { kind := kind, code := code }) } })) ∧
      exec (.releaseFrame st) s = .next (startWork (reactStops { q with
        stc := { s.stc with holders := s.stc.holders.set st none } }))) ∧
    (st = 0 ∨ isOwn st s = true →
      exec (.stopFrame st kind code) s = .next (startWork r) ∧ exec (.releaseFrame st) s = .next (startWork q)))

/-- RESUME from a station known as CONTROL: latches whose condition is absent are cleared; with no cause left a node that holds
stops holding and queues RELEASE; with causes left its hold is formed again and its STOP queued; from any other station it
changes nothing (R85, R100, R101). The first cause in the table's order names a hold, any HARD cause makes it HARD (R85, R88,
R101). That HALT is judged by the last update's sample of its input is the model's choice (log 62). -/
def Obligations.ResumeClearsAndReleases : Prop :=
  (∀ (st : Station) (s : State), st ≠ 0 →
    let r := received st .resume s
    let c : State := { r with stc := { s.stc with
      followLatch := false, overrunLatch := false
      haltLatch := s.stc.haltLatch && (s.stc.haltInput || s.stc.companionHalt) } }
    ((∀ i, (peerEntry s st).items = some i → i.role ≠ .control) → exec (.resume st) s = .next (startWork r)) ∧
    (∀ i, (peerEntry s st).items = some i → i.role = .control →
      (s.stc.hold = none → exec (.resume st) s = .next (startWork c)) ∧
      (s.stc.hold ≠ none → localCauses c = [] →
        exec (.resume st) s = .next (startWork (reactStops { c with
          stc := { c.stc with hold := none }, lnk := { c.lnk.markRefilled .safety with safety := some .release } }))) ∧
      (s.stc.hold ≠ none → ∀ h, formHold (localCauses c) = some h →
        exec (.resume st) s = .next (startWork (reactStops { c with
          stc := { c.stc with hold := some h }
          lnk := { c.lnk.markRefilled .safety with safety := some (.stop h.kind h.code) } }))))) ∧
  (∀ s : State,
    (formHold (localCauses s) = none ↔ ∀ c, causePresent s c = false) ∧
    ∀ h, formHold (localCauses s) = some h →
      (h.kind = .hard ↔ s.stc.chainOpen = true ∨ s.svo.encFault = true ∨ s.stc.followLatch = true) ∧
      (s.stc.chainOpen = true → h.code = some .chain) ∧
      (s.stc.chainOpen = false → s.svo.encFault = true → h.code = some .encoderFault) ∧
      (s.stc.chainOpen = false → s.svo.encFault = false → s.stc.followLatch = true → h.code = some .followError) ∧
      (s.stc.chainOpen = false → s.svo.encFault = false → s.stc.followLatch = false →
        (s.stc.haltLatch = true → h.code = some .halt) ∧
        (s.stc.haltLatch = false → s.ptb.lost ≠ 0 → h.code = some .peerLost) ∧
        (s.stc.haltLatch = false → s.ptb.lost = 0 → s.lnk.linkFault = true → h.code = some .linkFault) ∧
        (s.stc.haltLatch = false → s.ptb.lost = 0 → s.lnk.linkFault = false → h.code = some .overrun)))

/-- WAKE and PARK by the drive state of the axis they name (R96, R98); an accepted PARK fails a homing with PARK, disarms the
route and aborts a job with PARKED (R50). A PARK that completes from ENABLED leaves p as it is, as it does not track (the
model's inference: log 33). -/
def Obligations.WakeAndParkByTheDriveState : Prop :=
  (∀ (st : Station) (mask : StationMask) (s : State), st ≠ 0 →
    let r := received st (.wake mask) s
    let ok := stopInForce s = false ∧ localCauses s = [] ∧ rigReady s = true ∧ s.cfg.startState = .parked ∧
      s.cpt.writeState ≠ .inProgress
    (isAxis s = false ∨ namesOwn mask s = false → exec (.wake st mask) s = .next (startWork r)) ∧
    (isAxis s = true → namesOwn mask s = true →
      (s.stc.drive = .parked → ok → exec (.wake st mask) s = .next (startWork { r with
        stc := { s.stc with drive := .waking, settle := 0, wakeRefused := false }
        svo := { s.svo with follow := 0 }, mpr := { s.mpr with mode := .hold, g := none } })) ∧
      (s.stc.drive = .parked ∧ ¬ok ∨ s.stc.drive = .stopping ∨ s.stc.drive = .stopped →
        exec (.wake st mask) s = .next (startWork { r with stc := { s.stc with wakeRefused := true } })) ∧
      (s.stc.drive = .waking ∨ s.stc.drive = .enabled → exec (.wake st mask) s = .next (startWork r)))) ∧
  (∀ (st : Station) (mask : StationMask) (s : State), st ≠ 0 →
    let r := received st (.park mask) s
    (isAxis s = false ∨ namesOwn mask s = false ∨ s.stc.drive = .parked ∨ s.stc.drive = .stopped →
      exec (.park st mask) s = .next (startWork r)) ∧
    (isAxis s = true → namesOwn mask s = true → s.stc.drive = .waking ∨ s.stc.drive = .enabled ∨ s.stc.drive = .stopping →
      ∃ t, exec (.park st mask) s = .next t ∧
        (s.stc.drive = .waking → t.stc.drive = .parked ∧ t.stc.settle = 0) ∧
        (s.stc.drive = .enabled → s.mpr.v = 0 → t.stc.drive = .parked ∧ t.stc.parkPending = false ∧ brakeEngaged t = true) ∧
        (s.stc.drive = .enabled → s.mpr.v ≠ 0 →
          t.stc.drive = .enabled ∧ t.stc.parkPending = true ∧ t.mpr.mode = .hold ∧ t.mpr.g = none ∧ t.mpr.v = s.mpr.v) ∧
        (s.stc.drive = .stopping → t.stc.drive = .stopping ∧ t.stc.parkPending = true ∧ t.mpr.v = s.mpr.v) ∧
        t.mpr.p = s.mpr.p ∧
        t.dmr = { s.dmr with armed := false, pendingWheel := 0, handDemand := 0 } ∧
        (s.hom.state = .homing → t.hom.state = .unhomed ∧ t.hom.outcome = .failed .park ∧ t.hom.armed = false) ∧
        (s.hom.state ≠ .homing → t.hom = s.hom) ∧
        (jobAbortable s.tks.job = true → t.tks.job = .idle ∧ t.tks.outcome = .aborted (reasonCode .parked) (ownByte s)) ∧
        (jobAbortable s.tks.job = false → t.tks = s.tks) ∧
        t.stc.holders = s.stc.holders ∧ t.stc.hold = s.stc.hold ∧
        t = { r with stc := t.stc, mpr := t.mpr, svo := t.svo, hom := t.hom, dmr := t.dmr, tks := t.tks, tsc := t.tsc
                     lnk := t.lnk }))

/-- BUTTON_PRESS queues one frame on a CONTROL node in RUN with a free place and is dropped otherwise; WHEEL_TRANSITION moves
one accumulator by one within ±32,767, not on an AXIS node (R25, R102, R116). That wheels count while the role is not yet known
is the model's choice (log 31). -/
def Obligations.ButtonsAndWheels : Prop :=
  ∀ s : State,
    (∀ b : Button, controlUp s = true → s.lnk.fifo.length < 4 →
      ∃ body, exec (.buttonPress b) s = .next { s with lnk := { s.lnk with fifo := s.lnk.fifo ++ [body] } } ∧
        (b = .resume → body = .resume) ∧ (b = .mark → body = .mark ((s.cck.ms + 5).setWidth 16)) ∧
        ∀ p, s.cfg.params = some p → (b = .wake → body = .wake p.expected) ∧ (b = .park → body = .park p.expected)) ∧
    (∀ b : Button, controlUp s = false ∨ 4 ≤ s.lnk.fifo.length → exec (.buttonPress b) s = .next s) ∧
    (∀ ch q, isAxis s = true → exec (.wheelTransition ch q) s = .next s) ∧
    (∀ ch, isAxis s = false →
      exec (.wheelTransition ch .plus) s = .next { s with chan := { s.chan with
        wheels := s.chan.wheels.set ch (max (-32767) (min 32767 (s.chan.wheels[ch] + 1))) } } ∧
      exec (.wheelTransition ch .minus) s = .next { s with chan := { s.chan with
        wheels := s.chan.wheels.set ch (max (-32767) (min 32767 (s.chan.wheels[ch] - 1))) } } ∧
      exec (.wheelTransition ch .illegal) s = .next s)

/-! ### The link -/

/-- TRANSMIT_START offers the frame of lowest header: safety slot, head of the command FIFO, DEMAND, STATUS; a node of station 0
offers STATUS only; a STATUS takes its stamp, time flags and holding items now; the slot keeps its frame (R153, R157, R161). The
attempt needs a line that has been recessive for 12 bit times since the node's own error flag, the bits being the command's
operand (log 21); where a condition is absent the bits are counted and nothing else happens (log 4). -/
def Obligations.TransmitStartOffersTheLowestHeader : Prop :=
  (∀ (l : Lnk) (x : Bool), l.bitTime x =
    if x = true ∧ l.errorFlag = 0 then { l with
      level := true, dominantRun := 0, recessiveRun := min 12 (l.recessiveRun + 1)
      pauseCount := if l.faultPause then min 256 (l.pauseCount + 1) else l.pauseCount }
    else { l with
      level := x, errorFlag := l.errorFlag - 1, recessiveRun := 0, pauseCount := 0
      dominantRun := if l.dominantRun < 65 then min 64 (l.dominantRun + 1) else l.dominantRun }) ∧
  (∀ (s : State) (x : Bool) (xs : List Bool),
    hearLine [] s = s ∧ hearLine (x :: xs) s = hearLine xs { s with lnk := s.lnk.bitTime x }) ∧
  ∀ (line : List Bool) (s : State) (n : Station),
    let h := hearLine line s
    let start (slot : TxSlot) (b : Body) : State := { h with lnk := { h.lnk with
      tx := some { slot := slot, frame := { station := n, body := b }, start := { ms := s.cck.ms, phase := s.cck.phase }
                   refilled := false, orphan := false }
      level := true, recessiveRun := 0, pauseCount := 0, dominantRun := 1 } }
    (s.lnk.tx.isSome = true ∨ s.lnk.receiving = true ∨ h.lnk.recessiveRun < 12 ∨ h.lnk.errorFlag ≠ 0 ∨
      s.lnk.faultPause = true ∨ s.cfg.startState = .straps ∨ s.cfg.station = none →
      exec (.transmitStart line) s = .next h) ∧
    (s.lnk.tx = none → s.lnk.receiving = false → 12 ≤ h.lnk.recessiveRun → h.lnk.errorFlag = 0 →
      s.lnk.faultPause = false → s.cfg.startState ≠ .straps → s.cfg.station = some n →
      (∀ b, n ≠ 0 → s.lnk.safety = some b → (∀ i, b ≠ .status i) → exec (.transmitStart line) s = .next (start .safety b)) ∧
      (∀ b rest, n ≠ 0 → s.lnk.safety = none → s.lnk.fifo = b :: rest → (∀ i, b ≠ .status i) →
        exec (.transmitStart line) s = .next (start .command b)) ∧
      (∀ d, n ≠ 0 → s.lnk.safety = none → s.lnk.fifo = [] → s.lnk.demand = some d →
        exec (.transmitStart line) s = .next (start .demand (.demand d))) ∧
      (∀ i, n = 0 ∨ s.lnk.safety = none ∧ s.lnk.fifo = [] ∧ s.lnk.demand = none → s.lnk.status = some i →
        exec (.transmitStart line) s = .next (start .status (.status { i with
          hold := s.stc.hold, firstCause := firstCauseStation s, timeState := s.cck.timeState
          timeStepped := s.cck.timeStepped, syncLost := s.cck.syncLost
          stamp := { ms16 := s.cck.ms.setWidth 16, phase := s.cck.phase } }))) ∧
      (n = 0 ∨ s.lnk.safety = none ∧ s.lnk.fifo = [] ∧ s.lnk.demand = none → s.lnk.status = none →
        exec (.transmitStart line) s = .next h))

/-- ARBITRATION_LOST: the node receives from the start bit it sent itself (R158). RECEIVED_START_BIT starts a reception on an
idle line only (R64, R153). FRAME_DISCARD counts a frame being read whose bits show a form error or a check mismatch, once
(R163). FAULT_PAUSE_END needs 256 recessive bit times under the pause (R161). BIT_ERROR ends the attempt, counts it, leaves
every frame in its slot and begins the 12-bit error flag; the fourth in a row raises LINK-FAULT, which holds and starts the
fault pause (R159, R161, R167). STUCK_LINE fires at the 65th dominant bit, once in the run (R162). The bits are operands
(log 21); where a condition is absent they are counted and nothing else happens (log 4). -/
def Obligations.AttemptsReceptionsAndErrors : Prop :=
  (∀ s : State,
    (∀ x, s.lnk.tx = some x →
      exec .arbitrationLost s = .next { s with lnk := { s.lnk with tx := none, receiving := true, capture := some x.start } }) ∧
    (s.lnk.tx = none → exec .arbitrationLost s = .next s)) ∧
  (∀ (line : List Bool) (s : State),
    let h := hearLine line s
    let idle := 12 ≤ h.lnk.recessiveRun ∧ h.lnk.errorFlag = 0
    let free := s.lnk.tx = none ∧ s.lnk.receiving = false
    (free → idle → exec (.receivedStartBit line) s = .next { h with lnk := { h.lnk with
      receiving := true, capture := some { ms := s.cck.ms, phase := s.cck.phase }
      level := true, recessiveRun := 0, pauseCount := 0, dominantRun := 1 } }) ∧
    (free → ¬idle → exec (.receivedStartBit line) s = .next (hearLine (line ++ [false]) s)) ∧
    (¬free → exec (.receivedStartBit line) s = .next h) ∧
    (s.lnk.tx = none → s.lnk.receiving = true → frameFails line = true →
      exec (.frameDiscard line) s = .next { h with lnk := { h.lnk with
        rxErrors := min 65535 (s.lnk.rxErrors + 1), receiving := false } }) ∧
    (s.lnk.tx ≠ none ∨ s.lnk.receiving = false ∨ frameFails line = false → exec (.frameDiscard line) s = .next h) ∧
    (s.lnk.faultPause = true → 256 ≤ h.lnk.pauseCount →
      exec (.faultPauseEnd line) s = .next { h with lnk := { h.lnk with faultPause := false, pauseCount := 0 } }) ∧
    (s.lnk.faultPause = false ∨ h.lnk.pauseCount < 256 → exec (.faultPauseEnd line) s = .next h)) ∧
  (∀ (line : List Bool) (s : State),
    let h := hearLine line s
    (s.lnk.tx = none → exec (.bitError line) s = .next (startWork h)) ∧
    (∀ x, s.lnk.tx = some x → s.lnk.bitErrors < 3 → s.lnk.linkFault = false →
      exec (.bitError line) s = .next (startWork { h with lnk := { h.lnk with
        tx := none, bitErrors := s.lnk.bitErrors + 1, bitErrorTotal := min 65535 (s.lnk.bitErrorTotal + 1)
        errorFlag := 12 } })) ∧
    (∀ x, s.lnk.tx = some x → s.lnk.bitErrors = 3 → s.lnk.linkFault = false →
      ∃ t, exec (.bitError line) s = .next t ∧ t.lnk.tx = none ∧ t.lnk.bitErrors = 4 ∧ t.lnk.linkFault = true ∧
        t.lnk.errorFlag = 12 ∧ t.lnk.faultPause = true ∧ t.lnk.pauseCount = 0 ∧ t.lnk.status = s.lnk.status ∧
        t.lnk.demand = s.lnk.demand ∧
        t = { s with lnk := t.lnk, stc := t.stc, mpr := t.mpr, svo := t.svo, hom := t.hom, dmr := t.dmr, tks := t.tks
                     tsc := t.tsc } ∧
        t.stc.hold.isSome = true ∧ t.stc.drive ≠ .enabled ∧ t.stc.drive ≠ .waking ∧
        (s.stc.hold = none → localCauses s = [] →
          t.stc.hold = some { kind := .ramp, code := some .linkFault } ∧ t.lnk.safety = some (.stop .ramp (some .linkFault)))) ∧
    (h.lnk.dominantRun ≠ 64 → exec (.stuckLine line) s = .next (startWork (hearLine (line ++ [false]) s))) ∧
    (h.lnk.dominantRun = 64 → s.lnk.linkFault = false →
      ∃ t, exec (.stuckLine line) s = .next t ∧ t.lnk.dominantRun = 65 ∧ t.lnk.tx = none ∧ t.lnk.receiving = false ∧
        t.lnk.linkFault = true ∧ t.lnk.faultPause = true ∧ t.stc.hold.isSome = true ∧ t.stc.drive ≠ .enabled ∧
        t = { s with lnk := t.lnk, stc := t.stc, mpr := t.mpr, svo := t.svo, hom := t.hom, dmr := t.dmr, tks := t.tks
                     tsc := t.tsc } ∧
        (s.lnk.receiving = true → t.lnk.rxErrors = min 65535 (s.lnk.rxErrors + 1)) ∧
        (s.lnk.tx.isSome = true → t.lnk.bitErrors = min 255 (s.lnk.bitErrors + 1))))

/-- TRANSMIT_COMPLETE: the sent frame leaves its slot unless a newer one has taken its place, the bit-error count and LINK-FAULT
end, the frame joins the own receive queue; own STOP and STATUS change nothing more; a COMMAND is taken by the own blocks as a
received one is; a DEMAND reduces the wheels it carried and a newer DEMAND in the slot; a transmission that a RESTART cut off is
handed to no block (R26, R56, R89, R156, R160, R161). HELD_ABORT_PLACE: a held ABORT joins the FIFO's tail where it has a place,
or takes the place its completing head leaves, before the own blocks act on that head (R107, R160; log 51). -/
def Obligations.CompletionsClearTheirSlots : Prop :=
  (∀ (s : State) (x : Tx) (n : Station), s.lnk.tx = some x → s.cfg.station = some n → x.frame.station = n →
    s.tks.held = none →
    let ended : Lnk := { s.lnk with
      tx := none, bitErrors := 0, linkFault := false, faultPause := false
      level := true, errorFlag := 0, recessiveRun := 8, pauseCount := 0, dominantRun := 0 }
    (x.orphan = true → exec .transmitComplete s = .next { s with lnk := ended }) ∧
    (x.orphan = false →
      (∀ k c, x.slot = .safety → x.frame.body = .stop k c →
        exec .transmitComplete s = .next (startWork (joinQueue x.frame true x.start
          { s with lnk := { ended with safety := if x.refilled then s.lnk.safety else none } }))) ∧
      (x.slot = .safety → x.frame.body = .release →
        exec .transmitComplete s = .next (startWork (joinQueue x.frame true x.start
          { s with lnk := { ended with safety := if x.refilled then s.lnk.safety else none } }))) ∧
      (∀ i, x.slot = .status → x.frame.body = .status i →
        exec .transmitComplete s = .next (startWork (joinQueue x.frame true x.start
          { s with lnk := { ended with status := if x.refilled then s.lnk.status else none } }))) ∧
      (x.slot = .command → n ≠ 0 → (∀ d, x.frame.body ≠ .demand d) →
        exec .transmitComplete s = .next (startWork (handBlocks true x.frame x.start (joinQueue x.frame true x.start
          { s with lnk := { ended with fifo := s.lnk.fifo.tail } })))) ∧
      (∀ d, x.slot = .demand → x.frame.body = .demand d → isControl s = true → n ≠ 0 →
        ∃ t, exec .transmitComplete s = .next t ∧
          t = { s with lnk := t.lnk, chan := t.chan, ptb := t.ptb, cpt := t.cpt, tsc := t.tsc } ∧
          (∀ ch : Fin 4, t.chan.wheels[ch] =
            if d.kinds[ch] = .wheel then s.chan.wheels[ch] - (d.values[ch]).toInt else s.chan.wheels[ch]) ∧
          t.ptb.demands[n] = { items := some d, age := 0 } ∧
          (x.refilled = false → t.lnk.demand = none) ∧
          (∀ e, x.refilled = true → s.lnk.demand = some e →
            ∃ e', t.lnk.demand = some e' ∧ e'.seq = e.seq ∧ e'.kinds = e.kinds ∧
              ∀ ch : Fin 4, e'.values[ch] =
                if d.kinds[ch] = .wheel then BitVec.ofInt 16 ((e.values[ch]).toInt - (d.values[ch]).toInt) else e.values[ch])))) ∧
  (∀ (s : State) (h : HeldAbort), s.tks.held = some h →
    (s.lnk.fifo.length < 4 →
      exec .heldAbortPlace s = .next { s with
        tks := { s.tks with held := none }
        lnk := { s.lnk with fifo := s.lnk.fifo ++ [.take (.abort h.n h.reason h.origin)] } }) ∧
    (∀ (x : Tx) (b : Body) (rest : List Body) (m : StationMask), s.lnk.fifo = b :: rest → rest.length = 3 →
      s.lnk.tx = some x → x.slot = .command → x.orphan = false → x.frame.body = .home m → isAxis s = false →
      ∃ t, exec .heldAbortPlace s = .next t ∧ t.tks.held = none ∧ t.lnk.tx = none ∧
        t.lnk.fifo = rest ++ [.take (.abort h.n h.reason h.origin)] ∧
        t = { s with tks := t.tks, lnk := t.lnk, cpt := t.cpt, tsc := t.tsc }) ∧
    ∀ (x : Tx) (b : Body) (rest : List Body) (n : Station), s.lnk.fifo = b :: rest → rest.length = 3 →
      s.lnk.tx = some x → x.slot = .command → x.orphan = false → s.cfg.station = some n → n ≠ 0 → x.frame.station = n →
      (∀ d, x.frame.body ≠ .demand d) →
      ∀ c ∈ [Instr.heldAbortPlace, .transmitComplete],
        exec c s = .next (startWork (handBlocks true x.frame x.start (joinQueue x.frame true x.start { s with
          tks := { s.tks with held := none }
          lnk := { s.lnk with
            tx := none, bitErrors := 0, linkFault := false, faultPause := false
            level := true, errorFlag := 0, recessiveRun := 8, pauseCount := 0, dominantRun := 0
            fifo := rest ++ [.take (.abort h.n h.reason h.origin)] } }))))

/-- A frame that is received, and one the node completes, joins the receive queue's tail where its kind is in the filter; a full
queue drops and counts it; the entry carries header, own flag, time and payload; station 0 goes no further than PTB, which
records it nowhere, and counts a STATUS where its own station is 0 too (R55, R164, R180). A received frame leaves the line with
its 8 end bits read (R154). A TAKE whose subkind lies outside 0..6 reaches the queue and nothing more (R183; it rides on
TAKE_LOCK: log 30). (The model's choice: log 27.) -/
def Obligations.FramesJoinTheReceiveQueue : Prop :=
  (∀ (st : Station) (b : Body) (s : State) (own : Bool) (c : CraneTime),
    let f : Frame := { station := st, body := b }
    let entry : RxEntry :=
      { header := BitVec.ofNat 10 (b.kindNumber * 16 + st.val), own := own
        time := { ms16 := c.ms.setWidth 16, phase := c.phase }, payload := b.bytes }
    (s.cpt.filter.getLsbD b.place = false → joinQueue f own c s = s) ∧
    (s.cpt.filter.getLsbD b.place = true → s.cpt.rxQueue.length < 32 →
      joinQueue f own c s = { s with cpt := { s.cpt with rxQueue := s.cpt.rxQueue ++ [entry] } }) ∧
    (s.cpt.filter.getLsbD b.place = true → 32 ≤ s.cpt.rxQueue.length →
      joinQueue f own c s = { s with cpt := { s.cpt with overflow := min 65535 (s.cpt.overflow + 1) } }) ∧
    ((∀ i, b ≠ .status i) ∨ own = true ∨ s.cfg.station ≠ some 0 →
      handFrame own { station := 0, body := b } c s = joinQueue { station := 0, body := b } own c s) ∧
    (∀ i, b = .status i → s.cfg.station = some 0 →
      handFrame false { station := 0, body := b } c s =
        { joinQueue { station := 0, body := b } false c s with ptb := { s.ptb with
          duplicates := min 255 (s.ptb.duplicates + 1) } }) ∧
    f.header = b.kindNumber * 16 + st.val) ∧
  (∀ (st : Station) (b : Body) (s : State),
    received st b s = joinQueue { station := st, body := b } false
      (s.lnk.capture.getD { ms := s.cck.ms, phase := s.cck.phase })
      { s with lnk := { s.lnk with
        receiving := false, level := true, errorFlag := 0, recessiveRun := 8, pauseCount := 0, dominantRun := 0 } } ∧
    ((∀ i, b ≠ .status i) ∨ s.cfg.station ≠ some 0 → deliver 0 b s = startWork (received 0 b s))) ∧
  ∀ (st : Station) (n : Byte) (x : UnnamedTake) (s : State),
    let b : Body := .take (.unnamed x.excess n x.rest)
    b.bytes = BitVec.ofNat 8 (7 + x.excess.val) :: n :: x.rest.toList ∧ b.kindNumber = (Body.take (.lock n)).kindNumber ∧
    exec (.takeLock st n (some x)) s = .next (startWork (received st b s))

/-- DEMAND_FRAME is recorded whole at age 0, by an AXIS node not in its own name, by a node without parameters with no route to
take it; the route's channel of the route's source goes to DMR: a changed kind disarms, a WHEEL value adds up within ±32,767
(R29, R57). STATUS_FRAME of another station: the entry is replaced whole at age 0 with the offset of its stamp, valid unless the
sender is UNSET; the station leaves the lost set; an UNSET node decides to adopt, an OWN one becomes AGREED; the holding items
set or remove the holder entry, and the drive follows. One in the own name is counted, on a node of station 0 too (R55, R60,
R64, R66, R67, R90, R164). (The time an offset is taken against: log 27. In STRAPS no number is known as the own one, and every
station 1..15 counts as another: log 47.) -/
def Obligations.DemandAndStatusFramesAreRecorded : Prop :=
  (∀ (st : Station) (d : DemandItems) (s : State) (b : Block), st ≠ 0 → isOwn st s = false → s.cfg.params = some b →
    let r := received st (.demand d) s
    let rec_ : State := { r with ptb := { s.ptb with demands := s.ptb.demands.set st { items := some d, age := 0 } } }
    let ch : Fin 4 := Fin.ofNat 4 b.channel
    (axisUp s = false ∨ b.source ≠ st.val → exec (.demandFrame st d) s = .next (startWork rec_)) ∧
    (axisUp s = true → b.source = st.val →
      ∃ t, exec (.demandFrame st d) s = .next t ∧ t = startWork { rec_ with dmr := t.dmr } ∧
        t.dmr.lastKind = some d.kinds[ch] ∧
        (s.dmr.lastKind = none ∨ s.dmr.lastKind = some d.kinds[ch] →
          t.dmr.armed = s.dmr.armed ∧ t.dmr.handDemand = s.dmr.handDemand ∧
          (d.kinds[ch] = .wheel →
            t.dmr.pendingWheel = max (-32767) (min 32767 (s.dmr.pendingWheel + (d.values[ch]).toInt))) ∧
          (d.kinds[ch] = .lever → t.dmr.pendingWheel = s.dmr.pendingWheel)) ∧
        (s.dmr.lastKind ≠ none → s.dmr.lastKind ≠ some d.kinds[ch] →
          t.dmr.armed = false ∧ t.dmr.handDemand = 0 ∧
          (d.kinds[ch] = .wheel → t.dmr.pendingWheel = max (-32767) (min 32767 (d.values[ch]).toInt)) ∧
          (d.kinds[ch] = .lever → t.dmr.pendingWheel = 0)))) ∧
  (∀ (st : Station) (d : DemandItems) (s : State), st ≠ 0 →
    let r := received st (.demand d) s
    let rec_ : State := { r with ptb := { s.ptb with demands := s.ptb.demands.set st { items := some d, age := 0 } } }
    (isOwn st s = true → isControl s = false → exec (.demandFrame st d) s = .next (startWork r)) ∧
    (isOwn st s = true → isControl s = true → exec (.demandFrame st d) s = .next (startWork rec_)) ∧
    (isOwn st s = false → s.cfg.params = none → exec (.demandFrame st d) s = .next (startWork rec_))) ∧
  (∀ (st : Station) (i : StatusItems) (s : State), st ≠ 0 →
    let r := received st (.status i) s
    let c := s.lnk.capture.getD { ms := s.cck.ms, phase := s.cck.phase }
    let offset := (i.stamp.ms16 - c.ms.setWidth 16).toInt * 1000 + ((i.stamp.phase : Int) - c.phase)
    let valid := i.timeState != .unset
    (isOwn st s = true → exec (.statusFrame st i) s =
      .next (startWork { r with ptb := { s.ptb with duplicates := min 255 (s.ptb.duplicates + 1) } })) ∧
    exec (.statusFrame 0 i) s = .next (startWork { received 0 (.status i) s with ptb := { s.ptb with
      duplicates := if s.cfg.station = some 0 then min 255 (s.ptb.duplicates + 1) else s.ptb.duplicates } }) ∧
    (isOwn st s = false →
      exec (.statusFrame st i) s = .next (startWork (reactStops { r with
        ptb := { s.ptb with
          peers := s.ptb.peers.set st { items := some i, age := 0, offset := offset, offsetValid := valid }
          lost := s.ptb.lost &&& ~~~ BitVec.ofNat 16 (2 ^ st.val) }
        cck :=
          if valid = true ∧ s.cck.timeState = .unset ∧ s.cck.pending = none then { s.cck with pending := some (.adopt offset) }
          else if valid = true ∧ s.cck.timeState = .own then { s.cck with timeState := .agreed }
          else s.cck
        stc := { s.stc with holders := s.stc.holders.set st i.hold } }))))

/-! ### Takes -/

/-- The tests of a PREPARE in the order of R108. TAKE_PREPARE (R105, R107): ignored where the number, the mask or the start
state says so, or where it repeats the PREPARE in force; accepted; or refused with its reason and, from a node with no job, the
ABORT queued. A CONTROL node refuses. (The job's take: log 13.) -/
def Obligations.PrepareIsTestedAndTaken : Prop :=
  (∀ (n : Byte) (s : State),
    let c1 := s.stc.drive = .enabled ∧ s.stc.parkPending = false
    let c2 := s.hom.state = .homed
    let c3 := s.tks.job = .idle ∧ s.mpr.mode = .hand
    let c4 := ∀ e, s.tsc.entry n = some e → e.lockedIn = false
    let c5 := s.tsc.directory.length < 32 ∨ s.tsc.entry n ≠ none
    let c6 := 2 ≤ s.tsc.erased ∧ 8 ≤ s.tsc.erased + s.tsc.eraseQueue.length
    (¬c1 → prepareFails n s = some .notEnabled) ∧
    (c1 → ¬c2 → prepareFails n s = some .notHomed) ∧
    (c1 → c2 → ¬c3 → prepareFails n s = some .busy) ∧
    (c1 → c2 → c3 → ¬c4 → prepareFails n s = some .locked) ∧
    (c1 → c2 → c3 → c4 → ¬c5 → prepareFails n s = some .directoryFull) ∧
    (c1 → c2 → c3 → c4 → c5 → ¬c6 → prepareFails n s = some .storeFull) ∧
    (c1 → c2 → c3 → c4 → c5 → c6 → prepareFails n s = none)) ∧
  (∀ (st : Station) (n : Byte) (mask : StationMask) (s : State), st ≠ 0 →
    let r := received st (.take (.prepare n mask)) s
    let refusedWith (x : Reason) : State :=
      { r with
        tks := { s.tks with outcome := .refused (reasonCode x), takeNumber := n }
        lnk := { r.lnk with fifo := s.lnk.fifo ++ [.take (.abort n (reasonCode x) (ownByte s))] } }
    (n.toNat = 0 ∨ 99 < n.toNat ∨ namesOwn mask s = false ∨ axisUp s = false ∧ controlUp s = false →
      exec (.takePrepare st n mask) s = .next (startWork r)) ∧
    (1 ≤ n.toNat → n.toNat ≤ 99 → namesOwn mask s = true →
      (controlUp s = true → s.tks.job = .idle → s.lnk.fifo.length < 4 →
        exec (.takePrepare st n mask) s = .next (startWork (refusedWith .notEnabled))) ∧
      (axisUp s = true → s.tks.job = .prepared → s.tks.jobTake = n → s.tks.mask = some mask →
        exec (.takePrepare st n mask) s = .next (startWork r)) ∧
      (∀ x, axisUp s = true → s.tks.job = .idle → prepareFails n s = some x → s.lnk.fifo.length < 4 →
        exec (.takePrepare st n mask) s = .next (startWork (refusedWith x))) ∧
      (axisUp s = true → prepareFails n s = none →
        exec (.takePrepare st n mask) s = .next (startWork { r with tks := { s.tks with
          job := .prepared, takeNumber := n, jobTake := n, mask := some mask, outcome := .none } }))))

/-- The tests of a CUE in the order of R109. TAKE_CUE accepted: CUEING, a GOTO to the in mark's position clamped to the soft
limits, and the read-ahead asked for from the in index; refused with its reason and the ABORT queued; the repeat of the CUE in
force is ignored (R4, R107, R109, R143). (What a repeat compares: log 16.) -/
def Obligations.CueIsTestedAndTaken : Prop :=
  (∀ (n i o : Byte) (s : State),
    let c1 := s.stc.drive = .enabled ∧ s.stc.parkPending = false
    let c2 := s.hom.state = .homed
    let c3 := s.tks.job = .idle
    (¬c1 → cueTest n i o s = .error .notEnabled) ∧
    (c1 → ¬c2 → cueTest n i o s = .error .notHomed) ∧
    (c1 → c2 → ¬c3 → cueTest n i o s = .error .busy) ∧
    (c1 → c2 → c3 → s.tsc.entry n = none → cueTest n i o s = .error .noTake) ∧
    ∀ e, c1 → c2 → c3 → s.tsc.entry n = some e →
      (e.stored = none → cueTest n i o s = .error .broken) ∧
      ∀ t, e.stored = some t →
        (t.state = .broken → cueTest n i o s = .error .broken) ∧
        (t.state ≠ .broken → cueMarks s t i.toNat o.toNat = none → cueTest n i o s = .error .badMark) ∧
        (∀ m k, t.state ≠ .broken → cueMarks s t i.toNat o.toNat = some (m, k) → m.move ≠ 0 →
          cueTest n i o s = .error .movingMark) ∧
        (∀ m k, t.state ≠ .broken → cueMarks s t i.toNat o.toNat = some (m, k) → m.move = 0 →
          cueTest n i o s = .ok (t, m, k)) ∧
        (cueMarks s t 0 0 =
          if 0 < t.length ∧ param s (fun b => b.lo) * 256 ≤ t.startPos ∧ t.startPos ≤ param s (fun b => b.hi) * 256 then
            some ({ index := 0, position := t.startPos, move := t.initialMove }, t.length)
          else none)) ∧
  (∀ (st : Station) (n : Byte) (mask : StationMask) (i o : Byte) (s : State),
    st ≠ 0 → 1 ≤ n.toNat → n.toNat ≤ 99 → namesOwn mask s = true → axisUp s = true →
    let r := received st (.take (.cue n mask i o)) s
    (∀ x, s.tks.job = .idle → cueTest n i o s = .error x → s.lnk.fifo.length < 4 →
      exec (.takeCue st n mask i o) s = .next (startWork { r with
        tks := { s.tks with outcome := .refused (reasonCode x), takeNumber := n }
        lnk := { r.lnk with fifo := s.lnk.fifo ++ [.take (.abort n (reasonCode x) (ownByte s))] } })) ∧
    (s.tks.job = .cueing ∨ s.tks.job = .cued → s.tks.jobTake = n →
      s.tks.cue = some { mask := mask, inMark := i, outMark := o } →
      exec (.takeCue st n mask i o) s = .next (startWork r)) ∧
    (∀ x m k, cueTest n i o s = .ok (x, m, k) →
      ∃ t, exec (.takeCue st n mask i o) s = .next t ∧
        t.tks = { s.tks with
          job := .cueing, takeNumber := n, jobTake := n, mask := some x.mask, inIndex := some m.index, endIndex := some k
          k := m.index, playMove := some m.move, cue := some { mask := mask, inMark := i, outMark := o }, outcome := .none } ∧
        t.mpr = { s.mpr with
          mode := .goto_, g := some (max (travelLo s) (min (travelHi s) m.position)) } ∧
        (m.index < k → t.tsc.slots[0] = .requested (pageOf m.index)) ∧
        t.cfg = s.cfg ∧ t.cck = s.cck ∧ t.ptb = s.ptb ∧ t.stc = s.stc ∧ t.hom = s.hom ∧ t.svo = s.svo ∧ t.lnk = r.lnk ∧
        t.cpt = r.cpt ∧ t.flash = s.flash ∧ t.tsc.directory = s.tsc.directory))

/-- TAKE_ROLL in PREPARED or CUED with no roll time: refused LATE under 5 updates ahead, TOO-FAR over 10,000, NOT-CUED where a
participant fails, else the roll time is T; a roll time present stands; refused in CUEING; ignored in RECORDING, RUNNING,
RUNOUT, and by a node with no job on the take (R105, R107, R110, R111, R112). TAKE_CUT: in RECORDING the earliest cut time
within 10,000 updates is kept, one that would leave no update or lies in the past aborts with LATE, one too far with TOO-FAR; in
RUNNING the earliest is kept, one too far is ignored (R63, R118, R121). Which of two is the earlier is seen from the next update
(log 37). (The job's take: log 13; the 10,000 of a RUNNING CUT from the next index, and a CUT ignored in RUNOUT: log 37.) -/
def Obligations.RollAndCutAreTaken : Prop :=
  (∀ (st : Station) (n : Byte) (t : Ms16) (s : State), st ≠ 0 → 1 ≤ n.toNat → n.toNat ≤ 99 → axisUp s = true →
    let r := received st (.take (.roll n t)) s
    let d := (t - s.cck.ms.setWidth 16).toInt
    let waiting := (s.tks.job = .prepared ∨ s.tks.job = .cued) ∧ s.tks.jobTake = n
    let refusedWith (x : Reason) : Prop := ∃ u, exec (.takeRoll st n t) s = .next u ∧
      u.tks.job = .idle ∧ u.tks.rollTime = none ∧ u.tks.mask = none ∧ u.tks.takeNumber = n ∧
      u.tks.outcome = .refused (reasonCode x) ∧
      (s.lnk.fifo.length < 4 → u.lnk.fifo = s.lnk.fifo ++ [.take (.abort n (reasonCode x) (ownByte s))]) ∧
      u = { r with tks := u.tks, tsc := u.tsc, lnk := u.lnk, mpr := u.mpr } ∧
      (s.tks.job ≠ .cueing → u.mpr = s.mpr)
    (waiting → s.tks.rollTime = none → 5 ≤ d → d ≤ 10000 → participantsReady n s.tks.job s = true →
      exec (.takeRoll st n t) s = .next (startWork { r with tks := { s.tks with rollTime := some t, outcome := .none } })) ∧
    (waiting → s.tks.rollTime = none → d < 5 → refusedWith .late) ∧
    (waiting → s.tks.rollTime = none → 10000 < d → refusedWith .tooFar) ∧
    (waiting → s.tks.rollTime = none → 5 ≤ d → d ≤ 10000 → participantsReady n s.tks.job s = false → refusedWith .notCued) ∧
    (s.tks.job = .cueing → s.tks.jobTake = n → refusedWith .notCued) ∧
    (waiting ∧ s.tks.rollTime.isSome = true ∨ s.tks.job = .idle ∨ s.tks.jobTake ≠ n ∨ s.tks.job = .recording ∨
        s.tks.job = .running ∨ s.tks.job = .runout →
      exec (.takeRoll st n t) s = .next (startWork r))) ∧
  (∀ (st : Station) (n : Byte) (t : Ms16) (s : State),
    st ≠ 0 → 1 ≤ n.toNat → n.toNat ≤ 99 → axisUp s = true → s.tks.jobTake = n →
    let r := received st (.take (.cut n t)) s
    let d := (t - (s.cck.ms + 1).setWidth 16).toInt
    let cut : Option Ms16 :=
      match s.tks.cutTime with
      | none => some t
      | some c => if d < (c - (s.cck.ms + 1).setWidth 16).toInt then some t else some c
    let aborted (x : Reason) : Prop := ∃ u, exec (.takeCut st n t) s = .next u ∧
      u.tks.job = .idle ∧ u.tks.cutTime = none ∧ u.tks.outcome = .aborted (reasonCode x) (ownByte s) ∧
      u.tsc.pageBuffer = [] ∧ u.tsc.writeQueue = [] ∧ u = { r with tks := u.tks, tsc := u.tsc, lnk := u.lnk } ∧
      (s.lnk.fifo.length < 4 → u.lnk.fifo = s.lnk.fifo ++ [.take (.abort n (reasonCode x) (ownByte s))])
    (s.tks.job = .recording → 0 ≤ d → ¬(d = 0 ∧ s.tks.k = 0) → d ≤ 10000 →
      exec (.takeCut st n t) s = .next (startWork { r with tks := { s.tks with cutTime := cut } })) ∧
    (s.tks.job = .recording → d < 0 ∨ d = 0 ∧ s.tks.k = 0 → aborted .late) ∧
    (s.tks.job = .recording → 10000 < d → aborted .tooFar) ∧
    (s.tks.job = .running → d ≤ 10000 →
      exec (.takeCut st n t) s = .next (startWork { r with tks := { s.tks with cutTime := cut } })) ∧
    (s.tks.job = .running → 10000 < d → exec (.takeCut st n t) s = .next (startWork r)) ∧
    (s.tks.job = .prepared ∨ s.tks.job = .cueing ∨ s.tks.job = .cued ∨ s.tks.job = .runout ∨ s.tks.job = .idle →
      exec (.takeCut st n t) s = .next (startWork r)))

/-- TAKE_ABORT on the job's take sends it to IDLE with the outcome as received, requests HOLD in CUEING, RUNNING and RUNOUT,
discards a recording, empties the read-ahead and drops a held ABORT for the take; in CLOSING it is refused BUSY; otherwise
ignored (R105, R119, R123, R138, R143). MARK while RECORDING: its index is k plus the distance to the next update; late, doubled
and surplus marks are dropped, with their flags; a mark for the present index is stored at once, a later one is pending; outside
RECORDING it is ignored. A recorded update stores the pending mark of the index it ends at, with the position and move of its
result; a mark still pending when the recording closes or is aborted leaves the list, and MARK-LATE is set (R116, R118). (The
job's take: log 13; the order of an update: log 6.) -/
def Obligations.AbortAndMarkAreTaken : Prop :=
  (∀ (st : Station) (n x o : Byte) (s : State), st ≠ 0 → 1 ≤ n.toNat → n.toNat ≤ 99 → axisUp s = true →
    let r := received st (.take (.abort n x o)) s
    (s.tks.job = .idle ∨ s.tks.jobTake ≠ n → exec (.takeAbort st n x o) s = .next (startWork r)) ∧
    (s.tks.job = .closing → s.tks.jobTake = n →
      exec (.takeAbort st n x o) s = .next (startWork { r with tks := { s.tks with
        outcome := .refused (reasonCode .busy), takeNumber := n } })) ∧
    (jobAbortable s.tks.job = true → s.tks.jobTake = n →
      ∃ t, exec (.takeAbort st n x o) s = .next t ∧
        t.tks.job = .idle ∧ t.tks.outcome = .aborted x o ∧ t.tks.mask = none ∧ t.tks.rollTime = none ∧ t.tks.cutTime = none ∧
        t.tks.takeNumber = n ∧
        (s.stc.drive = .enabled → s.tks.job = .cueing ∨ s.tks.job = .running ∨ s.tks.job = .runout →
          t.mpr = { s.mpr with mode := .hold, g := none }) ∧
        (s.tks.job = .prepared ∨ s.tks.job = .cued ∨ s.tks.job = .recording → t.mpr = s.mpr) ∧
        (s.tks.job = .recording → t.tsc.pageBuffer = [] ∧ t.tsc.writeQueue = [] ∧ t.tsc.recordingOf = none ∧
          t.tks.marks = s.tks.marks.filter (fun m => m.at_.isSome) ∧
          t.tks.markLate = (s.tks.markLate || s.tks.marks.any fun m => m.at_.isNone)) ∧
        (∀ i : Fin 4, t.tsc.slots[i] = .empty) ∧ t.tsc.nextPage = none ∧
        (∀ h, s.tks.held = some h → h.n = n → t.tks.held = none) ∧
        t = { r with tks := t.tks, tsc := t.tsc, mpr := t.mpr })) ∧
  (∀ (st : Station) (t : Ms16) (s : State), st ≠ 0 →
    let r := received st (.mark t) s
    let d := (t - (s.cck.ms + 1).setWidth 16).toInt
    let i := s.tks.k + d.toNat
    let there := ∃ m ∈ s.tks.marks, m.index = i
    (axisUp s = false ∨ s.tks.job ≠ .recording → exec (.mark st t) s = .next (startWork r)) ∧
    (axisUp s = true → s.tks.job = .recording →
      (d < 0 → exec (.mark st t) s = .next (startWork { r with tks := { s.tks with markLate := true } })) ∧
      (0 ≤ d → there → exec (.mark st t) s = .next (startWork r)) ∧
      (0 ≤ d → ¬there → 12 ≤ s.tks.marks.length →
        exec (.mark st t) s = .next (startWork { r with tks := { s.tks with marksFull := true } })) ∧
      (0 ≤ d → ¬there → s.tks.marks.length < 12 →
        ∃ u, exec (.mark st t) s = .next u ∧ u = startWork { r with tks := { s.tks with marks := u.tks.marks } } ∧
          List.Perm u.tks.marks
            ({ index := i, at_ := if d = 0 then some (s.mpr.p, s.tks.prevMove.getD 0) else none } :: s.tks.marks) ∧
          (s.tks.marks.Pairwise (fun a b => a.index < b.index) → u.tks.marks.Pairwise (fun a b => a.index < b.index))))) ∧
  ∀ (inp : UpdateInputs) (s : State) (e : DirEntry) (r : Recording),
    s.stc.drive = .enabled → s.tks.job = .recording → s.hom.state = .homed → updateQuiet inp s → s.cck.timeState ≠ .unset →
    s.tsc.recordingOf = some (e, r) → operationLate (ageOperation s.tsc) = false →
    s.tsc.pageBuffer.length + 1 < 127 → ¬(0 < r.count ∧ r.count % 1905 = 0) → s.tsc.writeQueue.length < 6 →
    ∃ t, exec (.update inp) s = .next t ∧
      let ms := s.tks.marks.map fun m =>
        if m.index = s.tks.k + 1 ∧ m.at_ = none then { m with at_ := some (t.mpr.p, t.mpr.p - s.mpr.p) } else m
      let closed (xs : List JobMark) : Prop :=
        t.tks.job = .closing ∧ t.tks.marks = xs.filter (fun m => m.at_.isSome) ∧
        t.tks.markLate = (s.tks.markLate || xs.any fun m => m.at_.isNone) ∧
        t.tsc.closing.map (·.marks) = some (xs.filterMap fun m =>
          m.at_.map fun x => { index := m.index, position := x.1, move := x.2 })
      (s.tks.cutTime = none → t.tks.marks = ms ∧ t.tks.markLate = s.tks.markLate) ∧
      ∀ c, s.tks.cutTime = some c →
        let d := (c - (s.cck.ms + 1).setWidth 16).toInt - 1
        (0 < d → t.tks.marks = ms ∧ t.tks.markLate = s.tks.markLate) ∧ (d = 0 → closed ms) ∧ (d < 0 → closed s.tks.marks)

/-- TAKE_DELETE and TAKE_LOCK of a take the directory holds: refused LOCKED, BUSY or BROKEN; a DELETE removes the entry and
queues its sectors in sequence order, a retired one to BAD; a LOCK makes the take lock-pending and asks for its program, and is
complete at once where it is LOCKED. The result of a DELETE shows unless another take's job runs (the model's choice: log 15),
that of a LOCK while the job is IDLE, and a LOCK on the closing take is refused BUSY (R119, R125, R126, R145, R146). -/
def Obligations.DeleteAndLock : Prop :=
  ∀ (st : Station) (n : Byte) (s : State), st ≠ 0 → 1 ≤ n.toNat → n.toNat ≤ 99 → axisUp s = true →
    let rd := received st (.take (.delete n)) s
    let rl := received st (.take (.lock n)) s
    let shown (o : TakeOutcome) : Tks :=
      if s.tks.job = .idle ∨ s.tks.jobTake = n then { s.tks with takeNumber := n, outcome := o } else s.tks
    let shownIdle (o : TakeOutcome) : Tks :=
      if s.tks.job = .idle then { s.tks with takeNumber := n, outcome := o } else s.tks
    (s.tsc.entry n = none →
      exec (.takeDelete st n) s = .next (startWork rd) ∧ exec (.takeLock st n none) s = .next (startWork rl)) ∧
    (∀ e, s.tsc.entry n = some e →
      (e.lockedIn = true → exec (.takeDelete st n) s =
        .next (startWork { rd with tks := shown (.refused (reasonCode .locked)) })) ∧
      (e.lockedIn = false → s.tks.job ≠ .idle → s.tks.jobTake = n → exec (.takeDelete st n) s =
        .next (startWork { rd with tks := shown (.refused (reasonCode .busy)) })) ∧
      (e.lockedIn = false → s.tks.job = .idle ∨ s.tks.jobTake ≠ n → exec (.takeDelete st n) s =
        .next (startWork { rd with
          tks := shown .completed
          tsc := { s.tsc with
            directory := (s.tsc.directory.filter fun x => x.number ≠ n).filter
              fun x => x.stored.isSome || x.recording.isSome
            eraseQueue := s.tsc.eraseQueue ++ (e.segments.filter fun g => !g.retire).map (·.sector)
            bad := s.tsc.bad ++ (e.segments.filter fun g => g.retire).map (·.sector) } })) ∧
      (s.tks.job = .closing → s.tks.jobTake = n → exec (.takeLock st n none) s =
        .next (startWork { rl with tks := { s.tks with takeNumber := n, outcome := .refused (reasonCode .busy) } })) ∧
      (s.tks.job ≠ .closing ∨ s.tks.jobTake ≠ n →
        (e.stored = none → exec (.takeLock st n none) s =
          .next (startWork { rl with tks := shownIdle (.refused (reasonCode .busy)) })) ∧
        ∀ x, e.stored = some x →
          (x.lockPending = true → exec (.takeLock st n none) s = .next (startWork rl)) ∧
          (x.lockPending = false → x.state = .locked → exec (.takeLock st n none) s =
            .next (startWork { rl with tks := shownIdle .completed })) ∧
          (x.lockPending = false → x.state = .broken → exec (.takeLock st n none) s =
            .next (startWork { rl with tks := shownIdle (.refused (reasonCode .broken)) })) ∧
          (x.lockPending = false → x.state = .complete → s.tks.job ≠ .idle → s.tks.jobTake = n → exec (.takeLock st n none) s =
            .next (startWork { rl with tks := shownIdle (.refused (reasonCode .busy)) })) ∧
          (x.lockPending = false → x.state = .complete → s.tks.job = .idle ∨ s.tks.jobTake ≠ n → exec (.takeLock st n none) s =
            .next (startWork { rl with
              tks := shownIdle .completed
              tsc := { s.tsc.mapStored n (fun x => { x with lockPending := true }) with
                closeList := s.tsc.closeList ++ [.lock n] } }))))

/-! ### The take memory -/

/-- The highest-ranked waiting work is started where the flash unit is IDLE: reads, record programs, close and lock programs,
erases; an operation in flight is left alone (R127, R139, R140, R145, R182). ERASE_SUSPENDED and READ_COMPLETE (R141, R143,
R144): in SUSPENDED the waiting reads are made one by one, then the erase runs on; a page whose check matches fills its slot,
one that fails is read again at once, a second failure fails the slot, and reads already asked for stay (log 44). A read ended
outside SUSPENDED leaves the unit IDLE, and work is started. A playback read asked for tells an erase in flight to suspend, and
waits for an erase check or a program (R139, R141). -/
def Obligations.WorkIsStartedAndReadsFill : Prop :=
  (∀ s : State, ∃ t : Tsc, startWork s = { s with tsc := t } ∧
    (s.tsc.unit ≠ .idle ∨ s.tsc.draining = true → t = s.tsc) ∧
    (s.tsc.unit = .idle → s.tsc.draining = false →
      (∀ j rest, s.tsc.reads = j :: rest → t = { s.tsc with unit := .reading j, reads := rest, opAge := 0 }) ∧
      (∀ w ws e r, s.tsc.reads = [] → s.tsc.writeQueue = w :: ws → s.tsc.recordingOf = some (e, r) →
        ∃ p, t.unit = .programming p ∧ t.opAge = 0 ∧ t.reported = false ∧ t.writeQueue = w :: ws ∧
          (w.steps.headD .page = .header → p =
            { work := .record .header, address := w.sector * 4096,
              data := headerPart e.number r.generation w.seq r.mask r.startPos r.initialMove }) ∧
          (w.steps.headD .page = .page → p =
            { work := .record .page, address := w.sector * 4096 + w.page * 256, data := deltaPage w.deltas }) ∧
          (w.steps.headD .page = .segClose → p =
            { work := .record .segClose, address := w.sector * 4096 + 24, data := segClosePart 1905 })) ∧
      (s.tsc.reads = [] → s.tsc.writeQueue = [] →
        (∀ ws, s.tsc.closeList = .configErase :: ws → t = { s.tsc with unit := .erasing 0 false, opAge := 0, reported := false }) ∧
        (∀ i ws bs, s.tsc.closeList = .configPage i :: ws → s.cpt.writeBuffer = some bs →
          t.unit = .programming { work := .config i, address := i * 256, data := (bs.drop (i * 256)).take 256 }) ∧
        (∀ n ws e x g, s.tsc.closeList = .lock n :: ws → s.tsc.entry n = some e → e.stored = some x →
          x.segments.find? (fun y => y.seq == 0) = some g →
          t.unit = .programming { work := .lock n, address := g.sector * 4096 + 255, data := [0] }) ∧
        (∀ ws e r c, s.tsc.closeList = .segClose :: ws → s.tsc.recordingOf = some (e, r) → s.tsc.closing = some c →
          ∀ g, r.segments.find? (fun y => y.seq == (c.length - 1) / 1905) = some g →
          t.unit = .programming { work := .segClose, address := g.sector * 4096 + 24,
                                  data := segClosePart (if c.length % 1905 = 0 then 1905 else c.length % 1905) }) ∧
        (∀ ws e r c, s.tsc.closeList = .takeClose :: ws → s.tsc.recordingOf = some (e, r) → s.tsc.closing = some c →
          ∀ g, r.segments.find? (fun y => y.seq == 0) = some g →
          t.unit = .programming { work := .takeClose, address := g.sector * 4096 + 32, data := takeClosePart c }) ∧
        (∀ c rest, s.tsc.closeList = [] → s.tsc.eraseQueue = c :: rest → axisUp s = true →
          t = { s.tsc with unit := .erasing c false, opAge := 0, reported := false }) ∧
        (s.tsc.closeList = [] → s.tsc.eraseQueue = [] ∨ axisUp s = false → t = s.tsc)))) ∧
  (∀ (j : ReadJob) (t : Tsc),
    (∀ c, t.unit = .erasing c false → t.reported = false →
      requestRead j t = { t with reads := t.reads ++ [j], unit := .erasing c true, suspendAge := 0 }) ∧
    ((∀ c, t.unit ≠ .erasing c false) ∨ t.reported = true → requestRead j t = { t with reads := t.reads ++ [j] })) ∧
  (∀ (seen : Option (List Byte)) (s : State),
    let next (c : Nat) (x : Tsc) : Tsc :=
      match x.reads with
      | j :: rest => { x with unit := .suspended c (some j), reads := rest }
      | [] => { x with unit := .erasing c false, suspendAge := 0 }
    (∀ c, s.tsc.unit = .erasing c true → exec .eraseSuspended s = .next { s with tsc := next c s.tsc }) ∧
    (s.tsc.unit = .reading .dropped → exec (.readComplete seen) s = .next (unitIdle s)) ∧
    (∀ c, s.tsc.unit = .suspended c (some .dropped) → exec (.readComplete seen) s = .next { s with tsc := next c s.tsc }) ∧
    (∀ (i : Fin 4) (w : TakePage) (sector : Nat) (second : Bool),
      let bs := seen.getD (memRun s.flash (sector * 4096 + w.page * 256) 256)
      let read : Tsc :=
        if checkMatches bs = true then { s.tsc with
          slots := s.tsc.slots.set i (.filled sector w (pageDeltas bs 127))
          rereads := if second then min 65535 (s.tsc.rereads + 1) else s.tsc.rereads }
        else if second then { s.tsc with slots := s.tsc.slots.set i (.failed w), nextPage := none }
        else { s.tsc with reads := .slot i w sector true :: s.tsc.reads }
      (s.tsc.unit = .reading (.slot i w sector second) → exec (.readComplete seen) s = .next (unitIdle { s with tsc := read })) ∧
      (∀ c, s.tsc.unit = .suspended c (some (.slot i w sector second)) →
        exec (.readComplete seen) s = .next { s with tsc := next c read })) ∧
    (s.tsc.draining = false → unitIdle s =
      startWork { s with tsc := { s.tsc with unit := .idle, suspendAge := 0, reported := false } }) ∧
    (s.tsc.draining = true → unitIdle s = { s with tsc := Tsc.start s.tsc.cursor s.tsc.rereads }))

/-- ERASE_COMPLETE: every byte of the sector reads 0xFF and no other byte has changed; a take sector leaves the queue's head for
the pool, or for BAD where a byte of page 0 read otherwise; sector 0's request leaves the close-and-lock list for its programs
to follow, or the write has FAILED (R127, R132, R140, R182). Status's report alone makes the erase in the memory, ends a suspend
asked for and starts the check, whose end then judges page 0 as it stands (R127, R140, R141). (The model's choices: logs 8 and
22.) -/
def Obligations.EraseLeavesTheSectorErased : Prop :=
  ∀ (seen : Option (List Byte)) (s : State) (c : Nat) (u : Bool),
    memoryForm s → s.tsc.unit = .erasing c u → c ≤ 4095 → (∀ bs, seen = some bs → bs.length = 256) →
    let page : List Byte := seen.getD
      (if s.tsc.reported then memRun s.flash (c * 4096) 256 else List.replicate 256 255)
    let stored (t : State) : Prop :=
      (∀ a, a < c * 4096 ∨ c * 4096 + 4096 ≤ a → memRead t.flash a = memRead s.flash a) ∧
      memRun t.flash (c * 4096) 256 = page ∧
      (∀ a, c * 4096 + 256 ≤ a → a < c * 4096 + 4096 →
        memRead t.flash a = if s.tsc.reported then memRead s.flash a else 255)
    let leaves (t : State) (ws : List CloseWork) : Prop :=
      (∀ x, ws.head? = some x → x = .configErase ∨ (closeProgram t x).isSome = true) → t.tsc.closeList = ws
    (s.tsc.reported = true → exec (.eraseComplete seen true) s = .next s) ∧
    (s.tsc.reported = false → ∃ t, exec (.eraseComplete seen true) s = .next t ∧ stored t ∧
      t = { s with flash := t.flash, tsc := { s.tsc with unit := .erasing c false, suspendAge := 0, reported := true } }) ∧
    ∃ t, exec (.eraseComplete seen) s = .next t ∧ stored t ∧
      t = { s with flash := t.flash, tsc := t.tsc, cpt := t.cpt } ∧
      (s.tsc.draining = true → t.tsc = Tsc.start s.tsc.cursor s.tsc.rereads) ∧
      (s.tsc.draining = false →
        let good := page.all (· == 255) = true
        (∀ rest, c ≠ 0 → s.tsc.eraseQueue = c :: rest →
          t.cpt = s.cpt ∧ leaves t s.tsc.closeList ∧ t.tsc.eraseQueue = rest ∧ (good → t.tsc.bad = s.tsc.bad) ∧ (¬good → t.tsc.bad = s.tsc.bad ++ [c])) ∧
        (c = 0 → t.tsc.eraseQueue = s.tsc.eraseQueue ∧ t.tsc.bad = s.tsc.bad ∧
          (good → t.cpt = s.cpt ∧ ∀ ws, s.tsc.closeList = .configErase :: ws → leaves t ws) ∧
          (¬good → t.cpt = { s.cpt with writeState := .failed, writeBuffer := none } ∧
            ∀ i, .configPage i ∉ t.tsc.closeList)))

/-- PROGRAM_COMPLETE: bits go from 1 to 0 only and no other byte changes; a matching verify lets the next program follow; a
verified close, lock or block page takes its own request off the close-and-lock list; the verified take close makes the
recording the stored take, retires the one before and ends the job with COMPLETED; a failed one of either makes its sector BAD,
discards the recording and ends the job with STORE-WRITE; a lock sets or leaves its take; a CONFIG-WRITE goes on, is DONE or
FAILED (R119, R126, R127, R134, R136, R137, R142, R145, R182). Status's report alone makes the program in the memory and starts
the verify, whose end then compares the bytes that stand there (R127, R142). (The model's choices: logs 8 and 22; the job's
take: log 13.) -/
def Obligations.ProgramsAreVerified : Prop :=
  ∀ (seen : Option (List Byte)) (s : State) (p : Program),
    memoryForm s → s.tsc.unit = .programming p → p.address + p.data.length ≤ 16777216 → s.tsc.draining = false →
    let made := if s.tsc.reported then memRun s.flash p.address p.data.length
      else List.zipWith (· &&& ·) (memRun s.flash p.address p.data.length) p.data
    let left := match seen with | none => made | some bs => bs.take made.length ++ made.drop bs.length
    let matched := left = p.data
    let leaves (t : State) (ws : List CloseWork) : Prop :=
      (∀ x, ws.head? = some x → x = .configErase ∨ (closeProgram t x).isSome = true) → t.tsc.closeList = ws
    (s.tsc.reported = true → exec (.programComplete seen true) s = .next s) ∧
    (s.tsc.reported = false → ∃ t, exec (.programComplete seen true) s = .next t ∧
      (∀ a, a < p.address ∨ p.address + p.data.length ≤ a → memRead t.flash a = memRead s.flash a) ∧
      memRun t.flash p.address p.data.length = left ∧
      t = { s with flash := t.flash, tsc := { s.tsc with reported := true } }) ∧
    ∃ t, exec (.programComplete seen) s = .next t ∧
      (∀ a, a < p.address ∨ p.address + p.data.length ≤ a → memRead t.flash a = memRead s.flash a) ∧
      memRun t.flash p.address p.data.length = left ∧
      t = { s with flash := t.flash, tsc := t.tsc, tks := t.tks, cpt := t.cpt, lnk := t.lnk } ∧
      (∀ st w rest more, p.work = .record st → matched → s.tsc.writeQueue = w :: rest → w.steps = st :: more →
        t.tks = s.tks ∧ t.lnk = s.lnk ∧ t.cpt = s.cpt ∧ leaves t s.tsc.closeList ∧
        t.tsc.writeQueue = if more = [] then rest else { w with steps := more } :: rest) ∧
      (∀ ws e r c, p.work = .segClose → matched → s.tsc.closeList = .segClose :: .takeClose :: ws →
        s.tsc.recordingOf = some (e, r) → s.tsc.closing = some c →
        t.tks = s.tks ∧ t.lnk = s.lnk ∧ t.cpt = s.cpt ∧ t.tsc.closeList = .takeClose :: ws ∧
        t.tsc.directory.map (·.stored) = s.tsc.directory.map (·.stored) ∧ t.tsc.closing = s.tsc.closing) ∧
      (p.work = .segClose ∨ p.work = .takeClose → ¬matched → s.tks.job = .closing →
        t.tks.job = .idle ∧ t.tks.outcome = .aborted (reasonCode .storeWrite) (ownByte s) ∧
        t.tks.takeNumber = s.tks.jobTake ∧ t.lnk = s.lnk ∧ t.cpt = s.cpt ∧
        t.tsc.bad = s.tsc.bad ++ [p.address / 4096] ∧ t.tsc.recordingOf = none ∧ t.tsc.closing = none ∧
        (∀ e ∈ s.tsc.directory, e.stored.isSome = true → { e with recording := none } ∈ t.tsc.directory) ∧
        ∀ e r, s.tsc.recordingOf = some (e, r) →
          t.tsc.eraseQueue = s.tsc.eraseQueue ++
            ((r.segments.filter fun g => g.programmed && !(s.tsc.bad ++ [p.address / 4096]).contains g.sector).map
              (·.sector))) ∧
      (p.work = .takeClose → matched → ∀ e r c, s.tsc.recordingOf = some (e, r) → s.tsc.closing = some c →
        s.tks.job = .closing →
        t.tks.job = .idle ∧ t.tks.outcome = .completed ∧ t.tks.takeNumber = s.tks.jobTake ∧ t.lnk = s.lnk ∧
        t.cpt = s.cpt ∧ (∀ ws, s.tsc.closeList = .takeClose :: ws → leaves t ws) ∧
        (t.tsc.entry e.number).bind (·.stored) = some
          { generation := r.generation, state := .complete, lockPending := false, mask := r.mask, startPos := r.startPos,
            initialMove := r.initialMove, length := c.length, endPos := some c.endPos, marks := c.marks, segments := r.segments } ∧
        ∀ old, e.stored = some old →
          t.tsc.eraseQueue = s.tsc.eraseQueue ++ (old.segments.filter fun g => !g.retire).map (·.sector) ∧
          t.tsc.bad = s.tsc.bad ++ (old.segments.filter fun g => g.retire).map (·.sector)) ∧
      (∀ n e x, p.work = .lock n → s.tsc.entry n = some e → e.stored = some x →
        t.lnk = s.lnk ∧ t.cpt = s.cpt ∧ t.tsc.eraseQueue = s.tsc.eraseQueue ∧ t.tsc.bad = s.tsc.bad ∧
        (∀ ws, s.tsc.closeList = .lock n :: ws → leaves t ws) ∧
        (matched → (t.tsc.entry n).bind (·.stored) = some { x with state := .locked, lockPending := false }) ∧
        (¬matched → (t.tsc.entry n).bind (·.stored) = some { x with
          lockPending := false
          segments := x.segments.map fun g => if g.seq = 0 then { g with retire := true } else g }) ∧
        t.tks = if s.tks.job = .idle then { s.tks with
          takeNumber := n, outcome := if matched then .completed else .refused (reasonCode .storeWrite) } else s.tks) ∧
      (∀ i, p.work = .config i → t.tks = s.tks ∧ t.lnk = s.lnk ∧ t.tsc.eraseQueue = s.tsc.eraseQueue ∧ t.tsc.bad = s.tsc.bad ∧
        (matched → i = 1 → t.cpt = { s.cpt with writeState := .done, writeBuffer := none }) ∧
        (matched → i ≠ 1 → t.cpt = s.cpt) ∧
        (matched → ∀ ws, s.tsc.closeList = .configPage i :: ws → leaves t ws) ∧
        (¬matched → t.cpt = { s.cpt with writeState := .failed, writeBuffer := none } ∧
          ∀ j, .configPage j ∉ t.tsc.closeList)) ∧
      (p.work = .abandoned → t.tks = s.tks ∧ t.lnk = s.lnk ∧ t.cpt = s.cpt)

/-- A verify that fails during a recording, or in its close, ends the recording: the sector is BAD and not in the erase queue,
the recording is discarded, the job IDLE with ABORTED(STORE-WRITE); broadcast from RECORDING, not from CLOSING (R135). -/
def Obligations.VerifyFailureEndsTheRecording : Prop :=
  ∀ (seen : Option (List Byte)) (s : State) (p : Program) (st : RecordStep),
    s.tsc.unit = .programming p → s.tsc.draining = false → p.work = .record st →
    leftRun seen (programMade p s) ≠ p.data →
    s.tks.job = .recording ∨ s.tks.job = .closing →
    ∃ t, exec (.programComplete seen) s = .next t ∧
      t = { s with flash := t.flash, tsc := t.tsc, tks := t.tks, lnk := t.lnk } ∧
      t.tsc.bad = s.tsc.bad ++ [p.address / 4096] ∧
      (p.address / 4096 ∉ s.tsc.eraseQueue → p.address / 4096 ∉ t.tsc.eraseQueue) ∧
      t.tks.job = .idle ∧ t.tks.outcome = .aborted (reasonCode .storeWrite) (ownByte s) ∧
      t.tsc.pageBuffer = [] ∧ t.tsc.writeQueue = [] ∧ t.tsc.recordingOf = none ∧
      (∀ e r, s.tsc.recordingOf = some (e, r) →
        t.tsc.eraseQueue = s.tsc.eraseQueue ++
          ((r.segments.filter fun g => g.programmed && !(s.tsc.bad ++ [p.address / 4096]).contains g.sector).map (·.sector))) ∧
      (s.tks.job = .recording → s.lnk.fifo.length < 4 →
        t.lnk = { s.lnk with
          fifo := s.lnk.fifo ++ [.take (.abort s.tks.jobTake (reasonCode .storeWrite) (ownByte s))] }) ∧
      (s.tks.job = .closing → t.lnk = s.lnk)

/-! ### The companion port -/

/-- SEND: NOT-NOW outside PARKED and RUN, BAD for a kind or value outside its set, BUSY on a full FIFO, else the frame joins the
FIFO's tail (R178, R179; order: log 12). What it queues is what the bytes spell: the frame whose kind and payload they are
(R155, R183). Every take number is accepted, and a subkind above 6 is BAD (log 35). -/
def Obligations.SendQueuesTheFrameItSpells : Prop :=
  (∀ (kind : Byte) (bs : List Byte) (s : State),
    let port (a : Answer) (x : State) : State :=
      { x with cpt := { s.cpt with
        status := shownStatus s, began := false, answer := some a, response := .none, copying := false } }
    let here := s.cfg.startState = .parked ∨ s.cfg.startState = .run
    (¬here → exec (.send kind bs) s = .next (port .notNow s)) ∧
    (here → sendBody (isControl s) kind.toNat bs = none → exec (.send kind bs) s = .next (port .bad s)) ∧
    (∀ b, here → sendBody (isControl s) kind.toNat bs = some b →
      (4 ≤ s.lnk.fifo.length → exec (.send kind bs) s = .next (port .busy s)) ∧
      (s.lnk.fifo.length < 4 →
        exec (.send kind bs) s = .next (port .accepted { s with lnk := { s.lnk with fifo := s.lnk.fifo ++ [b] } })))) ∧
  ∀ control : Bool,
    (sendBody true 0x10 [] = some .resume ∧ sendBody false 0x10 [] = none) ∧
    (∀ m : StationMask, ∀ b ∈ [Body.wake m, .park m, .home m, .restart m],
      sendBody control b.kindNumber b.bytes = if m.getLsbD 0 then none else some b) ∧
    (∀ (n : Byte) (m : StationMask) (i o : Byte), ∀ b ∈ [Body.take (.prepare n m), .take (.cue n m i o)],
      sendBody control b.kindNumber b.bytes = if m.getLsbD 0 then none else some b) ∧
    (∀ (n r o : Byte) (t : Ms16), ∀ b ∈ [Body.take (.roll n t), .take (.cut n t), .take (.abort n r o), .take (.delete n),
        .take (.lock n), .mark t],
      sendBody control b.kindNumber b.bytes = some b) ∧
    (∀ (x : Byte) (bs : List Byte), 6 < x.toNat → sendBody control 0x15 (x :: bs) = none) ∧
    ∀ (k : Nat) (bs : List Byte), k < 0x10 ∨ 0x16 < k → sendBody control k bs = none

/-- HALT sets the companion halt and the HALT cause at once, UNHALT ends the halt and leaves the cause; both NOT-NOW in CONFIG-
FAULT. FILTER takes a set of the eleven kinds, BAD for a higher bit (R87, R88, R178, R179, R180). NOT-NOW goes before BAD
(log 12). -/
def Obligations.HaltUnhaltAndFilter : Prop :=
  ∀ (kinds : BitVec 16) (s : State),
    let port (a : Answer) (x : State) : State :=
      { x with cpt := { x.cpt with
        status := shownStatus s, began := false, answer := some a, response := .none, copying := false } }
    (s.cfg.startState = .configFault →
      exec .halt s = .next (startWork (port .notNow s)) ∧ exec .unhalt s = .next (port .notNow s) ∧
      exec (.filter kinds) s = .next (port .notNow s)) ∧
    (s.cfg.startState ≠ .configFault →
      exec .unhalt s = .next (port .accepted { s with stc := { s.stc with companionHalt := false } }) ∧
      (s.stc.haltLatch = true →
        exec .halt s = .next (startWork (port .accepted { s with stc := { s.stc with companionHalt := true } }))) ∧
      (s.stc.haltLatch = false → ∃ t, exec .halt s = .next t ∧
        t.stc.companionHalt = true ∧ t.stc.haltLatch = true ∧ t.cpt = (port .accepted s).cpt ∧
        t = { s with stc := t.stc, cpt := t.cpt, lnk := t.lnk, mpr := t.mpr, svo := t.svo, hom := t.hom, dmr := t.dmr
                     tks := t.tks, tsc := t.tsc } ∧
        (∀ h, s.stc.hold = some h → t.stc.hold = some h ∧ t.lnk.safety = s.lnk.safety) ∧
        (s.stc.hold = none → localCauses s = [] → t.stc.hold = some { kind := .ramp, code := some .halt } ∧
          t.lnk.safety = some (.stop .ramp (some .halt))) ∧
        (s.stc.drive = .enabled → s.mpr.v ≠ 0 → (s.stc.hold = none → localCauses s = []) → hardInForce s = false →
          t.stc.drive = .stopping)) ∧
      (kinds.toNat < 2048 → exec (.filter kinds) s =
        .next (port .accepted { s with cpt := { s.cpt with filter := kinds.setWidth 11 } })) ∧
      (2048 ≤ kinds.toNat → exec (.filter kinds) s = .next (port .bad s)))

/-- RECEIVE copies the head entry, which leaves at the copy's last bit; EMPTY on an empty queue. The interrupt line stands while
the queue holds an entry. SNAPSHOT copies a section at one instant, DMR's items in it being those of the last update (R39,
log 46), NODE with each peer's stored offset and its validity (R71), of a length the manual leaves out (log 10), BAD outside the
table. A transaction shifts the status byte out with its command byte: a command's byte ahead of its payload shows it and begins
the transaction, whose take, or whose end in a short transaction, keeps it (the command byte as an event of BAD_COMMAND:
log 60). A short transaction is counted; a byte of no command is BAD with no effect (R178, R180, R181). -/
def Obligations.ReceiveSnapshotAndBadTransactions : Prop :=
  ∀ s : State,
    let port (a : Answer) (r : Response) (x : State) : State :=
      { x with cpt := { s.cpt with
        status := shownStatus s, began := false, answer := some a, response := r, copying := false } }
    (interruptLine s = true ↔ s.cpt.rxQueue ≠ []) ∧
    (portStatus s = { interrupt := !s.cpt.rxQueue.isEmpty, freePlaces := 4 - s.lnk.fifo.length, write := s.cpt.writeState }) ∧
    (s.cpt.began = false → shownStatus s = some (portStatus s)) ∧ (s.cpt.began = true → shownStatus s = s.cpt.status) ∧
    (s.cpt.rxQueue = [] → exec .receive s = .next (port .empty .none s)) ∧
    (∀ e rest, s.cpt.rxQueue = e :: rest →
      e.bytes.length = 7 + e.payload.length ∧
      exec .receive s = .next { s with cpt := { s.cpt with
        status := shownStatus s, began := false, answer := some .accepted, response := .entry e.bytes, copying := true } }) ∧
    (s.cpt.copying = true →
      exec .receiveCopyEnd s = .next { s with cpt := { s.cpt with rxQueue := s.cpt.rxQueue.tail, copying := false } }) ∧
    snapshotCopy 0 0 s = some (.node s.cfg s.stc (stopReport s) s.mpr s.svo (measured s) s.hom s.dmr.shown s.cck (storedOffsets s)) ∧
    (∀ x : StoredOffset, x ∈ storedOffsets s ↔ x.station ≠ 0 ∧ x.offset = (peerEntry s x.station).offset ∧
      x.valid = (peerEntry s x.station).offsetValid) ∧
    (∀ (sec i : Byte),
      ((sec.toNat = 0 ∨ sec.toNat = 2 ∨ sec.toNat = 3 ∨ sec.toNat = 4 ∨ sec.toNat = 6) ∧ i.toNat = 0 ∨
          sec.toNat = 1 ∧ 1 ≤ i.toNat ∧ i.toNat ≤ 15 ∨ sec.toNat = 5 ∧ i.toNat ≤ 31 →
        ∃ n c, snapshotCopy sec.toNat i.toNat s = some c ∧
          exec (.snapshot sec i) s = .next { port .accepted (.snapshot n c) s with freeCount := s.freeCount + 1 }) ∧
      (¬((sec.toNat = 0 ∨ sec.toNat = 2 ∨ sec.toNat = 3 ∨ sec.toNat = 4 ∨ sec.toNat = 6) ∧ i.toNat = 0 ∨
          sec.toNat = 1 ∧ 1 ≤ i.toNat ∧ i.toNat ≤ 15 ∨ sec.toNat = 5 ∧ i.toNat ≤ 31) →
        exec (.snapshot sec i) s = .next (port .bad .none s))) ∧
    (s.cpt.shortCount < 255 → exec .shortTransaction s = .next { s with cpt := { s.cpt with
      status := shownStatus s, began := false, shortCount := s.cpt.shortCount + 1, copying := false } }) ∧
    (s.cpt.shortCount = 255 → exec .shortTransaction s = .next { s with cpt := { s.cpt with
      status := shownStatus s, began := false, copying := false } }) ∧
    ∀ c : Byte,
      let named : List Byte := [0x10, 0x20, 0x21, 0x30, 0x31, 0x40, 0x50, 0x51, 0x60]
      (c ∉ named → exec (.badCommand c) s = .next (port .bad .none s)) ∧
      (c ∈ named → exec (.badCommand c) s = .next { s with cpt := { s.cpt with
        status := some (portStatus s), began := true, copying := false } })

/-- CONFIG_WRITE: BUSY while one is in progress, NOT-NOW outside its states, else the block is held and an erase of sector 0 and
two programs are asked for. FORMAT: NOT-NOW outside PARKED with the drive PARKED, BUSY while a job or a lock runs, else the
directory and the pool are empty, no sector is in the queue twice, and a retired sector is BAD (R147, R178, R182). Where both
apply, BUSY goes before NOT-NOW for CONFIG_WRITE and NOT-NOW before BUSY for FORMAT (the model's choice: log 12). -/
def Obligations.ConfigWriteAndFormat : Prop :=
  ∀ (block : List Byte) (s : State),
    let port (a : Answer) (x : State) : State :=
      { x with cpt := { x.cpt with
        status := shownStatus s, began := false, answer := some a, response := .none, copying := false } }
    let here := s.cfg.startState = .parked ∧ s.stc.drive = .parked ∨ s.cfg.startState = .run ∨ s.cfg.startState = .configFault
    let free := s.tks.job = .idle ∧ ∀ n, .lock n ∉ s.tsc.closeList
    (s.cpt.writeState = .inProgress → exec (.configWrite block) s = .next (port .busy s)) ∧
    (s.cpt.writeState ≠ .inProgress → ¬here → exec (.configWrite block) s = .next (port .notNow s)) ∧
    (s.cpt.writeState ≠ .inProgress → here → exec (.configWrite block) s = .next (startWork (port .accepted { s with
      cpt := { s.cpt with writeState := .inProgress, writeBuffer := some block }
      tsc := { s.tsc with closeList := s.tsc.closeList ++ [.configErase, .configPage 0, .configPage 1] } }))) ∧
    (axisUp s = false ∨ s.stc.drive ≠ .parked → exec .format s = .next (port .notNow s)) ∧
    (axisUp s = true → s.stc.drive = .parked → ¬free → exec .format s = .next (port .busy s)) ∧
    (axisUp s = true → s.stc.drive = .parked → free →
      ∃ t, exec .format s = .next (startWork (port .accepted { s with tsc := t })) ∧
        t = { s.tsc with directory := [], eraseQueue := t.eraseQueue, bad := t.bad } ∧
        s.tsc.eraseQueue <+: t.eraseQueue ∧ s.tsc.bad <+: t.bad ∧
        (s.tsc.eraseQueue.Nodup → t.eraseQueue.Nodup) ∧
        ∀ c, 1 ≤ c → c ≤ 4095 →
          (c ∈ t.bad ↔ c ∈ s.tsc.bad ∨ ∃ e ∈ s.tsc.directory, ∃ g ∈ e.segments, g.sector = c ∧ g.retire = true) ∧
          (c ∈ t.eraseQueue ↔ c ∈ s.tsc.eraseQueue ∨ c ∉ t.bad))

/-- In OWN, a STATUS frame of another station with a valid offset makes the time AGREED and decides no correction. AGREED stays
AGREED at every step but START. From the next update the time is slewed or stepped toward the rig's, and with every peer stale
it counts on at its own rate (R67). -/
def Obligations.AgreedTimeStaysAgreed : Prop :=
  (∀ (st : Station) (i : StatusItems) (s : State), st ≠ 0 → isOwn st s = false → s.cck.timeState = .own →
    i.timeState ≠ .unset →
    ∃ t, exec (.statusFrame st i) s = .next t ∧ t.cck = { s.cck with timeState := .agreed }) ∧
  (∀ (c : Instr) (s t : State), (∀ chainOpen memory, c ≠ .start chainOpen memory) → s.cck.timeState = .agreed →
    exec c s = .next t → t.cck.timeState = .agreed) ∧
  ∀ (inp : UpdateInputs) (s : State), s.cck.timeState = .agreed → s.cfg.startState ≠ .straps →
    let heard (st : Station) := st ≠ 0 ∧ isOwn st s = false ∧ s.ptb.peers[st].age ≤ 12
    ∃ t, exec (.update inp) s = .next t ∧ t.cck.ms = s.cck.ms + 1 ∧ t.cck.phase = 0 ∧
      ((∀ st, ¬heard st) → t.cck.pending = s.cck.pending) ∧
      ∀ st, heard st → s.ptb.peers[st].offsetValid = true →
        let m := lowerMedian (offsetSet s)
        t.cck.pending = some (if |m| ≤ 500 then .slew (max (-2) (min 2 m)) else .step m)
end

