-- ==== Sys2Proof/Laws/Arithmetic.lean ====
section
/-! SUPPORT. The arithmetic helpers said once: clamps as min and max, the square root, sorting, the least of a list. -/

namespace Sys2Proof.Machine

/-- Clamping is max after min where the bounds are ordered. -/
theorem clampInt_eq {a b : Int} (h : a ≤ b) (x : Int) : clampInt a b x = max a (min b x) := by
  simp only [clampInt]; split <;> [skip; split] <;> omega

theorem clampInt_bounds {a b : Int} (h : a ≤ b) (x : Int) : a ≤ clampInt a b x ∧ clampInt a b x ≤ b := by
  rw [clampInt_eq h]; omega

theorem satInt_eq {n : Int} (h : 0 ≤ n) (x : Int) : satInt n x = max (-n) (min n x) := clampInt_eq (by omega) x

theorem satInc_eq (m n : Nat) : satInc m n = min m (n + 1) := by
  simp only [satInc]; split <;> omega

theorem vmap_getElem {α β : Type} {n : Nat} (f : α → β) (v : Vector α n) (i : Nat) (h : i < n) :
    (vmap f v)[i] = f v[i] := by simp [vmap]

/-- What the bit-by-bit square root keeps: x² ≤ n < (x + 2^b)². -/
theorem isqrtFrom_spec (n : Nat) : ∀ b x : Nat, x * x ≤ n → n < (x + 2 ^ b) * (x + 2 ^ b) →
    isqrtFrom n b x * isqrtFrom n b x ≤ n ∧ n < (isqrtFrom n b x + 1) * (isqrtFrom n b x + 1)
  | 0, x, lo, hi => by simpa [isqrtFrom] using And.intro lo hi
  | b + 1, x, lo, hi => by
    simp only [isqrtFrom]
    split
    · rename_i fits
      have twice : x + 2 ^ b + 2 ^ b = x + 2 ^ (b + 1) := by rw [pow_succ]; omega
      exact isqrtFrom_spec n b _ fits (twice ▸ hi)
    · exact isqrtFrom_spec n b x lo (by omega)

theorem isqrtFrom_le (n : Nat) : ∀ b x : Nat, x ≤ isqrtFrom n b x
  | 0, _ => le_rfl
  | b + 1, x => by
    simp only [isqrtFrom]
    split
    · exact le_trans (Nat.le_add_right _ _) (isqrtFrom_le n b _)
    · exact isqrtFrom_le n b x

/-- Insertion permutes, and keeps an ascending list ascending. -/
theorem insertAsc_perm (x : Int) : ∀ xs, List.Perm (insertAsc x xs) (x :: xs)
  | [] => List.Perm.refl _
  | y :: ys => by
    simp only [insertAsc]
    split
    · exact List.Perm.refl _
    · exact ((insertAsc_perm x ys).cons y).trans (List.Perm.swap x y ys)

theorem insertAsc_sorted (x : Int) : ∀ xs : List Int, xs.Pairwise (· ≤ ·) → (insertAsc x xs).Pairwise (· ≤ ·)
  | [], _ => List.pairwise_singleton _ x
  | y :: ys, h => by
    obtain ⟨first, rest⟩ := List.pairwise_cons.mp h
    simp only [insertAsc]
    split
    · rename_i le
      exact List.pairwise_cons.mpr ⟨fun z hz => (List.mem_cons.mp hz).elim (fun e => e ▸ le) fun m => le.trans (first z m), h⟩
    · refine List.pairwise_cons.mpr ⟨fun z hz => ?_, insertAsc_sorted x ys rest⟩
      rcases List.mem_cons.mp ((insertAsc_perm x ys).mem_iff.mp hz) with rfl | m
      · omega
      · exact first z m

/-- Entering a mark permutes the list of marks. -/
theorem insertMark_perm (m : JobMark) : ∀ ms, List.Perm (insertMark m ms) (m :: ms)
  | [] => List.Perm.refl _
  | y :: ys => by
    simp only [insertMark]
    split
    · exact List.Perm.refl _
    · exact ((insertMark_perm m ys).cons y).trans (List.Perm.swap m y ys)

/-- The member cap over a list: no more than v_max, no more than any zone's cap, and one of them. -/
theorem memberCapOf_spec (vMax : Nat) (zs : List ZoneEntry) :
    memberCapOf vMax zs ≤ vMax ∧ (∀ z ∈ zs, memberCapOf vMax zs ≤ zoneCap vMax z) ∧
      (memberCapOf vMax zs = vMax ∨ ∃ z ∈ zs, memberCapOf vMax zs = zoneCap vMax z) := by
  have go : ∀ (l : List ZoneEntry) (c : Nat),
      l.foldl (fun c z => min c (zoneCap vMax z)) c ≤ c ∧
      (∀ z ∈ l, l.foldl (fun c z => min c (zoneCap vMax z)) c ≤ zoneCap vMax z) ∧
      (l.foldl (fun c z => min c (zoneCap vMax z)) c = c ∨
        ∃ z ∈ l, l.foldl (fun c z => min c (zoneCap vMax z)) c = zoneCap vMax z) := by
    intro l
    induction l with
    | nil => intro c; simp
    | cons y ys ih =>
      intro c
      obtain ⟨below, all, one⟩ := ih (min c (zoneCap vMax y))
      simp only [List.foldl_cons]
      refine ⟨by omega, fun z hz => ?_, ?_⟩
      · rcases List.mem_cons.mp hz with rfl | hz
        · omega
        · exact all z hz
      · rcases one with e | ⟨z, hz, e⟩
        · rcases Nat.le_total c (zoneCap vMax y) with h | h
          · exact .inl (by omega)
          · exact .inr ⟨y, by simp, by omega⟩
        · exact .inr ⟨z, List.mem_cons_of_mem _ hz, e⟩
  exact go zs vMax

end Sys2Proof.Machine
end

