-- ==== Sys2Proof/Laws/Checks.lean ====
section
/-! SUPPORT. The range checks of a block said once: the first failing test of a list, one zone entry, one lens point, the tail both roles share. -/

namespace Sys2Proof.Machine

theorem inRange_iff (a b x : Int) : inRange a b x = true ↔ a ≤ x ∧ x ≤ b := by simp [inRange]

theorem maskOk_iff (m : StationMask) : maskOk m = true ↔ m.getLsbD 0 = false := by simp [maskOk]

theorem firstFailing_nil : firstFailing [] = none := rfl

theorem firstFailing_cons (ok : Bool) (f : FailingItem) (rest : List (Bool × FailingItem)) :
    firstFailing ((ok, f) :: rest) = if ok then firstFailing rest else some f := rfl

theorem firstFailing_append (a b : List (Bool × FailingItem)) :
    firstFailing (a ++ b) = (firstFailing a).or (firstFailing b) := by
  induction a with
  | nil => simp [firstFailing]
  | cons x xs ih =>
    obtain ⟨ok, f⟩ := x
    simp only [List.cons_append, firstFailing_cons]
    cases ok <;> simp [ih]

/-- A chain of tests passes where its first test does and the rest pass. -/
theorem chain_none {c : Prop} [Decidable c] {f : FailingItem} {r : Option FailingItem} :
    (if c then some f else r) = none ↔ ¬c ∧ r = none := by
  by_cases c <;> simp_all

/-- One link of a chain: a test that fails where c holds. -/
theorem chain_link {α : Type} {ok : Bool} {c : Prop} [Decidable c] {x y f : α} (test : ok = true ↔ ¬c) (rest : ¬c → x = y) :
    (if ok then x else f) = if c then f else y := by
  by_cases c <;> simp_all

/-- The first failing item of the lens points from index i on. -/
theorem firstFailing_lens (i : Nat) (before : Option Int) (x : LensPoint) (xs : List LensPoint) :
    firstFailing (lensTests i before (x :: xs)) =
      if before.any (fun p => decide (x.pos ≤ p)) = true then some (itemAt .lensPosition i)
      else if x.factor < 64 ∨ 4096 < x.factor then some (itemAt .lensFactor i)
      else firstFailing (lensTests (i + 1) (some x.pos) xs) := by
  simp only [lensTests, List.cons_append, List.nil_append, firstFailing_cons]
  refine chain_link ?_ fun _ => chain_link (by rw [inRange_iff]; omega) fun _ => rfl
  cases before <;> simp

/-- The first failing item of the zone entries from index i on, the numbers before them seen. -/
theorem firstFailing_zones (i : Nat) (seen : List Nat) (z : ZoneEntry) (zs : List ZoneEntry) :
    firstFailing (zoneTests i seen (z :: zs)) =
      if z.number < 1 ∨ 8 < z.number ∨ z.number ∈ seen then some (itemAt .zoneNumber i)
      else if z.sensorStation < 1 ∨ 15 < z.sensorStation then some (itemAt .zoneSensorStation i)
      else if 3 < z.sensorInput then some (itemAt .zoneSensorInput i)
      else if z.aStation < 1 ∨ 15 < z.aStation then some (itemAt .zoneAxisAStation i)
      else if z.aLo < countMin ∨ countMax < z.aLo then some (itemAt .zoneAxisALo i)
      else if z.aHi < z.aLo ∨ countMax < z.aHi then some (itemAt .zoneAxisAHi i)
      else if 1 < z.bPresent then some (itemAt .zoneAxisBPresent i)
      else if z.bPresent = 1 ∧ (z.bStation < 1 ∨ 15 < z.bStation) then some (itemAt .zoneAxisBStation i)
      else if z.bPresent = 1 ∧ (z.bLo < countMin ∨ countMax < z.bLo) then some (itemAt .zoneAxisBLo i)
      else if z.bPresent = 1 ∧ (z.bHi < z.bLo ∨ countMax < z.bHi) then some (itemAt .zoneAxisBHi i)
      else if z.members.getLsbD 0 = true then some (itemAt .zoneMembers i)
      else firstFailing (zoneTests (i + 1) (z.number :: seen) zs) := by
  have number : (inRange 1 8 z.number && !seen.contains z.number) = true ↔
      ¬(z.number < 1 ∨ 8 < z.number ∨ z.number ∈ seen) := by
    by_cases h : z.number ∈ seen <;> (simp [inRange_iff, h]; try omega)
  have members : maskOk z.members = true ↔ ¬(z.members.getLsbD 0 = true) := by simp [maskOk_iff]
  have upper (lo hi : Int) : (inRange countMin countMax hi && decide (lo ≤ hi)) = true ↔
      (countMin ≤ hi ∧ hi ≤ countMax) ∧ lo ≤ hi := by simp [inRange_iff]
  by_cases absent : z.bPresent = 0
  · simp only [zoneTests, zoneAxisTests, absent, List.cons_append, List.nil_append, firstFailing_cons, if_true]
    refine chain_link number fun _ => chain_link (by rw [inRange_iff]; omega) fun _ => chain_link (by rw [inRange_iff]; omega)
      fun _ => chain_link (by rw [inRange_iff]; omega) fun _ => chain_link (by rw [inRange_iff]; omega)
      fun _ => chain_link (by rw [upper]; omega) fun _ => ?_
    have passes : inRange 0 1 ((0 : Nat) : Int) = true := by decide
    simp only [passes, if_true, zero_ne_one, false_and, if_false, show ¬1 < 0 by omega]
    exact chain_link members fun _ => rfl
  · simp only [zoneTests, zoneAxisTests, absent, List.cons_append, List.nil_append, firstFailing_cons, if_false]
    refine chain_link number fun _ => chain_link (by rw [inRange_iff]; omega) fun _ => chain_link (by rw [inRange_iff]; omega)
      fun _ => chain_link (by rw [inRange_iff]; omega) fun _ => chain_link (by rw [inRange_iff]; omega)
      fun _ => chain_link (by rw [upper]; omega) fun _ => chain_link (by rw [inRange_iff]; omega) fun _ => ?_
    exact chain_link (by rw [inRange_iff]; omega) fun _ => chain_link (by rw [inRange_iff]; omega)
      fun _ => chain_link (by rw [upper]; omega) fun _ => chain_link members fun _ => rfl

/-- Behind a prefix of zone entries that passes stand the tests of the rest. -/
theorem firstFailing_zones_append : ∀ (pre rest : List ZoneEntry) (i : Nat) (seen : List Nat),
    firstFailing (zoneTests i seen pre) = none →
    firstFailing (zoneTests i seen (pre ++ rest)) =
      firstFailing (zoneTests (i + pre.length) ((pre.map (·.number)).reverse ++ seen) rest)
  | [], rest, i, seen, _ => by simp
  | z :: zs, rest, i, seen, passes => by
    rw [firstFailing_zones] at passes
    iterate 11 rw [chain_none] at passes
    obtain ⟨h1, h2, h3, h4, h5, h6, h7, h8, h9, h10, h11, passes⟩ := passes
    rw [List.cons_append, firstFailing_zones, if_neg h1, if_neg h2, if_neg h3, if_neg h4, if_neg h5, if_neg h6, if_neg h7,
      if_neg h8, if_neg h9, if_neg h10, if_neg h11, firstFailing_zones_append zs rest _ _ passes]
    simp only [List.length_cons, List.map_cons, List.reverse_cons, List.append_assoc, List.cons_append, List.nil_append]
    congr 2
    omega

/-- A block's zone table and expected mask, the last tests of both roles (orders 12 and 13 of R172). -/
theorem firstFailing_shared (b : Block) :
    firstFailing (zoneTableTests b ++ [(maskOk b.expected, item .expectedMask)]) =
      if 8 < b.zoneCount then some (item .zoneCount)
      else (firstFailing (zoneTests 0 [] b.zones)).or
        (if b.expected.getLsbD 0 = true then some (item .expectedMask) else none) := by
  simp only [zoneTableTests, List.cons_append, firstFailing_cons, firstFailing_append, firstFailing_nil]
  refine chain_link (by rw [inRange_iff]; omega) fun _ => congrArg _ ?_
  exact chain_link (by simp [maskOk_iff]) fun _ => rfl

end Sys2Proof.Machine
end

