-- ==== Sys2Proof/Laws/State.lean ====
section
/-! SUPPORT. What each plain update of the state leaves alone: one lemma per update, a simp rule for every field it does not write. -/

namespace Sys2Proof.Machine

@[simp] theorem ite_cfg (c : Prop) [Decidable c] (a b : State) : (if c then a else b).cfg = if c then a.cfg else b.cfg :=
  apply_ite State.cfg c a b
@[simp] theorem ite_cck (c : Prop) [Decidable c] (a b : State) : (if c then a else b).cck = if c then a.cck else b.cck :=
  apply_ite State.cck c a b
@[simp] theorem ite_ptb (c : Prop) [Decidable c] (a b : State) : (if c then a else b).ptb = if c then a.ptb else b.ptb :=
  apply_ite State.ptb c a b
@[simp] theorem ite_chan (c : Prop) [Decidable c] (a b : State) : (if c then a else b).chan = if c then a.chan else b.chan :=
  apply_ite State.chan c a b
@[simp] theorem ite_dmr (c : Prop) [Decidable c] (a b : State) : (if c then a else b).dmr = if c then a.dmr else b.dmr :=
  apply_ite State.dmr c a b
@[simp] theorem ite_mpr (c : Prop) [Decidable c] (a b : State) : (if c then a else b).mpr = if c then a.mpr else b.mpr :=
  apply_ite State.mpr c a b
@[simp] theorem ite_svo (c : Prop) [Decidable c] (a b : State) : (if c then a else b).svo = if c then a.svo else b.svo :=
  apply_ite State.svo c a b
@[simp] theorem ite_hom (c : Prop) [Decidable c] (a b : State) : (if c then a else b).hom = if c then a.hom else b.hom :=
  apply_ite State.hom c a b
@[simp] theorem ite_zmn (c : Prop) [Decidable c] (a b : State) : (if c then a else b).zmn = if c then a.zmn else b.zmn :=
  apply_ite State.zmn c a b
@[simp] theorem ite_stc (c : Prop) [Decidable c] (a b : State) : (if c then a else b).stc = if c then a.stc else b.stc :=
  apply_ite State.stc c a b
@[simp] theorem ite_tks (c : Prop) [Decidable c] (a b : State) : (if c then a else b).tks = if c then a.tks else b.tks :=
  apply_ite State.tks c a b
@[simp] theorem ite_tsc (c : Prop) [Decidable c] (a b : State) : (if c then a else b).tsc = if c then a.tsc else b.tsc :=
  apply_ite State.tsc c a b
@[simp] theorem ite_lnk (c : Prop) [Decidable c] (a b : State) : (if c then a else b).lnk = if c then a.lnk else b.lnk :=
  apply_ite State.lnk c a b
@[simp] theorem ite_cpt (c : Prop) [Decidable c] (a b : State) : (if c then a else b).cpt = if c then a.cpt else b.cpt :=
  apply_ite State.cpt c a b
@[simp] theorem ite_flash (c : Prop) [Decidable c] (a b : State) : (if c then a else b).flash = if c then a.flash else b.flash :=
  apply_ite State.flash c a b
@[simp] theorem ite_freeCount (c : Prop) [Decidable c] (a b : State) : (if c then a else b).freeCount = if c then a.freeCount else b.freeCount :=
  apply_ite State.freeCount c a b
@[simp] theorem ite_pending (c : Prop) [Decidable c] (a b : State) : (if c then a else b).pending = if c then a.pending else b.pending :=
  apply_ite State.pending c a b

@[simp] theorem queueSafety_frame (b : Body) (s : State) :
    (queueSafety b s).cfg = s.cfg ∧ (queueSafety b s).cck = s.cck ∧
    (queueSafety b s).ptb = s.ptb ∧ (queueSafety b s).chan = s.chan ∧
    (queueSafety b s).dmr = s.dmr ∧ (queueSafety b s).mpr = s.mpr ∧
    (queueSafety b s).svo = s.svo ∧ (queueSafety b s).hom = s.hom ∧
    (queueSafety b s).zmn = s.zmn ∧ (queueSafety b s).stc = s.stc ∧
    (queueSafety b s).tks = s.tks ∧ (queueSafety b s).tsc = s.tsc ∧
    (queueSafety b s).cpt = s.cpt ∧ (queueSafety b s).flash = s.flash ∧
    (queueSafety b s).freeCount = s.freeCount ∧ (queueSafety b s).pending = s.pending := by
  unfold queueSafety
  exact ⟨rfl, rfl, rfl, rfl, rfl, rfl, rfl, rfl, rfl, rfl, rfl, rfl, rfl, rfl, rfl, rfl⟩

@[simp] theorem queueDemand_frame (d : DemandItems) (s : State) :
    (queueDemand d s).cfg = s.cfg ∧ (queueDemand d s).cck = s.cck ∧
    (queueDemand d s).ptb = s.ptb ∧ (queueDemand d s).chan = s.chan ∧
    (queueDemand d s).dmr = s.dmr ∧ (queueDemand d s).mpr = s.mpr ∧
    (queueDemand d s).svo = s.svo ∧ (queueDemand d s).hom = s.hom ∧
    (queueDemand d s).zmn = s.zmn ∧ (queueDemand d s).stc = s.stc ∧
    (queueDemand d s).tks = s.tks ∧ (queueDemand d s).tsc = s.tsc ∧
    (queueDemand d s).cpt = s.cpt ∧ (queueDemand d s).flash = s.flash ∧
    (queueDemand d s).freeCount = s.freeCount ∧ (queueDemand d s).pending = s.pending := by
  unfold queueDemand
  exact ⟨rfl, rfl, rfl, rfl, rfl, rfl, rfl, rfl, rfl, rfl, rfl, rfl, rfl, rfl, rfl, rfl⟩

@[simp] theorem queueStatus_frame (i : StatusItems) (s : State) :
    (queueStatus i s).cfg = s.cfg ∧ (queueStatus i s).cck = s.cck ∧
    (queueStatus i s).ptb = s.ptb ∧ (queueStatus i s).chan = s.chan ∧
    (queueStatus i s).dmr = s.dmr ∧ (queueStatus i s).mpr = s.mpr ∧
    (queueStatus i s).svo = s.svo ∧ (queueStatus i s).hom = s.hom ∧
    (queueStatus i s).zmn = s.zmn ∧ (queueStatus i s).stc = s.stc ∧
    (queueStatus i s).tks = s.tks ∧ (queueStatus i s).tsc = s.tsc ∧
    (queueStatus i s).cpt = s.cpt ∧ (queueStatus i s).flash = s.flash ∧
    (queueStatus i s).freeCount = s.freeCount ∧ (queueStatus i s).pending = s.pending := by
  unfold queueStatus
  exact ⟨rfl, rfl, rfl, rfl, rfl, rfl, rfl, rfl, rfl, rfl, rfl, rfl, rfl, rfl, rfl, rfl⟩

@[simp] theorem setLimitFlags_frame (s : State) :
    (setLimitFlags s).cfg = s.cfg ∧ (setLimitFlags s).cck = s.cck ∧
    (setLimitFlags s).ptb = s.ptb ∧ (setLimitFlags s).chan = s.chan ∧
    (setLimitFlags s).dmr = s.dmr ∧ (setLimitFlags s).svo = s.svo ∧
    (setLimitFlags s).hom = s.hom ∧ (setLimitFlags s).zmn = s.zmn ∧
    (setLimitFlags s).stc = s.stc ∧ (setLimitFlags s).tks = s.tks ∧
    (setLimitFlags s).tsc = s.tsc ∧ (setLimitFlags s).lnk = s.lnk ∧
    (setLimitFlags s).cpt = s.cpt ∧ (setLimitFlags s).flash = s.flash ∧
    (setLimitFlags s).freeCount = s.freeCount ∧ (setLimitFlags s).pending = s.pending := by
  unfold setLimitFlags
  exact ⟨rfl, rfl, rfl, rfl, rfl, rfl, rfl, rfl, rfl, rfl, rfl, rfl, rfl, rfl, rfl, rfl⟩

@[simp] theorem track_frame (s : State) :
    (track s).cfg = s.cfg ∧ (track s).cck = s.cck ∧
    (track s).ptb = s.ptb ∧ (track s).chan = s.chan ∧
    (track s).dmr = s.dmr ∧ (track s).svo = s.svo ∧
    (track s).hom = s.hom ∧ (track s).zmn = s.zmn ∧
    (track s).stc = s.stc ∧ (track s).tks = s.tks ∧
    (track s).tsc = s.tsc ∧ (track s).lnk = s.lnk ∧
    (track s).cpt = s.cpt ∧ (track s).flash = s.flash ∧
    (track s).freeCount = s.freeCount ∧ (track s).pending = s.pending := by
  unfold track
  exact ⟨rfl, rfl, rfl, rfl, rfl, rfl, rfl, rfl, rfl, rfl, rfl, rfl, rfl, rfl, rfl, rfl⟩

@[simp] theorem originChange_frame (o : Count) (s : State) :
    (originChange o s).cfg = s.cfg ∧ (originChange o s).cck = s.cck ∧
    (originChange o s).ptb = s.ptb ∧ (originChange o s).chan = s.chan ∧
    (originChange o s).dmr = s.dmr ∧ (originChange o s).hom = s.hom ∧
    (originChange o s).zmn = s.zmn ∧ (originChange o s).stc = s.stc ∧
    (originChange o s).tks = s.tks ∧ (originChange o s).tsc = s.tsc ∧
    (originChange o s).lnk = s.lnk ∧ (originChange o s).cpt = s.cpt ∧
    (originChange o s).flash = s.flash ∧ (originChange o s).freeCount = s.freeCount ∧
    (originChange o s).pending = s.pending := by
  unfold originChange
  exact ⟨rfl, rfl, rfl, rfl, rfl, rfl, rfl, rfl, rfl, rfl, rfl, rfl, rfl, rfl, rfl⟩

@[simp] theorem updateFactor_frame (s : State) :
    (updateFactor s).cfg = s.cfg ∧ (updateFactor s).cck = s.cck ∧
    (updateFactor s).ptb = s.ptb ∧ (updateFactor s).chan = s.chan ∧
    (updateFactor s).dmr = s.dmr ∧ (updateFactor s).svo = s.svo ∧
    (updateFactor s).hom = s.hom ∧ (updateFactor s).zmn = s.zmn ∧
    (updateFactor s).stc = s.stc ∧ (updateFactor s).tks = s.tks ∧
    (updateFactor s).tsc = s.tsc ∧ (updateFactor s).lnk = s.lnk ∧
    (updateFactor s).cpt = s.cpt ∧ (updateFactor s).flash = s.flash ∧
    (updateFactor s).freeCount = s.freeCount ∧ (updateFactor s).pending = s.pending := by
  unfold updateFactor
  exact ⟨rfl, rfl, rfl, rfl, rfl, rfl, rfl, rfl, rfl, rfl, rfl, rfl, rfl, rfl, rfl, rfl⟩

@[simp] theorem disarm_frame (s : State) :
    (disarm s).cfg = s.cfg ∧ (disarm s).cck = s.cck ∧
    (disarm s).ptb = s.ptb ∧ (disarm s).chan = s.chan ∧
    (disarm s).mpr = s.mpr ∧ (disarm s).svo = s.svo ∧
    (disarm s).hom = s.hom ∧ (disarm s).zmn = s.zmn ∧
    (disarm s).stc = s.stc ∧ (disarm s).tks = s.tks ∧
    (disarm s).tsc = s.tsc ∧ (disarm s).lnk = s.lnk ∧
    (disarm s).cpt = s.cpt ∧ (disarm s).flash = s.flash ∧
    (disarm s).freeCount = s.freeCount ∧ (disarm s).pending = s.pending := by
  unfold disarm
  exact ⟨rfl, rfl, rfl, rfl, rfl, rfl, rfl, rfl, rfl, rfl, rfl, rfl, rfl, rfl, rfl, rfl⟩

@[simp] theorem disarmRoute_frame (s : State) :
    (disarmRoute s).cfg = s.cfg ∧ (disarmRoute s).cck = s.cck ∧
    (disarmRoute s).ptb = s.ptb ∧ (disarmRoute s).chan = s.chan ∧
    (disarmRoute s).mpr = s.mpr ∧ (disarmRoute s).svo = s.svo ∧
    (disarmRoute s).hom = s.hom ∧ (disarmRoute s).zmn = s.zmn ∧
    (disarmRoute s).stc = s.stc ∧ (disarmRoute s).tks = s.tks ∧
    (disarmRoute s).tsc = s.tsc ∧ (disarmRoute s).lnk = s.lnk ∧
    (disarmRoute s).cpt = s.cpt ∧ (disarmRoute s).flash = s.flash ∧
    (disarmRoute s).freeCount = s.freeCount ∧ (disarmRoute s).pending = s.pending := by
  unfold disarmRoute
  exact ⟨rfl, rfl, rfl, rfl, rfl, rfl, rfl, rfl, rfl, rfl, rfl, rfl, rfl, rfl, rfl, rfl⟩

@[simp] theorem showDemand_frame (s : State) :
    (showDemand s).cfg = s.cfg ∧ (showDemand s).cck = s.cck ∧
    (showDemand s).ptb = s.ptb ∧ (showDemand s).chan = s.chan ∧
    (showDemand s).mpr = s.mpr ∧ (showDemand s).svo = s.svo ∧
    (showDemand s).hom = s.hom ∧ (showDemand s).zmn = s.zmn ∧
    (showDemand s).stc = s.stc ∧ (showDemand s).tks = s.tks ∧
    (showDemand s).tsc = s.tsc ∧ (showDemand s).lnk = s.lnk ∧
    (showDemand s).cpt = s.cpt ∧ (showDemand s).flash = s.flash ∧
    (showDemand s).freeCount = s.freeCount ∧ (showDemand s).pending = s.pending := by
  unfold showDemand
  exact ⟨rfl, rfl, rfl, rfl, rfl, rfl, rfl, rfl, rfl, rfl, rfl, rfl, rfl, rfl, rfl, rfl⟩

@[simp] theorem reduceWheels_frame (d : DemandItems) (s : State) :
    (reduceWheels d s).cfg = s.cfg ∧ (reduceWheels d s).cck = s.cck ∧
    (reduceWheels d s).ptb = s.ptb ∧ (reduceWheels d s).dmr = s.dmr ∧
    (reduceWheels d s).mpr = s.mpr ∧ (reduceWheels d s).svo = s.svo ∧
    (reduceWheels d s).hom = s.hom ∧ (reduceWheels d s).zmn = s.zmn ∧
    (reduceWheels d s).stc = s.stc ∧ (reduceWheels d s).tks = s.tks ∧
    (reduceWheels d s).tsc = s.tsc ∧ (reduceWheels d s).lnk = s.lnk ∧
    (reduceWheels d s).cpt = s.cpt ∧ (reduceWheels d s).flash = s.flash ∧
    (reduceWheels d s).freeCount = s.freeCount ∧ (reduceWheels d s).pending = s.pending := by
  unfold reduceWheels
  exact ⟨rfl, rfl, rfl, rfl, rfl, rfl, rfl, rfl, rfl, rfl, rfl, rfl, rfl, rfl, rfl, rfl⟩

@[simp] theorem crewUpdate_frame (l : BitVec 4) (s : State) :
    (crewUpdate l s).cfg = s.cfg ∧ (crewUpdate l s).cck = s.cck ∧
    (crewUpdate l s).ptb = s.ptb ∧ (crewUpdate l s).chan = s.chan ∧
    (crewUpdate l s).dmr = s.dmr ∧ (crewUpdate l s).mpr = s.mpr ∧
    (crewUpdate l s).svo = s.svo ∧ (crewUpdate l s).hom = s.hom ∧
    (crewUpdate l s).stc = s.stc ∧ (crewUpdate l s).tks = s.tks ∧
    (crewUpdate l s).tsc = s.tsc ∧ (crewUpdate l s).lnk = s.lnk ∧
    (crewUpdate l s).cpt = s.cpt ∧ (crewUpdate l s).flash = s.flash ∧
    (crewUpdate l s).freeCount = s.freeCount ∧ (crewUpdate l s).pending = s.pending := by
  unfold crewUpdate
  exact ⟨rfl, rfl, rfl, rfl, rfl, rfl, rfl, rfl, rfl, rfl, rfl, rfl, rfl, rfl, rfl, rfl⟩

@[simp] theorem ageEntries_frame (s : State) :
    (ageEntries s).cfg = s.cfg ∧ (ageEntries s).cck = s.cck ∧
    (ageEntries s).chan = s.chan ∧ (ageEntries s).dmr = s.dmr ∧
    (ageEntries s).mpr = s.mpr ∧ (ageEntries s).svo = s.svo ∧
    (ageEntries s).hom = s.hom ∧ (ageEntries s).zmn = s.zmn ∧
    (ageEntries s).stc = s.stc ∧ (ageEntries s).tks = s.tks ∧
    (ageEntries s).tsc = s.tsc ∧ (ageEntries s).lnk = s.lnk ∧
    (ageEntries s).cpt = s.cpt ∧ (ageEntries s).flash = s.flash ∧
    (ageEntries s).freeCount = s.freeCount ∧ (ageEntries s).pending = s.pending := by
  unfold ageEntries
  exact ⟨rfl, rfl, rfl, rfl, rfl, rfl, rfl, rfl, rfl, rfl, rfl, rfl, rfl, rfl, rfl, rfl⟩

@[simp] theorem countDuplicate_frame (s : State) :
    (countDuplicate s).cfg = s.cfg ∧ (countDuplicate s).cck = s.cck ∧
    (countDuplicate s).chan = s.chan ∧ (countDuplicate s).dmr = s.dmr ∧
    (countDuplicate s).mpr = s.mpr ∧ (countDuplicate s).svo = s.svo ∧
    (countDuplicate s).hom = s.hom ∧ (countDuplicate s).zmn = s.zmn ∧
    (countDuplicate s).stc = s.stc ∧ (countDuplicate s).tks = s.tks ∧
    (countDuplicate s).tsc = s.tsc ∧ (countDuplicate s).lnk = s.lnk ∧
    (countDuplicate s).cpt = s.cpt ∧ (countDuplicate s).flash = s.flash ∧
    (countDuplicate s).freeCount = s.freeCount ∧ (countDuplicate s).pending = s.pending := by
  unfold countDuplicate
  exact ⟨rfl, rfl, rfl, rfl, rfl, rfl, rfl, rfl, rfl, rfl, rfl, rfl, rfl, rfl, rfl, rfl⟩

@[simp] theorem countUpdate_frame (s : State) :
    (countUpdate s).cfg = s.cfg ∧ (countUpdate s).cck = s.cck ∧
    (countUpdate s).ptb = s.ptb ∧ (countUpdate s).chan = s.chan ∧
    (countUpdate s).dmr = s.dmr ∧ (countUpdate s).mpr = s.mpr ∧
    (countUpdate s).svo = s.svo ∧ (countUpdate s).hom = s.hom ∧
    (countUpdate s).zmn = s.zmn ∧ (countUpdate s).stc = s.stc ∧
    (countUpdate s).tks = s.tks ∧ (countUpdate s).lnk = s.lnk ∧
    (countUpdate s).cpt = s.cpt ∧ (countUpdate s).flash = s.flash ∧
    (countUpdate s).freeCount = s.freeCount ∧ (countUpdate s).pending = s.pending := by
  unfold countUpdate
  exact ⟨rfl, rfl, rfl, rfl, rfl, rfl, rfl, rfl, rfl, rfl, rfl, rfl, rfl, rfl, rfl, rfl⟩

@[simp] theorem operationReported_frame (s : State) :
    (operationReported s).cfg = s.cfg ∧ (operationReported s).cck = s.cck ∧
    (operationReported s).ptb = s.ptb ∧ (operationReported s).chan = s.chan ∧
    (operationReported s).dmr = s.dmr ∧ (operationReported s).mpr = s.mpr ∧
    (operationReported s).svo = s.svo ∧ (operationReported s).hom = s.hom ∧
    (operationReported s).zmn = s.zmn ∧ (operationReported s).stc = s.stc ∧
    (operationReported s).tks = s.tks ∧ (operationReported s).lnk = s.lnk ∧
    (operationReported s).cpt = s.cpt ∧ (operationReported s).flash = s.flash ∧
    (operationReported s).freeCount = s.freeCount ∧ (operationReported s).pending = s.pending := by
  unfold operationReported
  exact ⟨rfl, rfl, rfl, rfl, rfl, rfl, rfl, rfl, rfl, rfl, rfl, rfl, rfl, rfl, rfl, rfl⟩

@[simp] theorem commandByte_frame (s : State) :
    (commandByte s).cfg = s.cfg ∧ (commandByte s).cck = s.cck ∧
    (commandByte s).ptb = s.ptb ∧ (commandByte s).chan = s.chan ∧
    (commandByte s).dmr = s.dmr ∧ (commandByte s).mpr = s.mpr ∧
    (commandByte s).svo = s.svo ∧ (commandByte s).hom = s.hom ∧
    (commandByte s).zmn = s.zmn ∧ (commandByte s).stc = s.stc ∧
    (commandByte s).tks = s.tks ∧ (commandByte s).tsc = s.tsc ∧
    (commandByte s).lnk = s.lnk ∧ (commandByte s).flash = s.flash ∧
    (commandByte s).freeCount = s.freeCount ∧ (commandByte s).pending = s.pending := by
  unfold commandByte
  exact ⟨rfl, rfl, rfl, rfl, rfl, rfl, rfl, rfl, rfl, rfl, rfl, rfl, rfl, rfl, rfl, rfl⟩

@[simp] theorem lostUpdate_frame (s : State) :
    (lostUpdate s).cfg = s.cfg ∧ (lostUpdate s).cck = s.cck ∧
    (lostUpdate s).chan = s.chan ∧ (lostUpdate s).dmr = s.dmr ∧
    (lostUpdate s).mpr = s.mpr ∧ (lostUpdate s).svo = s.svo ∧
    (lostUpdate s).hom = s.hom ∧ (lostUpdate s).zmn = s.zmn ∧
    (lostUpdate s).stc = s.stc ∧ (lostUpdate s).tks = s.tks ∧
    (lostUpdate s).tsc = s.tsc ∧ (lostUpdate s).lnk = s.lnk ∧
    (lostUpdate s).cpt = s.cpt ∧ (lostUpdate s).flash = s.flash ∧
    (lostUpdate s).freeCount = s.freeCount ∧ (lostUpdate s).pending = s.pending := by
  unfold lostUpdate
  exact ⟨rfl, rfl, rfl, rfl, rfl, rfl, rfl, rfl, rfl, rfl, rfl, rfl, rfl, rfl, rfl, rfl⟩

@[simp] theorem recordStatus_frame (st : Station) (i : StatusItems) (c : CraneTime) (s : State) :
    (recordStatus st i c s).cfg = s.cfg ∧ (recordStatus st i c s).cck = s.cck ∧
    (recordStatus st i c s).chan = s.chan ∧ (recordStatus st i c s).dmr = s.dmr ∧
    (recordStatus st i c s).mpr = s.mpr ∧ (recordStatus st i c s).svo = s.svo ∧
    (recordStatus st i c s).hom = s.hom ∧ (recordStatus st i c s).zmn = s.zmn ∧
    (recordStatus st i c s).stc = s.stc ∧ (recordStatus st i c s).tks = s.tks ∧
    (recordStatus st i c s).tsc = s.tsc ∧ (recordStatus st i c s).lnk = s.lnk ∧
    (recordStatus st i c s).cpt = s.cpt ∧ (recordStatus st i c s).flash = s.flash ∧
    (recordStatus st i c s).freeCount = s.freeCount ∧ (recordStatus st i c s).pending = s.pending := by
  unfold recordStatus
  exact ⟨rfl, rfl, rfl, rfl, rfl, rfl, rfl, rfl, rfl, rfl, rfl, rfl, rfl, rfl, rfl, rfl⟩

@[simp] theorem hearLine_frame (bits : List Bool) (s : State) :
    (hearLine bits s).cfg = s.cfg ∧ (hearLine bits s).cck = s.cck ∧
    (hearLine bits s).ptb = s.ptb ∧ (hearLine bits s).chan = s.chan ∧
    (hearLine bits s).dmr = s.dmr ∧ (hearLine bits s).mpr = s.mpr ∧
    (hearLine bits s).svo = s.svo ∧ (hearLine bits s).hom = s.hom ∧
    (hearLine bits s).zmn = s.zmn ∧ (hearLine bits s).stc = s.stc ∧
    (hearLine bits s).tks = s.tks ∧ (hearLine bits s).tsc = s.tsc ∧
    (hearLine bits s).cpt = s.cpt ∧ (hearLine bits s).flash = s.flash ∧
    (hearLine bits s).freeCount = s.freeCount ∧ (hearLine bits s).pending = s.pending := by
  unfold hearLine
  exact ⟨rfl, rfl, rfl, rfl, rfl, rfl, rfl, rfl, rfl, rfl, rfl, rfl, rfl, rfl, rfl, rfl⟩

@[simp] theorem corrected_items (c : Int) (e : PeerEntry) : (e.corrected c).items = e.items := by
  unfold PeerEntry.corrected; split <;> rfl
@[simp] theorem corrected_age (c : Int) (e : PeerEntry) : (e.corrected c).age = e.age := by
  unfold PeerEntry.corrected; split <;> rfl
@[simp] theorem corrected_offsetValid (c : Int) (e : PeerEntry) : (e.corrected c).offsetValid = e.offsetValid := by
  unfold PeerEntry.corrected; split <;> rfl

@[simp] theorem moveTime_frame (c : Int) (s : State) :
    (moveTime c s).cfg = s.cfg ∧ (moveTime c s).chan = s.chan ∧
    (moveTime c s).dmr = s.dmr ∧ (moveTime c s).mpr = s.mpr ∧
    (moveTime c s).svo = s.svo ∧ (moveTime c s).hom = s.hom ∧
    (moveTime c s).zmn = s.zmn ∧ (moveTime c s).stc = s.stc ∧
    (moveTime c s).tks = s.tks ∧ (moveTime c s).tsc = s.tsc ∧
    (moveTime c s).cpt = s.cpt ∧ (moveTime c s).flash = s.flash ∧
    (moveTime c s).freeCount = s.freeCount ∧ (moveTime c s).pending = s.pending := by
  unfold moveTime
  exact ⟨rfl, rfl, rfl, rfl, rfl, rfl, rfl, rfl, rfl, rfl, rfl, rfl, rfl, rfl⟩

@[simp] theorem jobToIdle_frame (s : State) :
    (jobToIdle s).cfg = s.cfg ∧ (jobToIdle s).cck = s.cck ∧
    (jobToIdle s).ptb = s.ptb ∧ (jobToIdle s).chan = s.chan ∧
    (jobToIdle s).dmr = s.dmr ∧ (jobToIdle s).mpr = s.mpr ∧
    (jobToIdle s).svo = s.svo ∧ (jobToIdle s).hom = s.hom ∧
    (jobToIdle s).zmn = s.zmn ∧ (jobToIdle s).stc = s.stc ∧
    (jobToIdle s).lnk = s.lnk ∧ (jobToIdle s).cpt = s.cpt ∧
    (jobToIdle s).flash = s.flash ∧ (jobToIdle s).freeCount = s.freeCount ∧
    (jobToIdle s).pending = s.pending := by
  unfold jobToIdle
  exact ⟨rfl, rfl, rfl, rfl, rfl, rfl, rfl, rfl, rfl, rfl, rfl, rfl, rfl, rfl, rfl⟩

@[simp] theorem setDrive_frame (d : DriveState) (s : State) :
    (setDrive d s).cfg = s.cfg ∧ (setDrive d s).cck = s.cck ∧
    (setDrive d s).ptb = s.ptb ∧ (setDrive d s).chan = s.chan ∧
    (setDrive d s).dmr = s.dmr ∧ (setDrive d s).mpr = s.mpr ∧
    (setDrive d s).hom = s.hom ∧ (setDrive d s).zmn = s.zmn ∧
    (setDrive d s).tks = s.tks ∧ (setDrive d s).tsc = s.tsc ∧
    (setDrive d s).lnk = s.lnk ∧ (setDrive d s).cpt = s.cpt ∧
    (setDrive d s).flash = s.flash ∧ (setDrive d s).freeCount = s.freeCount ∧
    (setDrive d s).pending = s.pending := by
  unfold setDrive
  exact ⟨rfl, rfl, rfl, rfl, rfl, rfl, rfl, rfl, rfl, rfl, rfl, rfl, rfl, rfl, rfl⟩

@[simp] theorem clearLatches_frame (s : State) :
    (clearLatches s).cfg = s.cfg ∧ (clearLatches s).cck = s.cck ∧
    (clearLatches s).ptb = s.ptb ∧ (clearLatches s).chan = s.chan ∧
    (clearLatches s).dmr = s.dmr ∧ (clearLatches s).mpr = s.mpr ∧
    (clearLatches s).svo = s.svo ∧ (clearLatches s).hom = s.hom ∧
    (clearLatches s).zmn = s.zmn ∧ (clearLatches s).tks = s.tks ∧
    (clearLatches s).tsc = s.tsc ∧ (clearLatches s).lnk = s.lnk ∧
    (clearLatches s).cpt = s.cpt ∧ (clearLatches s).flash = s.flash ∧
    (clearLatches s).freeCount = s.freeCount ∧ (clearLatches s).pending = s.pending := by
  unfold clearLatches
  exact ⟨rfl, rfl, rfl, rfl, rfl, rfl, rfl, rfl, rfl, rfl, rfl, rfl, rfl, rfl, rfl, rfl⟩

@[simp] theorem withdraw_frame (c : Nat) (s : State) :
    (withdraw c s).cfg = s.cfg ∧ (withdraw c s).cck = s.cck ∧
    (withdraw c s).ptb = s.ptb ∧ (withdraw c s).chan = s.chan ∧
    (withdraw c s).dmr = s.dmr ∧ (withdraw c s).mpr = s.mpr ∧
    (withdraw c s).svo = s.svo ∧ (withdraw c s).hom = s.hom ∧
    (withdraw c s).zmn = s.zmn ∧ (withdraw c s).stc = s.stc ∧
    (withdraw c s).tks = s.tks ∧ (withdraw c s).lnk = s.lnk ∧
    (withdraw c s).cpt = s.cpt ∧ (withdraw c s).flash = s.flash ∧
    (withdraw c s).freeCount = s.freeCount ∧ (withdraw c s).pending = s.pending := by
  unfold withdraw
  exact ⟨rfl, rfl, rfl, rfl, rfl, rfl, rfl, rfl, rfl, rfl, rfl, rfl, rfl, rfl, rfl, rfl⟩

@[simp] theorem configFails_frame (s : State) :
    (configFails s).cfg = s.cfg ∧ (configFails s).cck = s.cck ∧
    (configFails s).ptb = s.ptb ∧ (configFails s).chan = s.chan ∧
    (configFails s).dmr = s.dmr ∧ (configFails s).mpr = s.mpr ∧
    (configFails s).svo = s.svo ∧ (configFails s).hom = s.hom ∧
    (configFails s).zmn = s.zmn ∧ (configFails s).stc = s.stc ∧
    (configFails s).tks = s.tks ∧ (configFails s).lnk = s.lnk ∧
    (configFails s).flash = s.flash ∧ (configFails s).freeCount = s.freeCount ∧
    (configFails s).pending = s.pending := by
  unfold configFails
  exact ⟨rfl, rfl, rfl, rfl, rfl, rfl, rfl, rfl, rfl, rfl, rfl, rfl, rfl, rfl, rfl⟩

@[simp] theorem readHalt_frame (inp : UpdateInputs) (s : State) :
    (readHalt inp s).cfg = s.cfg ∧ (readHalt inp s).cck = s.cck ∧
    (readHalt inp s).ptb = s.ptb ∧ (readHalt inp s).chan = s.chan ∧
    (readHalt inp s).dmr = s.dmr ∧ (readHalt inp s).mpr = s.mpr ∧
    (readHalt inp s).svo = s.svo ∧ (readHalt inp s).hom = s.hom ∧
    (readHalt inp s).zmn = s.zmn ∧ (readHalt inp s).tks = s.tks ∧
    (readHalt inp s).tsc = s.tsc ∧ (readHalt inp s).lnk = s.lnk ∧
    (readHalt inp s).cpt = s.cpt ∧ (readHalt inp s).flash = s.flash ∧
    (readHalt inp s).freeCount = s.freeCount ∧ (readHalt inp s).pending = s.pending := by
  unfold readHalt
  exact ⟨rfl, rfl, rfl, rfl, rfl, rfl, rfl, rfl, rfl, rfl, rfl, rfl, rfl, rfl, rfl, rfl⟩

@[simp] theorem holdImage_frame (bs : List Byte) (s : State) :
    (holdImage bs s).cck = s.cck ∧ (holdImage bs s).ptb = s.ptb ∧
    (holdImage bs s).chan = s.chan ∧ (holdImage bs s).dmr = s.dmr ∧
    (holdImage bs s).mpr = s.mpr ∧ (holdImage bs s).svo = s.svo ∧
    (holdImage bs s).hom = s.hom ∧ (holdImage bs s).zmn = s.zmn ∧
    (holdImage bs s).stc = s.stc ∧ (holdImage bs s).tks = s.tks ∧
    (holdImage bs s).lnk = s.lnk ∧ (holdImage bs s).cpt = s.cpt ∧
    (holdImage bs s).flash = s.flash ∧ (holdImage bs s).freeCount = s.freeCount ∧
    (holdImage bs s).pending = s.pending := by
  unfold holdImage
  exact ⟨rfl, rfl, rfl, rfl, rfl, rfl, rfl, rfl, rfl, rfl, rfl, rfl, rfl, rfl, rfl⟩

@[simp] theorem configFault_frame (r : FaultReason) (f : Option FailingItem) (s : State) :
    (configFault r f s).cck = s.cck ∧ (configFault r f s).ptb = s.ptb ∧
    (configFault r f s).chan = s.chan ∧ (configFault r f s).dmr = s.dmr ∧
    (configFault r f s).mpr = s.mpr ∧ (configFault r f s).svo = s.svo ∧
    (configFault r f s).hom = s.hom ∧ (configFault r f s).zmn = s.zmn ∧
    (configFault r f s).stc = s.stc ∧ (configFault r f s).tks = s.tks ∧
    (configFault r f s).tsc = s.tsc ∧ (configFault r f s).lnk = s.lnk ∧
    (configFault r f s).cpt = s.cpt ∧ (configFault r f s).flash = s.flash ∧
    (configFault r f s).freeCount = s.freeCount ∧ (configFault r f s).pending = s.pending := by
  unfold configFault
  exact ⟨rfl, rfl, rfl, rfl, rfl, rfl, rfl, rfl, rfl, rfl, rfl, rfl, rfl, rfl, rfl, rfl⟩

@[simp] theorem tick_frame (s : State) :
    (tick s).cfg = s.cfg ∧ (tick s).ptb = s.ptb ∧
    (tick s).chan = s.chan ∧ (tick s).dmr = s.dmr ∧
    (tick s).mpr = s.mpr ∧ (tick s).svo = s.svo ∧
    (tick s).hom = s.hom ∧ (tick s).zmn = s.zmn ∧
    (tick s).stc = s.stc ∧ (tick s).tks = s.tks ∧
    (tick s).tsc = s.tsc ∧ (tick s).cpt = s.cpt ∧
    (tick s).flash = s.flash ∧ (tick s).freeCount = s.freeCount ∧
    (tick s).pending = s.pending := by
  unfold tick
  exact ⟨rfl, rfl, rfl, rfl, rfl, rfl, rfl, rfl, rfl, rfl, rfl, rfl, rfl, rfl, rfl⟩

@[simp] theorem answered_frame (t : State) (a : Answer) (r : Response) (s : State) :
    (answered t a r s).cfg = s.cfg ∧ (answered t a r s).cck = s.cck ∧
    (answered t a r s).ptb = s.ptb ∧ (answered t a r s).chan = s.chan ∧
    (answered t a r s).dmr = s.dmr ∧ (answered t a r s).mpr = s.mpr ∧
    (answered t a r s).svo = s.svo ∧ (answered t a r s).hom = s.hom ∧
    (answered t a r s).zmn = s.zmn ∧ (answered t a r s).stc = s.stc ∧
    (answered t a r s).tks = s.tks ∧ (answered t a r s).tsc = s.tsc ∧
    (answered t a r s).lnk = s.lnk ∧ (answered t a r s).flash = s.flash ∧
    (answered t a r s).freeCount = s.freeCount ∧ (answered t a r s).pending = s.pending := by
  unfold answered
  exact ⟨rfl, rfl, rfl, rfl, rfl, rfl, rfl, rfl, rfl, rfl, rfl, rfl, rfl, rfl, rfl, rfl⟩

@[simp] theorem refused_frame (a : Answer) (s : State) :
    (refused a s).cfg = s.cfg ∧ (refused a s).cck = s.cck ∧
    (refused a s).ptb = s.ptb ∧ (refused a s).chan = s.chan ∧
    (refused a s).dmr = s.dmr ∧ (refused a s).mpr = s.mpr ∧
    (refused a s).svo = s.svo ∧ (refused a s).hom = s.hom ∧
    (refused a s).zmn = s.zmn ∧ (refused a s).stc = s.stc ∧
    (refused a s).tks = s.tks ∧ (refused a s).tsc = s.tsc ∧
    (refused a s).lnk = s.lnk ∧ (refused a s).flash = s.flash ∧
    (refused a s).freeCount = s.freeCount ∧ (refused a s).pending = s.pending := by
  unfold refused
  exact ⟨rfl, rfl, rfl, rfl, rfl, rfl, rfl, rfl, rfl, rfl, rfl, rfl, rfl, rfl, rfl, rfl⟩

@[simp] theorem portShort_frame (s : State) :
    (portShort s).cfg = s.cfg ∧ (portShort s).cck = s.cck ∧
    (portShort s).ptb = s.ptb ∧ (portShort s).chan = s.chan ∧
    (portShort s).dmr = s.dmr ∧ (portShort s).mpr = s.mpr ∧
    (portShort s).svo = s.svo ∧ (portShort s).hom = s.hom ∧
    (portShort s).zmn = s.zmn ∧ (portShort s).stc = s.stc ∧
    (portShort s).tks = s.tks ∧ (portShort s).tsc = s.tsc ∧
    (portShort s).lnk = s.lnk ∧ (portShort s).flash = s.flash ∧
    (portShort s).freeCount = s.freeCount ∧ (portShort s).pending = s.pending := by
  unfold portShort
  exact ⟨rfl, rfl, rfl, rfl, rfl, rfl, rfl, rfl, rfl, rfl, rfl, rfl, rfl, rfl, rfl, rfl⟩

/-! ### The line's counters are all that bits on the line change in LNK (R153, R159) -/

@[simp] theorem bitTime_safety (l : Lnk) (b : Bool) : (l.bitTime b).safety = l.safety := by unfold Lnk.bitTime; split <;> rfl
@[simp] theorem startBit_safety (l : Lnk) : l.startBit.safety = l.safety := rfl
@[simp] theorem frameEnd_safety (l : Lnk) : l.frameEnd.safety = l.safety := rfl
@[simp] theorem hearLine_safety (bits : List Bool) (s : State) : (hearLine bits s).lnk.safety = s.lnk.safety := by
  unfold hearLine
  suffices h : ∀ l : Lnk, (bits.foldl Lnk.bitTime l).safety = l.safety from h s.lnk
  induction bits with
  | nil => intro l; rfl
  | cons b bits ih => intro l; simp [ih]
@[simp] theorem bitTime_fifo (l : Lnk) (b : Bool) : (l.bitTime b).fifo = l.fifo := by unfold Lnk.bitTime; split <;> rfl
@[simp] theorem startBit_fifo (l : Lnk) : l.startBit.fifo = l.fifo := rfl
@[simp] theorem frameEnd_fifo (l : Lnk) : l.frameEnd.fifo = l.fifo := rfl
@[simp] theorem hearLine_fifo (bits : List Bool) (s : State) : (hearLine bits s).lnk.fifo = s.lnk.fifo := by
  unfold hearLine
  suffices h : ∀ l : Lnk, (bits.foldl Lnk.bitTime l).fifo = l.fifo from h s.lnk
  induction bits with
  | nil => intro l; rfl
  | cons b bits ih => intro l; simp [ih]
@[simp] theorem bitTime_demand (l : Lnk) (b : Bool) : (l.bitTime b).demand = l.demand := by unfold Lnk.bitTime; split <;> rfl
@[simp] theorem startBit_demand (l : Lnk) : l.startBit.demand = l.demand := rfl
@[simp] theorem frameEnd_demand (l : Lnk) : l.frameEnd.demand = l.demand := rfl
@[simp] theorem hearLine_demand (bits : List Bool) (s : State) : (hearLine bits s).lnk.demand = s.lnk.demand := by
  unfold hearLine
  suffices h : ∀ l : Lnk, (bits.foldl Lnk.bitTime l).demand = l.demand from h s.lnk
  induction bits with
  | nil => intro l; rfl
  | cons b bits ih => intro l; simp [ih]
@[simp] theorem bitTime_status (l : Lnk) (b : Bool) : (l.bitTime b).status = l.status := by unfold Lnk.bitTime; split <;> rfl
@[simp] theorem startBit_status (l : Lnk) : l.startBit.status = l.status := rfl
@[simp] theorem frameEnd_status (l : Lnk) : l.frameEnd.status = l.status := rfl
@[simp] theorem hearLine_status (bits : List Bool) (s : State) : (hearLine bits s).lnk.status = s.lnk.status := by
  unfold hearLine
  suffices h : ∀ l : Lnk, (bits.foldl Lnk.bitTime l).status = l.status from h s.lnk
  induction bits with
  | nil => intro l; rfl
  | cons b bits ih => intro l; simp [ih]
@[simp] theorem bitTime_tx (l : Lnk) (b : Bool) : (l.bitTime b).tx = l.tx := by unfold Lnk.bitTime; split <;> rfl
@[simp] theorem startBit_tx (l : Lnk) : l.startBit.tx = l.tx := rfl
@[simp] theorem frameEnd_tx (l : Lnk) : l.frameEnd.tx = l.tx := rfl
@[simp] theorem hearLine_tx (bits : List Bool) (s : State) : (hearLine bits s).lnk.tx = s.lnk.tx := by
  unfold hearLine
  suffices h : ∀ l : Lnk, (bits.foldl Lnk.bitTime l).tx = l.tx from h s.lnk
  induction bits with
  | nil => intro l; rfl
  | cons b bits ih => intro l; simp [ih]
@[simp] theorem bitTime_receiving (l : Lnk) (b : Bool) : (l.bitTime b).receiving = l.receiving := by unfold Lnk.bitTime; split <;> rfl
@[simp] theorem startBit_receiving (l : Lnk) : l.startBit.receiving = l.receiving := rfl
@[simp] theorem frameEnd_receiving (l : Lnk) : l.frameEnd.receiving = l.receiving := rfl
@[simp] theorem hearLine_receiving (bits : List Bool) (s : State) : (hearLine bits s).lnk.receiving = s.lnk.receiving := by
  unfold hearLine
  suffices h : ∀ l : Lnk, (bits.foldl Lnk.bitTime l).receiving = l.receiving from h s.lnk
  induction bits with
  | nil => intro l; rfl
  | cons b bits ih => intro l; simp [ih]
@[simp] theorem bitTime_capture (l : Lnk) (b : Bool) : (l.bitTime b).capture = l.capture := by unfold Lnk.bitTime; split <;> rfl
@[simp] theorem startBit_capture (l : Lnk) : l.startBit.capture = l.capture := rfl
@[simp] theorem frameEnd_capture (l : Lnk) : l.frameEnd.capture = l.capture := rfl
@[simp] theorem hearLine_capture (bits : List Bool) (s : State) : (hearLine bits s).lnk.capture = s.lnk.capture := by
  unfold hearLine
  suffices h : ∀ l : Lnk, (bits.foldl Lnk.bitTime l).capture = l.capture from h s.lnk
  induction bits with
  | nil => intro l; rfl
  | cons b bits ih => intro l; simp [ih]
@[simp] theorem bitTime_rxErrors (l : Lnk) (b : Bool) : (l.bitTime b).rxErrors = l.rxErrors := by unfold Lnk.bitTime; split <;> rfl
@[simp] theorem startBit_rxErrors (l : Lnk) : l.startBit.rxErrors = l.rxErrors := rfl
@[simp] theorem frameEnd_rxErrors (l : Lnk) : l.frameEnd.rxErrors = l.rxErrors := rfl
@[simp] theorem hearLine_rxErrors (bits : List Bool) (s : State) : (hearLine bits s).lnk.rxErrors = s.lnk.rxErrors := by
  unfold hearLine
  suffices h : ∀ l : Lnk, (bits.foldl Lnk.bitTime l).rxErrors = l.rxErrors from h s.lnk
  induction bits with
  | nil => intro l; rfl
  | cons b bits ih => intro l; simp [ih]
@[simp] theorem bitTime_bitErrors (l : Lnk) (b : Bool) : (l.bitTime b).bitErrors = l.bitErrors := by unfold Lnk.bitTime; split <;> rfl
@[simp] theorem startBit_bitErrors (l : Lnk) : l.startBit.bitErrors = l.bitErrors := rfl
@[simp] theorem frameEnd_bitErrors (l : Lnk) : l.frameEnd.bitErrors = l.bitErrors := rfl
@[simp] theorem hearLine_bitErrors (bits : List Bool) (s : State) : (hearLine bits s).lnk.bitErrors = s.lnk.bitErrors := by
  unfold hearLine
  suffices h : ∀ l : Lnk, (bits.foldl Lnk.bitTime l).bitErrors = l.bitErrors from h s.lnk
  induction bits with
  | nil => intro l; rfl
  | cons b bits ih => intro l; simp [ih]
@[simp] theorem bitTime_bitErrorTotal (l : Lnk) (b : Bool) : (l.bitTime b).bitErrorTotal = l.bitErrorTotal := by unfold Lnk.bitTime; split <;> rfl
@[simp] theorem startBit_bitErrorTotal (l : Lnk) : l.startBit.bitErrorTotal = l.bitErrorTotal := rfl
@[simp] theorem frameEnd_bitErrorTotal (l : Lnk) : l.frameEnd.bitErrorTotal = l.bitErrorTotal := rfl
@[simp] theorem hearLine_bitErrorTotal (bits : List Bool) (s : State) : (hearLine bits s).lnk.bitErrorTotal = s.lnk.bitErrorTotal := by
  unfold hearLine
  suffices h : ∀ l : Lnk, (bits.foldl Lnk.bitTime l).bitErrorTotal = l.bitErrorTotal from h s.lnk
  induction bits with
  | nil => intro l; rfl
  | cons b bits ih => intro l; simp [ih]
@[simp] theorem bitTime_linkFault (l : Lnk) (b : Bool) : (l.bitTime b).linkFault = l.linkFault := by unfold Lnk.bitTime; split <;> rfl
@[simp] theorem startBit_linkFault (l : Lnk) : l.startBit.linkFault = l.linkFault := rfl
@[simp] theorem frameEnd_linkFault (l : Lnk) : l.frameEnd.linkFault = l.linkFault := rfl
@[simp] theorem hearLine_linkFault (bits : List Bool) (s : State) : (hearLine bits s).lnk.linkFault = s.lnk.linkFault := by
  unfold hearLine
  suffices h : ∀ l : Lnk, (bits.foldl Lnk.bitTime l).linkFault = l.linkFault from h s.lnk
  induction bits with
  | nil => intro l; rfl
  | cons b bits ih => intro l; simp [ih]
@[simp] theorem bitTime_faultPause (l : Lnk) (b : Bool) : (l.bitTime b).faultPause = l.faultPause := by unfold Lnk.bitTime; split <;> rfl
@[simp] theorem startBit_faultPause (l : Lnk) : l.startBit.faultPause = l.faultPause := rfl
@[simp] theorem frameEnd_faultPause (l : Lnk) : l.frameEnd.faultPause = l.faultPause := rfl
@[simp] theorem hearLine_faultPause (bits : List Bool) (s : State) : (hearLine bits s).lnk.faultPause = s.lnk.faultPause := by
  unfold hearLine
  suffices h : ∀ l : Lnk, (bits.foldl Lnk.bitTime l).faultPause = l.faultPause from h s.lnk
  induction bits with
  | nil => intro l; rfl
  | cons b bits ih => intro l; simp [ih]

/-! ### What the written fields become -/

@[simp] theorem disarm_armed (s : State) : (disarm s).dmr.armed = false := rfl
@[simp] theorem disarm_handDemand (s : State) : (disarm s).dmr.handDemand = 0 := rfl
@[simp] theorem disarm_pendingWheel (s : State) : (disarm s).dmr.pendingWheel = 0 := rfl
@[simp] theorem disarm_shown (s : State) : (disarm s).dmr.shown = s.dmr.shown := rfl
@[simp] theorem disarmRoute_armed (s : State) : (disarmRoute s).dmr.armed = false := rfl
@[simp] theorem disarmRoute_handDemand (s : State) : (disarmRoute s).dmr.handDemand = 0 := rfl
@[simp] theorem disarmRoute_pendingWheel (s : State) : (disarmRoute s).dmr.pendingWheel = s.dmr.pendingWheel := rfl
@[simp] theorem disarmRoute_lastKind (s : State) : (disarmRoute s).dmr.lastKind = s.dmr.lastKind := rfl
@[simp] theorem showDemand_items (s : State) : (showDemand s).dmr.toDmrItems = s.dmr.toDmrItems := rfl
@[simp] theorem showDemand_shown (s : State) : (showDemand s).dmr.shown = s.dmr.toDmrItems := rfl
@[simp] theorem setDrive_drive (d : DriveState) (s : State) : (setDrive d s).stc.drive = d := rfl
@[simp] theorem setDrive_hold (d : DriveState) (s : State) : (setDrive d s).stc.hold = s.stc.hold := rfl
@[simp] theorem setDrive_holders (d : DriveState) (s : State) : (setDrive d s).stc.holders = s.stc.holders := rfl
@[simp] theorem setDrive_parkPending (d : DriveState) (s : State) : (setDrive d s).stc.parkPending = s.stc.parkPending := rfl
@[simp] theorem setDrive_follow (d : DriveState) (s : State) : (setDrive d s).svo.follow = 0 := rfl
@[simp] theorem track_v (s : State) : (track s).mpr.v = 0 := rfl
@[simp] theorem track_mode (s : State) : (track s).mpr.mode = .hold := rfl
@[simp] theorem track_g (s : State) : (track s).mpr.g = none := rfl
@[simp] theorem setLimitFlags_p (s : State) : (setLimitFlags s).mpr.p = s.mpr.p := rfl
@[simp] theorem setLimitFlags_v (s : State) : (setLimitFlags s).mpr.v = s.mpr.v := rfl
@[simp] theorem setLimitFlags_mode (s : State) : (setLimitFlags s).mpr.mode = s.mpr.mode := rfl
@[simp] theorem setLimitFlags_g (s : State) : (setLimitFlags s).mpr.g = s.mpr.g := rfl
@[simp] theorem originChange_origin (o : Count) (s : State) : (originChange o s).svo.origin = o := rfl
@[simp] theorem originChange_raw (o : Count) (s : State) : (originChange o s).svo.raw = s.svo.raw := rfl
@[simp] theorem queueSafety_safety (b : Body) (s : State) : (queueSafety b s).lnk.safety = some b := rfl
@[simp] theorem queueDemand_demand (d : DemandItems) (s : State) : (queueDemand d s).lnk.demand = some d := rfl
@[simp] theorem queueStatus_status (i : StatusItems) (s : State) : (queueStatus i s).lnk.status = some i := rfl
@[simp] theorem jobToIdle_job (s : State) : (jobToIdle s).tks.job = .idle := rfl
@[simp] theorem answered_answer (t : State) (a : Answer) (r : Response) (s : State) :
    (answered t a r s).cpt.answer = some a := rfl
@[simp] theorem answered_response (t : State) (a : Answer) (r : Response) (s : State) :
    (answered t a r s).cpt.response = r := rfl
@[simp] theorem answered_rxQueue (t : State) (a : Answer) (r : Response) (s : State) :
    (answered t a r s).cpt.rxQueue = s.cpt.rxQueue := rfl
@[simp] theorem refused_answer (a : Answer) (s : State) : (refused a s).cpt.answer = some a := rfl
@[simp] theorem configFault_startState (r : FaultReason) (f : Option FailingItem) (s : State) :
    (configFault r f s).cfg.startState = .configFault := rfl
@[simp] theorem configFault_faultReason (r : FaultReason) (f : Option FailingItem) (s : State) :
    (configFault r f s).cfg.faultReason = some r := rfl
@[simp] theorem countDuplicate_duplicates (s : State) : (countDuplicate s).ptb.duplicates = satInc 255 s.ptb.duplicates := rfl
@[simp] theorem countDuplicate_peers (s : State) : (countDuplicate s).ptb.peers = s.ptb.peers := rfl
@[simp] theorem countDuplicate_demands (s : State) : (countDuplicate s).ptb.demands = s.ptb.demands := rfl
@[simp] theorem countDuplicate_lost (s : State) : (countDuplicate s).ptb.lost = s.ptb.lost := rfl
@[simp] theorem operationReported_tsc (s : State) : (operationReported s).tsc = { s.tsc with reported := true } := rfl
@[simp] theorem countUpdate_tsc (s : State) : (countUpdate s).tsc = ageOperation s.tsc := rfl
@[simp] theorem answered_status (t : State) (a : Answer) (r : Response) (s : State) :
    (answered t a r s).cpt.status = shownStatus t := rfl
@[simp] theorem answered_began (t : State) (a : Answer) (r : Response) (s : State) : (answered t a r s).cpt.began = false := rfl
@[simp] theorem portShort_status (s : State) : (portShort s).cpt.status = shownStatus s := rfl
@[simp] theorem commandByte_status (s : State) : (commandByte s).cpt.status = some (portStatus s) := rfl
@[simp] theorem commandByte_began (s : State) : (commandByte s).cpt.began = true := rfl

/-- The status byte a transaction shows is the one its command byte was clocked in against (R178). -/
@[simp] theorem shownStatus_commandByte (s : State) : shownStatus (commandByte s) = some (portStatus s) := rfl

/-- An issued operation counts from no update and is not reported (R127). -/
@[simp] theorem issue_unit (u : FlashUnit) (t : Tsc) : (t.issue u).unit = u := rfl
@[simp] theorem issue_opAge (u : FlashUnit) (t : Tsc) : (t.issue u).opAge = 0 := rfl
@[simp] theorem issue_reported (u : FlashUnit) (t : Tsc) : (t.issue u).reported = false := rfl

/-- An update writes nothing of TSC but the two counts of updates, and neither once the operation is reported (R127). -/
theorem ageOperation_counts (t : Tsc) :
    ageOperation t = { t with opAge := (ageOperation t).opAge, suspendAge := (ageOperation t).suspendAge } := by
  unfold ageOperation; (repeat' split) <;> rfl
theorem ageOperation_reported {t : Tsc} (h : t.reported = true) : ageOperation t = t := by simp [ageOperation, h]
@[simp] theorem ageOperation_unit (t : Tsc) : (ageOperation t).unit = t.unit := by rw [ageOperation_counts]
@[simp] theorem ageOperation_recordingOf (t : Tsc) : (ageOperation t).recordingOf = t.recordingOf := by
  rw [ageOperation_counts]; rfl

/-- The 15 peers' offsets of a snapshot, each as a reader finds its entry (R56, R71). -/
theorem mem_storedOffsets (x : StoredOffset) (s : State) :
    x ∈ storedOffsets s ↔
      x.station ∈ allStations ∧ x.offset = (peerEntry s x.station).offset ∧ x.valid = (peerEntry s x.station).offsetValid := by
  simp only [storedOffsets, List.mem_map]
  constructor
  · rintro ⟨st, mem, rfl⟩; exact ⟨mem, rfl, rfl⟩
  · rintro ⟨mem, o, v⟩; exact ⟨x.station, mem, by rw [← o, ← v]⟩

/-- The cut time a CUT leaves is the new one or the one present (R118, R121). -/
theorem earliestCut_cases (t : Ms16) (s : State) : earliestCut t s = some t ∨ earliestCut t s = s.tks.cutTime := by
  unfold earliestCut; (repeat' split) <;> simp_all

/-- An origin change keeps the following error (R21). -/
theorem originChange_error (o : Count) (s : State) :
    (originChange o s).mpr.p - countDiff s.svo.raw o * 256 = s.mpr.p - countDiff s.svo.raw s.svo.origin * 256 := by
  simp only [originChange, originShift]; omega

end Sys2Proof.Machine
end

