-- ==== Sys2Proof/Laws/Frames.lean ====
section
/-! SUPPORT. What each shared operation leaves alone: one lemma per operation, a simp rule for every part of the state it does not write. -/

namespace Sys2Proof.Machine

/-- t differs from s in lnk only. -/
def Keeps_lnk (s t : State) : Prop :=
  t.cfg = s.cfg ∧ t.cck = s.cck ∧ t.ptb = s.ptb ∧ t.chan = s.chan ∧ t.dmr = s.dmr ∧
  t.mpr = s.mpr ∧ t.svo = s.svo ∧ t.hom = s.hom ∧ t.zmn = s.zmn ∧ t.stc = s.stc ∧
  t.tks = s.tks ∧ t.tsc = s.tsc ∧ t.cpt = s.cpt ∧ t.flash = s.flash ∧ t.freeCount = s.freeCount ∧
  t.pending = s.pending

/-- t differs from s in mpr only. -/
def Keeps_mpr (s t : State) : Prop :=
  t.cfg = s.cfg ∧ t.cck = s.cck ∧ t.ptb = s.ptb ∧ t.chan = s.chan ∧ t.dmr = s.dmr ∧
  t.svo = s.svo ∧ t.hom = s.hom ∧ t.zmn = s.zmn ∧ t.stc = s.stc ∧ t.tks = s.tks ∧
  t.tsc = s.tsc ∧ t.lnk = s.lnk ∧ t.cpt = s.cpt ∧ t.flash = s.flash ∧ t.freeCount = s.freeCount ∧
  t.pending = s.pending

/-- t differs from s in svo only. -/
def Keeps_svo (s t : State) : Prop :=
  t.cfg = s.cfg ∧ t.cck = s.cck ∧ t.ptb = s.ptb ∧ t.chan = s.chan ∧ t.dmr = s.dmr ∧
  t.mpr = s.mpr ∧ t.hom = s.hom ∧ t.zmn = s.zmn ∧ t.stc = s.stc ∧ t.tks = s.tks ∧
  t.tsc = s.tsc ∧ t.lnk = s.lnk ∧ t.cpt = s.cpt ∧ t.flash = s.flash ∧ t.freeCount = s.freeCount ∧
  t.pending = s.pending

/-- t differs from s in dmr only. -/
def Keeps_dmr (s t : State) : Prop :=
  t.cfg = s.cfg ∧ t.cck = s.cck ∧ t.ptb = s.ptb ∧ t.chan = s.chan ∧ t.mpr = s.mpr ∧
  t.svo = s.svo ∧ t.hom = s.hom ∧ t.zmn = s.zmn ∧ t.stc = s.stc ∧ t.tks = s.tks ∧
  t.tsc = s.tsc ∧ t.lnk = s.lnk ∧ t.cpt = s.cpt ∧ t.flash = s.flash ∧ t.freeCount = s.freeCount ∧
  t.pending = s.pending

/-- t differs from s in zmn only. -/
def Keeps_zmn (s t : State) : Prop :=
  t.cfg = s.cfg ∧ t.cck = s.cck ∧ t.ptb = s.ptb ∧ t.chan = s.chan ∧ t.dmr = s.dmr ∧
  t.mpr = s.mpr ∧ t.svo = s.svo ∧ t.hom = s.hom ∧ t.stc = s.stc ∧ t.tks = s.tks ∧
  t.tsc = s.tsc ∧ t.lnk = s.lnk ∧ t.cpt = s.cpt ∧ t.flash = s.flash ∧ t.freeCount = s.freeCount ∧
  t.pending = s.pending

/-- t differs from s in cck only. -/
def Keeps_cck (s t : State) : Prop :=
  t.cfg = s.cfg ∧ t.ptb = s.ptb ∧ t.chan = s.chan ∧ t.dmr = s.dmr ∧ t.mpr = s.mpr ∧
  t.svo = s.svo ∧ t.hom = s.hom ∧ t.zmn = s.zmn ∧ t.stc = s.stc ∧ t.tks = s.tks ∧
  t.tsc = s.tsc ∧ t.lnk = s.lnk ∧ t.cpt = s.cpt ∧ t.flash = s.flash ∧ t.freeCount = s.freeCount ∧
  t.pending = s.pending

/-- t differs from s in chan, lnk only. -/
def Keeps_chan_lnk (s t : State) : Prop :=
  t.cfg = s.cfg ∧ t.cck = s.cck ∧ t.ptb = s.ptb ∧ t.dmr = s.dmr ∧ t.mpr = s.mpr ∧
  t.svo = s.svo ∧ t.hom = s.hom ∧ t.zmn = s.zmn ∧ t.stc = s.stc ∧ t.tks = s.tks ∧
  t.tsc = s.tsc ∧ t.cpt = s.cpt ∧ t.flash = s.flash ∧ t.freeCount = s.freeCount ∧ t.pending = s.pending

/-- t differs from s in tsc only. -/
def Keeps_tsc (s t : State) : Prop :=
  t.cfg = s.cfg ∧ t.cck = s.cck ∧ t.ptb = s.ptb ∧ t.chan = s.chan ∧ t.dmr = s.dmr ∧
  t.mpr = s.mpr ∧ t.svo = s.svo ∧ t.hom = s.hom ∧ t.zmn = s.zmn ∧ t.stc = s.stc ∧
  t.tks = s.tks ∧ t.lnk = s.lnk ∧ t.cpt = s.cpt ∧ t.flash = s.flash ∧ t.freeCount = s.freeCount ∧
  t.pending = s.pending

/-- t differs from s in tks, lnk only. -/
def Keeps_tks_lnk (s t : State) : Prop :=
  t.cfg = s.cfg ∧ t.cck = s.cck ∧ t.ptb = s.ptb ∧ t.chan = s.chan ∧ t.dmr = s.dmr ∧
  t.mpr = s.mpr ∧ t.svo = s.svo ∧ t.hom = s.hom ∧ t.zmn = s.zmn ∧ t.stc = s.stc ∧
  t.tsc = s.tsc ∧ t.cpt = s.cpt ∧ t.flash = s.flash ∧ t.freeCount = s.freeCount ∧ t.pending = s.pending

/-- t differs from s in mpr, tks, tsc only. -/
def Keeps_mpr_tks_tsc (s t : State) : Prop :=
  t.cfg = s.cfg ∧ t.cck = s.cck ∧ t.ptb = s.ptb ∧ t.chan = s.chan ∧ t.dmr = s.dmr ∧
  t.svo = s.svo ∧ t.hom = s.hom ∧ t.zmn = s.zmn ∧ t.stc = s.stc ∧ t.lnk = s.lnk ∧
  t.cpt = s.cpt ∧ t.flash = s.flash ∧ t.freeCount = s.freeCount ∧ t.pending = s.pending

/-- t differs from s in mpr, tks, tsc, lnk only. -/
def Keeps_mpr_tks_tsc_lnk (s t : State) : Prop :=
  t.cfg = s.cfg ∧ t.cck = s.cck ∧ t.ptb = s.ptb ∧ t.chan = s.chan ∧ t.dmr = s.dmr ∧
  t.svo = s.svo ∧ t.hom = s.hom ∧ t.zmn = s.zmn ∧ t.stc = s.stc ∧ t.cpt = s.cpt ∧
  t.flash = s.flash ∧ t.freeCount = s.freeCount ∧ t.pending = s.pending

/-- t differs from s in tks only. -/
def Keeps_tks (s t : State) : Prop :=
  t.cfg = s.cfg ∧ t.cck = s.cck ∧ t.ptb = s.ptb ∧ t.chan = s.chan ∧ t.dmr = s.dmr ∧
  t.mpr = s.mpr ∧ t.svo = s.svo ∧ t.hom = s.hom ∧ t.zmn = s.zmn ∧ t.stc = s.stc ∧
  t.tsc = s.tsc ∧ t.lnk = s.lnk ∧ t.cpt = s.cpt ∧ t.flash = s.flash ∧ t.freeCount = s.freeCount ∧
  t.pending = s.pending

/-- t differs from s in tks, tsc only. -/
def Keeps_tks_tsc (s t : State) : Prop :=
  t.cfg = s.cfg ∧ t.cck = s.cck ∧ t.ptb = s.ptb ∧ t.chan = s.chan ∧ t.dmr = s.dmr ∧
  t.mpr = s.mpr ∧ t.svo = s.svo ∧ t.hom = s.hom ∧ t.zmn = s.zmn ∧ t.stc = s.stc ∧
  t.lnk = s.lnk ∧ t.cpt = s.cpt ∧ t.flash = s.flash ∧ t.freeCount = s.freeCount ∧ t.pending = s.pending

/-- t differs from s in mpr, tks only. -/
def Keeps_mpr_tks (s t : State) : Prop :=
  t.cfg = s.cfg ∧ t.cck = s.cck ∧ t.ptb = s.ptb ∧ t.chan = s.chan ∧ t.dmr = s.dmr ∧
  t.svo = s.svo ∧ t.hom = s.hom ∧ t.zmn = s.zmn ∧ t.stc = s.stc ∧ t.tsc = s.tsc ∧
  t.lnk = s.lnk ∧ t.cpt = s.cpt ∧ t.flash = s.flash ∧ t.freeCount = s.freeCount ∧ t.pending = s.pending

/-- t differs from s in mpr, hom only. -/
def Keeps_mpr_hom (s t : State) : Prop :=
  t.cfg = s.cfg ∧ t.cck = s.cck ∧ t.ptb = s.ptb ∧ t.chan = s.chan ∧ t.dmr = s.dmr ∧
  t.svo = s.svo ∧ t.zmn = s.zmn ∧ t.stc = s.stc ∧ t.tks = s.tks ∧ t.tsc = s.tsc ∧
  t.lnk = s.lnk ∧ t.cpt = s.cpt ∧ t.flash = s.flash ∧ t.freeCount = s.freeCount ∧ t.pending = s.pending

/-- t differs from s in dmr, mpr, hom, tks, tsc, lnk only. -/
def Keeps_dmr_mpr_hom_tks_tsc_lnk (s t : State) : Prop :=
  t.cfg = s.cfg ∧ t.cck = s.cck ∧ t.ptb = s.ptb ∧ t.chan = s.chan ∧ t.svo = s.svo ∧
  t.zmn = s.zmn ∧ t.stc = s.stc ∧ t.cpt = s.cpt ∧ t.flash = s.flash ∧ t.freeCount = s.freeCount ∧
  t.pending = s.pending

/-- t differs from s in dmr, mpr, svo, hom, stc, tks, tsc, lnk only. -/
def Keeps_dmr_mpr_svo_hom_stc_tks_tsc_lnk (s t : State) : Prop :=
  t.cfg = s.cfg ∧ t.cck = s.cck ∧ t.ptb = s.ptb ∧ t.chan = s.chan ∧ t.zmn = s.zmn ∧
  t.cpt = s.cpt ∧ t.flash = s.flash ∧ t.freeCount = s.freeCount ∧ t.pending = s.pending

/-- t differs from s in dmr, mpr, svo, stc only. -/
def Keeps_dmr_mpr_svo_stc (s t : State) : Prop :=
  t.cfg = s.cfg ∧ t.cck = s.cck ∧ t.ptb = s.ptb ∧ t.chan = s.chan ∧ t.hom = s.hom ∧
  t.zmn = s.zmn ∧ t.tks = s.tks ∧ t.tsc = s.tsc ∧ t.lnk = s.lnk ∧ t.cpt = s.cpt ∧
  t.flash = s.flash ∧ t.freeCount = s.freeCount ∧ t.pending = s.pending

/-- t differs from s in stc, lnk only. -/
def Keeps_stc_lnk (s t : State) : Prop :=
  t.cfg = s.cfg ∧ t.cck = s.cck ∧ t.ptb = s.ptb ∧ t.chan = s.chan ∧ t.dmr = s.dmr ∧
  t.mpr = s.mpr ∧ t.svo = s.svo ∧ t.hom = s.hom ∧ t.zmn = s.zmn ∧ t.tks = s.tks ∧
  t.tsc = s.tsc ∧ t.cpt = s.cpt ∧ t.flash = s.flash ∧ t.freeCount = s.freeCount ∧ t.pending = s.pending

/-- t differs from s in mpr, svo, stc only. -/
def Keeps_mpr_svo_stc (s t : State) : Prop :=
  t.cfg = s.cfg ∧ t.cck = s.cck ∧ t.ptb = s.ptb ∧ t.chan = s.chan ∧ t.dmr = s.dmr ∧
  t.hom = s.hom ∧ t.zmn = s.zmn ∧ t.tks = s.tks ∧ t.tsc = s.tsc ∧ t.lnk = s.lnk ∧
  t.cpt = s.cpt ∧ t.flash = s.flash ∧ t.freeCount = s.freeCount ∧ t.pending = s.pending

/-- t differs from s in mpr, svo, hom only. -/
def Keeps_mpr_svo_hom (s t : State) : Prop :=
  t.cfg = s.cfg ∧ t.cck = s.cck ∧ t.ptb = s.ptb ∧ t.chan = s.chan ∧ t.dmr = s.dmr ∧
  t.zmn = s.zmn ∧ t.stc = s.stc ∧ t.tks = s.tks ∧ t.tsc = s.tsc ∧ t.lnk = s.lnk ∧
  t.cpt = s.cpt ∧ t.flash = s.flash ∧ t.freeCount = s.freeCount ∧ t.pending = s.pending

/-- t differs from s in mpr, hom, tks, tsc, lnk only. -/
def Keeps_mpr_hom_tks_tsc_lnk (s t : State) : Prop :=
  t.cfg = s.cfg ∧ t.cck = s.cck ∧ t.ptb = s.ptb ∧ t.chan = s.chan ∧ t.dmr = s.dmr ∧
  t.svo = s.svo ∧ t.zmn = s.zmn ∧ t.stc = s.stc ∧ t.cpt = s.cpt ∧ t.flash = s.flash ∧
  t.freeCount = s.freeCount ∧ t.pending = s.pending

/-- t differs from s in cfg only. -/
def Keeps_cfg (s t : State) : Prop :=
  t.cck = s.cck ∧ t.ptb = s.ptb ∧ t.chan = s.chan ∧ t.dmr = s.dmr ∧ t.mpr = s.mpr ∧
  t.svo = s.svo ∧ t.hom = s.hom ∧ t.zmn = s.zmn ∧ t.stc = s.stc ∧ t.tks = s.tks ∧
  t.tsc = s.tsc ∧ t.lnk = s.lnk ∧ t.cpt = s.cpt ∧ t.flash = s.flash ∧ t.freeCount = s.freeCount ∧
  t.pending = s.pending

/-- t differs from s in cfg, flash only. -/
def Keeps_cfg_flash (s t : State) : Prop :=
  t.cck = s.cck ∧ t.ptb = s.ptb ∧ t.chan = s.chan ∧ t.dmr = s.dmr ∧ t.mpr = s.mpr ∧
  t.svo = s.svo ∧ t.hom = s.hom ∧ t.zmn = s.zmn ∧ t.stc = s.stc ∧ t.tks = s.tks ∧
  t.tsc = s.tsc ∧ t.lnk = s.lnk ∧ t.cpt = s.cpt ∧ t.freeCount = s.freeCount ∧ t.pending = s.pending

/-- t differs from s in cfg, tsc, flash only. -/
def Keeps_cfg_tsc_flash (s t : State) : Prop :=
  t.cck = s.cck ∧ t.ptb = s.ptb ∧ t.chan = s.chan ∧ t.dmr = s.dmr ∧ t.mpr = s.mpr ∧
  t.svo = s.svo ∧ t.hom = s.hom ∧ t.zmn = s.zmn ∧ t.stc = s.stc ∧ t.tks = s.tks ∧
  t.lnk = s.lnk ∧ t.cpt = s.cpt ∧ t.freeCount = s.freeCount ∧ t.pending = s.pending

/-- t differs from s in cfg, dmr, zmn, tsc only. -/
def Keeps_cfg_dmr_zmn_tsc (s t : State) : Prop :=
  t.cck = s.cck ∧ t.ptb = s.ptb ∧ t.chan = s.chan ∧ t.mpr = s.mpr ∧ t.svo = s.svo ∧
  t.hom = s.hom ∧ t.stc = s.stc ∧ t.tks = s.tks ∧ t.lnk = s.lnk ∧ t.cpt = s.cpt ∧
  t.flash = s.flash ∧ t.freeCount = s.freeCount ∧ t.pending = s.pending

/-- t differs from s in cfg, tsc only. -/
def Keeps_cfg_tsc (s t : State) : Prop :=
  t.cck = s.cck ∧ t.ptb = s.ptb ∧ t.chan = s.chan ∧ t.dmr = s.dmr ∧ t.mpr = s.mpr ∧
  t.svo = s.svo ∧ t.hom = s.hom ∧ t.zmn = s.zmn ∧ t.stc = s.stc ∧ t.tks = s.tks ∧
  t.lnk = s.lnk ∧ t.cpt = s.cpt ∧ t.flash = s.flash ∧ t.freeCount = s.freeCount ∧ t.pending = s.pending

/-- t differs from s in cpt only. -/
def Keeps_cpt (s t : State) : Prop :=
  t.cfg = s.cfg ∧ t.cck = s.cck ∧ t.ptb = s.ptb ∧ t.chan = s.chan ∧ t.dmr = s.dmr ∧
  t.mpr = s.mpr ∧ t.svo = s.svo ∧ t.hom = s.hom ∧ t.zmn = s.zmn ∧ t.stc = s.stc ∧
  t.tks = s.tks ∧ t.tsc = s.tsc ∧ t.lnk = s.lnk ∧ t.flash = s.flash ∧ t.freeCount = s.freeCount ∧
  t.pending = s.pending

/-- t differs from s in ptb, dmr only. -/
def Keeps_ptb_dmr (s t : State) : Prop :=
  t.cfg = s.cfg ∧ t.cck = s.cck ∧ t.chan = s.chan ∧ t.mpr = s.mpr ∧ t.svo = s.svo ∧
  t.hom = s.hom ∧ t.zmn = s.zmn ∧ t.stc = s.stc ∧ t.tks = s.tks ∧ t.tsc = s.tsc ∧
  t.lnk = s.lnk ∧ t.cpt = s.cpt ∧ t.flash = s.flash ∧ t.freeCount = s.freeCount ∧ t.pending = s.pending

/-- t differs from s in cck, ptb, dmr, mpr, svo, hom, stc, tks, tsc, lnk only. -/
def Keeps_cck_ptb_dmr_mpr_svo_hom_stc_tks_tsc_lnk (s t : State) : Prop :=
  t.cfg = s.cfg ∧ t.chan = s.chan ∧ t.zmn = s.zmn ∧ t.cpt = s.cpt ∧ t.flash = s.flash ∧
  t.freeCount = s.freeCount ∧ t.pending = s.pending

/-- t differs from s in ptb only. -/
def Keeps_ptb (s t : State) : Prop :=
  t.cfg = s.cfg ∧ t.cck = s.cck ∧ t.chan = s.chan ∧ t.dmr = s.dmr ∧ t.mpr = s.mpr ∧
  t.svo = s.svo ∧ t.hom = s.hom ∧ t.zmn = s.zmn ∧ t.stc = s.stc ∧ t.tks = s.tks ∧
  t.tsc = s.tsc ∧ t.lnk = s.lnk ∧ t.cpt = s.cpt ∧ t.flash = s.flash ∧ t.freeCount = s.freeCount ∧
  t.pending = s.pending

/-- t differs from s in tks, tsc, cpt only. -/
def Keeps_tks_tsc_cpt (s t : State) : Prop :=
  t.cfg = s.cfg ∧ t.cck = s.cck ∧ t.ptb = s.ptb ∧ t.chan = s.chan ∧ t.dmr = s.dmr ∧
  t.mpr = s.mpr ∧ t.svo = s.svo ∧ t.hom = s.hom ∧ t.zmn = s.zmn ∧ t.stc = s.stc ∧
  t.lnk = s.lnk ∧ t.flash = s.flash ∧ t.freeCount = s.freeCount ∧ t.pending = s.pending

/-- t differs from s in mpr, tks, tsc, lnk, cpt only. -/
def Keeps_mpr_tks_tsc_lnk_cpt (s t : State) : Prop :=
  t.cfg = s.cfg ∧ t.cck = s.cck ∧ t.ptb = s.ptb ∧ t.chan = s.chan ∧ t.dmr = s.dmr ∧
  t.svo = s.svo ∧ t.hom = s.hom ∧ t.zmn = s.zmn ∧ t.stc = s.stc ∧ t.flash = s.flash ∧
  t.freeCount = s.freeCount ∧ t.pending = s.pending

/-- t differs from s in tsc, cpt only. -/
def Keeps_tsc_cpt (s t : State) : Prop :=
  t.cfg = s.cfg ∧ t.cck = s.cck ∧ t.ptb = s.ptb ∧ t.chan = s.chan ∧ t.dmr = s.dmr ∧
  t.mpr = s.mpr ∧ t.svo = s.svo ∧ t.hom = s.hom ∧ t.zmn = s.zmn ∧ t.stc = s.stc ∧
  t.tks = s.tks ∧ t.lnk = s.lnk ∧ t.flash = s.flash ∧ t.freeCount = s.freeCount ∧ t.pending = s.pending

/-- t differs from s in chan only. -/
def Keeps_chan (s t : State) : Prop :=
  t.cfg = s.cfg ∧ t.cck = s.cck ∧ t.ptb = s.ptb ∧ t.dmr = s.dmr ∧ t.mpr = s.mpr ∧
  t.svo = s.svo ∧ t.hom = s.hom ∧ t.zmn = s.zmn ∧ t.stc = s.stc ∧ t.tks = s.tks ∧
  t.tsc = s.tsc ∧ t.lnk = s.lnk ∧ t.cpt = s.cpt ∧ t.flash = s.flash ∧ t.freeCount = s.freeCount ∧
  t.pending = s.pending

/-- t differs from s in ptb, dmr, mpr, svo, hom, stc, tks, tsc, lnk only. -/
def Keeps_ptb_dmr_mpr_svo_hom_stc_tks_tsc_lnk (s t : State) : Prop :=
  t.cfg = s.cfg ∧ t.cck = s.cck ∧ t.chan = s.chan ∧ t.zmn = s.zmn ∧ t.cpt = s.cpt ∧
  t.flash = s.flash ∧ t.freeCount = s.freeCount ∧ t.pending = s.pending

@[simp] theorem queueCommand_frame (b : Body) (s : State) :
    (queueCommand b s).cfg = s.cfg ∧ (queueCommand b s).cck = s.cck ∧
    (queueCommand b s).ptb = s.ptb ∧ (queueCommand b s).chan = s.chan ∧
    (queueCommand b s).dmr = s.dmr ∧ (queueCommand b s).mpr = s.mpr ∧
    (queueCommand b s).svo = s.svo ∧ (queueCommand b s).hom = s.hom ∧
    (queueCommand b s).zmn = s.zmn ∧ (queueCommand b s).stc = s.stc ∧
    (queueCommand b s).tks = s.tks ∧ (queueCommand b s).tsc = s.tsc ∧
    (queueCommand b s).cpt = s.cpt ∧ (queueCommand b s).flash = s.flash ∧
    (queueCommand b s).freeCount = s.freeCount ∧ (queueCommand b s).pending = s.pending := by
  change Keeps_lnk s (queueCommand b s)
  unfold queueCommand; (repeat' split) <;> (unfold Keeps_lnk; simp)

@[simp] theorem requestMode_frame (m : Mode) (s : State) :
    (requestMode m s).cfg = s.cfg ∧ (requestMode m s).cck = s.cck ∧
    (requestMode m s).ptb = s.ptb ∧ (requestMode m s).chan = s.chan ∧
    (requestMode m s).dmr = s.dmr ∧ (requestMode m s).svo = s.svo ∧
    (requestMode m s).hom = s.hom ∧ (requestMode m s).zmn = s.zmn ∧
    (requestMode m s).stc = s.stc ∧ (requestMode m s).tks = s.tks ∧
    (requestMode m s).tsc = s.tsc ∧ (requestMode m s).lnk = s.lnk ∧
    (requestMode m s).cpt = s.cpt ∧ (requestMode m s).flash = s.flash ∧
    (requestMode m s).freeCount = s.freeCount ∧ (requestMode m s).pending = s.pending := by
  change Keeps_mpr s (requestMode m s)
  unfold requestMode; (repeat' split) <;> (unfold Keeps_mpr; simp)

@[simp] theorem requestGoto_frame (x : Int) (s : State) :
    (requestGoto x s).cfg = s.cfg ∧ (requestGoto x s).cck = s.cck ∧
    (requestGoto x s).ptb = s.ptb ∧ (requestGoto x s).chan = s.chan ∧
    (requestGoto x s).dmr = s.dmr ∧ (requestGoto x s).svo = s.svo ∧
    (requestGoto x s).hom = s.hom ∧ (requestGoto x s).zmn = s.zmn ∧
    (requestGoto x s).stc = s.stc ∧ (requestGoto x s).tks = s.tks ∧
    (requestGoto x s).tsc = s.tsc ∧ (requestGoto x s).lnk = s.lnk ∧
    (requestGoto x s).cpt = s.cpt ∧ (requestGoto x s).flash = s.flash ∧
    (requestGoto x s).freeCount = s.freeCount ∧ (requestGoto x s).pending = s.pending := by
  change Keeps_mpr s (requestGoto x s)
  unfold requestGoto; (repeat' split) <;> (unfold Keeps_mpr; simp)

@[simp] theorem modeToHand_frame (s : State) :
    (modeToHand s).cfg = s.cfg ∧ (modeToHand s).cck = s.cck ∧
    (modeToHand s).ptb = s.ptb ∧ (modeToHand s).chan = s.chan ∧
    (modeToHand s).dmr = s.dmr ∧ (modeToHand s).svo = s.svo ∧
    (modeToHand s).hom = s.hom ∧ (modeToHand s).zmn = s.zmn ∧
    (modeToHand s).stc = s.stc ∧ (modeToHand s).tks = s.tks ∧
    (modeToHand s).tsc = s.tsc ∧ (modeToHand s).lnk = s.lnk ∧
    (modeToHand s).cpt = s.cpt ∧ (modeToHand s).flash = s.flash ∧
    (modeToHand s).freeCount = s.freeCount ∧ (modeToHand s).pending = s.pending := by
  change Keeps_mpr s (modeToHand s)
  unfold modeToHand; (repeat' split) <;> (unfold Keeps_mpr; simp)

@[simp] theorem servo_frame (s : State) :
    (servo s).cfg = s.cfg ∧ (servo s).cck = s.cck ∧
    (servo s).ptb = s.ptb ∧ (servo s).chan = s.chan ∧
    (servo s).dmr = s.dmr ∧ (servo s).mpr = s.mpr ∧
    (servo s).hom = s.hom ∧ (servo s).zmn = s.zmn ∧
    (servo s).stc = s.stc ∧ (servo s).tks = s.tks ∧
    (servo s).tsc = s.tsc ∧ (servo s).lnk = s.lnk ∧
    (servo s).cpt = s.cpt ∧ (servo s).flash = s.flash ∧
    (servo s).freeCount = s.freeCount ∧ (servo s).pending = s.pending := by
  change Keeps_svo s (servo s)
  unfold servo; (repeat' split) <;> (unfold Keeps_svo; simp)

@[simp] theorem takeDemand_frame (st : Station) (d : DemandItems) (s : State) :
    (takeDemand st d s).cfg = s.cfg ∧ (takeDemand st d s).cck = s.cck ∧
    (takeDemand st d s).ptb = s.ptb ∧ (takeDemand st d s).chan = s.chan ∧
    (takeDemand st d s).mpr = s.mpr ∧ (takeDemand st d s).svo = s.svo ∧
    (takeDemand st d s).hom = s.hom ∧ (takeDemand st d s).zmn = s.zmn ∧
    (takeDemand st d s).stc = s.stc ∧ (takeDemand st d s).tks = s.tks ∧
    (takeDemand st d s).tsc = s.tsc ∧ (takeDemand st d s).lnk = s.lnk ∧
    (takeDemand st d s).cpt = s.cpt ∧ (takeDemand st d s).flash = s.flash ∧
    (takeDemand st d s).freeCount = s.freeCount ∧ (takeDemand st d s).pending = s.pending := by
  change Keeps_dmr s (takeDemand st d s)
  unfold takeDemand; (repeat' split) <;> (unfold Keeps_dmr; simp)

@[simp] theorem demandUpdate_frame (s : State) :
    (demandUpdate s).cfg = s.cfg ∧ (demandUpdate s).cck = s.cck ∧
    (demandUpdate s).ptb = s.ptb ∧ (demandUpdate s).chan = s.chan ∧
    (demandUpdate s).mpr = s.mpr ∧ (demandUpdate s).svo = s.svo ∧
    (demandUpdate s).hom = s.hom ∧ (demandUpdate s).zmn = s.zmn ∧
    (demandUpdate s).stc = s.stc ∧ (demandUpdate s).tks = s.tks ∧
    (demandUpdate s).tsc = s.tsc ∧ (demandUpdate s).lnk = s.lnk ∧
    (demandUpdate s).cpt = s.cpt ∧ (demandUpdate s).flash = s.flash ∧
    (demandUpdate s).freeCount = s.freeCount ∧ (demandUpdate s).pending = s.pending := by
  change Keeps_dmr s (demandUpdate s)
  unfold demandUpdate; (repeat' split) <;> (unfold Keeps_dmr; simp)

@[simp] theorem zoneUpdate_frame (s : State) :
    (zoneUpdate s).cfg = s.cfg ∧ (zoneUpdate s).cck = s.cck ∧
    (zoneUpdate s).ptb = s.ptb ∧ (zoneUpdate s).chan = s.chan ∧
    (zoneUpdate s).dmr = s.dmr ∧ (zoneUpdate s).mpr = s.mpr ∧
    (zoneUpdate s).svo = s.svo ∧ (zoneUpdate s).hom = s.hom ∧
    (zoneUpdate s).stc = s.stc ∧ (zoneUpdate s).tks = s.tks ∧
    (zoneUpdate s).tsc = s.tsc ∧ (zoneUpdate s).lnk = s.lnk ∧
    (zoneUpdate s).cpt = s.cpt ∧ (zoneUpdate s).flash = s.flash ∧
    (zoneUpdate s).freeCount = s.freeCount ∧ (zoneUpdate s).pending = s.pending := by
  change Keeps_zmn s (zoneUpdate s)
  unfold zoneUpdate; (repeat' split) <;> (unfold Keeps_zmn; simp)

@[simp] theorem clockHears_frame (o : Int) (b : Bool) (s : State) :
    (clockHears o b s).cfg = s.cfg ∧ (clockHears o b s).ptb = s.ptb ∧
    (clockHears o b s).chan = s.chan ∧ (clockHears o b s).dmr = s.dmr ∧
    (clockHears o b s).mpr = s.mpr ∧ (clockHears o b s).svo = s.svo ∧
    (clockHears o b s).hom = s.hom ∧ (clockHears o b s).zmn = s.zmn ∧
    (clockHears o b s).stc = s.stc ∧ (clockHears o b s).tks = s.tks ∧
    (clockHears o b s).tsc = s.tsc ∧ (clockHears o b s).lnk = s.lnk ∧
    (clockHears o b s).cpt = s.cpt ∧ (clockHears o b s).flash = s.flash ∧
    (clockHears o b s).freeCount = s.freeCount ∧ (clockHears o b s).pending = s.pending := by
  change Keeps_cck s (clockHears o b s)
  unfold clockHears; (repeat' split) <;> (unfold Keeps_cck; simp)

@[simp] theorem clockDecide_frame (s : State) :
    (clockDecide s).cfg = s.cfg ∧ (clockDecide s).ptb = s.ptb ∧
    (clockDecide s).chan = s.chan ∧ (clockDecide s).dmr = s.dmr ∧
    (clockDecide s).mpr = s.mpr ∧ (clockDecide s).svo = s.svo ∧
    (clockDecide s).hom = s.hom ∧ (clockDecide s).zmn = s.zmn ∧
    (clockDecide s).stc = s.stc ∧ (clockDecide s).tks = s.tks ∧
    (clockDecide s).tsc = s.tsc ∧ (clockDecide s).lnk = s.lnk ∧
    (clockDecide s).cpt = s.cpt ∧ (clockDecide s).flash = s.flash ∧
    (clockDecide s).freeCount = s.freeCount ∧ (clockDecide s).pending = s.pending := by
  change Keeps_cck s (clockDecide s)
  unfold clockDecide; (repeat' split) <;> (unfold Keeps_cck; simp)

@[simp] theorem clockWrap_frame (s : State) :
    (clockWrap s).cfg = s.cfg ∧ (clockWrap s).ptb = s.ptb ∧
    (clockWrap s).chan = s.chan ∧ (clockWrap s).dmr = s.dmr ∧
    (clockWrap s).mpr = s.mpr ∧ (clockWrap s).svo = s.svo ∧
    (clockWrap s).hom = s.hom ∧ (clockWrap s).zmn = s.zmn ∧
    (clockWrap s).stc = s.stc ∧ (clockWrap s).tks = s.tks ∧
    (clockWrap s).tsc = s.tsc ∧ (clockWrap s).lnk = s.lnk ∧
    (clockWrap s).cpt = s.cpt ∧ (clockWrap s).flash = s.flash ∧
    (clockWrap s).freeCount = s.freeCount ∧ (clockWrap s).pending = s.pending := by
  change Keeps_cck s (clockWrap s)
  unfold clockWrap; (repeat' split) <;> (unfold Keeps_cck; simp)

@[simp] theorem stepAging_frame (s : State) :
    (stepAging s).cfg = s.cfg ∧ (stepAging s).ptb = s.ptb ∧
    (stepAging s).chan = s.chan ∧ (stepAging s).dmr = s.dmr ∧
    (stepAging s).mpr = s.mpr ∧ (stepAging s).svo = s.svo ∧
    (stepAging s).hom = s.hom ∧ (stepAging s).zmn = s.zmn ∧
    (stepAging s).stc = s.stc ∧ (stepAging s).tks = s.tks ∧
    (stepAging s).tsc = s.tsc ∧ (stepAging s).lnk = s.lnk ∧
    (stepAging s).cpt = s.cpt ∧ (stepAging s).flash = s.flash ∧
    (stepAging s).freeCount = s.freeCount ∧ (stepAging s).pending = s.pending := by
  change Keeps_cck s (stepAging s)
  unfold stepAging; (repeat' split) <;> (unfold Keeps_cck; simp)

@[simp] theorem queueUpdateDemand_frame (l : Vector Int 4) (s : State) :
    (queueUpdateDemand l s).cfg = s.cfg ∧ (queueUpdateDemand l s).cck = s.cck ∧
    (queueUpdateDemand l s).ptb = s.ptb ∧ (queueUpdateDemand l s).dmr = s.dmr ∧
    (queueUpdateDemand l s).mpr = s.mpr ∧ (queueUpdateDemand l s).svo = s.svo ∧
    (queueUpdateDemand l s).hom = s.hom ∧ (queueUpdateDemand l s).zmn = s.zmn ∧
    (queueUpdateDemand l s).stc = s.stc ∧ (queueUpdateDemand l s).tks = s.tks ∧
    (queueUpdateDemand l s).tsc = s.tsc ∧ (queueUpdateDemand l s).cpt = s.cpt ∧
    (queueUpdateDemand l s).flash = s.flash ∧ (queueUpdateDemand l s).freeCount = s.freeCount ∧
    (queueUpdateDemand l s).pending = s.pending := by
  change Keeps_chan_lnk s (queueUpdateDemand l s)
  unfold queueUpdateDemand; (repeat' split) <;> (unfold Keeps_chan_lnk; simp)

@[simp] theorem startWork_frame (s : State) :
    (startWork s).cfg = s.cfg ∧ (startWork s).cck = s.cck ∧
    (startWork s).ptb = s.ptb ∧ (startWork s).chan = s.chan ∧
    (startWork s).dmr = s.dmr ∧ (startWork s).mpr = s.mpr ∧
    (startWork s).svo = s.svo ∧ (startWork s).hom = s.hom ∧
    (startWork s).zmn = s.zmn ∧ (startWork s).stc = s.stc ∧
    (startWork s).tks = s.tks ∧ (startWork s).lnk = s.lnk ∧
    (startWork s).cpt = s.cpt ∧ (startWork s).flash = s.flash ∧
    (startWork s).freeCount = s.freeCount ∧ (startWork s).pending = s.pending := by
  change Keeps_tsc s (startWork s)
  unfold startWork; (repeat' split) <;> (unfold Keeps_tsc; simp)

@[simp] theorem unitIdle_frame (s : State) :
    (unitIdle s).cfg = s.cfg ∧ (unitIdle s).cck = s.cck ∧
    (unitIdle s).ptb = s.ptb ∧ (unitIdle s).chan = s.chan ∧
    (unitIdle s).dmr = s.dmr ∧ (unitIdle s).mpr = s.mpr ∧
    (unitIdle s).svo = s.svo ∧ (unitIdle s).hom = s.hom ∧
    (unitIdle s).zmn = s.zmn ∧ (unitIdle s).stc = s.stc ∧
    (unitIdle s).tks = s.tks ∧ (unitIdle s).lnk = s.lnk ∧
    (unitIdle s).cpt = s.cpt ∧ (unitIdle s).flash = s.flash ∧
    (unitIdle s).freeCount = s.freeCount ∧ (unitIdle s).pending = s.pending := by
  change Keeps_tsc s (unitIdle s)
  unfold unitIdle; unfold Keeps_tsc; simp

@[simp] theorem placeHeld_frame (s : State) :
    (placeHeld s).cfg = s.cfg ∧ (placeHeld s).cck = s.cck ∧
    (placeHeld s).ptb = s.ptb ∧ (placeHeld s).chan = s.chan ∧
    (placeHeld s).dmr = s.dmr ∧ (placeHeld s).mpr = s.mpr ∧
    (placeHeld s).svo = s.svo ∧ (placeHeld s).hom = s.hom ∧
    (placeHeld s).zmn = s.zmn ∧ (placeHeld s).stc = s.stc ∧
    (placeHeld s).tsc = s.tsc ∧ (placeHeld s).cpt = s.cpt ∧
    (placeHeld s).flash = s.flash ∧ (placeHeld s).freeCount = s.freeCount ∧
    (placeHeld s).pending = s.pending := by
  change Keeps_tks_lnk s (placeHeld s)
  unfold placeHeld; (repeat' split) <;> (unfold Keeps_tks_lnk; simp)

@[simp] theorem broadcastAbort_frame (n : Byte) (r : Reason) (s : State) :
    (broadcastAbort n r s).cfg = s.cfg ∧ (broadcastAbort n r s).cck = s.cck ∧
    (broadcastAbort n r s).ptb = s.ptb ∧ (broadcastAbort n r s).chan = s.chan ∧
    (broadcastAbort n r s).dmr = s.dmr ∧ (broadcastAbort n r s).mpr = s.mpr ∧
    (broadcastAbort n r s).svo = s.svo ∧ (broadcastAbort n r s).hom = s.hom ∧
    (broadcastAbort n r s).zmn = s.zmn ∧ (broadcastAbort n r s).stc = s.stc ∧
    (broadcastAbort n r s).tsc = s.tsc ∧ (broadcastAbort n r s).cpt = s.cpt ∧
    (broadcastAbort n r s).flash = s.flash ∧ (broadcastAbort n r s).freeCount = s.freeCount ∧
    (broadcastAbort n r s).pending = s.pending := by
  change Keeps_tks_lnk s (broadcastAbort n r s)
  unfold broadcastAbort; (repeat' split) <;> (unfold Keeps_tks_lnk; simp)

@[simp] theorem endJob_frame (o : TakeOutcome) (s : State) :
    (endJob o s).cfg = s.cfg ∧ (endJob o s).cck = s.cck ∧
    (endJob o s).ptb = s.ptb ∧ (endJob o s).chan = s.chan ∧
    (endJob o s).dmr = s.dmr ∧ (endJob o s).svo = s.svo ∧
    (endJob o s).hom = s.hom ∧ (endJob o s).zmn = s.zmn ∧
    (endJob o s).stc = s.stc ∧ (endJob o s).lnk = s.lnk ∧
    (endJob o s).cpt = s.cpt ∧ (endJob o s).flash = s.flash ∧
    (endJob o s).freeCount = s.freeCount ∧ (endJob o s).pending = s.pending := by
  change Keeps_mpr_tks_tsc s (endJob o s)
  unfold endJob; (repeat' split) <;> (unfold Keeps_mpr_tks_tsc; simp)

@[simp] theorem abortOwn_frame (r : Reason) (s : State) :
    (abortOwn r s).cfg = s.cfg ∧ (abortOwn r s).cck = s.cck ∧
    (abortOwn r s).ptb = s.ptb ∧ (abortOwn r s).chan = s.chan ∧
    (abortOwn r s).dmr = s.dmr ∧ (abortOwn r s).svo = s.svo ∧
    (abortOwn r s).hom = s.hom ∧ (abortOwn r s).zmn = s.zmn ∧
    (abortOwn r s).stc = s.stc ∧ (abortOwn r s).cpt = s.cpt ∧
    (abortOwn r s).flash = s.flash ∧ (abortOwn r s).freeCount = s.freeCount ∧
    (abortOwn r s).pending = s.pending := by
  change Keeps_mpr_tks_tsc_lnk s (abortOwn r s)
  unfold abortOwn; unfold Keeps_mpr_tks_tsc_lnk; simp

@[simp] theorem handedToTakes_frame (r : Reason) (s : State) :
    (handedToTakes r s).cfg = s.cfg ∧ (handedToTakes r s).cck = s.cck ∧
    (handedToTakes r s).ptb = s.ptb ∧ (handedToTakes r s).chan = s.chan ∧
    (handedToTakes r s).dmr = s.dmr ∧ (handedToTakes r s).svo = s.svo ∧
    (handedToTakes r s).hom = s.hom ∧ (handedToTakes r s).zmn = s.zmn ∧
    (handedToTakes r s).stc = s.stc ∧ (handedToTakes r s).cpt = s.cpt ∧
    (handedToTakes r s).flash = s.flash ∧ (handedToTakes r s).freeCount = s.freeCount ∧
    (handedToTakes r s).pending = s.pending := by
  change Keeps_mpr_tks_tsc_lnk s (handedToTakes r s)
  unfold handedToTakes; (repeat' split) <;> (unfold Keeps_mpr_tks_tsc_lnk; simp)

@[simp] theorem abortRunning_frame (r : Reason) (s : State) :
    (abortRunning r s).cfg = s.cfg ∧ (abortRunning r s).cck = s.cck ∧
    (abortRunning r s).ptb = s.ptb ∧ (abortRunning r s).chan = s.chan ∧
    (abortRunning r s).dmr = s.dmr ∧ (abortRunning r s).svo = s.svo ∧
    (abortRunning r s).hom = s.hom ∧ (abortRunning r s).zmn = s.zmn ∧
    (abortRunning r s).stc = s.stc ∧ (abortRunning r s).cpt = s.cpt ∧
    (abortRunning r s).flash = s.flash ∧ (abortRunning r s).freeCount = s.freeCount ∧
    (abortRunning r s).pending = s.pending := by
  change Keeps_mpr_tks_tsc_lnk s (abortRunning r s)
  unfold abortRunning; (repeat' split) <;> (unfold Keeps_mpr_tks_tsc_lnk; simp)

@[simp] theorem refuse_frame (n : Byte) (r : Reason) (s : State) :
    (refuse n r s).cfg = s.cfg ∧ (refuse n r s).cck = s.cck ∧
    (refuse n r s).ptb = s.ptb ∧ (refuse n r s).chan = s.chan ∧
    (refuse n r s).dmr = s.dmr ∧ (refuse n r s).svo = s.svo ∧
    (refuse n r s).hom = s.hom ∧ (refuse n r s).zmn = s.zmn ∧
    (refuse n r s).stc = s.stc ∧ (refuse n r s).cpt = s.cpt ∧
    (refuse n r s).flash = s.flash ∧ (refuse n r s).freeCount = s.freeCount ∧
    (refuse n r s).pending = s.pending := by
  change Keeps_mpr_tks_tsc_lnk s (refuse n r s)
  unfold refuse; (repeat' split) <;> (unfold Keeps_mpr_tks_tsc_lnk; simp)

@[simp] theorem takePrepare_frame (n : Byte) (m : StationMask) (s : State) :
    (takePrepare n m s).cfg = s.cfg ∧ (takePrepare n m s).cck = s.cck ∧
    (takePrepare n m s).ptb = s.ptb ∧ (takePrepare n m s).chan = s.chan ∧
    (takePrepare n m s).dmr = s.dmr ∧ (takePrepare n m s).svo = s.svo ∧
    (takePrepare n m s).hom = s.hom ∧ (takePrepare n m s).zmn = s.zmn ∧
    (takePrepare n m s).stc = s.stc ∧ (takePrepare n m s).cpt = s.cpt ∧
    (takePrepare n m s).flash = s.flash ∧ (takePrepare n m s).freeCount = s.freeCount ∧
    (takePrepare n m s).pending = s.pending := by
  change Keeps_mpr_tks_tsc_lnk s (takePrepare n m s)
  unfold takePrepare; (repeat' split) <;> (unfold Keeps_mpr_tks_tsc_lnk; simp)

@[simp] theorem takeCue_frame (n : Byte) (m : StationMask) (i o : Byte) (s : State) :
    (takeCue n m i o s).cfg = s.cfg ∧ (takeCue n m i o s).cck = s.cck ∧
    (takeCue n m i o s).ptb = s.ptb ∧ (takeCue n m i o s).chan = s.chan ∧
    (takeCue n m i o s).dmr = s.dmr ∧ (takeCue n m i o s).svo = s.svo ∧
    (takeCue n m i o s).hom = s.hom ∧ (takeCue n m i o s).zmn = s.zmn ∧
    (takeCue n m i o s).stc = s.stc ∧ (takeCue n m i o s).cpt = s.cpt ∧
    (takeCue n m i o s).flash = s.flash ∧ (takeCue n m i o s).freeCount = s.freeCount ∧
    (takeCue n m i o s).pending = s.pending := by
  change Keeps_mpr_tks_tsc_lnk s (takeCue n m i o s)
  unfold takeCue; (repeat' split) <;> (unfold Keeps_mpr_tks_tsc_lnk; simp)

@[simp] theorem takeRoll_frame (n : Byte) (t : Ms16) (s : State) :
    (takeRoll n t s).cfg = s.cfg ∧ (takeRoll n t s).cck = s.cck ∧
    (takeRoll n t s).ptb = s.ptb ∧ (takeRoll n t s).chan = s.chan ∧
    (takeRoll n t s).dmr = s.dmr ∧ (takeRoll n t s).svo = s.svo ∧
    (takeRoll n t s).hom = s.hom ∧ (takeRoll n t s).zmn = s.zmn ∧
    (takeRoll n t s).stc = s.stc ∧ (takeRoll n t s).cpt = s.cpt ∧
    (takeRoll n t s).flash = s.flash ∧ (takeRoll n t s).freeCount = s.freeCount ∧
    (takeRoll n t s).pending = s.pending := by
  change Keeps_mpr_tks_tsc_lnk s (takeRoll n t s)
  unfold takeRoll; (repeat' split) <;> (unfold Keeps_mpr_tks_tsc_lnk; simp)

@[simp] theorem takeCut_frame (n : Byte) (t : Ms16) (s : State) :
    (takeCut n t s).cfg = s.cfg ∧ (takeCut n t s).cck = s.cck ∧
    (takeCut n t s).ptb = s.ptb ∧ (takeCut n t s).chan = s.chan ∧
    (takeCut n t s).dmr = s.dmr ∧ (takeCut n t s).svo = s.svo ∧
    (takeCut n t s).hom = s.hom ∧ (takeCut n t s).zmn = s.zmn ∧
    (takeCut n t s).stc = s.stc ∧ (takeCut n t s).cpt = s.cpt ∧
    (takeCut n t s).flash = s.flash ∧ (takeCut n t s).freeCount = s.freeCount ∧
    (takeCut n t s).pending = s.pending := by
  change Keeps_mpr_tks_tsc_lnk s (takeCut n t s)
  unfold takeCut; (repeat' split) <;> (unfold Keeps_mpr_tks_tsc_lnk; simp)

@[simp] theorem dropHeld_frame (n : Byte) (s : State) :
    (dropHeld n s).cfg = s.cfg ∧ (dropHeld n s).cck = s.cck ∧
    (dropHeld n s).ptb = s.ptb ∧ (dropHeld n s).chan = s.chan ∧
    (dropHeld n s).dmr = s.dmr ∧ (dropHeld n s).mpr = s.mpr ∧
    (dropHeld n s).svo = s.svo ∧ (dropHeld n s).hom = s.hom ∧
    (dropHeld n s).zmn = s.zmn ∧ (dropHeld n s).stc = s.stc ∧
    (dropHeld n s).tsc = s.tsc ∧ (dropHeld n s).lnk = s.lnk ∧
    (dropHeld n s).cpt = s.cpt ∧ (dropHeld n s).flash = s.flash ∧
    (dropHeld n s).freeCount = s.freeCount ∧ (dropHeld n s).pending = s.pending := by
  change Keeps_tks s (dropHeld n s)
  unfold dropHeld; (repeat' split) <;> (unfold Keeps_tks; simp)

@[simp] theorem takeAbort_frame (own : Bool) (n r o : Byte) (s : State) :
    (takeAbort own n r o s).cfg = s.cfg ∧ (takeAbort own n r o s).cck = s.cck ∧
    (takeAbort own n r o s).ptb = s.ptb ∧ (takeAbort own n r o s).chan = s.chan ∧
    (takeAbort own n r o s).dmr = s.dmr ∧ (takeAbort own n r o s).svo = s.svo ∧
    (takeAbort own n r o s).hom = s.hom ∧ (takeAbort own n r o s).zmn = s.zmn ∧
    (takeAbort own n r o s).stc = s.stc ∧ (takeAbort own n r o s).cpt = s.cpt ∧
    (takeAbort own n r o s).flash = s.flash ∧ (takeAbort own n r o s).freeCount = s.freeCount ∧
    (takeAbort own n r o s).pending = s.pending := by
  change Keeps_mpr_tks_tsc_lnk s (takeAbort own n r o s)
  unfold takeAbort; (repeat' split) <;> (unfold Keeps_mpr_tks_tsc_lnk; simp)

@[simp] theorem takeMark_frame (t : Ms16) (s : State) :
    (takeMark t s).cfg = s.cfg ∧ (takeMark t s).cck = s.cck ∧
    (takeMark t s).ptb = s.ptb ∧ (takeMark t s).chan = s.chan ∧
    (takeMark t s).dmr = s.dmr ∧ (takeMark t s).mpr = s.mpr ∧
    (takeMark t s).svo = s.svo ∧ (takeMark t s).hom = s.hom ∧
    (takeMark t s).zmn = s.zmn ∧ (takeMark t s).stc = s.stc ∧
    (takeMark t s).tsc = s.tsc ∧ (takeMark t s).lnk = s.lnk ∧
    (takeMark t s).cpt = s.cpt ∧ (takeMark t s).flash = s.flash ∧
    (takeMark t s).freeCount = s.freeCount ∧ (takeMark t s).pending = s.pending := by
  change Keeps_tks s (takeMark t s)
  unfold takeMark; (repeat' split) <;> (unfold Keeps_tks; simp)

@[simp] theorem setResult_frame (n : Byte) (o : TakeOutcome) (s : State) :
    (setResult n o s).cfg = s.cfg ∧ (setResult n o s).cck = s.cck ∧
    (setResult n o s).ptb = s.ptb ∧ (setResult n o s).chan = s.chan ∧
    (setResult n o s).dmr = s.dmr ∧ (setResult n o s).mpr = s.mpr ∧
    (setResult n o s).svo = s.svo ∧ (setResult n o s).hom = s.hom ∧
    (setResult n o s).zmn = s.zmn ∧ (setResult n o s).stc = s.stc ∧
    (setResult n o s).tsc = s.tsc ∧ (setResult n o s).lnk = s.lnk ∧
    (setResult n o s).cpt = s.cpt ∧ (setResult n o s).flash = s.flash ∧
    (setResult n o s).freeCount = s.freeCount ∧ (setResult n o s).pending = s.pending := by
  change Keeps_tks s (setResult n o s)
  unfold setResult; (repeat' split) <;> (unfold Keeps_tks; simp)

@[simp] theorem takeDelete_frame (n : Byte) (s : State) :
    (takeDelete n s).cfg = s.cfg ∧ (takeDelete n s).cck = s.cck ∧
    (takeDelete n s).ptb = s.ptb ∧ (takeDelete n s).chan = s.chan ∧
    (takeDelete n s).dmr = s.dmr ∧ (takeDelete n s).mpr = s.mpr ∧
    (takeDelete n s).svo = s.svo ∧ (takeDelete n s).hom = s.hom ∧
    (takeDelete n s).zmn = s.zmn ∧ (takeDelete n s).stc = s.stc ∧
    (takeDelete n s).lnk = s.lnk ∧ (takeDelete n s).cpt = s.cpt ∧
    (takeDelete n s).flash = s.flash ∧ (takeDelete n s).freeCount = s.freeCount ∧
    (takeDelete n s).pending = s.pending := by
  change Keeps_tks_tsc s (takeDelete n s)
  unfold takeDelete; (repeat' split) <;> (unfold Keeps_tks_tsc; simp)

@[simp] theorem setIdleResult_frame (n : Byte) (o : TakeOutcome) (s : State) :
    (setIdleResult n o s).cfg = s.cfg ∧ (setIdleResult n o s).cck = s.cck ∧
    (setIdleResult n o s).ptb = s.ptb ∧ (setIdleResult n o s).chan = s.chan ∧
    (setIdleResult n o s).dmr = s.dmr ∧ (setIdleResult n o s).mpr = s.mpr ∧
    (setIdleResult n o s).svo = s.svo ∧ (setIdleResult n o s).hom = s.hom ∧
    (setIdleResult n o s).zmn = s.zmn ∧ (setIdleResult n o s).stc = s.stc ∧
    (setIdleResult n o s).tsc = s.tsc ∧ (setIdleResult n o s).lnk = s.lnk ∧
    (setIdleResult n o s).cpt = s.cpt ∧ (setIdleResult n o s).flash = s.flash ∧
    (setIdleResult n o s).freeCount = s.freeCount ∧ (setIdleResult n o s).pending = s.pending := by
  change Keeps_tks s (setIdleResult n o s)
  unfold setIdleResult; (repeat' split) <;> (unfold Keeps_tks; simp)

@[simp] theorem takeLock_frame (n : Byte) (s : State) :
    (takeLock n s).cfg = s.cfg ∧ (takeLock n s).cck = s.cck ∧
    (takeLock n s).ptb = s.ptb ∧ (takeLock n s).chan = s.chan ∧
    (takeLock n s).dmr = s.dmr ∧ (takeLock n s).mpr = s.mpr ∧
    (takeLock n s).svo = s.svo ∧ (takeLock n s).hom = s.hom ∧
    (takeLock n s).zmn = s.zmn ∧ (takeLock n s).stc = s.stc ∧
    (takeLock n s).lnk = s.lnk ∧ (takeLock n s).cpt = s.cpt ∧
    (takeLock n s).flash = s.flash ∧ (takeLock n s).freeCount = s.freeCount ∧
    (takeLock n s).pending = s.pending := by
  change Keeps_tks_tsc s (takeLock n s)
  unfold takeLock; (repeat' split) <;> (unfold Keeps_tks_tsc; simp)

@[simp] theorem storeLow_frame (s : State) :
    (storeLow s).cfg = s.cfg ∧ (storeLow s).cck = s.cck ∧
    (storeLow s).ptb = s.ptb ∧ (storeLow s).chan = s.chan ∧
    (storeLow s).dmr = s.dmr ∧ (storeLow s).mpr = s.mpr ∧
    (storeLow s).svo = s.svo ∧ (storeLow s).hom = s.hom ∧
    (storeLow s).zmn = s.zmn ∧ (storeLow s).stc = s.stc ∧
    (storeLow s).tsc = s.tsc ∧ (storeLow s).cpt = s.cpt ∧
    (storeLow s).flash = s.flash ∧ (storeLow s).freeCount = s.freeCount ∧
    (storeLow s).pending = s.pending := by
  change Keeps_tks_lnk s (storeLow s)
  unfold storeLow; (repeat' split) <;> (unfold Keeps_tks_lnk; simp)

@[simp] theorem storeReport_frame (r : StoreReport) (s : State) :
    (storeReport r s).cfg = s.cfg ∧ (storeReport r s).cck = s.cck ∧
    (storeReport r s).ptb = s.ptb ∧ (storeReport r s).chan = s.chan ∧
    (storeReport r s).dmr = s.dmr ∧ (storeReport r s).svo = s.svo ∧
    (storeReport r s).hom = s.hom ∧ (storeReport r s).zmn = s.zmn ∧
    (storeReport r s).stc = s.stc ∧ (storeReport r s).cpt = s.cpt ∧
    (storeReport r s).flash = s.flash ∧ (storeReport r s).freeCount = s.freeCount ∧
    (storeReport r s).pending = s.pending := by
  change Keeps_mpr_tks_tsc_lnk s (storeReport r s)
  unfold storeReport; (repeat' split) <;> (unfold Keeps_mpr_tks_tsc_lnk; simp)

@[simp] theorem beginRecording_frame (s : State) :
    (beginRecording s).cfg = s.cfg ∧ (beginRecording s).cck = s.cck ∧
    (beginRecording s).ptb = s.ptb ∧ (beginRecording s).chan = s.chan ∧
    (beginRecording s).dmr = s.dmr ∧ (beginRecording s).svo = s.svo ∧
    (beginRecording s).hom = s.hom ∧ (beginRecording s).zmn = s.zmn ∧
    (beginRecording s).stc = s.stc ∧ (beginRecording s).cpt = s.cpt ∧
    (beginRecording s).flash = s.flash ∧ (beginRecording s).freeCount = s.freeCount ∧
    (beginRecording s).pending = s.pending := by
  change Keeps_mpr_tks_tsc_lnk s (beginRecording s)
  unfold beginRecording; (repeat' split) <;> (unfold Keeps_mpr_tks_tsc_lnk; simp)

@[simp] theorem beginPlayback_frame (s : State) :
    (beginPlayback s).cfg = s.cfg ∧ (beginPlayback s).cck = s.cck ∧
    (beginPlayback s).ptb = s.ptb ∧ (beginPlayback s).chan = s.chan ∧
    (beginPlayback s).dmr = s.dmr ∧ (beginPlayback s).svo = s.svo ∧
    (beginPlayback s).hom = s.hom ∧ (beginPlayback s).zmn = s.zmn ∧
    (beginPlayback s).stc = s.stc ∧ (beginPlayback s).tsc = s.tsc ∧
    (beginPlayback s).lnk = s.lnk ∧ (beginPlayback s).cpt = s.cpt ∧
    (beginPlayback s).flash = s.flash ∧ (beginPlayback s).freeCount = s.freeCount ∧
    (beginPlayback s).pending = s.pending := by
  change Keeps_mpr_tks s (beginPlayback s)
  unfold beginPlayback; unfold Keeps_mpr_tks; simp

@[simp] theorem beginClosing_frame (e : Int) (s : State) :
    (beginClosing e s).cfg = s.cfg ∧ (beginClosing e s).cck = s.cck ∧
    (beginClosing e s).ptb = s.ptb ∧ (beginClosing e s).chan = s.chan ∧
    (beginClosing e s).dmr = s.dmr ∧ (beginClosing e s).svo = s.svo ∧
    (beginClosing e s).hom = s.hom ∧ (beginClosing e s).zmn = s.zmn ∧
    (beginClosing e s).stc = s.stc ∧ (beginClosing e s).cpt = s.cpt ∧
    (beginClosing e s).flash = s.flash ∧ (beginClosing e s).freeCount = s.freeCount ∧
    (beginClosing e s).pending = s.pending := by
  change Keeps_mpr_tks_tsc_lnk s (beginClosing e s)
  unfold beginClosing; unfold Keeps_mpr_tks_tsc_lnk; simp

@[simp] theorem recordMove_frame (m : Int) (s : State) :
    (recordMove m s).cfg = s.cfg ∧ (recordMove m s).cck = s.cck ∧
    (recordMove m s).ptb = s.ptb ∧ (recordMove m s).chan = s.chan ∧
    (recordMove m s).dmr = s.dmr ∧ (recordMove m s).svo = s.svo ∧
    (recordMove m s).hom = s.hom ∧ (recordMove m s).zmn = s.zmn ∧
    (recordMove m s).stc = s.stc ∧ (recordMove m s).cpt = s.cpt ∧
    (recordMove m s).flash = s.flash ∧ (recordMove m s).freeCount = s.freeCount ∧
    (recordMove m s).pending = s.pending := by
  change Keeps_mpr_tks_tsc_lnk s (recordMove m s)
  unfold recordMove; (repeat' split) <;> (unfold Keeps_mpr_tks_tsc_lnk; simp)

@[simp] theorem recordingUpdate_frame (r : Result) (s : State) :
    (recordingUpdate r s).cfg = s.cfg ∧ (recordingUpdate r s).cck = s.cck ∧
    (recordingUpdate r s).ptb = s.ptb ∧ (recordingUpdate r s).chan = s.chan ∧
    (recordingUpdate r s).dmr = s.dmr ∧ (recordingUpdate r s).svo = s.svo ∧
    (recordingUpdate r s).hom = s.hom ∧ (recordingUpdate r s).zmn = s.zmn ∧
    (recordingUpdate r s).stc = s.stc ∧ (recordingUpdate r s).cpt = s.cpt ∧
    (recordingUpdate r s).flash = s.flash ∧ (recordingUpdate r s).freeCount = s.freeCount ∧
    (recordingUpdate r s).pending = s.pending := by
  change Keeps_mpr_tks_tsc_lnk s (recordingUpdate r s)
  unfold recordingUpdate; (repeat' split) <;> (unfold Keeps_mpr_tks_tsc_lnk; simp)

@[simp] theorem beginRunout_frame (s : State) :
    (beginRunout s).cfg = s.cfg ∧ (beginRunout s).cck = s.cck ∧
    (beginRunout s).ptb = s.ptb ∧ (beginRunout s).chan = s.chan ∧
    (beginRunout s).dmr = s.dmr ∧ (beginRunout s).svo = s.svo ∧
    (beginRunout s).hom = s.hom ∧ (beginRunout s).zmn = s.zmn ∧
    (beginRunout s).stc = s.stc ∧ (beginRunout s).tsc = s.tsc ∧
    (beginRunout s).lnk = s.lnk ∧ (beginRunout s).cpt = s.cpt ∧
    (beginRunout s).flash = s.flash ∧ (beginRunout s).freeCount = s.freeCount ∧
    (beginRunout s).pending = s.pending := by
  change Keeps_mpr_tks s (beginRunout s)
  unfold beginRunout; unfold Keeps_mpr_tks; simp

@[simp] theorem playbackCut_frame (s : State) :
    (playbackCut s).cfg = s.cfg ∧ (playbackCut s).cck = s.cck ∧
    (playbackCut s).ptb = s.ptb ∧ (playbackCut s).chan = s.chan ∧
    (playbackCut s).dmr = s.dmr ∧ (playbackCut s).svo = s.svo ∧
    (playbackCut s).hom = s.hom ∧ (playbackCut s).zmn = s.zmn ∧
    (playbackCut s).stc = s.stc ∧ (playbackCut s).tsc = s.tsc ∧
    (playbackCut s).lnk = s.lnk ∧ (playbackCut s).cpt = s.cpt ∧
    (playbackCut s).flash = s.flash ∧ (playbackCut s).freeCount = s.freeCount ∧
    (playbackCut s).pending = s.pending := by
  change Keeps_mpr_tks s (playbackCut s)
  unfold playbackCut; (repeat' split) <;> (unfold Keeps_mpr_tks; simp)

@[simp] theorem playbackResult_frame (r : Result) (s : State) :
    (playbackResult r s).cfg = s.cfg ∧ (playbackResult r s).cck = s.cck ∧
    (playbackResult r s).ptb = s.ptb ∧ (playbackResult r s).chan = s.chan ∧
    (playbackResult r s).dmr = s.dmr ∧ (playbackResult r s).svo = s.svo ∧
    (playbackResult r s).hom = s.hom ∧ (playbackResult r s).zmn = s.zmn ∧
    (playbackResult r s).stc = s.stc ∧ (playbackResult r s).cpt = s.cpt ∧
    (playbackResult r s).flash = s.flash ∧ (playbackResult r s).freeCount = s.freeCount ∧
    (playbackResult r s).pending = s.pending := by
  change Keeps_mpr_tks_tsc_lnk s (playbackResult r s)
  unfold playbackResult; (repeat' split) <;> (unfold Keeps_mpr_tks_tsc_lnk; simp)

@[simp] theorem takesUpdate_frame (r : Result) (s : State) :
    (takesUpdate r s).cfg = s.cfg ∧ (takesUpdate r s).cck = s.cck ∧
    (takesUpdate r s).ptb = s.ptb ∧ (takesUpdate r s).chan = s.chan ∧
    (takesUpdate r s).dmr = s.dmr ∧ (takesUpdate r s).svo = s.svo ∧
    (takesUpdate r s).hom = s.hom ∧ (takesUpdate r s).zmn = s.zmn ∧
    (takesUpdate r s).stc = s.stc ∧ (takesUpdate r s).cpt = s.cpt ∧
    (takesUpdate r s).flash = s.flash ∧ (takesUpdate r s).freeCount = s.freeCount ∧
    (takesUpdate r s).pending = s.pending := by
  change Keeps_mpr_tks_tsc_lnk s (takesUpdate r s)
  unfold takesUpdate; (repeat' split) <;> (unfold Keeps_mpr_tks_tsc_lnk; simp)

@[simp] theorem closingEnds_frame (o : TakeOutcome) (s : State) :
    (closingEnds o s).cfg = s.cfg ∧ (closingEnds o s).cck = s.cck ∧
    (closingEnds o s).ptb = s.ptb ∧ (closingEnds o s).chan = s.chan ∧
    (closingEnds o s).dmr = s.dmr ∧ (closingEnds o s).mpr = s.mpr ∧
    (closingEnds o s).svo = s.svo ∧ (closingEnds o s).hom = s.hom ∧
    (closingEnds o s).zmn = s.zmn ∧ (closingEnds o s).stc = s.stc ∧
    (closingEnds o s).lnk = s.lnk ∧ (closingEnds o s).cpt = s.cpt ∧
    (closingEnds o s).flash = s.flash ∧ (closingEnds o s).freeCount = s.freeCount ∧
    (closingEnds o s).pending = s.pending := by
  change Keeps_tks_tsc s (closingEnds o s)
  unfold closingEnds; unfold Keeps_tks_tsc; simp

@[simp] theorem storeWriteFailed_frame (s : State) :
    (storeWriteFailed s).cfg = s.cfg ∧ (storeWriteFailed s).cck = s.cck ∧
    (storeWriteFailed s).ptb = s.ptb ∧ (storeWriteFailed s).chan = s.chan ∧
    (storeWriteFailed s).dmr = s.dmr ∧ (storeWriteFailed s).svo = s.svo ∧
    (storeWriteFailed s).hom = s.hom ∧ (storeWriteFailed s).zmn = s.zmn ∧
    (storeWriteFailed s).stc = s.stc ∧ (storeWriteFailed s).cpt = s.cpt ∧
    (storeWriteFailed s).flash = s.flash ∧ (storeWriteFailed s).freeCount = s.freeCount ∧
    (storeWriteFailed s).pending = s.pending := by
  change Keeps_mpr_tks_tsc_lnk s (storeWriteFailed s)
  unfold storeWriteFailed; (repeat' split) <;> (unfold Keeps_mpr_tks_tsc_lnk; simp)

@[simp] theorem failHoming_frame (r : HomeFail) (s : State) :
    (failHoming r s).cfg = s.cfg ∧ (failHoming r s).cck = s.cck ∧
    (failHoming r s).ptb = s.ptb ∧ (failHoming r s).chan = s.chan ∧
    (failHoming r s).dmr = s.dmr ∧ (failHoming r s).svo = s.svo ∧
    (failHoming r s).zmn = s.zmn ∧ (failHoming r s).stc = s.stc ∧
    (failHoming r s).tks = s.tks ∧ (failHoming r s).tsc = s.tsc ∧
    (failHoming r s).lnk = s.lnk ∧ (failHoming r s).cpt = s.cpt ∧
    (failHoming r s).flash = s.flash ∧ (failHoming r s).freeCount = s.freeCount ∧
    (failHoming r s).pending = s.pending := by
  change Keeps_mpr_hom s (failHoming r s)
  unfold failHoming; (repeat' split) <;> (unfold Keeps_mpr_hom; simp)

@[simp] theorem handStop_frame (s : State) :
    (handStop s).cfg = s.cfg ∧ (handStop s).cck = s.cck ∧
    (handStop s).ptb = s.ptb ∧ (handStop s).chan = s.chan ∧
    (handStop s).svo = s.svo ∧ (handStop s).zmn = s.zmn ∧
    (handStop s).stc = s.stc ∧ (handStop s).cpt = s.cpt ∧
    (handStop s).flash = s.flash ∧ (handStop s).freeCount = s.freeCount ∧
    (handStop s).pending = s.pending := by
  change Keeps_dmr_mpr_hom_tks_tsc_lnk s (handStop s)
  unfold handStop; unfold Keeps_dmr_mpr_hom_tks_tsc_lnk; simp

@[simp] theorem handPark_frame (s : State) :
    (handPark s).cfg = s.cfg ∧ (handPark s).cck = s.cck ∧
    (handPark s).ptb = s.ptb ∧ (handPark s).chan = s.chan ∧
    (handPark s).svo = s.svo ∧ (handPark s).zmn = s.zmn ∧
    (handPark s).stc = s.stc ∧ (handPark s).cpt = s.cpt ∧
    (handPark s).flash = s.flash ∧ (handPark s).freeCount = s.freeCount ∧
    (handPark s).pending = s.pending := by
  change Keeps_dmr_mpr_hom_tks_tsc_lnk s (handPark s)
  unfold handPark; unfold Keeps_dmr_mpr_hom_tks_tsc_lnk; simp

@[simp] theorem enterStopped_frame (s : State) :
    (enterStopped s).cfg = s.cfg ∧ (enterStopped s).cck = s.cck ∧
    (enterStopped s).ptb = s.ptb ∧ (enterStopped s).chan = s.chan ∧
    (enterStopped s).zmn = s.zmn ∧ (enterStopped s).cpt = s.cpt ∧
    (enterStopped s).flash = s.flash ∧ (enterStopped s).freeCount = s.freeCount ∧
    (enterStopped s).pending = s.pending := by
  change Keeps_dmr_mpr_svo_hom_stc_tks_tsc_lnk s (enterStopped s)
  unfold enterStopped; unfold Keeps_dmr_mpr_svo_hom_stc_tks_tsc_lnk; simp

@[simp] theorem enterParked_frame (s : State) :
    (enterParked s).cfg = s.cfg ∧ (enterParked s).cck = s.cck ∧
    (enterParked s).ptb = s.ptb ∧ (enterParked s).chan = s.chan ∧
    (enterParked s).hom = s.hom ∧ (enterParked s).zmn = s.zmn ∧
    (enterParked s).tks = s.tks ∧ (enterParked s).tsc = s.tsc ∧
    (enterParked s).lnk = s.lnk ∧ (enterParked s).cpt = s.cpt ∧
    (enterParked s).flash = s.flash ∧ (enterParked s).freeCount = s.freeCount ∧
    (enterParked s).pending = s.pending := by
  change Keeps_dmr_mpr_svo_stc s (enterParked s)
  unfold enterParked; (repeat' split) <;> (unfold Keeps_dmr_mpr_svo_stc; simp)

@[simp] theorem leaveStopped_frame (s : State) :
    (leaveStopped s).cfg = s.cfg ∧ (leaveStopped s).cck = s.cck ∧
    (leaveStopped s).ptb = s.ptb ∧ (leaveStopped s).chan = s.chan ∧
    (leaveStopped s).hom = s.hom ∧ (leaveStopped s).zmn = s.zmn ∧
    (leaveStopped s).tks = s.tks ∧ (leaveStopped s).tsc = s.tsc ∧
    (leaveStopped s).lnk = s.lnk ∧ (leaveStopped s).cpt = s.cpt ∧
    (leaveStopped s).flash = s.flash ∧ (leaveStopped s).freeCount = s.freeCount ∧
    (leaveStopped s).pending = s.pending := by
  change Keeps_dmr_mpr_svo_stc s (leaveStopped s)
  unfold leaveStopped; (repeat' split) <;> (unfold Keeps_dmr_mpr_svo_stc; simp)

@[simp] theorem endStopping_frame (s : State) :
    (endStopping s).cfg = s.cfg ∧ (endStopping s).cck = s.cck ∧
    (endStopping s).ptb = s.ptb ∧ (endStopping s).chan = s.chan ∧
    (endStopping s).zmn = s.zmn ∧ (endStopping s).cpt = s.cpt ∧
    (endStopping s).flash = s.flash ∧ (endStopping s).freeCount = s.freeCount ∧
    (endStopping s).pending = s.pending := by
  change Keeps_dmr_mpr_svo_hom_stc_tks_tsc_lnk s (endStopping s)
  unfold endStopping; (repeat' split) <;> (unfold Keeps_dmr_mpr_svo_hom_stc_tks_tsc_lnk; simp)

@[simp] theorem enterStopping_frame (s : State) :
    (enterStopping s).cfg = s.cfg ∧ (enterStopping s).cck = s.cck ∧
    (enterStopping s).ptb = s.ptb ∧ (enterStopping s).chan = s.chan ∧
    (enterStopping s).zmn = s.zmn ∧ (enterStopping s).cpt = s.cpt ∧
    (enterStopping s).flash = s.flash ∧ (enterStopping s).freeCount = s.freeCount ∧
    (enterStopping s).pending = s.pending := by
  change Keeps_dmr_mpr_svo_hom_stc_tks_tsc_lnk s (enterStopping s)
  unfold enterStopping; unfold Keeps_dmr_mpr_svo_hom_stc_tks_tsc_lnk; simp

@[simp] theorem reactStops_frame (s : State) :
    (reactStops s).cfg = s.cfg ∧ (reactStops s).cck = s.cck ∧
    (reactStops s).ptb = s.ptb ∧ (reactStops s).chan = s.chan ∧
    (reactStops s).zmn = s.zmn ∧ (reactStops s).cpt = s.cpt ∧
    (reactStops s).flash = s.flash ∧ (reactStops s).freeCount = s.freeCount ∧
    (reactStops s).pending = s.pending := by
  change Keeps_dmr_mpr_svo_hom_stc_tks_tsc_lnk s (reactStops s)
  unfold reactStops; (repeat' split) <;> (unfold Keeps_dmr_mpr_svo_hom_stc_tks_tsc_lnk; simp)

@[simp] theorem holdAgain_frame (s : State) :
    (holdAgain s).cfg = s.cfg ∧ (holdAgain s).cck = s.cck ∧
    (holdAgain s).ptb = s.ptb ∧ (holdAgain s).chan = s.chan ∧
    (holdAgain s).dmr = s.dmr ∧ (holdAgain s).mpr = s.mpr ∧
    (holdAgain s).svo = s.svo ∧ (holdAgain s).hom = s.hom ∧
    (holdAgain s).zmn = s.zmn ∧ (holdAgain s).tks = s.tks ∧
    (holdAgain s).tsc = s.tsc ∧ (holdAgain s).cpt = s.cpt ∧
    (holdAgain s).flash = s.flash ∧ (holdAgain s).freeCount = s.freeCount ∧
    (holdAgain s).pending = s.pending := by
  change Keeps_stc_lnk s (holdAgain s)
  unfold holdAgain; (repeat' split) <;> (unfold Keeps_stc_lnk; simp)

@[simp] theorem holdFor_frame (c : Cause) (s : State) :
    (holdFor c s).cfg = s.cfg ∧ (holdFor c s).cck = s.cck ∧
    (holdFor c s).ptb = s.ptb ∧ (holdFor c s).chan = s.chan ∧
    (holdFor c s).dmr = s.dmr ∧ (holdFor c s).mpr = s.mpr ∧
    (holdFor c s).svo = s.svo ∧ (holdFor c s).hom = s.hom ∧
    (holdFor c s).zmn = s.zmn ∧ (holdFor c s).tks = s.tks ∧
    (holdFor c s).tsc = s.tsc ∧ (holdFor c s).cpt = s.cpt ∧
    (holdFor c s).flash = s.flash ∧ (holdFor c s).freeCount = s.freeCount ∧
    (holdFor c s).pending = s.pending := by
  change Keeps_stc_lnk s (holdFor c s)
  unfold holdFor; (repeat' split) <;> (unfold Keeps_stc_lnk; simp)

@[simp] theorem causeArises_frame (c : Cause) (s : State) :
    (causeArises c s).cfg = s.cfg ∧ (causeArises c s).cck = s.cck ∧
    (causeArises c s).ptb = s.ptb ∧ (causeArises c s).chan = s.chan ∧
    (causeArises c s).zmn = s.zmn ∧ (causeArises c s).cpt = s.cpt ∧
    (causeArises c s).flash = s.flash ∧ (causeArises c s).freeCount = s.freeCount ∧
    (causeArises c s).pending = s.pending := by
  change Keeps_dmr_mpr_svo_hom_stc_tks_tsc_lnk s (causeArises c s)
  unfold causeArises; unfold Keeps_dmr_mpr_svo_hom_stc_tks_tsc_lnk; simp

@[simp] theorem raiseOverrun_frame (s : State) :
    (raiseOverrun s).cfg = s.cfg ∧ (raiseOverrun s).cck = s.cck ∧
    (raiseOverrun s).ptb = s.ptb ∧ (raiseOverrun s).chan = s.chan ∧
    (raiseOverrun s).zmn = s.zmn ∧ (raiseOverrun s).cpt = s.cpt ∧
    (raiseOverrun s).flash = s.flash ∧ (raiseOverrun s).freeCount = s.freeCount ∧
    (raiseOverrun s).pending = s.pending := by
  change Keeps_dmr_mpr_svo_hom_stc_tks_tsc_lnk s (raiseOverrun s)
  unfold raiseOverrun raiseCause; (repeat' split) <;> (unfold Keeps_dmr_mpr_svo_hom_stc_tks_tsc_lnk; simp)

@[simp] theorem raiseFollow_frame (s : State) :
    (raiseFollow s).cfg = s.cfg ∧ (raiseFollow s).cck = s.cck ∧
    (raiseFollow s).ptb = s.ptb ∧ (raiseFollow s).chan = s.chan ∧
    (raiseFollow s).zmn = s.zmn ∧ (raiseFollow s).cpt = s.cpt ∧
    (raiseFollow s).flash = s.flash ∧ (raiseFollow s).freeCount = s.freeCount ∧
    (raiseFollow s).pending = s.pending := by
  change Keeps_dmr_mpr_svo_hom_stc_tks_tsc_lnk s (raiseFollow s)
  unfold raiseFollow raiseCause; (repeat' split) <;> (unfold Keeps_dmr_mpr_svo_hom_stc_tks_tsc_lnk; simp)

@[simp] theorem raiseHalt_frame (s : State) :
    (raiseHalt s).cfg = s.cfg ∧ (raiseHalt s).cck = s.cck ∧
    (raiseHalt s).ptb = s.ptb ∧ (raiseHalt s).chan = s.chan ∧
    (raiseHalt s).zmn = s.zmn ∧ (raiseHalt s).cpt = s.cpt ∧
    (raiseHalt s).flash = s.flash ∧ (raiseHalt s).freeCount = s.freeCount ∧
    (raiseHalt s).pending = s.pending := by
  change Keeps_dmr_mpr_svo_hom_stc_tks_tsc_lnk s (raiseHalt s)
  unfold raiseHalt raiseCause; (repeat' split) <;> (unfold Keeps_dmr_mpr_svo_hom_stc_tks_tsc_lnk; simp)

@[simp] theorem raiseLinkFault_frame (s : State) :
    (raiseLinkFault s).cfg = s.cfg ∧ (raiseLinkFault s).cck = s.cck ∧
    (raiseLinkFault s).ptb = s.ptb ∧ (raiseLinkFault s).chan = s.chan ∧
    (raiseLinkFault s).zmn = s.zmn ∧ (raiseLinkFault s).cpt = s.cpt ∧
    (raiseLinkFault s).flash = s.flash ∧ (raiseLinkFault s).freeCount = s.freeCount ∧
    (raiseLinkFault s).pending = s.pending := by
  change Keeps_dmr_mpr_svo_hom_stc_tks_tsc_lnk s (raiseLinkFault s)
  unfold raiseLinkFault raiseCause; (repeat' split) <;> (unfold Keeps_dmr_mpr_svo_hom_stc_tks_tsc_lnk; simp)

@[simp] theorem openChain_frame (s : State) :
    (openChain s).cfg = s.cfg ∧ (openChain s).cck = s.cck ∧
    (openChain s).ptb = s.ptb ∧ (openChain s).chan = s.chan ∧
    (openChain s).zmn = s.zmn ∧ (openChain s).cpt = s.cpt ∧
    (openChain s).flash = s.flash ∧ (openChain s).freeCount = s.freeCount ∧
    (openChain s).pending = s.pending := by
  change Keeps_dmr_mpr_svo_hom_stc_tks_tsc_lnk s (openChain s)
  unfold openChain raiseCause; (repeat' split) <;> (unfold Keeps_dmr_mpr_svo_hom_stc_tks_tsc_lnk; simp)

@[simp] theorem setHolder_frame (st : Station) (h : Option Hold) (s : State) :
    (setHolder st h s).cfg = s.cfg ∧ (setHolder st h s).cck = s.cck ∧
    (setHolder st h s).ptb = s.ptb ∧ (setHolder st h s).chan = s.chan ∧
    (setHolder st h s).zmn = s.zmn ∧ (setHolder st h s).cpt = s.cpt ∧
    (setHolder st h s).flash = s.flash ∧ (setHolder st h s).freeCount = s.freeCount ∧
    (setHolder st h s).pending = s.pending := by
  change Keeps_dmr_mpr_svo_hom_stc_tks_tsc_lnk s (setHolder st h s)
  unfold setHolder; (repeat' split) <;> (unfold Keeps_dmr_mpr_svo_hom_stc_tks_tsc_lnk; simp)

@[simp] theorem resumeStops_frame (s : State) :
    (resumeStops s).cfg = s.cfg ∧ (resumeStops s).cck = s.cck ∧
    (resumeStops s).ptb = s.ptb ∧ (resumeStops s).chan = s.chan ∧
    (resumeStops s).zmn = s.zmn ∧ (resumeStops s).cpt = s.cpt ∧
    (resumeStops s).flash = s.flash ∧ (resumeStops s).freeCount = s.freeCount ∧
    (resumeStops s).pending = s.pending := by
  change Keeps_dmr_mpr_svo_hom_stc_tks_tsc_lnk s (resumeStops s)
  unfold resumeStops; unfold Keeps_dmr_mpr_svo_hom_stc_tks_tsc_lnk; simp

@[simp] theorem takeWake_frame (m : StationMask) (s : State) :
    (takeWake m s).cfg = s.cfg ∧ (takeWake m s).cck = s.cck ∧
    (takeWake m s).ptb = s.ptb ∧ (takeWake m s).chan = s.chan ∧
    (takeWake m s).dmr = s.dmr ∧ (takeWake m s).hom = s.hom ∧
    (takeWake m s).zmn = s.zmn ∧ (takeWake m s).tks = s.tks ∧
    (takeWake m s).tsc = s.tsc ∧ (takeWake m s).lnk = s.lnk ∧
    (takeWake m s).cpt = s.cpt ∧ (takeWake m s).flash = s.flash ∧
    (takeWake m s).freeCount = s.freeCount ∧ (takeWake m s).pending = s.pending := by
  change Keeps_mpr_svo_stc s (takeWake m s)
  unfold takeWake; (repeat' split) <;> (unfold Keeps_mpr_svo_stc; simp)

@[simp] theorem takePark_frame (m : StationMask) (s : State) :
    (takePark m s).cfg = s.cfg ∧ (takePark m s).cck = s.cck ∧
    (takePark m s).ptb = s.ptb ∧ (takePark m s).chan = s.chan ∧
    (takePark m s).zmn = s.zmn ∧ (takePark m s).cpt = s.cpt ∧
    (takePark m s).flash = s.flash ∧ (takePark m s).freeCount = s.freeCount ∧
    (takePark m s).pending = s.pending := by
  change Keeps_dmr_mpr_svo_hom_stc_tks_tsc_lnk s (takePark m s)
  unfold takePark; (repeat' split) <;> (unfold Keeps_dmr_mpr_svo_hom_stc_tks_tsc_lnk; simp)

@[simp] theorem endWaking_frame (s : State) :
    (endWaking s).cfg = s.cfg ∧ (endWaking s).cck = s.cck ∧
    (endWaking s).ptb = s.ptb ∧ (endWaking s).chan = s.chan ∧
    (endWaking s).hom = s.hom ∧ (endWaking s).zmn = s.zmn ∧
    (endWaking s).tks = s.tks ∧ (endWaking s).tsc = s.tsc ∧
    (endWaking s).lnk = s.lnk ∧ (endWaking s).cpt = s.cpt ∧
    (endWaking s).flash = s.flash ∧ (endWaking s).freeCount = s.freeCount ∧
    (endWaking s).pending = s.pending := by
  change Keeps_dmr_mpr_svo_stc s (endWaking s)
  unfold endWaking; unfold Keeps_dmr_mpr_svo_stc; simp

@[simp] theorem wakingUpdate_frame (s : State) :
    (wakingUpdate s).cfg = s.cfg ∧ (wakingUpdate s).cck = s.cck ∧
    (wakingUpdate s).ptb = s.ptb ∧ (wakingUpdate s).chan = s.chan ∧
    (wakingUpdate s).hom = s.hom ∧ (wakingUpdate s).zmn = s.zmn ∧
    (wakingUpdate s).tks = s.tks ∧ (wakingUpdate s).tsc = s.tsc ∧
    (wakingUpdate s).lnk = s.lnk ∧ (wakingUpdate s).cpt = s.cpt ∧
    (wakingUpdate s).flash = s.flash ∧ (wakingUpdate s).freeCount = s.freeCount ∧
    (wakingUpdate s).pending = s.pending := by
  change Keeps_dmr_mpr_svo_stc s (wakingUpdate s)
  unfold wakingUpdate; (repeat' split) <;> (unfold Keeps_dmr_mpr_svo_stc; simp)

@[simp] theorem restUpdate_frame (r : Result) (s : State) :
    (restUpdate r s).cfg = s.cfg ∧ (restUpdate r s).cck = s.cck ∧
    (restUpdate r s).ptb = s.ptb ∧ (restUpdate r s).chan = s.chan ∧
    (restUpdate r s).zmn = s.zmn ∧ (restUpdate r s).cpt = s.cpt ∧
    (restUpdate r s).flash = s.flash ∧ (restUpdate r s).freeCount = s.freeCount ∧
    (restUpdate r s).pending = s.pending := by
  change Keeps_dmr_mpr_svo_hom_stc_tks_tsc_lnk s (restUpdate r s)
  unfold restUpdate; (repeat' split) <;> (unfold Keeps_dmr_mpr_svo_hom_stc_tks_tsc_lnk; simp)

@[simp] theorem clampHomed_frame (s : State) :
    (clampHomed s).cfg = s.cfg ∧ (clampHomed s).cck = s.cck ∧
    (clampHomed s).ptb = s.ptb ∧ (clampHomed s).chan = s.chan ∧
    (clampHomed s).zmn = s.zmn ∧ (clampHomed s).cpt = s.cpt ∧
    (clampHomed s).flash = s.flash ∧ (clampHomed s).freeCount = s.freeCount ∧
    (clampHomed s).pending = s.pending := by
  change Keeps_dmr_mpr_svo_hom_stc_tks_tsc_lnk s (clampHomed s)
  unfold clampHomed; (repeat' split) <;> (unfold Keeps_dmr_mpr_svo_hom_stc_tks_tsc_lnk; simp)

@[simp] theorem becomeHomed_frame (s : State) :
    (becomeHomed s).cfg = s.cfg ∧ (becomeHomed s).cck = s.cck ∧
    (becomeHomed s).ptb = s.ptb ∧ (becomeHomed s).chan = s.chan ∧
    (becomeHomed s).zmn = s.zmn ∧ (becomeHomed s).cpt = s.cpt ∧
    (becomeHomed s).flash = s.flash ∧ (becomeHomed s).freeCount = s.freeCount ∧
    (becomeHomed s).pending = s.pending := by
  change Keeps_dmr_mpr_svo_hom_stc_tks_tsc_lnk s (becomeHomed s)
  unfold becomeHomed; unfold Keeps_dmr_mpr_svo_hom_stc_tks_tsc_lnk; simp

@[simp] theorem startSeek_frame (c : Bool) (s : State) :
    (startSeek c s).cfg = s.cfg ∧ (startSeek c s).cck = s.cck ∧
    (startSeek c s).ptb = s.ptb ∧ (startSeek c s).chan = s.chan ∧
    (startSeek c s).dmr = s.dmr ∧ (startSeek c s).zmn = s.zmn ∧
    (startSeek c s).stc = s.stc ∧ (startSeek c s).tks = s.tks ∧
    (startSeek c s).tsc = s.tsc ∧ (startSeek c s).lnk = s.lnk ∧
    (startSeek c s).cpt = s.cpt ∧ (startSeek c s).flash = s.flash ∧
    (startSeek c s).freeCount = s.freeCount ∧ (startSeek c s).pending = s.pending := by
  change Keeps_mpr_svo_hom s (startSeek c s)
  unfold startSeek; unfold Keeps_mpr_svo_hom; simp

@[simp] theorem startHoming_frame (s : State) :
    (startHoming s).cfg = s.cfg ∧ (startHoming s).cck = s.cck ∧
    (startHoming s).ptb = s.ptb ∧ (startHoming s).chan = s.chan ∧
    (startHoming s).zmn = s.zmn ∧ (startHoming s).cpt = s.cpt ∧
    (startHoming s).flash = s.flash ∧ (startHoming s).freeCount = s.freeCount ∧
    (startHoming s).pending = s.pending := by
  change Keeps_dmr_mpr_svo_hom_stc_tks_tsc_lnk s (startHoming s)
  unfold startHoming; (repeat' split) <;> (unfold Keeps_dmr_mpr_svo_hom_stc_tks_tsc_lnk; simp)

@[simp] theorem takeHome_frame (m : StationMask) (s : State) :
    (takeHome m s).cfg = s.cfg ∧ (takeHome m s).cck = s.cck ∧
    (takeHome m s).ptb = s.ptb ∧ (takeHome m s).chan = s.chan ∧
    (takeHome m s).zmn = s.zmn ∧ (takeHome m s).cpt = s.cpt ∧
    (takeHome m s).flash = s.flash ∧ (takeHome m s).freeCount = s.freeCount ∧
    (takeHome m s).pending = s.pending := by
  change Keeps_dmr_mpr_svo_hom_stc_tks_tsc_lnk s (takeHome m s)
  unfold takeHome; (repeat' split) <;> (unfold Keeps_dmr_mpr_svo_hom_stc_tks_tsc_lnk; simp)

@[simp] theorem captureEdge_frame (s : State) :
    (captureEdge s).cfg = s.cfg ∧ (captureEdge s).cck = s.cck ∧
    (captureEdge s).ptb = s.ptb ∧ (captureEdge s).chan = s.chan ∧
    (captureEdge s).dmr = s.dmr ∧ (captureEdge s).zmn = s.zmn ∧
    (captureEdge s).stc = s.stc ∧ (captureEdge s).tks = s.tks ∧
    (captureEdge s).tsc = s.tsc ∧ (captureEdge s).lnk = s.lnk ∧
    (captureEdge s).cpt = s.cpt ∧ (captureEdge s).flash = s.flash ∧
    (captureEdge s).freeCount = s.freeCount ∧ (captureEdge s).pending = s.pending := by
  change Keeps_mpr_svo_hom s (captureEdge s)
  unfold captureEdge; (repeat' split) <;> (unfold Keeps_mpr_svo_hom; simp)

@[simp] theorem stalled_frame (s : State) :
    (stalled s).cfg = s.cfg ∧ (stalled s).cck = s.cck ∧
    (stalled s).ptb = s.ptb ∧ (stalled s).chan = s.chan ∧
    (stalled s).dmr = s.dmr ∧ (stalled s).zmn = s.zmn ∧
    (stalled s).stc = s.stc ∧ (stalled s).tks = s.tks ∧
    (stalled s).tsc = s.tsc ∧ (stalled s).lnk = s.lnk ∧
    (stalled s).cpt = s.cpt ∧ (stalled s).flash = s.flash ∧
    (stalled s).freeCount = s.freeCount ∧ (stalled s).pending = s.pending := by
  change Keeps_mpr_svo_hom s (stalled s)
  unfold stalled; unfold Keeps_mpr_svo_hom; simp

@[simp] theorem travelUpdate_frame (s : State) :
    (travelUpdate s).cfg = s.cfg ∧ (travelUpdate s).cck = s.cck ∧
    (travelUpdate s).ptb = s.ptb ∧ (travelUpdate s).chan = s.chan ∧
    (travelUpdate s).dmr = s.dmr ∧ (travelUpdate s).svo = s.svo ∧
    (travelUpdate s).zmn = s.zmn ∧ (travelUpdate s).stc = s.stc ∧
    (travelUpdate s).tks = s.tks ∧ (travelUpdate s).tsc = s.tsc ∧
    (travelUpdate s).lnk = s.lnk ∧ (travelUpdate s).cpt = s.cpt ∧
    (travelUpdate s).flash = s.flash ∧ (travelUpdate s).freeCount = s.freeCount ∧
    (travelUpdate s).pending = s.pending := by
  change Keeps_mpr_hom s (travelUpdate s)
  unfold travelUpdate; (repeat' split) <;> (unfold Keeps_mpr_hom; simp)

@[simp] theorem homingUpdate_frame (r : Result) (s : State) :
    (homingUpdate r s).cfg = s.cfg ∧ (homingUpdate r s).cck = s.cck ∧
    (homingUpdate r s).ptb = s.ptb ∧ (homingUpdate r s).chan = s.chan ∧
    (homingUpdate r s).zmn = s.zmn ∧ (homingUpdate r s).cpt = s.cpt ∧
    (homingUpdate r s).flash = s.flash ∧ (homingUpdate r s).freeCount = s.freeCount ∧
    (homingUpdate r s).pending = s.pending := by
  change Keeps_dmr_mpr_svo_hom_stc_tks_tsc_lnk s (homingUpdate r s)
  unfold homingUpdate; (repeat' split) <;> (unfold Keeps_dmr_mpr_svo_hom_stc_tks_tsc_lnk; simp)

@[simp] theorem faultHoming_frame (s : State) :
    (faultHoming s).cfg = s.cfg ∧ (faultHoming s).cck = s.cck ∧
    (faultHoming s).ptb = s.ptb ∧ (faultHoming s).chan = s.chan ∧
    (faultHoming s).dmr = s.dmr ∧ (faultHoming s).svo = s.svo ∧
    (faultHoming s).zmn = s.zmn ∧ (faultHoming s).stc = s.stc ∧
    (faultHoming s).cpt = s.cpt ∧ (faultHoming s).flash = s.flash ∧
    (faultHoming s).freeCount = s.freeCount ∧ (faultHoming s).pending = s.pending := by
  change Keeps_mpr_hom_tks_tsc_lnk s (faultHoming s)
  unfold faultHoming; (repeat' split) <;> (unfold Keeps_mpr_hom_tks_tsc_lnk; simp)

@[simp] theorem encoderFault_frame (b : Bool) (s : State) :
    (encoderFault b s).cfg = s.cfg ∧ (encoderFault b s).cck = s.cck ∧
    (encoderFault b s).ptb = s.ptb ∧ (encoderFault b s).chan = s.chan ∧
    (encoderFault b s).zmn = s.zmn ∧ (encoderFault b s).cpt = s.cpt ∧
    (encoderFault b s).flash = s.flash ∧ (encoderFault b s).freeCount = s.freeCount ∧
    (encoderFault b s).pending = s.pending := by
  change Keeps_dmr_mpr_svo_hom_stc_tks_tsc_lnk s (encoderFault b s)
  unfold encoderFault; (repeat' split) <;> (unfold Keeps_dmr_mpr_svo_hom_stc_tks_tsc_lnk; simp)

@[simp] theorem encoderStep_frame (q : QuadStep) (b : Bool) (s : State) :
    (encoderStep q b s).cfg = s.cfg ∧ (encoderStep q b s).cck = s.cck ∧
    (encoderStep q b s).ptb = s.ptb ∧ (encoderStep q b s).chan = s.chan ∧
    (encoderStep q b s).zmn = s.zmn ∧ (encoderStep q b s).cpt = s.cpt ∧
    (encoderStep q b s).flash = s.flash ∧ (encoderStep q b s).freeCount = s.freeCount ∧
    (encoderStep q b s).pending = s.pending := by
  change Keeps_dmr_mpr_svo_hom_stc_tks_tsc_lnk s (encoderStep q b s)
  unfold encoderStep; (repeat' split) <;> (unfold Keeps_dmr_mpr_svo_hom_stc_tks_tsc_lnk; simp)

@[simp] theorem cleanUpdate_frame (s : State) :
    (cleanUpdate s).cfg = s.cfg ∧ (cleanUpdate s).cck = s.cck ∧
    (cleanUpdate s).ptb = s.ptb ∧ (cleanUpdate s).chan = s.chan ∧
    (cleanUpdate s).dmr = s.dmr ∧ (cleanUpdate s).mpr = s.mpr ∧
    (cleanUpdate s).hom = s.hom ∧ (cleanUpdate s).zmn = s.zmn ∧
    (cleanUpdate s).stc = s.stc ∧ (cleanUpdate s).tks = s.tks ∧
    (cleanUpdate s).tsc = s.tsc ∧ (cleanUpdate s).lnk = s.lnk ∧
    (cleanUpdate s).cpt = s.cpt ∧ (cleanUpdate s).flash = s.flash ∧
    (cleanUpdate s).freeCount = s.freeCount ∧ (cleanUpdate s).pending = s.pending := by
  change Keeps_svo s (cleanUpdate s)
  unfold cleanUpdate; (repeat' split) <;> (unfold Keeps_svo; simp)

@[simp] theorem readStraps_frame (inp : UpdateInputs) (s : State) :
    (readStraps inp s).cck = s.cck ∧ (readStraps inp s).ptb = s.ptb ∧
    (readStraps inp s).chan = s.chan ∧ (readStraps inp s).dmr = s.dmr ∧
    (readStraps inp s).mpr = s.mpr ∧ (readStraps inp s).svo = s.svo ∧
    (readStraps inp s).hom = s.hom ∧ (readStraps inp s).zmn = s.zmn ∧
    (readStraps inp s).stc = s.stc ∧ (readStraps inp s).tks = s.tks ∧
    (readStraps inp s).tsc = s.tsc ∧ (readStraps inp s).lnk = s.lnk ∧
    (readStraps inp s).cpt = s.cpt ∧ (readStraps inp s).flash = s.flash ∧
    (readStraps inp s).freeCount = s.freeCount ∧ (readStraps inp s).pending = s.pending := by
  change Keeps_cfg s (readStraps inp s)
  unfold readStraps; (repeat' split) <;> (unfold Keeps_cfg; simp)

@[simp] theorem finishErase_frame (s : State) :
    (finishErase s).cck = s.cck ∧ (finishErase s).ptb = s.ptb ∧
    (finishErase s).chan = s.chan ∧ (finishErase s).dmr = s.dmr ∧
    (finishErase s).mpr = s.mpr ∧ (finishErase s).svo = s.svo ∧
    (finishErase s).hom = s.hom ∧ (finishErase s).zmn = s.zmn ∧
    (finishErase s).stc = s.stc ∧ (finishErase s).tks = s.tks ∧
    (finishErase s).tsc = s.tsc ∧ (finishErase s).lnk = s.lnk ∧
    (finishErase s).cpt = s.cpt ∧ (finishErase s).freeCount = s.freeCount ∧
    (finishErase s).pending = s.pending := by
  change Keeps_cfg_flash s (finishErase s)
  unfold finishErase; (repeat' split) <;> (unfold Keeps_cfg_flash; simp)

@[simp] theorem pollStore_frame (inp : UpdateInputs) (s : State) :
    (pollStore inp s).cck = s.cck ∧ (pollStore inp s).ptb = s.ptb ∧
    (pollStore inp s).chan = s.chan ∧ (pollStore inp s).dmr = s.dmr ∧
    (pollStore inp s).mpr = s.mpr ∧ (pollStore inp s).svo = s.svo ∧
    (pollStore inp s).hom = s.hom ∧ (pollStore inp s).zmn = s.zmn ∧
    (pollStore inp s).stc = s.stc ∧ (pollStore inp s).tks = s.tks ∧
    (pollStore inp s).tsc = s.tsc ∧ (pollStore inp s).lnk = s.lnk ∧
    (pollStore inp s).cpt = s.cpt ∧ (pollStore inp s).freeCount = s.freeCount ∧
    (pollStore inp s).pending = s.pending := by
  change Keeps_cfg_flash s (pollStore inp s)
  unfold pollStore; (repeat' split) <;> (unfold Keeps_cfg_flash; simp)

@[simp] theorem startUpdate_frame (inp : UpdateInputs) (s : State) :
    (startUpdate inp s).cck = s.cck ∧ (startUpdate inp s).ptb = s.ptb ∧
    (startUpdate inp s).chan = s.chan ∧ (startUpdate inp s).dmr = s.dmr ∧
    (startUpdate inp s).mpr = s.mpr ∧ (startUpdate inp s).svo = s.svo ∧
    (startUpdate inp s).hom = s.hom ∧ (startUpdate inp s).zmn = s.zmn ∧
    (startUpdate inp s).stc = s.stc ∧ (startUpdate inp s).tks = s.tks ∧
    (startUpdate inp s).tsc = s.tsc ∧ (startUpdate inp s).lnk = s.lnk ∧
    (startUpdate inp s).cpt = s.cpt ∧ (startUpdate inp s).freeCount = s.freeCount ∧
    (startUpdate inp s).pending = s.pending := by
  change Keeps_cfg_flash s (startUpdate inp s)
  unfold startUpdate; (repeat' split) <;> (unfold Keeps_cfg_flash; simp)

@[simp] theorem judgeIdentification_frame (b0 b1 b2 : Byte) (s : State) :
    (judgeIdentification b0 b1 b2 s).cck = s.cck ∧ (judgeIdentification b0 b1 b2 s).ptb = s.ptb ∧
    (judgeIdentification b0 b1 b2 s).chan = s.chan ∧ (judgeIdentification b0 b1 b2 s).dmr = s.dmr ∧
    (judgeIdentification b0 b1 b2 s).mpr = s.mpr ∧ (judgeIdentification b0 b1 b2 s).svo = s.svo ∧
    (judgeIdentification b0 b1 b2 s).hom = s.hom ∧ (judgeIdentification b0 b1 b2 s).zmn = s.zmn ∧
    (judgeIdentification b0 b1 b2 s).stc = s.stc ∧ (judgeIdentification b0 b1 b2 s).tks = s.tks ∧
    (judgeIdentification b0 b1 b2 s).lnk = s.lnk ∧ (judgeIdentification b0 b1 b2 s).cpt = s.cpt ∧
    (judgeIdentification b0 b1 b2 s).freeCount = s.freeCount ∧ (judgeIdentification b0 b1 b2 s).pending = s.pending := by
  change Keeps_cfg_tsc_flash s (judgeIdentification b0 b1 b2 s)
  unfold judgeIdentification; (repeat' split) <;> (unfold Keeps_cfg_tsc_flash; simp)

@[simp] theorem handParameters_frame (b : Block) (s : State) :
    (handParameters b s).cck = s.cck ∧ (handParameters b s).ptb = s.ptb ∧
    (handParameters b s).chan = s.chan ∧ (handParameters b s).mpr = s.mpr ∧
    (handParameters b s).svo = s.svo ∧ (handParameters b s).hom = s.hom ∧
    (handParameters b s).stc = s.stc ∧ (handParameters b s).tks = s.tks ∧
    (handParameters b s).lnk = s.lnk ∧ (handParameters b s).cpt = s.cpt ∧
    (handParameters b s).flash = s.flash ∧ (handParameters b s).freeCount = s.freeCount ∧
    (handParameters b s).pending = s.pending := by
  change Keeps_cfg_dmr_zmn_tsc s (handParameters b s)
  unfold handParameters; (repeat' split) <;> (unfold Keeps_cfg_dmr_zmn_tsc; simp)

@[simp] theorem loadBlock_frame (bs : List Byte) (s : State) :
    (loadBlock bs s).cck = s.cck ∧ (loadBlock bs s).ptb = s.ptb ∧
    (loadBlock bs s).chan = s.chan ∧ (loadBlock bs s).mpr = s.mpr ∧
    (loadBlock bs s).svo = s.svo ∧ (loadBlock bs s).hom = s.hom ∧
    (loadBlock bs s).stc = s.stc ∧ (loadBlock bs s).tks = s.tks ∧
    (loadBlock bs s).lnk = s.lnk ∧ (loadBlock bs s).cpt = s.cpt ∧
    (loadBlock bs s).flash = s.flash ∧ (loadBlock bs s).freeCount = s.freeCount ∧
    (loadBlock bs s).pending = s.pending := by
  change Keeps_cfg_dmr_zmn_tsc s (loadBlock bs s)
  unfold loadBlock; (repeat' split) <;> (unfold Keeps_cfg_dmr_zmn_tsc; simp)

@[simp] theorem configLoaded_frame (seen : Option (List Byte)) (s : State) :
    (configLoaded seen s).cck = s.cck ∧ (configLoaded seen s).ptb = s.ptb ∧
    (configLoaded seen s).chan = s.chan ∧ (configLoaded seen s).mpr = s.mpr ∧
    (configLoaded seen s).svo = s.svo ∧ (configLoaded seen s).hom = s.hom ∧
    (configLoaded seen s).stc = s.stc ∧ (configLoaded seen s).tks = s.tks ∧
    (configLoaded seen s).lnk = s.lnk ∧ (configLoaded seen s).cpt = s.cpt ∧
    (configLoaded seen s).flash = s.flash ∧ (configLoaded seen s).freeCount = s.freeCount ∧
    (configLoaded seen s).pending = s.pending := by
  change Keeps_cfg_dmr_zmn_tsc s (configLoaded seen s)
  unfold configLoaded; (repeat' split) <;> (unfold Keeps_cfg_dmr_zmn_tsc; simp)

@[simp] theorem scanRead_frame (seen : Option (List Byte)) (s : State) :
    (scanRead seen s).cfg = s.cfg ∧ (scanRead seen s).cck = s.cck ∧
    (scanRead seen s).ptb = s.ptb ∧ (scanRead seen s).chan = s.chan ∧
    (scanRead seen s).dmr = s.dmr ∧ (scanRead seen s).mpr = s.mpr ∧
    (scanRead seen s).svo = s.svo ∧ (scanRead seen s).hom = s.hom ∧
    (scanRead seen s).zmn = s.zmn ∧ (scanRead seen s).stc = s.stc ∧
    (scanRead seen s).tks = s.tks ∧ (scanRead seen s).lnk = s.lnk ∧
    (scanRead seen s).cpt = s.cpt ∧ (scanRead seen s).flash = s.flash ∧
    (scanRead seen s).freeCount = s.freeCount ∧ (scanRead seen s).pending = s.pending := by
  change Keeps_tsc s (scanRead seen s)
  unfold scanRead; (repeat' split) <;> (unfold Keeps_tsc; simp)

@[simp] theorem scanEnded_frame (s : State) :
    (scanEnded s).cck = s.cck ∧ (scanEnded s).ptb = s.ptb ∧
    (scanEnded s).chan = s.chan ∧ (scanEnded s).dmr = s.dmr ∧
    (scanEnded s).mpr = s.mpr ∧ (scanEnded s).svo = s.svo ∧
    (scanEnded s).hom = s.hom ∧ (scanEnded s).zmn = s.zmn ∧
    (scanEnded s).stc = s.stc ∧ (scanEnded s).tks = s.tks ∧
    (scanEnded s).lnk = s.lnk ∧ (scanEnded s).cpt = s.cpt ∧
    (scanEnded s).flash = s.flash ∧ (scanEnded s).freeCount = s.freeCount ∧
    (scanEnded s).pending = s.pending := by
  change Keeps_cfg_tsc s (scanEnded s)
  unfold scanEnded; (repeat' split) <;> (unfold Keeps_cfg_tsc; simp)

@[simp] theorem joinQueue_frame (f : Frame) (own : Bool) (c : CraneTime) (s : State) :
    (joinQueue f own c s).cfg = s.cfg ∧ (joinQueue f own c s).cck = s.cck ∧
    (joinQueue f own c s).ptb = s.ptb ∧ (joinQueue f own c s).chan = s.chan ∧
    (joinQueue f own c s).dmr = s.dmr ∧ (joinQueue f own c s).mpr = s.mpr ∧
    (joinQueue f own c s).svo = s.svo ∧ (joinQueue f own c s).hom = s.hom ∧
    (joinQueue f own c s).zmn = s.zmn ∧ (joinQueue f own c s).stc = s.stc ∧
    (joinQueue f own c s).tks = s.tks ∧ (joinQueue f own c s).tsc = s.tsc ∧
    (joinQueue f own c s).lnk = s.lnk ∧ (joinQueue f own c s).flash = s.flash ∧
    (joinQueue f own c s).freeCount = s.freeCount ∧ (joinQueue f own c s).pending = s.pending := by
  change Keeps_cpt s (joinQueue f own c s)
  unfold joinQueue; (repeat' split) <;> (unfold Keeps_cpt; simp)

@[simp] theorem recordDemand_frame (st : Station) (d : DemandItems) (s : State) :
    (recordDemand st d s).cfg = s.cfg ∧ (recordDemand st d s).cck = s.cck ∧
    (recordDemand st d s).chan = s.chan ∧ (recordDemand st d s).mpr = s.mpr ∧
    (recordDemand st d s).svo = s.svo ∧ (recordDemand st d s).hom = s.hom ∧
    (recordDemand st d s).zmn = s.zmn ∧ (recordDemand st d s).stc = s.stc ∧
    (recordDemand st d s).tks = s.tks ∧ (recordDemand st d s).tsc = s.tsc ∧
    (recordDemand st d s).lnk = s.lnk ∧ (recordDemand st d s).cpt = s.cpt ∧
    (recordDemand st d s).flash = s.flash ∧ (recordDemand st d s).freeCount = s.freeCount ∧
    (recordDemand st d s).pending = s.pending := by
  change Keeps_ptb_dmr s (recordDemand st d s)
  unfold recordDemand; (repeat' split) <;> (unfold Keeps_ptb_dmr; simp)

@[simp] theorem receiveStatus_frame (own : Bool) (st : Station) (i : StatusItems) (c : CraneTime) (s : State) :
    (receiveStatus own st i c s).cfg = s.cfg ∧ (receiveStatus own st i c s).chan = s.chan ∧
    (receiveStatus own st i c s).zmn = s.zmn ∧ (receiveStatus own st i c s).cpt = s.cpt ∧
    (receiveStatus own st i c s).flash = s.flash ∧ (receiveStatus own st i c s).freeCount = s.freeCount ∧
    (receiveStatus own st i c s).pending = s.pending := by
  change Keeps_cck_ptb_dmr_mpr_svo_hom_stc_tks_tsc_lnk s (receiveStatus own st i c s)
  unfold receiveStatus; (repeat' split) <;> (unfold Keeps_cck_ptb_dmr_mpr_svo_hom_stc_tks_tsc_lnk; simp)

@[simp] theorem handZero_frame (own : Bool) (b : Body) (s : State) :
    (handZero own b s).cfg = s.cfg ∧ (handZero own b s).cck = s.cck ∧
    (handZero own b s).chan = s.chan ∧ (handZero own b s).dmr = s.dmr ∧
    (handZero own b s).mpr = s.mpr ∧ (handZero own b s).svo = s.svo ∧
    (handZero own b s).hom = s.hom ∧ (handZero own b s).zmn = s.zmn ∧
    (handZero own b s).stc = s.stc ∧ (handZero own b s).tks = s.tks ∧
    (handZero own b s).tsc = s.tsc ∧ (handZero own b s).lnk = s.lnk ∧
    (handZero own b s).cpt = s.cpt ∧ (handZero own b s).flash = s.flash ∧
    (handZero own b s).freeCount = s.freeCount ∧ (handZero own b s).pending = s.pending := by
  change Keeps_ptb s (handZero own b s)
  unfold handZero; (repeat' split) <;> (unfold Keeps_ptb; simp)

@[simp] theorem handTake_frame (own : Bool) (c : TakeCmd) (s : State) :
    (handTake own c s).cfg = s.cfg ∧ (handTake own c s).cck = s.cck ∧
    (handTake own c s).ptb = s.ptb ∧ (handTake own c s).chan = s.chan ∧
    (handTake own c s).dmr = s.dmr ∧ (handTake own c s).svo = s.svo ∧
    (handTake own c s).hom = s.hom ∧ (handTake own c s).zmn = s.zmn ∧
    (handTake own c s).stc = s.stc ∧ (handTake own c s).cpt = s.cpt ∧
    (handTake own c s).flash = s.flash ∧ (handTake own c s).freeCount = s.freeCount ∧
    (handTake own c s).pending = s.pending := by
  change Keeps_mpr_tks_tsc_lnk s (handTake own c s)
  unfold handTake; (repeat' split) <;> (unfold Keeps_mpr_tks_tsc_lnk; simp)

@[simp] theorem sendStartBit_frame (s : State) :
    (sendStartBit s).cfg = s.cfg ∧ (sendStartBit s).cck = s.cck ∧
    (sendStartBit s).ptb = s.ptb ∧ (sendStartBit s).chan = s.chan ∧
    (sendStartBit s).dmr = s.dmr ∧ (sendStartBit s).mpr = s.mpr ∧
    (sendStartBit s).svo = s.svo ∧ (sendStartBit s).hom = s.hom ∧
    (sendStartBit s).zmn = s.zmn ∧ (sendStartBit s).stc = s.stc ∧
    (sendStartBit s).tks = s.tks ∧ (sendStartBit s).tsc = s.tsc ∧
    (sendStartBit s).cpt = s.cpt ∧ (sendStartBit s).flash = s.flash ∧
    (sendStartBit s).freeCount = s.freeCount ∧ (sendStartBit s).pending = s.pending := by
  change Keeps_lnk s (sendStartBit s)
  unfold sendStartBit; (repeat' split) <;> (unfold Keeps_lnk; simp)

@[simp] theorem startAttempt_frame (line : List Bool) (s : State) :
    (startAttempt line s).cfg = s.cfg ∧ (startAttempt line s).cck = s.cck ∧
    (startAttempt line s).ptb = s.ptb ∧ (startAttempt line s).chan = s.chan ∧
    (startAttempt line s).dmr = s.dmr ∧ (startAttempt line s).mpr = s.mpr ∧
    (startAttempt line s).svo = s.svo ∧ (startAttempt line s).hom = s.hom ∧
    (startAttempt line s).zmn = s.zmn ∧ (startAttempt line s).stc = s.stc ∧
    (startAttempt line s).tks = s.tks ∧ (startAttempt line s).tsc = s.tsc ∧
    (startAttempt line s).cpt = s.cpt ∧ (startAttempt line s).flash = s.flash ∧
    (startAttempt line s).freeCount = s.freeCount ∧ (startAttempt line s).pending = s.pending := by
  change Keeps_lnk s (startAttempt line s)
  unfold startAttempt; unfold Keeps_lnk; simp

@[simp] theorem loseArbitration_frame (s : State) :
    (loseArbitration s).cfg = s.cfg ∧ (loseArbitration s).cck = s.cck ∧
    (loseArbitration s).ptb = s.ptb ∧ (loseArbitration s).chan = s.chan ∧
    (loseArbitration s).dmr = s.dmr ∧ (loseArbitration s).mpr = s.mpr ∧
    (loseArbitration s).svo = s.svo ∧ (loseArbitration s).hom = s.hom ∧
    (loseArbitration s).zmn = s.zmn ∧ (loseArbitration s).stc = s.stc ∧
    (loseArbitration s).tks = s.tks ∧ (loseArbitration s).tsc = s.tsc ∧
    (loseArbitration s).cpt = s.cpt ∧ (loseArbitration s).flash = s.flash ∧
    (loseArbitration s).freeCount = s.freeCount ∧ (loseArbitration s).pending = s.pending := by
  change Keeps_lnk s (loseArbitration s)
  unfold loseArbitration; (repeat' split) <;> (unfold Keeps_lnk; simp)

@[simp] theorem applyPause_frame (s : State) :
    (applyPause s).cfg = s.cfg ∧ (applyPause s).cck = s.cck ∧
    (applyPause s).ptb = s.ptb ∧ (applyPause s).chan = s.chan ∧
    (applyPause s).dmr = s.dmr ∧ (applyPause s).mpr = s.mpr ∧
    (applyPause s).svo = s.svo ∧ (applyPause s).hom = s.hom ∧
    (applyPause s).zmn = s.zmn ∧ (applyPause s).stc = s.stc ∧
    (applyPause s).tks = s.tks ∧ (applyPause s).tsc = s.tsc ∧
    (applyPause s).cpt = s.cpt ∧ (applyPause s).flash = s.flash ∧
    (applyPause s).freeCount = s.freeCount ∧ (applyPause s).pending = s.pending := by
  change Keeps_lnk s (applyPause s)
  unfold applyPause; (repeat' split) <;> (unfold Keeps_lnk; simp)

@[simp] theorem failAttempt_frame (s : State) :
    (failAttempt s).cfg = s.cfg ∧ (failAttempt s).cck = s.cck ∧
    (failAttempt s).ptb = s.ptb ∧ (failAttempt s).chan = s.chan ∧
    (failAttempt s).zmn = s.zmn ∧ (failAttempt s).cpt = s.cpt ∧
    (failAttempt s).flash = s.flash ∧ (failAttempt s).freeCount = s.freeCount ∧
    (failAttempt s).pending = s.pending := by
  change Keeps_dmr_mpr_svo_hom_stc_tks_tsc_lnk s (failAttempt s)
  unfold failAttempt; (repeat' split) <;> (unfold Keeps_dmr_mpr_svo_hom_stc_tks_tsc_lnk; simp)

@[simp] theorem bitError_frame (line : List Bool) (s : State) :
    (bitError line s).cfg = s.cfg ∧ (bitError line s).cck = s.cck ∧
    (bitError line s).ptb = s.ptb ∧ (bitError line s).chan = s.chan ∧
    (bitError line s).zmn = s.zmn ∧ (bitError line s).cpt = s.cpt ∧
    (bitError line s).flash = s.flash ∧ (bitError line s).freeCount = s.freeCount ∧
    (bitError line s).pending = s.pending := by
  change Keeps_dmr_mpr_svo_hom_stc_tks_tsc_lnk s (bitError line s)
  unfold bitError; unfold Keeps_dmr_mpr_svo_hom_stc_tks_tsc_lnk; simp

@[simp] theorem dominantBit_frame (s : State) :
    (dominantBit s).cfg = s.cfg ∧ (dominantBit s).cck = s.cck ∧
    (dominantBit s).ptb = s.ptb ∧ (dominantBit s).chan = s.chan ∧
    (dominantBit s).zmn = s.zmn ∧ (dominantBit s).cpt = s.cpt ∧
    (dominantBit s).flash = s.flash ∧ (dominantBit s).freeCount = s.freeCount ∧
    (dominantBit s).pending = s.pending := by
  change Keeps_dmr_mpr_svo_hom_stc_tks_tsc_lnk s (dominantBit s)
  unfold dominantBit; (repeat' split) <;> (unfold Keeps_dmr_mpr_svo_hom_stc_tks_tsc_lnk; simp)

@[simp] theorem stuckLine_frame (line : List Bool) (s : State) :
    (stuckLine line s).cfg = s.cfg ∧ (stuckLine line s).cck = s.cck ∧
    (stuckLine line s).ptb = s.ptb ∧ (stuckLine line s).chan = s.chan ∧
    (stuckLine line s).zmn = s.zmn ∧ (stuckLine line s).cpt = s.cpt ∧
    (stuckLine line s).flash = s.flash ∧ (stuckLine line s).freeCount = s.freeCount ∧
    (stuckLine line s).pending = s.pending := by
  change Keeps_dmr_mpr_svo_hom_stc_tks_tsc_lnk s (stuckLine line s)
  unfold stuckLine; unfold Keeps_dmr_mpr_svo_hom_stc_tks_tsc_lnk; simp

@[simp] theorem releasePause_frame (s : State) :
    (releasePause s).cfg = s.cfg ∧ (releasePause s).cck = s.cck ∧
    (releasePause s).ptb = s.ptb ∧ (releasePause s).chan = s.chan ∧
    (releasePause s).dmr = s.dmr ∧ (releasePause s).mpr = s.mpr ∧
    (releasePause s).svo = s.svo ∧ (releasePause s).hom = s.hom ∧
    (releasePause s).zmn = s.zmn ∧ (releasePause s).stc = s.stc ∧
    (releasePause s).tks = s.tks ∧ (releasePause s).tsc = s.tsc ∧
    (releasePause s).cpt = s.cpt ∧ (releasePause s).flash = s.flash ∧
    (releasePause s).freeCount = s.freeCount ∧ (releasePause s).pending = s.pending := by
  change Keeps_lnk s (releasePause s)
  unfold releasePause; (repeat' split) <;> (unfold Keeps_lnk; simp)

@[simp] theorem endPause_frame (line : List Bool) (s : State) :
    (endPause line s).cfg = s.cfg ∧ (endPause line s).cck = s.cck ∧
    (endPause line s).ptb = s.ptb ∧ (endPause line s).chan = s.chan ∧
    (endPause line s).dmr = s.dmr ∧ (endPause line s).mpr = s.mpr ∧
    (endPause line s).svo = s.svo ∧ (endPause line s).hom = s.hom ∧
    (endPause line s).zmn = s.zmn ∧ (endPause line s).stc = s.stc ∧
    (endPause line s).tks = s.tks ∧ (endPause line s).tsc = s.tsc ∧
    (endPause line s).cpt = s.cpt ∧ (endPause line s).flash = s.flash ∧
    (endPause line s).freeCount = s.freeCount ∧ (endPause line s).pending = s.pending := by
  change Keeps_lnk s (endPause line s)
  unfold endPause; unfold Keeps_lnk; simp

@[simp] theorem discardFrame_frame (bits : List Bool) (s : State) :
    (discardFrame bits s).cfg = s.cfg ∧ (discardFrame bits s).cck = s.cck ∧
    (discardFrame bits s).ptb = s.ptb ∧ (discardFrame bits s).chan = s.chan ∧
    (discardFrame bits s).dmr = s.dmr ∧ (discardFrame bits s).mpr = s.mpr ∧
    (discardFrame bits s).svo = s.svo ∧ (discardFrame bits s).hom = s.hom ∧
    (discardFrame bits s).zmn = s.zmn ∧ (discardFrame bits s).stc = s.stc ∧
    (discardFrame bits s).tks = s.tks ∧ (discardFrame bits s).tsc = s.tsc ∧
    (discardFrame bits s).cpt = s.cpt ∧ (discardFrame bits s).flash = s.flash ∧
    (discardFrame bits s).freeCount = s.freeCount ∧ (discardFrame bits s).pending = s.pending := by
  change Keeps_lnk s (discardFrame bits s)
  unfold discardFrame; (repeat' split) <;> (unfold Keeps_lnk; simp)

@[simp] theorem firstBit_frame (s : State) :
    (firstBit s).cfg = s.cfg ∧ (firstBit s).cck = s.cck ∧
    (firstBit s).ptb = s.ptb ∧ (firstBit s).chan = s.chan ∧
    (firstBit s).dmr = s.dmr ∧ (firstBit s).mpr = s.mpr ∧
    (firstBit s).svo = s.svo ∧ (firstBit s).hom = s.hom ∧
    (firstBit s).zmn = s.zmn ∧ (firstBit s).stc = s.stc ∧
    (firstBit s).tks = s.tks ∧ (firstBit s).tsc = s.tsc ∧
    (firstBit s).cpt = s.cpt ∧ (firstBit s).flash = s.flash ∧
    (firstBit s).freeCount = s.freeCount ∧ (firstBit s).pending = s.pending := by
  change Keeps_lnk s (firstBit s)
  unfold firstBit; (repeat' split) <;> (unfold Keeps_lnk; simp)

@[simp] theorem startBit_frame (line : List Bool) (s : State) :
    (startBit line s).cfg = s.cfg ∧ (startBit line s).cck = s.cck ∧
    (startBit line s).ptb = s.ptb ∧ (startBit line s).chan = s.chan ∧
    (startBit line s).dmr = s.dmr ∧ (startBit line s).mpr = s.mpr ∧
    (startBit line s).svo = s.svo ∧ (startBit line s).hom = s.hom ∧
    (startBit line s).zmn = s.zmn ∧ (startBit line s).stc = s.stc ∧
    (startBit line s).tks = s.tks ∧ (startBit line s).tsc = s.tsc ∧
    (startBit line s).cpt = s.cpt ∧ (startBit line s).flash = s.flash ∧
    (startBit line s).freeCount = s.freeCount ∧ (startBit line s).pending = s.pending := by
  change Keeps_lnk s (startBit line s)
  unfold startBit; unfold Keeps_lnk; simp

@[simp] theorem eraseSuspended_frame (s : State) :
    (eraseSuspended s).cfg = s.cfg ∧ (eraseSuspended s).cck = s.cck ∧
    (eraseSuspended s).ptb = s.ptb ∧ (eraseSuspended s).chan = s.chan ∧
    (eraseSuspended s).dmr = s.dmr ∧ (eraseSuspended s).mpr = s.mpr ∧
    (eraseSuspended s).svo = s.svo ∧ (eraseSuspended s).hom = s.hom ∧
    (eraseSuspended s).zmn = s.zmn ∧ (eraseSuspended s).stc = s.stc ∧
    (eraseSuspended s).tks = s.tks ∧ (eraseSuspended s).lnk = s.lnk ∧
    (eraseSuspended s).cpt = s.cpt ∧ (eraseSuspended s).flash = s.flash ∧
    (eraseSuspended s).freeCount = s.freeCount ∧ (eraseSuspended s).pending = s.pending := by
  change Keeps_tsc s (eraseSuspended s)
  unfold eraseSuspended; (repeat' split) <;> (unfold Keeps_tsc; simp)

@[simp] theorem lockEnds_frame (n : Byte) (ok : Bool) (s : State) :
    (lockEnds n ok s).cfg = s.cfg ∧ (lockEnds n ok s).cck = s.cck ∧
    (lockEnds n ok s).ptb = s.ptb ∧ (lockEnds n ok s).chan = s.chan ∧
    (lockEnds n ok s).dmr = s.dmr ∧ (lockEnds n ok s).mpr = s.mpr ∧
    (lockEnds n ok s).svo = s.svo ∧ (lockEnds n ok s).hom = s.hom ∧
    (lockEnds n ok s).zmn = s.zmn ∧ (lockEnds n ok s).stc = s.stc ∧
    (lockEnds n ok s).lnk = s.lnk ∧ (lockEnds n ok s).cpt = s.cpt ∧
    (lockEnds n ok s).flash = s.flash ∧ (lockEnds n ok s).freeCount = s.freeCount ∧
    (lockEnds n ok s).pending = s.pending := by
  change Keeps_tks_tsc s (lockEnds n ok s)
  unfold lockEnds; (repeat' split) <;> (unfold Keeps_tks_tsc; simp)

@[simp] theorem readEnded_frame (seen : Option (List Byte)) (s : State) :
    (readEnded seen s).cfg = s.cfg ∧ (readEnded seen s).cck = s.cck ∧
    (readEnded seen s).ptb = s.ptb ∧ (readEnded seen s).chan = s.chan ∧
    (readEnded seen s).dmr = s.dmr ∧ (readEnded seen s).mpr = s.mpr ∧
    (readEnded seen s).svo = s.svo ∧ (readEnded seen s).hom = s.hom ∧
    (readEnded seen s).zmn = s.zmn ∧ (readEnded seen s).stc = s.stc ∧
    (readEnded seen s).tks = s.tks ∧ (readEnded seen s).lnk = s.lnk ∧
    (readEnded seen s).cpt = s.cpt ∧ (readEnded seen s).flash = s.flash ∧
    (readEnded seen s).freeCount = s.freeCount ∧ (readEnded seen s).pending = s.pending := by
  change Keeps_tsc s (readEnded seen s)
  unfold readEnded; (repeat' split) <;> (unfold Keeps_tsc; simp)

@[simp] theorem programMatched_frame (w : ProgWork) (s : State) :
    (programMatched w s).cfg = s.cfg ∧ (programMatched w s).cck = s.cck ∧
    (programMatched w s).ptb = s.ptb ∧ (programMatched w s).chan = s.chan ∧
    (programMatched w s).dmr = s.dmr ∧ (programMatched w s).mpr = s.mpr ∧
    (programMatched w s).svo = s.svo ∧ (programMatched w s).hom = s.hom ∧
    (programMatched w s).zmn = s.zmn ∧ (programMatched w s).stc = s.stc ∧
    (programMatched w s).lnk = s.lnk ∧ (programMatched w s).flash = s.flash ∧
    (programMatched w s).freeCount = s.freeCount ∧ (programMatched w s).pending = s.pending := by
  change Keeps_tks_tsc_cpt s (programMatched w s)
  unfold programMatched; (repeat' split) <;> (unfold Keeps_tks_tsc_cpt; simp)

@[simp] theorem programFailed_frame (p : Program) (s : State) :
    (programFailed p s).cfg = s.cfg ∧ (programFailed p s).cck = s.cck ∧
    (programFailed p s).ptb = s.ptb ∧ (programFailed p s).chan = s.chan ∧
    (programFailed p s).dmr = s.dmr ∧ (programFailed p s).svo = s.svo ∧
    (programFailed p s).hom = s.hom ∧ (programFailed p s).zmn = s.zmn ∧
    (programFailed p s).stc = s.stc ∧ (programFailed p s).flash = s.flash ∧
    (programFailed p s).freeCount = s.freeCount ∧ (programFailed p s).pending = s.pending := by
  change Keeps_mpr_tks_tsc_lnk_cpt s (programFailed p s)
  unfold programFailed; (repeat' split) <;> (unfold Keeps_mpr_tks_tsc_lnk_cpt; simp)

@[simp] theorem eraseResult_frame (c : Nat) (ok : Bool) (s : State) :
    (eraseResult c ok s).cfg = s.cfg ∧ (eraseResult c ok s).cck = s.cck ∧
    (eraseResult c ok s).ptb = s.ptb ∧ (eraseResult c ok s).chan = s.chan ∧
    (eraseResult c ok s).dmr = s.dmr ∧ (eraseResult c ok s).mpr = s.mpr ∧
    (eraseResult c ok s).svo = s.svo ∧ (eraseResult c ok s).hom = s.hom ∧
    (eraseResult c ok s).zmn = s.zmn ∧ (eraseResult c ok s).stc = s.stc ∧
    (eraseResult c ok s).tks = s.tks ∧ (eraseResult c ok s).lnk = s.lnk ∧
    (eraseResult c ok s).flash = s.flash ∧ (eraseResult c ok s).freeCount = s.freeCount ∧
    (eraseResult c ok s).pending = s.pending := by
  change Keeps_tsc_cpt s (eraseResult c ok s)
  unfold eraseResult; (repeat' split) <;> (unfold Keeps_tsc_cpt; simp)

@[simp] theorem settleHold_frame (b : State) (s : State) :
    (settleHold b s).cfg = s.cfg ∧ (settleHold b s).cck = s.cck ∧
    (settleHold b s).ptb = s.ptb ∧ (settleHold b s).chan = s.chan ∧
    (settleHold b s).zmn = s.zmn ∧ (settleHold b s).cpt = s.cpt ∧
    (settleHold b s).flash = s.flash ∧ (settleHold b s).freeCount = s.freeCount ∧
    (settleHold b s).pending = s.pending := by
  change Keeps_dmr_mpr_svo_hom_stc_tks_tsc_lnk s (settleHold b s)
  unfold settleHold; (repeat' split) <;> (unfold Keeps_dmr_mpr_svo_hom_stc_tks_tsc_lnk; simp)

@[simp] theorem badByte_frame (c : Byte) (s : State) :
    (badByte c s).cfg = s.cfg ∧ (badByte c s).cck = s.cck ∧
    (badByte c s).ptb = s.ptb ∧ (badByte c s).chan = s.chan ∧
    (badByte c s).dmr = s.dmr ∧ (badByte c s).mpr = s.mpr ∧
    (badByte c s).svo = s.svo ∧ (badByte c s).hom = s.hom ∧
    (badByte c s).zmn = s.zmn ∧ (badByte c s).stc = s.stc ∧
    (badByte c s).tks = s.tks ∧ (badByte c s).tsc = s.tsc ∧
    (badByte c s).lnk = s.lnk ∧ (badByte c s).flash = s.flash ∧
    (badByte c s).freeCount = s.freeCount ∧ (badByte c s).pending = s.pending := by
  change Keeps_cpt s (badByte c s)
  unfold badByte; (repeat' split) <;> (unfold Keeps_cpt; simp)

@[simp] theorem pressButton_frame (b : Button) (s : State) :
    (pressButton b s).cfg = s.cfg ∧ (pressButton b s).cck = s.cck ∧
    (pressButton b s).ptb = s.ptb ∧ (pressButton b s).chan = s.chan ∧
    (pressButton b s).dmr = s.dmr ∧ (pressButton b s).mpr = s.mpr ∧
    (pressButton b s).svo = s.svo ∧ (pressButton b s).hom = s.hom ∧
    (pressButton b s).zmn = s.zmn ∧ (pressButton b s).stc = s.stc ∧
    (pressButton b s).tks = s.tks ∧ (pressButton b s).tsc = s.tsc ∧
    (pressButton b s).cpt = s.cpt ∧ (pressButton b s).flash = s.flash ∧
    (pressButton b s).freeCount = s.freeCount ∧ (pressButton b s).pending = s.pending := by
  change Keeps_lnk s (pressButton b s)
  unfold pressButton; (repeat' split) <;> (unfold Keeps_lnk; simp)

@[simp] theorem turnWheel_frame (ch : Fin 4) (q : QuadStep) (s : State) :
    (turnWheel ch q s).cfg = s.cfg ∧ (turnWheel ch q s).cck = s.cck ∧
    (turnWheel ch q s).ptb = s.ptb ∧ (turnWheel ch q s).dmr = s.dmr ∧
    (turnWheel ch q s).mpr = s.mpr ∧ (turnWheel ch q s).svo = s.svo ∧
    (turnWheel ch q s).hom = s.hom ∧ (turnWheel ch q s).zmn = s.zmn ∧
    (turnWheel ch q s).stc = s.stc ∧ (turnWheel ch q s).tks = s.tks ∧
    (turnWheel ch q s).tsc = s.tsc ∧ (turnWheel ch q s).lnk = s.lnk ∧
    (turnWheel ch q s).cpt = s.cpt ∧ (turnWheel ch q s).flash = s.flash ∧
    (turnWheel ch q s).freeCount = s.freeCount ∧ (turnWheel ch q s).pending = s.pending := by
  change Keeps_chan s (turnWheel ch q s)
  unfold turnWheel; (repeat' split) <;> (unfold Keeps_chan; simp)

@[simp] theorem reduceSent_frame (b : Body) (s : State) :
    (reduceSent b s).cfg = s.cfg ∧ (reduceSent b s).cck = s.cck ∧
    (reduceSent b s).ptb = s.ptb ∧ (reduceSent b s).dmr = s.dmr ∧
    (reduceSent b s).mpr = s.mpr ∧ (reduceSent b s).svo = s.svo ∧
    (reduceSent b s).hom = s.hom ∧ (reduceSent b s).zmn = s.zmn ∧
    (reduceSent b s).stc = s.stc ∧ (reduceSent b s).tks = s.tks ∧
    (reduceSent b s).tsc = s.tsc ∧ (reduceSent b s).lnk = s.lnk ∧
    (reduceSent b s).cpt = s.cpt ∧ (reduceSent b s).flash = s.flash ∧
    (reduceSent b s).freeCount = s.freeCount ∧ (reduceSent b s).pending = s.pending := by
  change Keeps_chan s (reduceSent b s)
  unfold reduceSent; (repeat' split) <;> (unfold Keeps_chan; simp)

@[simp] theorem statusAt_frame (b : Bool) (s : State) :
    (statusAt b s).cfg = s.cfg ∧ (statusAt b s).cck = s.cck ∧
    (statusAt b s).ptb = s.ptb ∧ (statusAt b s).chan = s.chan ∧
    (statusAt b s).dmr = s.dmr ∧ (statusAt b s).mpr = s.mpr ∧
    (statusAt b s).svo = s.svo ∧ (statusAt b s).hom = s.hom ∧
    (statusAt b s).zmn = s.zmn ∧ (statusAt b s).stc = s.stc ∧
    (statusAt b s).tks = s.tks ∧ (statusAt b s).tsc = s.tsc ∧
    (statusAt b s).cpt = s.cpt ∧ (statusAt b s).flash = s.flash ∧
    (statusAt b s).freeCount = s.freeCount ∧ (statusAt b s).pending = s.pending := by
  change Keeps_lnk s (statusAt b s)
  unfold statusAt; (repeat' split) <;> (unfold Keeps_lnk; simp)

@[simp] theorem raisePeerLost_frame (s : State) :
    (raisePeerLost lostUpdate s).cfg = s.cfg ∧ (raisePeerLost lostUpdate s).cck = s.cck ∧
    (raisePeerLost lostUpdate s).chan = s.chan ∧ (raisePeerLost lostUpdate s).zmn = s.zmn ∧
    (raisePeerLost lostUpdate s).cpt = s.cpt ∧ (raisePeerLost lostUpdate s).flash = s.flash ∧
    (raisePeerLost lostUpdate s).freeCount = s.freeCount ∧ (raisePeerLost lostUpdate s).pending = s.pending := by
  change Keeps_ptb_dmr_mpr_svo_hom_stc_tks_tsc_lnk s (raisePeerLost lostUpdate s)
  unfold raisePeerLost; unfold Keeps_ptb_dmr_mpr_svo_hom_stc_tks_tsc_lnk; simp

@[simp] theorem updateCauses_frame (s : State) :
    (updateCauses s).cfg = s.cfg ∧ (updateCauses s).cck = s.cck ∧
    (updateCauses s).chan = s.chan ∧ (updateCauses s).zmn = s.zmn ∧
    (updateCauses s).cpt = s.cpt ∧ (updateCauses s).flash = s.flash ∧
    (updateCauses s).freeCount = s.freeCount ∧ (updateCauses s).pending = s.pending := by
  change Keeps_ptb_dmr_mpr_svo_hom_stc_tks_tsc_lnk s (updateCauses s)
  unfold updateCauses; unfold Keeps_ptb_dmr_mpr_svo_hom_stc_tks_tsc_lnk; simp

@[simp] theorem resultCauses_frame (r : Result) (s : State) :
    (resultCauses r s).cfg = s.cfg ∧ (resultCauses r s).cck = s.cck ∧
    (resultCauses r s).ptb = s.ptb ∧ (resultCauses r s).chan = s.chan ∧
    (resultCauses r s).zmn = s.zmn ∧ (resultCauses r s).cpt = s.cpt ∧
    (resultCauses r s).flash = s.flash ∧ (resultCauses r s).freeCount = s.freeCount ∧
    (resultCauses r s).pending = s.pending := by
  change Keeps_dmr_mpr_svo_hom_stc_tks_tsc_lnk s (resultCauses r s)
  unfold resultCauses; (repeat' split) <;> (unfold Keeps_dmr_mpr_svo_hom_stc_tks_tsc_lnk; simp)

@[simp] theorem profileUpdate_frame (s : State) :
    ((profileUpdate s).1).cfg = s.cfg ∧ ((profileUpdate s).1).cck = s.cck ∧
    ((profileUpdate s).1).ptb = s.ptb ∧ ((profileUpdate s).1).chan = s.chan ∧
    ((profileUpdate s).1).dmr = s.dmr ∧ ((profileUpdate s).1).svo = s.svo ∧
    ((profileUpdate s).1).hom = s.hom ∧ ((profileUpdate s).1).zmn = s.zmn ∧
    ((profileUpdate s).1).stc = s.stc ∧ ((profileUpdate s).1).tks = s.tks ∧
    ((profileUpdate s).1).tsc = s.tsc ∧ ((profileUpdate s).1).lnk = s.lnk ∧
    ((profileUpdate s).1).cpt = s.cpt ∧ ((profileUpdate s).1).flash = s.flash ∧
    ((profileUpdate s).1).freeCount = s.freeCount ∧ ((profileUpdate s).1).pending = s.pending := by
  change Keeps_mpr s ((profileUpdate s).1)
  unfold profileUpdate; unfold Keeps_mpr; simp

@[simp] theorem playbackUpdate_frame (m : Option Int) (s : State) :
    ((playbackUpdate m s).1).cfg = s.cfg ∧ ((playbackUpdate m s).1).cck = s.cck ∧
    ((playbackUpdate m s).1).ptb = s.ptb ∧ ((playbackUpdate m s).1).chan = s.chan ∧
    ((playbackUpdate m s).1).dmr = s.dmr ∧ ((playbackUpdate m s).1).svo = s.svo ∧
    ((playbackUpdate m s).1).hom = s.hom ∧ ((playbackUpdate m s).1).zmn = s.zmn ∧
    ((playbackUpdate m s).1).stc = s.stc ∧ ((playbackUpdate m s).1).tks = s.tks ∧
    ((playbackUpdate m s).1).tsc = s.tsc ∧ ((playbackUpdate m s).1).lnk = s.lnk ∧
    ((playbackUpdate m s).1).cpt = s.cpt ∧ ((playbackUpdate m s).1).flash = s.flash ∧
    ((playbackUpdate m s).1).freeCount = s.freeCount ∧ ((playbackUpdate m s).1).pending = s.pending := by
  change Keeps_mpr s ((playbackUpdate m s).1)
  unfold playbackUpdate; (repeat' split) <;> (unfold Keeps_mpr; simp)

@[simp] theorem moveInMode_frame (m : Option Int) (s : State) :
    ((moveInMode m s).1).cfg = s.cfg ∧ ((moveInMode m s).1).cck = s.cck ∧
    ((moveInMode m s).1).ptb = s.ptb ∧ ((moveInMode m s).1).chan = s.chan ∧
    ((moveInMode m s).1).dmr = s.dmr ∧ ((moveInMode m s).1).svo = s.svo ∧
    ((moveInMode m s).1).hom = s.hom ∧ ((moveInMode m s).1).zmn = s.zmn ∧
    ((moveInMode m s).1).stc = s.stc ∧ ((moveInMode m s).1).tks = s.tks ∧
    ((moveInMode m s).1).tsc = s.tsc ∧ ((moveInMode m s).1).lnk = s.lnk ∧
    ((moveInMode m s).1).cpt = s.cpt ∧ ((moveInMode m s).1).flash = s.flash ∧
    ((moveInMode m s).1).freeCount = s.freeCount ∧ ((moveInMode m s).1).pending = s.pending := by
  change Keeps_mpr s ((moveInMode m s).1)
  unfold moveInMode; (repeat' split) <;> (unfold Keeps_mpr; simp)

@[simp] theorem motion_frame (m : Option Int) (s : State) :
    ((motion m s).1).cfg = s.cfg ∧ ((motion m s).1).cck = s.cck ∧
    ((motion m s).1).ptb = s.ptb ∧ ((motion m s).1).chan = s.chan ∧
    ((motion m s).1).dmr = s.dmr ∧ ((motion m s).1).svo = s.svo ∧
    ((motion m s).1).hom = s.hom ∧ ((motion m s).1).zmn = s.zmn ∧
    ((motion m s).1).stc = s.stc ∧ ((motion m s).1).tks = s.tks ∧
    ((motion m s).1).tsc = s.tsc ∧ ((motion m s).1).lnk = s.lnk ∧
    ((motion m s).1).cpt = s.cpt ∧ ((motion m s).1).flash = s.flash ∧
    ((motion m s).1).freeCount = s.freeCount ∧ ((motion m s).1).pending = s.pending := by
  change Keeps_mpr s ((motion m s).1)
  unfold motion; (repeat' split) <;> (unfold Keeps_mpr; simp)

@[simp] theorem takeResult_frame (r : Result) (s : State) :
    (takeResult r s).cfg = s.cfg ∧ (takeResult r s).cck = s.cck ∧
    (takeResult r s).ptb = s.ptb ∧ (takeResult r s).chan = s.chan ∧
    (takeResult r s).zmn = s.zmn ∧ (takeResult r s).cpt = s.cpt ∧
    (takeResult r s).flash = s.flash ∧ (takeResult r s).freeCount = s.freeCount ∧
    (takeResult r s).pending = s.pending := by
  change Keeps_dmr_mpr_svo_hom_stc_tks_tsc_lnk s (takeResult r s)
  unfold takeResult; unfold Keeps_dmr_mpr_svo_hom_stc_tks_tsc_lnk; simp

end Sys2Proof.Machine
end

