-- ==== Sys2Proof/Laws/Memory.lean ====
section
/-! SUPPORT. The take memory: every operation keeps the canonical form, and what a read after a write returns. -/

namespace Sys2Proof.Machine

/-- A form that starts no lower is a form from any lower address. -/
theorem memWfFrom_mono {lo lo' : Nat} (h : lo' ≤ lo) {m : Memory} (w : memWfFrom lo m = true) :
    memWfFrom lo' m = true := by
  cases m with
  | nil => rfl
  | cons c m =>
    obtain ⟨b, x⟩ := c
    simp only [memWfFrom, Bool.and_eq_true, decide_eq_true_eq] at w ⊢
    exact ⟨⟨⟨h.trans w.1.1.1, w.1.1.2⟩, w.1.2⟩, w.2⟩

theorem memWfFrom_memSet {a : Nat} (v : Byte) (ha : a < Config.memoryBytes) :
    ∀ {m : Memory} {lo : Nat}, lo ≤ a → memWfFrom lo m = true → memWfFrom lo (memSet m a v) = true := by
  intro m
  induction m with
  | nil =>
    intro lo hlo _
    by_cases hv : v = 255#8 <;> simp [memSet, memWfFrom, hv, hlo, ha]
  | cons c m ih =>
    intro lo hlo w
    obtain ⟨b, x⟩ := c
    simp only [memWfFrom, Bool.and_eq_true, decide_eq_true_eq] at w
    obtain ⟨⟨⟨w1, w2⟩, w3⟩, w4⟩ := w
    by_cases h1 : a < b
    · by_cases hv : v = 255#8
      · simp [memSet, memWfFrom, h1, hv, w1, w2, w3, w4]
      · simp [memSet, memWfFrom, h1, hv, hlo, ha, w2, w3, w4, Nat.succ_le_of_lt h1]
    · by_cases h2 : a = b
      · subst h2
        by_cases hv : v = 255#8
        · simp only [memSet, h1, hv, if_true, if_false]
          exact memWfFrom_mono (by omega) w4
        · simp [memSet, memWfFrom, hv, hlo, ha, w4]
      · simp only [memSet, h1, h2, if_false, memWfFrom, Bool.and_eq_true, decide_eq_true_eq]
        exact ⟨⟨⟨w1, w2⟩, w3⟩, ih (by omega) w4⟩

/-- A byte stored keeps the canonical form. -/
theorem memWf_memWrite {m : Memory} (a : Nat) (v : Byte) (w : memWf m = true) : memWf (memWrite m a v) = true := by
  unfold memWrite
  split
  · exact memWfFrom_memSet v ‹_› (Nat.zero_le _) w
  · exact w

/-- A run of bytes stored keeps the canonical form. -/
theorem memWf_memStore (vs : List Byte) : ∀ {m : Memory} (a : Nat), memWf m = true → memWf (memStore m a vs) = true := by
  induction vs with
  | nil => intro m a w; exact w
  | cons v vs ih => intro m a w; exact ih (a + 1) (memWf_memWrite a v w)

theorem memWfFrom_filter (p : Host.Cell → Bool) :
    ∀ {m : Memory} {lo : Nat}, memWfFrom lo m = true → memWfFrom lo (m.filter p) = true := by
  intro m
  induction m with
  | nil => intro lo w; exact w
  | cons c m ih =>
    intro lo w
    obtain ⟨b, x⟩ := c
    simp only [memWfFrom, Bool.and_eq_true, decide_eq_true_eq] at w
    obtain ⟨⟨⟨w1, w2⟩, w3⟩, w4⟩ := w
    by_cases hp : p (b, x) = true
    · simp only [List.filter_cons, hp, if_true, memWfFrom, Bool.and_eq_true, decide_eq_true_eq]
      exact ⟨⟨⟨w1, w2⟩, w3⟩, ih w4⟩
    · simp only [List.filter_cons, hp]
      exact memWfFrom_mono (by omega) (ih w4)

/-- An erase keeps the canonical form. -/
theorem memWf_memErase {m : Memory} (sector : Nat) (w : memWf m = true) : memWf (memErase m sector) = true :=
  memWfFrom_filter _ w

theorem memRead_memSet_same (a : Nat) (v : Byte) :
    ∀ {m : Memory} {lo : Nat}, memWfFrom lo m = true → memRead (memSet m a v) a = v := by
  intro m
  induction m with
  | nil =>
    intro lo _
    by_cases hv : v = 255#8 <;> simp [memSet, memRead, hv]
  | cons c m ih =>
    intro lo w
    obtain ⟨b, x⟩ := c
    simp only [memWfFrom, Bool.and_eq_true, decide_eq_true_eq] at w
    obtain ⟨⟨⟨w1, w2⟩, w3⟩, w4⟩ := w
    by_cases h1 : a < b
    · by_cases hv : v = 255#8
      · simp [memSet, memRead, h1, hv, Nat.ne_of_lt h1]
      · simp [memSet, memRead, h1, hv]
    · by_cases h2 : a = b
      · subst h2
        by_cases hv : v = 255#8
        · simp only [memSet, hv, if_true, Nat.lt_irrefl, if_false]
          cases m with
          | nil => rfl
          | cons d m =>
            obtain ⟨b', x'⟩ := d
            simp only [memWfFrom, Bool.and_eq_true, decide_eq_true_eq] at w4
            have : a < b' := w4.1.1.1
            simp [memRead, this, Nat.ne_of_lt this]
        · simp [memSet, memRead, hv]
      · simp only [memSet, memRead, h1, h2, if_false]
        exact ih w4

theorem memRead_below {m : Memory} {lo a : Nat} (w : memWfFrom lo m = true) (h : a < lo) : memRead m a = 255#8 := by
  cases m with
  | nil => rfl
  | cons c m =>
    obtain ⟨b, x⟩ := c
    simp only [memWfFrom, Bool.and_eq_true, decide_eq_true_eq] at w
    have : a < b := by omega
    simp [memRead, this, Nat.ne_of_lt this]

theorem memRead_memSet_other {a c : Nat} (v : Byte) (hc : c ≠ a) :
    ∀ {m : Memory} {lo : Nat}, memWfFrom lo m = true → memRead (memSet m a v) c = memRead m c := by
  intro m
  induction m with
  | nil =>
    intro lo _
    by_cases hv : v = 255#8 <;> by_cases h : c < a <;> simp [memSet, memRead, hv, hc, h]
  | cons d m ih =>
    intro lo w
    obtain ⟨b, x⟩ := d
    simp only [memWfFrom, Bool.and_eq_true, decide_eq_true_eq] at w
    obtain ⟨⟨⟨w1, w2⟩, w3⟩, w4⟩ := w
    by_cases h1 : a < b
    · by_cases hv : v = 255#8
      · simp [memSet, h1, hv]
      · by_cases h3 : c < a
        · have h4 : c < b := by omega
          simp [memSet, memRead, h1, hv, hc, h3, h4, Nat.ne_of_lt h4]
        · simp [memSet, memRead, h1, hv, hc, h3]
    · by_cases h2 : a = b
      · subst h2
        by_cases hv : v = 255#8
        · simp only [memSet, hv, if_true, Nat.lt_irrefl, if_false, memRead, hc]
          by_cases h3 : c < a
          · simp only [h3, if_true]
            exact memRead_below w4 (by omega)
          · simp [h3]
        · simp [memSet, memRead, hv, hc]
      · simp only [memSet, memRead, h1, h2, if_false]
        rw [ih w4]

/-- The byte stored is the byte read, at a place of the memory. -/
theorem memRead_memWrite_same {m : Memory} {a : Nat} (v : Byte) (w : memWf m = true) (ha : a < Config.memoryBytes) :
    memRead (memWrite m a v) a = v := by
  rw [memWrite, if_pos ha]; exact memRead_memSet_same a v w

/-- A byte stored changes no other byte. -/
theorem memRead_memWrite_other {m : Memory} {a c : Nat} (v : Byte) (w : memWf m = true) (h : c ≠ a) :
    memRead (memWrite m a v) c = memRead m c := by
  unfold memWrite
  split
  · exact memRead_memSet_other v h w
  · rfl

/-- A run of bytes stored changes no byte outside the run. -/
theorem memRead_memStore_outside (vs : List Byte) {c : Nat} :
    ∀ {m : Memory} (a : Nat), memWf m = true → (c < a ∨ a + vs.length ≤ c) → memRead (memStore m a vs) c = memRead m c := by
  induction vs with
  | nil => intro m a _ _; rfl
  | cons v vs ih =>
    intro m a w h
    simp only [List.length_cons] at h
    rw [memStore, ih (a + 1) (memWf_memWrite a v w) (by omega), memRead_memWrite_other v w (by omega)]

/-- A run of bytes stored inside the memory reads back as it was given. -/
theorem memRun_memStore (vs : List Byte) :
    ∀ {m : Memory} (a : Nat), memWf m = true → a + vs.length ≤ Config.memoryBytes →
      memRun (memStore m a vs) a vs.length = vs := by
  induction vs with
  | nil => intro m a _ _; rfl
  | cons v vs ih =>
    intro m a w h
    simp only [List.length_cons] at h
    simp only [List.length_cons, memRun, memStore]
    rw [ih (a + 1) (memWf_memWrite a v w) (by omega),
      memRead_memStore_outside vs (a + 1) (memWf_memWrite a v w) (by omega),
      memRead_memWrite_same v w (by omega)]

/-- A read of a sector other than the erased one is unchanged, and one in it reads erased. -/
theorem memRead_memErase (sector c : Nat) :
    ∀ {m : Memory} {lo : Nat}, memWfFrom lo m = true →
      memRead (memErase m sector) c = if c / Config.sectorBytes = sector then 255#8 else memRead m c := by
  intro m
  induction m with
  | nil => intro lo _; simp [memErase, memRead]
  | cons d m ih =>
    intro lo w
    obtain ⟨b, x⟩ := d
    simp only [memWfFrom, Bool.and_eq_true, decide_eq_true_eq] at w
    obtain ⟨⟨⟨w1, w2⟩, w3⟩, w4⟩ := w
    have ih' := ih w4
    unfold memErase at ih' ⊢
    by_cases hb : b / Config.sectorBytes = sector
    · simp only [List.filter_cons, hb, ne_eq, not_true_eq_false, decide_false, Bool.false_eq_true, if_false]
      rw [ih']
      by_cases hc : c / Config.sectorBytes = sector
      · simp [hc]
      · have hne : c ≠ b := by rintro rfl; exact hc hb
        simp only [hc, if_false, memRead, hne]
        by_cases hlt : c < b
        · simp only [hlt, if_true]; exact memRead_below w4 (by omega)
        · simp [hlt]
    · simp only [List.filter_cons, hb, ne_eq, not_false_eq_true, decide_true, if_true]
      simp only [memRead]
      by_cases hcb : c = b
      · subst hcb; simp [hb]
      · simp only [hcb, if_false]
        by_cases hlt : c < b
        · simp [hlt]
        · simp only [hlt, if_false]; exact ih'

/-! ### What a reset, a power loss and the end of a held erase leave (R151, R170, R182) -/

theorem memWf_leaveMemory (left : Option (List Byte)) (u : FlashUnit) {m : Memory} (w : memWf m = true) :
    memWf (leaveMemory left u m) = true := by
  unfold leaveMemory
  split <;> first | exact w | exact memWf_memStore _ _ w

theorem memWf_endInMemory (u : FlashUnit) {m : Memory} (w : memWf m = true) : memWf (endInMemory u m) = true := by
  unfold endInMemory
  split <;> first | exact w | exact memWf_memStore _ _ w | exact memWf_memErase _ w

theorem memWf_cutShort (left : Option (List Byte)) {s : State} (w : memWf s.flash = true) :
    memWf (cutShort left s) = true := by
  unfold cutShort
  split <;> exact memWf_leaveMemory _ _ w

theorem memWf_lostMemory (left : Option (List Byte)) {s : State} (w : memWf s.flash = true) :
    memWf (lostMemory left s) = true := by
  unfold lostMemory
  dsimp only
  split
  · exact memWf_memErase _ (memWf_cutShort left w)
  · exact memWf_cutShort left w

theorem memWf_finishErase {s : State} (w : memWf s.flash = true) : memWf (finishErase s).flash = true := by
  unfold finishErase
  split
  · exact memWf_memErase _ w
  · exact w

end Sys2Proof.Machine
end

