-- ==== Sys2Proof/Laws/Step.lean ====
section
/-! SUPPORT. Every command completes: no meaning ends in a fault or a refusal, so no step does. -/

namespace Sys2Proof.Machine

theorem exec_next (c : Instr) (s : State) : ∃ t, exec c s = .next t := by
  cases c <;> exact ⟨_, rfl⟩

theorem step_front {c : Instr} {rest : List Instr} {s : State} (h : s.pending = c :: rest) :
    step s = exec c { s with pending := rest } := by
  simp only [step, h]

theorem step_idle {s : State} (h : s.pending = []) : ∃ t, step s = .next t := by
  simp only [step, h]
  exact ⟨_, rfl⟩

theorem step_next (s : State) : ∃ t, step s = .next t := by
  match h : s.pending with
  | [] => exact step_idle h
  | c :: rest => rw [step_front h]; exact exec_next c _

end Sys2Proof.Machine
end

