-- ==== Sys2Proof/Laws/Update.lean ====
section
/-! SUPPORT. What an update that raises no cause leaves alone before its profile and after its result has been taken. -/

namespace Sys2Proof.Machine

open Sys2Proof.Safety

/-- No expected peer is too old. -/
def peersYoung (s : State) : Prop := ∀ st, expected s st = true → (peerEntry s st).age ≤ 24

theorem peersYoung_of {s t : State} (cfg : t.cfg = s.cfg) (peers : t.ptb.peers = s.ptb.peers) (young : peersYoung s) :
    peersYoung t := by
  intro st named
  have known : expected s st = true := by simpa [expected, cfg] using named
  have age := young st known
  simp only [peerEntry, isOwn, cfg, peers] at age ⊢
  split <;> simp_all

theorem lostUpdate_young {s : State} (young : peersYoung s) : lostUpdate s = s := by
  have none (st : Station) : lostNow s st = false := by
    simp only [lostNow, Config.lostAge]
    cases named : expected s st
    · simp
    · simp [not_lt.mpr (young st named)]
  have same (l : List Station) (m : StationMask) :
      l.foldl (fun m st => if lostNow s st = true then withStation m st else m) m = m := by
    induction l with
    | nil => rfl
    | cons a l ih => simp [none]
  simp only [lostUpdate, same]

/-- An update raises no HALT and no PEER-LOST where the input is clear, no companion halts and every expected peer is young. -/
theorem updateCauses_calm {s : State} (young : peersYoung s) (input : s.stc.haltInput = false)
    (companion : s.stc.companionHalt = false) : updateCauses s = s := by
  have halt : raiseHalt s = s := by simp [raiseHalt, causeCondition, input, companion]
  simp only [updateCauses, halt, raisePeerLost, lostUpdate_young young]
  cases causePresent s Cause.peerLost <;> simp

theorem startUpdate_up (inp : UpdateInputs) {s : State} (up : axisUp s = true) : startUpdate inp s = s := by
  have reached : s.cfg.startState = .parked := by simp [axisUp] at up; exact up.2
  simp [startUpdate, reached, pollStore, storeIdPolls]

/-- What the part of an update before the profile leaves alone on an axis that raises no cause: t against s. -/
def KeptBefore (s t : State) : Prop :=
  t.mpr = s.mpr ∧ t.hom = s.hom ∧ t.tks = s.tks ∧ t.cfg = s.cfg ∧ t.stc = s.stc ∧ t.svo.raw = s.svo.raw ∧
  t.svo.origin = s.svo.origin ∧ t.svo.follow = s.svo.follow ∧ t.ptb.peers = s.ptb.peers ∧ t.ptb.lost = s.ptb.lost

theorem KeptBefore.rfl (s : State) : KeptBefore s s := by simp [KeptBefore]

theorem KeptBefore.trans {a b c : State} (x : KeptBefore a b) (y : KeptBefore b c) : KeptBefore a c := by
  unfold KeptBefore at *; simp_all

theorem KeptBefore.ite (c : Bool) {f : State → State} {s : State} (h : KeptBefore s (f s)) :
    KeptBefore s (if c = true then f s else s) := by
  split
  · exact h
  · exact .rfl s

theorem cleanUpdate_kept (s : State) : KeptBefore s (cleanUpdate s) := by
  simp only [cleanUpdate, KeptBefore]; split <;> [split; skip] <;> simp

/-- Before the profile, an update that raises no cause changes nothing of motion, homing, job, identity, stops or peers but
the sample of the HALT input, which is clear on an axis. -/
theorem beforeMotion_calm (inp : UpdateInputs) (known : Bool) {s : State} (calm : causeFree s) :
    KeptBefore { s with stc := { s.stc with haltInput := false } } (beforeMotion inp known s) := by
  obtain ⟨up, companion, young⟩ := calm
  have clock : KeptBefore s (stepAging (clockWrap (countUpdate s))) := by simp [KeptBefore, countUpdate]
  have stillUp : axisUp (stepAging (clockWrap (countUpdate s))) = true := by
    simp only [axisUp, isAxis, clock.2.2.2.1] at up ⊢; exact up
  simp only [beforeMotion]
  rw [startUpdate_up inp stillUp]
  have read : KeptBefore { s with stc := { s.stc with haltInput := false } }
      (readHalt inp (crewUpdate inp.crew (stepAging (clockWrap (countUpdate s))))) := by
    have axis : isControl (crewUpdate inp.crew (stepAging (clockWrap (countUpdate s)))) = false := by
      have : s.cfg.role = some .axis := by simp [axisUp, isAxis] at up; exact up.1
      simp [isControl, crewUpdate, countUpdate, this]
    unfold readHalt
    rw [axis]
    unfold KeptBefore at *
    simp_all [crewUpdate]
  generalize readHalt inp _ = r at *
  have clean := cleanUpdate_kept r
  have causes : KeptBefore (cleanUpdate r) (if inp.causesFirst = true then updateCauses (cleanUpdate r) else cleanUpdate r) := by
    refine .ite _ ?_
    have all := read.trans clean
    rw [updateCauses_calm]
    · exact .rfl _
    · exact peersYoung_of (s := s) all.2.2.2.1 all.2.2.2.2.2.2.2.2.1 young
    · rw [all.2.2.2.2.1]
    · rw [all.2.2.2.2.1]; exact companion
  refine (read.trans clean).trans (causes.trans ?_)
  generalize (if inp.causesFirst = true then updateCauses (cleanUpdate r) else cleanUpdate r) = u
  have decide : KeptBefore u (clockDecide u) := by simp [KeptBefore]
  have zones (x : State) : KeptBefore x (zoneUpdate x) := by simp [KeptBefore]
  have demand (x : State) : KeptBefore x (demandUpdate x) := by simp [KeptBefore]
  have status (b : Bool) (x : State) : KeptBefore x (statusAt b x) := by simp [KeptBefore]
  exact decide.trans ((KeptBefore.ite inp.zonesFirst (zones _)).trans ((KeptBefore.ite inp.demandFirst (demand _)).trans
    (status _ _)))

/-- What the profile and the drive output leave alone in an update that raises no cause: homing, job, identity, stops, the
encoder's counts and the peers, but for the sample of the HALT input. -/
theorem toServo_calm (inp : UpdateInputs) {s : State} (calm : causeFree s) :
    (toServo inp s).1.hom = s.hom ∧ (toServo inp s).1.tks = s.tks ∧ (toServo inp s).1.cfg = s.cfg ∧
    (toServo inp s).1.stc = { s.stc with haltInput := false } ∧ (toServo inp s).1.svo.raw = s.svo.raw ∧
    (toServo inp s).1.svo.origin = s.svo.origin ∧ (toServo inp s).1.ptb.peers = s.ptb.peers ∧
    (toServo inp s).1.ptb.lost = s.ptb.lost := by
  have kept := beforeMotion_calm inp s.cfg.station.isSome calm
  simp only [toServo, withMotion]
  generalize beforeMotion inp s.cfg.station.isSome s = b at *
  obtain ⟨-, hom, tks, cfg, stc, raw, origin, -, peers, lost⟩ := kept
  have counts : (servo (motion (suppliedMove b) b).1).svo.raw = b.svo.raw ∧
      (servo (motion (suppliedMove b) b).1).svo.origin = b.svo.origin := by
    simp only [servo]; split <;> simp
  refine ⟨by simp [hom], by simp [tks], by simp [cfg], by simp [stc], counts.1.trans raw, counts.2.trans origin,
    by simp [peers], by simp [lost]⟩

/-- What the part of an update after the result leaves alone where no cause arises: t against s. -/
def KeptAfter (s t : State) : Prop :=
  t.mpr = { s.mpr with factor := t.mpr.factor } ∧ t.hom = s.hom ∧ t.cfg = s.cfg ∧ t.stc = s.stc ∧ t.svo = s.svo

theorem KeptAfter.rfl (s : State) : KeptAfter s s := by simp [KeptAfter]

theorem KeptAfter.trans {a b c : State} (x : KeptAfter a b) (y : KeptAfter b c) : KeptAfter a c := by
  obtain ⟨x1, x2, x3, x4, x5⟩ := x
  obtain ⟨y1, y2, y3, y4, y5⟩ := y
  exact ⟨by rw [y1, x1], y2.trans x2, y3.trans x3, y4.trans x4, y5.trans x5⟩

theorem KeptAfter.ite (c : Bool) {f : State → State} {s : State} (h : KeptAfter s (f s)) :
    KeptAfter s (if c = true then s else f s) := by
  split
  · exact .rfl s
  · exact h

theorem endJob_mpr (o : TakeOutcome) (s : State) (still : s.tks.job ≠ .cueing ∧ s.tks.job ≠ .running ∧ s.tks.job ≠ .runout) :
    (endJob o s).mpr = s.mpr := by
  simp only [endJob, jobToIdle]
  cases job : s.tks.job <;> simp_all

/-- The end of a job that moves nothing leaves MPR as it was. -/
theorem abortOwn_mpr (r : Reason) (s : State)
    (still : s.tks.job ≠ .cueing ∧ s.tks.job ≠ .running ∧ s.tks.job ≠ .runout) : (abortOwn r s).mpr = s.mpr := by
  simp [abortOwn, endJob_mpr _ _ still]

@[simp] theorem storeWriteFailed_mpr (s : State) : (storeWriteFailed s).mpr = s.mpr := by
  unfold storeWriteFailed
  split
  · next job => exact abortOwn_mpr _ _ (by simp [job])
  · simp [closingEnds, jobToIdle]
  all_goals rfl

@[simp] theorem programFailed_mpr (p : Program) (s : State) : (programFailed p s).mpr = s.mpr := by
  unfold programFailed
  split <;> simp

theorem operationUpdate_kept (left : Option (List Byte)) (s : State) : KeptAfter s (operationUpdate left s) := by
  simp only [operationUpdate]
  split
  · unfold operationFailed
    dsimp only
    split <;> simp [KeptAfter]
  · exact .rfl s

/-- After the result has been taken, an update in which no cause arises changes nothing of motion but the field factor, and
nothing of homing, identity, stops or the servo. -/
theorem afterMotion_calm (inp : UpdateInputs) (known : Bool) {s : State} (young : peersYoung s) (input : s.stc.haltInput = false)
    (companion : s.stc.companionHalt = false) : KeptAfter s (afterMotion inp known s) := by
  simp only [afterMotion]
  have zones : KeptAfter s (if inp.zonesFirst = true then s else zoneUpdate s) := .ite _ (by simp [KeptAfter])
  have zonesPtb : (if inp.zonesFirst = true then s else zoneUpdate s).ptb = s.ptb := by split <;> simp
  generalize (if inp.zonesFirst = true then s else zoneUpdate s) = z at *
  have demand : KeptAfter s (if inp.demandFirst = true then z else demandUpdate z) := zones.trans (.ite _ (by simp [KeptAfter]))
  have demandPtb : (if inp.demandFirst = true then z else demandUpdate z).ptb = s.ptb := by split <;> simp [zonesPtb]
  generalize (if inp.demandFirst = true then z else demandUpdate z) = d at *
  have causes : KeptAfter s (if inp.causesFirst = true then d else updateCauses d) := by
    refine demand.trans (.ite _ ?_)
    rw [updateCauses_calm]
    · exact .rfl d
    · exact peersYoung_of demand.2.2.1 (by rw [demandPtb]) young
    · rw [demand.2.2.2.1]; exact input
    · rw [demand.2.2.2.1]; exact companion
  generalize (if inp.causesFirst = true then d else updateCauses d) = c at *
  have status (b : Bool) (x : State) : KeptAfter x (statusAt b x) := by simp [KeptAfter]
  have factor (x : State) : KeptAfter x (updateFactor x) := by simp [KeptAfter, updateFactor]
  have queue (x : State) : KeptAfter x (queueUpdateDemand inp.levers x) := by simp [KeptAfter]
  have age (x : State) : KeptAfter x (ageEntries x) := by simp [KeptAfter, ageEntries]
  exact causes.trans ((status _ _).trans ((factor _).trans ((queue _).trans ((status _ _).trans
    ((age _).trans (operationUpdate_kept _ _))))))

/-- The whole of an update after a result that leaves the state x and no new cause: of motion, homing, identity, stops and the
servo the update leaves what x holds, but for the field factor. -/
theorem update_calm (inp : UpdateInputs) {s x : State} (taken : takeResult (toServo inp s).2 (toServo inp s).1 = x)
    (young : peersYoung x) (input : x.stc.haltInput = false) (companion : x.stc.companionHalt = false)
    (hold : x.stc.hold = s.stc.hold ∨
      x.stc.hold = formHold (localCauses (afterMotion inp s.cfg.station.isSome x))) :
    KeptAfter x (update inp s) := by
  have kept := afterMotion_calm inp s.cfg.station.isSome young input companion
  have settled : settleHold s (afterMotion inp s.cfg.station.isSome x) = afterMotion inp s.cfg.station.isSome x := by
    unfold settleHold
    rw [if_neg]
    rw [kept.2.2.2.1]
    rintro ⟨free, held, other⟩
    rcases hold with same | formed
    · exact held (same.trans free)
    · exact other formed
  have whole : update inp s = startWork (showDemand (afterMotion inp s.cfg.station.isSome x)) := by
    rw [← settled, ← taken]; rfl
  rw [whole]
  exact kept.trans (by simp [KeptAfter, showDemand])

end Sys2Proof.Machine
end

