-- ==== Sys2Proof/WellFormed.lean ====
section
/-! DEFINITION. Which commands are well formed: operand lengths and ranges that the typed operands do not already fix. -/

namespace Sys2Proof

/-- Bytes the memory returned, where the sender gives them, number exactly n. -/
def seenLength (n : Nat) : Option (List Byte) → Bool
  | none => true
  | some bs => bs.length == n

/-- The items of a STATUS frame lie in the ranges of R54, and the stamp's phase is a phase (R62). -/
def StatusItems.wellFormed (i : StatusItems) : Bool :=
  decide (-268435456 ≤ i.position ∧ i.position ≤ 268435455) &&
  decide (-8388607 ≤ i.move ∧ i.move ≤ 8388607) &&
  decide (i.stamp.phase < 1000)

/-- A command the table's sender can give. -/
def Instr.wellFormed : Instr → Bool
  | .start _ memory =>
    match memory with | .kept | .lost none => true | .lost (some bs) => bs.length ≤ Config.sectorBytes
  | .configLoad seen => seenLength Config.blockBytes seen
  | .scanSectorRead seen => seenLength Config.pageBytes seen
  | .readComplete seen => seenLength Config.pageBytes seen
  | .eraseComplete seen _ => seenLength Config.pageBytes seen
  | .programComplete seen _ => match seen with | none => true | some bs => bs.length ≤ Config.pageBytes
  | .statusFrame _ items => items.wellFormed
  | .send kind payload => match kindPayload kind.toNat with | none => true | some n => payload.length == n
  | .configWrite block => block.length == Config.blockBytes
  | .restartFrame _ _ | .restartCommand | .update _ | .correctionApply | .timeOwn _ | .timeSteppedClear _
  | .strapsRead _ | .identification _ _ _ | .storeIdTimeout _ | .scanEnd | .encoderTransition _ _
  | .encoderFaultEnd _ | .switchCapture | .stall _ | .chainOpen | .chainClose | .buttonPress _
  | .wheelTransition _ _ | .crewAbsent _ | .followError _ | .demandStale _ | .peerLost _ | .wakingEnd _
  | .eraseSuspended | .flashTimeout _ | .heldAbortPlace | .transmitStart _ | .arbitrationLost | .bitError _
  | .stuckLine _ | .faultPauseEnd _ | .transmitComplete | .frameDiscard _ | .stopFrame _ _ _ | .releaseFrame _
  | .resume _ | .wake _ _ | .park _ _ | .home _ _ | .demandFrame _ _ | .takePrepare _ _ _
  | .takeCue _ _ _ _ _ | .takeRoll _ _ _ | .takeCut _ _ _ | .takeAbort _ _ _ _ | .takeDelete _ _
  | .takeLock _ _ _ | .mark _ _ | .halt | .unhalt | .receive | .receiveCopyEnd | .filter _ | .snapshot _ _
  | .format | .shortTransaction | .badCommand _ | .receivedStartBit _ => true

end Sys2Proof
end

