-- ==== Sys2Proof/Tests/Slice0.lean ====
section
/-! SUPPORT. Tests: ill-formed commands refused, the manual's worked examples, one small step per kind of command, and a
state for every hypothesis of the statements. -/

namespace Sys2Proof.Tests

open Sys2Proof Sys2Proof.Machine Sys2Proof.Safety

set_option Elab.async false

/-! ### Small states -/

def inputs : UpdateInputs :=
  { crew := 0, levers := #v[0, 0, 0, 0], haltActive := false, straps := 1, roleHigh := false, storeBusy := false
    demandFirst := false, zonesFirst := false, causesFirst := false, statusPoint := .last, left := none }

/-- A SWING axis that the checks of R172 pass. -/
def block : Block :=
  { format := 0x4E31, role := 0, axisKind := 0, lo := -10000, hi := 100000, vMax := 2000, aMax := 100, aStop := 1000
    vGoto := 500, vHome := 800, kf := 300, kp := 2000, followMax := 40, homeMode := 0, homeDirection := 1
    homeOffset := -1200, homeMaxTravel := 50000, stallThreshold := 100, backOff := 50, routePresent := 1, source := 7
    channel := 0, invert := 0, gain := 10, deadband := 20, coupling := 0, lensCount := 0, fMin := 64, expected := 0
    channelKinds := #v[0, 1, 0, 0], zoneCount := 0, lens := [], zones := [] }

/-- Station 1, an AXIS node in PARKED. -/
def parked : State := { State.reset with
  cfg := { Cfg.start with startState := .parked, station := some 1, role := some .axis, params := some block }
  zmn := Zmn.start 2000
  cck := { Cck.start with timeState := .own }
  tsc := { Tsc.start 1 0 with scanNext := 4096 } }

/-- The same axis ENABLED, homed, in HAND. -/
def axis : State := { parked with
  stc := { Stc.start with drive := .enabled }, hom := { Hom.start with state := .homed }
  mpr := { Mpr.start 0 with mode := .hand } }

/-- Station 7, a CONTROL node in RUN. -/
def desk : State := { State.reset with
  cfg := { Cfg.start with
    startState := .run, station := some 7, role := some .control, params := some { block with role := 1, expected := 6 } }
  cck := { Cck.start with timeState := .own } }

def withBlock (f : Block → Block) (s : State) : State := { s with cfg := { s.cfg with params := s.cfg.params.map f } }

def stored : StoredTake :=
  { generation := 3, state := .complete, lockPending := false, mask := 2, startPos := 0, initialMove := 0, length := 300
    endPos := some 5, marks := []
    segments := [{ sector := 7, seq := 0, programmed := true, retire := false },
      { sector := 8, seq := 1, programmed := true, retire := true }] }

def recording : Recording :=
  { generation := 4, mask := 2, startPos := 0, initialMove := 0, count := 5
    segments := [{ sector := 5, seq := 0, programmed := true, retire := false }] }

/-- The axis with a stored take 12. -/
def holder : State := { axis with tsc := { axis.tsc with
  directory := [{ number := 12, stored := some stored, recording := none }] } }

/-- The axis RECORDING take 12 over a stored one. -/
def recorder : State := { axis with
  tks := { Tks.start with job := .recording, jobTake := 12, takeNumber := 12, mask := some 2, k := 5, prevMove := some 0 }
  tsc := { axis.tsc with directory := [{ number := 12, stored := some stored, recording := some recording }] } }

/-- The axis RUNNING take 12 at index 4, page 1 in slot 1. -/
def player : State := { holder with
  mpr := { axis.mpr with mode := .playback }
  tks := { Tks.start with
    job := .running, jobTake := 12, takeNumber := 12, mask := some 2, k := 4, inIndex := some 0, endIndex := some 300
    playMove := some 3 }
  tsc := { holder.tsc with slots := holder.tsc.slots.set 1 (.filled 7 { seq := 0, page := 1 } (List.replicate 127 1)) } }

/-- The axis in CLOSING, its take close in flight. -/
def closer : State := { recorder with
  tks := { recorder.tks with job := .closing, prevMove := none }
  tsc := { recorder.tsc with
    closing := some { length := 5, endPos := 4, marks := [] }, closeList := [.takeClose]
    unit := .programming { work := .takeClose, address := 5 * 4096 + 32, data := [0x5A, 0xFF] } } }

def waking : State := { axis with
  stc := { Stc.start with drive := .waking, settle := 119 }, hom := Hom.start, mpr := Mpr.start 0 }

/-- A HARD-STOP seek one update before its stall. -/
def seeker : State := withBlock (fun b => { b with homeMode := 1, stallThreshold := 1, followMax := 1000000 }) { axis with
  hom := { state := .homing, phase := some .seek, seekStart := some 0, stall := 19, armed := false, outcome := .none }
  mpr := { axis.mpr with mode := .homing, v := 700, p := 900 } }

def peer (i : StatusItems) (age : Nat) (s : State) : State := { s with ptb := { s.ptb with
  peers := s.ptb.peers.set 7 { items := some i, age := age, offset := 40, offsetValid := true } } }

def withUnit (u : FlashUnit) (s : State) : State := { s with tsc := { s.tsc with unit := u } }

def withTx (slot : TxSlot) (b : Body) (s : State) : State := { s with lnk := { s.lnk with
  tx := some { slot := slot, frame := { station := ownStation s, body := b }, start := { ms := 3, phase := 5 }
               refilled := false, orphan := false } } }

def mk (f : Tks → Tks) (s : State) : State := { s with tks := f s.tks }
def tsc (f : Tsc → Tsc) (s : State) : State := { s with tsc := f s.tsc }
def lnk (f : Lnk → Lnk) (s : State) : State := { s with lnk := f s.lnk }
def stc (f : Stc → Stc) (s : State) : State := { s with stc := f s.stc }
def cfg (f : Cfg → Cfg) (s : State) : State := { s with cfg := f s.cfg }

def demandOf (k : ChannelKind) (x : Int) : DemandItems :=
  { kinds := #v[k, k, k, k], values := #v[BitVec.ofInt 16 x, 0, 0, 0], seq := 1 }

/-- 12 recessive bit times: an idle line (R153). -/
def quiet : List Bool := List.replicate 12 true

def after (c : Instr) (s : State) : State :=
  match exec c s with
  | .next t => t
  | .fault _ | .refused _ => s

/-! ### Well-formedness: one ill-formed term for each check -/

theorem test_wellFormed_start :
    Instr.wellFormed (.start false (.lost (some (List.replicate 4097 0)))) = false := by decide +kernel
theorem test_wellFormed_configLoad : Instr.wellFormed (.configLoad (some (List.replicate 370 0))) = false := by decide +kernel
theorem test_wellFormed_scanSectorRead : Instr.wellFormed (.scanSectorRead (some [1])) = false := by decide
theorem test_wellFormed_readComplete : Instr.wellFormed (.readComplete (some [])) = false := by decide
theorem test_wellFormed_eraseComplete : Instr.wellFormed (.eraseComplete (some [255])) = false := by decide
theorem test_wellFormed_programComplete :
    Instr.wellFormed (.programComplete (some (List.replicate 257 0))) = false := by decide +kernel
theorem test_wellFormed_position :
    Instr.wellFormed (.statusFrame 7 { ownItems desk with position := 268435456 }) = false := by decide +kernel
theorem test_wellFormed_move :
    Instr.wellFormed (.statusFrame 7 { ownItems desk with move := -8388608 }) = false := by decide +kernel
theorem test_wellFormed_phase :
    Instr.wellFormed (.statusFrame 7 { ownItems desk with stamp := { ms16 := 0, phase := 1000 } }) = false := by decide +kernel
theorem test_wellFormed_send : Instr.wellFormed (.send 0x11 [0]) = false := by decide
theorem test_wellFormed_configWrite : Instr.wellFormed (.configWrite []) = false := by decide
theorem test_wellFormed_update : Instr.wellFormed (.update inputs) = true := by decide

/-! ### The manual's worked examples -/

/-- Braking from r = 5,530 at 100: the first two rows and the last (01). -/
theorem test_vLim_braking : vLim 5530 100 = 1002 ∧ vLim 4528 100 = 902 ∧ vLim 2 100 = 3 ∧ vLim 0 100 = 0 := by decide +kernel

/-- The last update of the braking table lands: 3 sub-counts asked, 2 left. -/
theorem test_profile_landing :
    profile { p := 9998, v := 103, d0 := 2000, cap := 2000, aEff := 100, aMax := 100, lo := 0, hi := 10000, homed := true, g := none }
      = { p := 10000, v := 0, made := 2, arrival := false, overrun := false } := by decide +kernel

/-- The goto of 01: the first row, the fourth, and the arrival. -/
theorem test_profile_goto :
    let at_ (p v : Int) : ProfileIn :=
      { p := p, v := v, d0 := 500, cap := 2000, aEff := 100, aMax := 100, lo := -9999, hi := 9999, homed := true, g := some 1450 }
    (profile (at_ 0 0)).v = 100 ∧ (profile (at_ 600 300)).v = 365 ∧
      profile (at_ 1395 165) = { p := 1450, v := 0, made := 55, arrival := true, overrun := false } := by decide +kernel

/-- The overrun of 01: r = 300 at a move of 1,300. -/
theorem test_profile_overrun :
    profile { p := 9700, v := 1300, d0 := 0, cap := 2000, aEff := 100, aMax := 100, lo := 0, hi := 10000, homed := true, g := none }
      = { p := 10000, v := 0, made := 300, arrival := false, overrun := true } := by decide +kernel

/-- The division of the drive output rounds toward zero, and it saturates (R22). -/
theorem test_driveOutput :
    driveOutput 256 256 (-1) 0 = -1 ∧ driveOutput 1 0 (-255) 0 = 0 ∧ driveOutput 65535 65535 100000 0 = 32767 ∧
      driveOutput 65535 65535 (-100000) 0 = -32767 := by decide +kernel

/-- The lens table of 02. -/
theorem test_lensFactor :
    let t : List LensPoint := [⟨0, 4096⟩, ⟨20000, 2048⟩, ⟨60000, 512⟩, ⟨100000, 256⟩]
    lensFactor (-500) t = 4096 ∧ lensFactor 0 t = 4096 ∧ lensFactor 20000 t = 2048 ∧ lensFactor 20001 t = 2048 ∧
      lensFactor 30000 t = 1664 ∧ lensFactor 75000 t = 416 ∧ lensFactor 100000 t = 256 ∧ lensFactor 110000 t = 256 := by
  decide +kernel

/-- The coupled hand demands of 02: 900 at full factor, 365, 112 at f_min. -/
theorem test_coupling :
    usedFactor 512 true 4096 = 4096 ∧ usedFactor 512 true 416 = 512 ∧ usedFactor 512 true 0 = 512 ∧
      usedFactor 512 true 4097 = 512 ∧ usedFactor 512 false 4096 = 512 ∧
      scaleDemand 900 4096 = 900 ∧ scaleDemand 900 1664 = 365 ∧ scaleDemand 900 512 = 112 := by decide +kernel

/-- Deadband, gain, saturation, inversion (R30). -/
theorem test_rawDemand :
    deadbanded 100 300 = 200 ∧ deadbanded 100 (-40) = 0 ∧ deadbanded 100 (-300) = -200 ∧ deadbanded 2047 (-2048) = -1 ∧
      rawDemand 200 50 false = 10000 ∧ rawDemand 32767 65535 true = -8388607 := by decide +kernel

/-- The worked offsets of R64, one across the wrap. -/
theorem test_offset :
    offsetOf { ms16 := 5771, phase := 110 } { ms := 71305, phase := 620 } = 1490 ∧
      offsetOf { ms16 := 1, phase := 300 } { ms := 131071, phase := 900 } = 1400 := by decide +kernel

/-- The rows of the slew table of 04, and an even number of values. -/
theorem test_lowerMedian :
    lowerMedian [0, 7, -3, 12, 40] = 7 ∧ slewOf 7 = 2 ∧ lowerMedian [0, 1, -9, 6, 34] = 1 ∧ slewOf 1 = 1 ∧
      lowerMedian [0, 0, -10, 5, 33] = 0 ∧ lowerMedian [0, -40] = -40 ∧ lowerMedian [0, 40] = 0 := by decide +kernel

/-- The zone caps of R78 and a zone's evaluation of R77 with an entry that was never heard. -/
theorem test_zoneCaps :
    let z : ZoneEntry :=
      { number := 1, sensorStation := 7, sensorInput := 0, aStation := 4, aLo := 0, aHi := 40000, bPresent := 0
        bStation := 0, bLo := 0, bHi := 0, members := 2, fraction := 64 }
    zoneCap 6000 z = 1500 ∧ zoneCap 6000 { z with fraction := 200 } = 4687 ∧ zoneCap 8388607 { z with fraction := 255 } = 8355839 ∧
      evaluateZone axis z = { crew := true, source := .stale, axisA := .stale, axisB := none, active := true } := by decide +kernel

/-- Newer generations (R131). -/
theorem test_newer : newer 4 3 = true ∧ newer 0 255 = true ∧ newer 3 200 = true ∧ newer 3 4 = false ∧ newer 128 0 = true ∧
    newer 0 128 = false := by decide

/-- Sequence and page of a take index (R128), and the programs of a page (R134). -/
theorem test_pages :
    pageOf 0 = { seq := 0, page := 1 } ∧ pageOf 126 = { seq := 0, page := 1 } ∧ pageOf 127 = { seq := 0, page := 2 } ∧
      pageOf 1904 = { seq := 0, page := 15 } ∧ pageOf 1905 = { seq := 1, page := 1 } ∧
      pageSteps 1 127 = [.header, .page] ∧ pageSteps 2 127 = [.page] ∧ pageSteps 15 127 = [.page, .segClose] ∧
      pageSteps 15 126 = [.page] := by decide

/-- The header values and the frame lengths of 09. -/
theorem test_frames :
    Frame.header { station := 3, body := .status (ownItems desk) } = 771 ∧
      Frame.header { station := 5, body := .take (.lock 1) } = 341 ∧
      Frame.header { station := 9, body := .stop .hard none } = 9 ∧
      (Frame.lineBits { station := 9, body := .stop .hard none }).length = 47 ∧
      (Frame.lineBits { station := 3, body := .status (ownItems desk) }).length = 254 ∧
      (Frame.lineBits { station := 7, body := .demand (demandOf .wheel 1) }).length = 119 := by decide +kernel

def readBits (b : Body) : List Bool := (Frame.lineBits { station := 9, body := b }).drop 1

/-- What a receiver makes of the bits of a frame: whole at its last end bit, discarded at a changed check bit, at a dominant
separator and at a kind of no frame, and not before (R154, R155, R163). -/
theorem test_frameReading :
    frameWhole (readBits .release) = true ∧ frameWhole (readBits (.stop .hard none)) = true ∧
      frameWhole (readBits (.demand (demandOf .wheel 1))) = true ∧
      frameFails ((readBits (.stop .hard none)).take 36) = false ∧
      frameFails (((readBits (.stop .hard none)).set 37 !(readBits (.stop .hard none))[37]!).take 37) = false ∧
      frameFails ((readBits (.stop .hard none)).set 36 !(readBits (.stop .hard none))[36]!) = true ∧
      frameFails (((readBits .release).set 10 false).take 11) = true ∧ frameFails ((readBits .release).take 10) = false ∧
      frameFails (List.replicate 10 true) = true := by decide +kernel

/-- The commands of port transactions, their answers and the status byte (R178, R179). -/
theorem test_transactions :
    transactionOf [0x20] = .halt ∧ transactionOf [0x21, 7] = .unhalt ∧ transactionOf [0x31, 0x08, 0x01] = .filter 0x0801 ∧
      transactionOf [0x31, 0x08] = .shortTransaction ∧ transactionOf [0x10, 0x11, 0, 6] = .send 0x11 [0, 6] ∧
      transactionOf [0x10, 0x11, 0] = .shortTransaction ∧ transactionOf [0x22, 1] = .badCommand 0x22 ∧
      transactionOf [0x40, 5, 31] = .snapshot 5 31 ∧ transactionOf [0x60] = .restartCommand ∧
      answerByte .bad = 3 ∧ answerByte .empty = 4 ∧
      statusHead { interrupt := true, freePlaces := 3, write := .done } = 0b101110 := by decide +kernel

/-- Payloads (R183). -/
theorem test_payloads :
    Body.bytes (.stop .hard (some .chain)) = [0x81] ∧ Body.bytes (.take (.cue 12 0x82 1 2)) = [1, 12, 0, 0x82, 1, 2] ∧
      Body.bytes (.take (.abort 12 17 3)) = [4, 12, 17, 3, 0, 0] ∧ Body.bytes (.mark 0x1234) = [0x12, 0x34] ∧
      demandBytes (demandOf .lever (-2)) = [0xF1, 0xFF, 0xFE, 0, 0, 0, 0, 0, 0] := by decide +kernel

/-- The check of the bytes 31..39. -/
theorem test_check : crcBytes [0x31, 0x32, 0x33, 0x34, 0x35, 0x36, 0x37, 0x38, 0x39] = 0x29B1 := by decide +kernel

/-- A written header and segment close read back as written, other bytes fail; the lengths of R128 (R128, R184). -/
theorem test_storedFormats :
    partRead (headerPart 12 4 1 2 (-256) 100) = .valid ∧ (headerPart 12 4 1 2 (-256) 100).length = 24 ∧
      readSegClose (List.replicate 24 255 ++ segClosePart 1095 ++ List.replicate 226 255) = some 1095 ∧
      (takeClosePart { length := 3000, endPos := -5, marks := [⟨7, -1, 2⟩] }).length = 207 ∧
      (readMarks (markBytes ⟨7, -1, 2⟩) 1) = [⟨7, -1, 2⟩] ∧
      partRead (List.replicate 6 255) = .erased ∧ partRead [0, 0, 0, 1, 0, 0] = .failed ∧
      (deltaPage [5, -6]).length = 256 ∧ pageDeltas (deltaPage [5, -6]) 3 = [5, -6, -1] := by decide +kernel

def note (sector : Nat) (number : Byte) (g : BitVec 8) (seq : Nat) (c : Option Nat) (close : Option TakeClose) : ScanNote :=
  { sector := sector, number := number, generation := g, seq := seq, mask := 2, startPos := 0, initialMove := 0
    segCount := c, close := close, locked := false }

def notes : List ScanNote :=
  [note 40 12 3 0 (some 1905) (some { length := 3000, endPos := 9, marks := [] }), note 41 12 3 1 (some 1095) none,
    note 517 12 4 0 (some 1905) none, note 519 12 4 1 none none, note 700 30 0 1 (some 1905) none]

def older : Group := { number := 12, generation := 3, notes := notes.take 2 }

def newest : Group := { number := 12, generation := 4, notes := (notes.drop 2).take 2 }

/-- The resolution example of 08: generation 3 of take 12 is COMPLETE and kept, generation 4 is not, take 30 lacks its sequence 0. -/
theorem test_scan_groups : groupNotes notes 12 3 = older.notes ∧ duplicateSectors notes = [] := by decide +kernel
theorem test_scan_keeps : keptGroup [older, newest] = some older ∧ discardedSectors [older, newest] = [517, 519] := by
  decide +kernel
theorem test_scan_take : older.take.state = .complete ∧ older.take.length = 3000 := by decide +kernel
theorem test_scan_broken : (Group.take { number := 30, generation := 0, notes := notes.drop 4 }).state = .broken := by decide +kernel

/-! ### One small step for the commands -/

theorem test_start : (after (.start true (.lost none)) axis).stc.hold = some { kind := .hard, code := some .chain } := by decide +kernel
theorem test_start_kept :
    (after (.start false .kept) (withUnit (.suspended 9 none) axis)).cfg.heldErase = some 9 := by decide +kernel
theorem test_start_cuts_the_block :
    blockIntact (memRun (after (.start false (.lost none)) (withUnit (.erasing 0 false) parked)).flash 0 371) = false := by
  decide +kernel
theorem test_step_tick : (match step State.reset with | .next t => t.cck.phase | _ => 0) = 1 := by decide +kernel
theorem test_strapsRead : (after (.strapsRead inputs) State.reset).cfg.station = some 1 := by decide +kernel
theorem test_update_tracks_and_moves :
    (after (.update inputs) parked).mpr.p = 0 ∧
      (after (.update inputs) { axis with dmr := { axis.dmr with armed := true, handDemand := 70 } }).mpr.p = 70 := by decide +kernel
theorem test_timeOwn :
    (after (.timeOwn inputs) { parked with cck := { Cck.start with ms := 199 } }).cck.timeState = .own := by decide +kernel
theorem test_correction_step :
    (after .correctionApply { axis with cck := { axis.cck with ms := 9, pending := some (.step (-900)) } }).cck.ms = 8 := by
  decide +kernel
theorem test_identification :
    (after (.identification 1 2 24) { parked with cfg := { parked.cfg with startState := .storeId } }).cfg.startState
      = .configLoad := by decide +kernel
theorem test_identification_finishes_the_erase :
    (after (.identification 1 2 24) { parked with
      cfg := { parked.cfg with startState := .storeId, heldErase := some 9 }, flash := [(9 * 4096 + 1, 0), (10 * 4096, 0)] }).flash
      = [(10 * 4096, 0)] := by decide +kernel
theorem test_configLoad_erased :
    (after (.configLoad none) { parked with cfg := { parked.cfg with startState := .configLoad } }).cfg.faultReason
      = some .check := by decide +kernel
theorem test_checks_pass : checkBlock .axis block = none ∧ checkBlock .control { block with role := 1 } = none := by decide +kernel
theorem test_checks_fail :
    checkBlock .axis { block with hi := -10000 } = some (item .hi) ∧
      checkBlock .axis { block with aStop := 99 } = some (item .aStop) ∧
      checkBlock .axis { block with coupling := 0, fMin := 63 } = some (item .routeFMin) ∧
      checkBlock .axis { block with axisKind := 9, lensCount := 2, lens := [⟨0, 64⟩, ⟨0, 64⟩] } = some (itemAt .lensPosition 1) := by
  decide +kernel
theorem test_encoder_illegal : (after (.encoderTransition .illegal false) axis).stc.drive = .stopped := by decide +kernel
theorem test_encoder_plus : measured (after (.encoderTransition .plus false) axis) = 1 := by decide +kernel
theorem test_switchCapture :
    measured (after .switchCapture { axis with hom := { axis.hom with state := .homing, armed := true } }) = -1200 := by
  decide +kernel
theorem test_stall : (after (.stall inputs) seeker).hom.phase = some .backOff := by decide +kernel
theorem test_chainOpen : (after .chainOpen axis).lnk.safety = some (.stop .hard (some .chain)) := by decide +kernel
theorem test_chainClose : (after .chainClose (after .chainOpen axis)).stc.hold.isSome = true := by decide +kernel
theorem test_button : (after (.buttonPress .wake) desk).lnk.fifo = [.wake 6] := by decide +kernel
theorem test_wheel : (after (.wheelTransition 2 .minus) desk).chan.wheels[2] = -1 := by decide +kernel
theorem test_wakingEnd : (after (.wakingEnd inputs) waking).mpr.mode = .hand := by decide +kernel
theorem test_wakingEnd_route :
    let turned (x : Int) := after (.wakingEnd inputs) (after (.demandFrame 7 (demandOf .wheel x)) waking)
    ((turned 19).stc.drive, (turned 19).dmr.armed, (turned 0).dmr.armed) = (.enabled, false, true) := by decide +kernel
theorem test_program :
    memRun (after (.programComplete none) closer).flash (5 * 4096 + 32) 2 = [0x5A, 0xFF] ∧
      (after (.programComplete none) closer).tks.outcome = .completed ∧
      (after (.programComplete none) closer).tsc.bad = [8] ∧
      (let t := after (.programComplete none true) closer;
        t.tsc.reported = true ∧ t.tks.job = .closing ∧ memRun t.flash (5 * 4096 + 32) 2 = [0x5A, 0xFF] ∧
          (after (.programComplete none) t).tks.outcome = .completed) := by decide +kernel
theorem test_program_fails :
    (after (.programComplete (some [0])) closer).tks.outcome = .aborted 10 1 ∧
      (after (.programComplete (some [0])) closer).tsc.bad = [5] ∧
      (after (.programComplete (some [0])) (mk (fun t => { t with takeNumber := 13 }) closer)).tks.takeNumber = 12 := by
  decide +kernel
theorem test_erase :
    let s := withUnit (.erasing 9 false) (tsc (fun t => { t with eraseQueue := [9, 10] }) holder)
    (after (.eraseComplete (some (List.replicate 256 0))) s).tsc.bad = [9] ∧
      (after (.eraseComplete none) s).tsc.unit = .erasing 10 false := by decide +kernel
/-- A read asked for while an erase's check runs waits for it, and one in the erase itself tells it to suspend (R141). -/
theorem test_erase_reported :
    let s := tsc (fun t => { t with eraseQueue := [9], opAge := 998 }) (withUnit (.erasing 9 false) holder)
    let t := after (.eraseComplete none true) s
    t.tsc.reported = true ∧ (requestRead .dropped t.tsc).unit = .erasing 9 false ∧
      (requestRead .dropped s.tsc).unit = .erasing 9 true ∧ (after (.update inputs) t).tsc.opAge = 998 ∧
      (after (.eraseComplete none) t).tsc.eraseQueue = [] := by decide +kernel
/-- A suspend that an update issues has its first update in the next (R127). -/
theorem test_suspend_is_counted_from_the_next_update :
    let s := mk (fun t => { t with k := 126 })
      (withUnit (.erasing 9 false) (tsc (fun t => { t with nextPage := some { seq := 0, page := 2 } }) player))
    let t := after (.update inputs) s
    t.tsc.unit = .erasing 9 true ∧ t.tsc.suspendAge = 0 ∧ (after (.update inputs) t).tsc.suspendAge = 1 := by decide +kernel
theorem test_read_fails_once :
    (after (.readComplete (some [0, 0, 0])) (withUnit (.reading (.slot 0 { seq := 0, page := 1 } 7 false)) holder)).tsc.unit
      = .reading (.slot 0 { seq := 0, page := 1 } 7 true) := by decide +kernel
theorem test_transmitStart :
    (after (.transmitStart quiet) { axis with lnk := { axis.lnk with fifo := [.mark 3] } }).lnk.tx.map (·.slot) = some .command ∧
      (after (.transmitStart (quiet.drop 1)) { axis with lnk := { axis.lnk with fifo := [.mark 3] } }).lnk.tx = none := by
  decide +kernel
theorem test_bitError_fourth :
    (after (.bitError [true, false]) (withTx .command .resume { axis with lnk := { axis.lnk with bitErrors := 3 } })).stc.hold
      = some { kind := .ramp, code := some .linkFault } := by decide +kernel
theorem test_bitError_flag :
    let s := after (.bitError []) (withTx .command .resume axis)
    s.lnk.errorFlag = 12 ∧ (hearLine (quiet ++ quiet) s).lnk.idle = true ∧ (hearLine (quiet ++ quiet.drop 1) s).lnk.idle = false := by
  decide +kernel
theorem test_stuckLine_once :
    let s := after (.stuckLine (List.replicate 64 false)) axis
    s.lnk.linkFault = true ∧ s.lnk.bitErrors = 0 ∧ after (.stuckLine (List.replicate 64 false)) s = s ∧
      (after (.stuckLine (List.replicate 63 false)) axis).lnk.linkFault = false := by decide +kernel
theorem test_receivedStartBit :
    (after (.receivedStartBit quiet) axis).lnk.receiving = true ∧
      (after (.receivedStartBit (quiet.drop 1)) axis).lnk.receiving = false := by decide +kernel
theorem test_frameDiscard :
    let s := after (.receivedStartBit quiet) axis
    let t := after (.frameDiscard (List.replicate 10 true)) s
    t.lnk.rxErrors = 1 ∧ (after (.frameDiscard (List.replicate 10 true)) t).lnk.rxErrors = 1 ∧
      (after (.frameDiscard (readBits .release)) s).lnk.rxErrors = 0 := by decide +kernel
theorem test_faultPauseEnd :
    let s : State := { axis with lnk := { axis.lnk with faultPause := true } }
    (after (.faultPauseEnd (List.replicate 255 true)) s).lnk.faultPause = true ∧
      (after (.faultPauseEnd (List.replicate 256 true)) s).lnk.faultPause = false := by decide +kernel
theorem test_transmitComplete :
    (after .transmitComplete (withTx .demand (.demand (demandOf .wheel 7))
      { desk with chan := { desk.chan with wheels := #v[12, 0, 0, 0] } })).chan.wheels[0] = 5 := by decide +kernel
theorem test_stopFrame : (after (.stopFrame 9 .ramp none) axis).stc.drive = .stopped := by decide +kernel
theorem test_resume :
    (after (.resume 7) (peer (ownItems desk) 1 (after .halt { axis with stc := Stc.start }))).stc.hold.isSome = true := by
  decide +kernel
theorem test_wake : (after (.wake 7 2) parked).stc.drive = .waking := by decide +kernel
theorem test_wake_refused : (after (.wake 7 2) { parked with stc := { Stc.start with chainOpen := true } }).stc.wakeRefused = true := by
  decide +kernel
theorem test_park : (after (.park 7 2) { axis with mpr := { axis.mpr with v := 5 } }).stc.parkPending = true := by decide +kernel
theorem test_home : (after (.home 7 2) axis).hom.phase = some .seek := by decide +kernel
/-- An origin change moves p by what e moves, across the wrap of the raw count too (R18, R21). -/
theorem test_origin_change_keeps_the_error :
    let s := withBlock (fun b => { b with homeMode := 2, homeOffset := -200000000, lo := -268435456 })
      { axis with svo := { axis.svo with raw := 100000000 }, mpr := { axis.mpr with p := 100000000 * 256 } }
    let t := after (.home 7 2) s
    t.mpr.p = -200000000 * 256 ∧ measured t = -200000000 ∧ t.stc.overrunLatch = false := by decide +kernel
theorem test_demandFrame : (after (.demandFrame 7 (demandOf .wheel 19)) axis).dmr.pendingWheel = 19 := by decide +kernel
theorem test_statusFrame :
    (after (.statusFrame 9 { ownItems desk with hold := some { kind := .hard, code := none } }) axis).stc.drive = .stopped := by
  decide +kernel
/-- Another node's STATUS naming station 0 is a duplicate on a node of station 0 (R55, R164, R169). -/
theorem test_status_at_station_zero :
    let zero := cfg (fun c => { c with station := some 0 }) axis
    (after (.statusFrame 0 (ownItems desk)) zero).ptb.duplicates = 1 ∧
      (after (.statusFrame 0 (ownItems desk)) axis).ptb.duplicates = 0 := by decide +kernel
theorem test_takePrepare : (after (.takePrepare 7 12 2) axis).tks.job = .prepared := by decide +kernel
theorem test_takeCue : (after (.takeCue 7 12 2 0 0) holder).tks.job = .cueing := by decide +kernel
theorem test_takeCue_broken : (after (.takeCue 7 13 2 0 0) holder).tks.outcome = .refused 5 := by decide +kernel
theorem test_takeCut_late : (after (.takeCut 7 12 0) recorder).tks.outcome = .aborted 13 1 := by decide +kernel
/-- A CUT as far before the next update as an index can lie replaces a far one present and is reached at the next result (R121). -/
theorem test_takeCut_far_past :
    let s := after (.takeCut 7 12 0x8001) (mk (fun t => { t with cutTime := some 10001 }) player)
    s.tks.cutTime = some 0x8001 ∧ (after (.update inputs) s).tks.job = .runout := by decide +kernel
theorem test_takeLock_shown_when_idle :
    (after (.takeLock 7 12 none) (mk (fun t => { t with job := .cued, jobTake := 12 }) holder)).tks.outcome = .none := by
  decide +kernel
theorem test_takeLock : (after (.takeLock 7 12 none) holder).tsc.unit = .programming { work := .lock 12, address := 7 * 4096 + 255, data := [0] } := by
  decide +kernel
theorem test_unnamedTake :
    (after (.takeLock 7 12 (some { excess := 248, rest := #v[1, 2, 3, 4] })) axis).tks = axis.tks ∧
      (after (.takeLock 7 12 (some { excess := 248, rest := #v[1, 2, 3, 4] }))
        { axis with cpt := { axis.cpt with filter := 0x7FF } }).cpt.rxQueue.map (·.payload) = [[255, 12, 1, 2, 3, 4]] := by
  decide +kernel
theorem test_takeDelete :
    (after (.takeDelete 7 12) holder).tsc.directory = [] ∧ (after (.takeDelete 7 12) holder).tsc.eraseQueue = [7] ∧
      (after (.takeDelete 7 12) holder).tsc.bad = [8] := by decide +kernel
theorem test_mark : (after (.mark 7 1) recorder).tks.marks = [{ index := 5, at_ := some (0, 0) }] := by decide +kernel
theorem test_send_bad_mask : (after (.send 0x11 [0, 3]) axis).cpt.answer = some .bad := by decide +kernel
theorem test_receive :
    (after .receive (after (.mark 7 0x0102) axis)).cpt.response = .entry [1, 0x67, 0, 0, 0, 0, 0, 1, 2] := by decide +kernel
theorem test_filter : (after (.filter 0x0800) axis).cpt.answer = some .bad := by decide +kernel
theorem test_snapshot : (after (.snapshot 6 0) axis).freeCount = 1 ∧ (after (.snapshot 1 0) axis).cpt.answer = some .bad := by
  decide +kernel
theorem test_configWrite : (after (.configWrite (List.replicate 371 0)) parked).tsc.unit = .erasing 0 false := by decide +kernel
theorem test_badCommand :
    (after (.badCommand 0x22) axis).cpt.answer = some .bad ∧ (after (.badCommand 0x20) axis).cpt.answer = none ∧
      (after (.badCommand 0x20) axis).cpt.began = true := by decide +kernel
/-- The status byte of a FILTER is the one at its command byte, whether it is taken or cut in its payload (R178). -/
theorem test_status_of_the_command_byte :
    let s := after (.resume 7) (after (.badCommand 0x31) axis)
    (portStatus s).interrupt = true ∧ ((after .shortTransaction s).cpt.status).map (·.interrupt) = some false ∧
      ((after (.filter 7) s).cpt.status).map (·.interrupt) = some false ∧
      ((after .shortTransaction (after (.filter 7) s)).cpt.status).map (·.interrupt) = some true := by decide +kernel
theorem test_firstCause :
    firstCause (after .chainOpen State.reset) = some .own ∧ firstCause (after .chainOpen axis) = some .own ∧
      firstCause (after (.stopFrame 9 .hard none) axis) = some (.station 9) ∧
      firstCauseStation (after .chainOpen axis) = some 1 := by decide +kernel
theorem test_snapshot_copies :
    (match snapshotCopy 0 0 (after .chainOpen { axis with svo := { axis.svo with raw := 7 } }) with
      | some (.node _ _ stops _ _ e _ _ _ offsets) =>
        e == 7 && offsets.length == 15 && offsets.contains { station := 1, offset := 0, valid := true } && stops.firstCause == some .own && (stops.causes.filter fun c => c.condition).map (·.cause) == [.chain]
      | _ => false) = true ∧
    (match snapshotCopy 6 0 (after .chainOpen axis) with
      | some (.link _ headers _ _ _ _ _) => headers.safety == some { kindNumber := 0, station := some 1 }
      | _ => false) = true := by decide +kernel
theorem test_snapshot_demand :
    let shown (s : State) : Int := match snapshotCopy 0 0 s with | some (.node _ _ _ _ _ _ _ dmr _ _) => dmr.rawDemand | _ => 1
    let turned := after (.demandFrame 7 (demandOf .wheel 19)) axis
    (shown turned, shown (after (.update inputs) turned)) = (0, 190) ∧ turned.dmr.pendingWheel = 19 ∧
      turned.dmr.shown.pendingWheel = 0 := by decide +kernel
theorem test_format : (after .format axis).cpt.answer = some .notNow := by decide +kernel
theorem test_restartCommand : (after .restartCommand parked).cfg.startState = .storeId := by decide +kernel

/-! ### A state for every hypothesis of the statements -/

def prof : ProfileIn :=
  { p := 0, v := 0, d0 := 500, cap := 500, aEff := 100, aMax := 100, lo := -100, hi := 100, homed := true, g := none }

theorem witness_StepRunsFrontCommand : ({ parked with pending := [.halt] } : State).pending = .halt :: [] := rfl
theorem witness_IdleStepTicks : parked.pending = [] ∧ ({ parked with cck := { parked.cck with phase := 499, pending := some (.slew 1) } } : State).pending = [] :=
  ⟨rfl, rfl⟩
theorem witness_StartResetsEveryBlock :
    memoryForm (withUnit (.erasing 9 false) axis) ∧ (withUnit (.suspended 9 none) axis).tsc.unit = .suspended 9 none ∧
      (withUnit (.erasing 9 true) axis).tsc.unit = .erasing 9 true ∧ (withUnit (.erasing 0 false) axis).tsc.unit = .erasing 0 false ∧
      (closer.tsc.unit ≠ .idle ∧ axis.tsc.unit = .idle ∧ axis.cfg.heldErase = none) ∧
      (withUnit (.reading .scan) axis).tsc.unit = .reading .scan ∧ MemoryPower.lost none ≠ .kept ∧
      (withUnit (.programming { work := .config 0, address := 0, data := [0x4E] }) axis).tsc.unit
        = .programming { work := .config 0, address := 0, data := [0x4E] } := by unfold memoryForm; decide +kernel
theorem witness_StepKeepsMemoryForm : memoryForm axis := by unfold memoryForm; decide +kernel
theorem witness_StepKeepsStops : stopSafe axis := by
  refine ⟨by decide +kernel, by decide +kernel, by decide +kernel, ?_⟩
  intro c; cases c <;> decide +kernel
theorem witness_StepKeepsCheckedParameters : configSafe axis ∧ configSafe desk :=
  ⟨⟨by decide +kernel, _, rfl, by decide +kernel⟩, ⟨by decide +kernel, _, rfl, by decide +kernel⟩⟩
theorem witness_StepKeepsJobs : jobSafe recorder ∧ jobAbortable recorder.tks.job = true := by unfold jobSafe; decide +kernel
theorem witness_StepKeepsSoftLimits : travelSafe axis ∧ axis.hom.state = .homed :=
  ⟨⟨fun _ _ => ⟨_, rfl, by decide +kernel⟩, by decide +kernel, by decide +kernel, by decide +kernel⟩, by decide +kernel⟩
theorem witness_StepKeepsMoveLimit : moveSafe { axis with mpr := { axis.mpr with v := 2000 } } := by unfold moveSafe; decide +kernel
theorem witness_ProfileKeepsLaws : profileOrdered prof 500 ∧ profileOrdered { prof with p := 100, g := some 100 } 500 := by
  unfold profileOrdered; decide +kernel
theorem witness_BrakingSpeed : (2 ^ 64 - 1 : Nat) < 2 ^ 64 ∧ (100 * 100 + 8 * 100 * 5530 : Int) < 2 ^ 64 := by decide +kernel
theorem witness_StageFourLimitsTheChange :
    let d1 (i : ProfileIn) := boundGoto i (boundLimits i (stageCap i))
    0 ≤ prof.aEff ∧ ({ prof with v := 300 } : ProfileIn).aEff < 300 - d1 { prof with v := 300 } ∧
      prof.aEff < d1 { prof with hi := 90000 } - prof.v := by decide +kernel
theorem witness_ProfileStages :
    let w (v d : Int) : ProfileIn := { prof with v := v, d0 := d, homed := false }
    (0 ≤ prof.cap ∧ prof.lo ≤ prof.hi ∧ 0 ≤ vLim |(50 : Int) - 0| 100) ∧
      (0 + stageMove (w 0 100) ≤ 100 ∧ -100 ≤ 0 + stageMove (w 0 100)) ∧
      (100 < 40 + stageMove { w 0 100 with p := 40 } ∧ |stageMove { w 0 100 with p := 40 }| ≤ 100) ∧
      (-40 + stageMove { w 0 (-100) with p := -40 } < -100 ∧ |stageMove { w 0 (-100) with p := -40 }| ≤ 100) ∧
      (100 < 0 + stageMove (w 300 0) ∧ 100 < |stageMove (w 300 0)|) ∧
      (0 + stageMove (w (-300) 0) < -100 ∧ 100 < |stageMove (w (-300) 0)|) ∧
      (|stageMove { w 0 50 with g := some 10 }| ≤ 100 ∧ (0 : Int) < 10 ∧ 10 ≤ 0 + stageMove { w 0 50 with g := some 10 }) ∧
      (stageMove { w 0 0 with g := some 0 } = 0) ∧
      (100 < |stageMove { w 250 0 with g := some 10, hi := 900 }| ∧ 0 + stageMove { w 250 0 with g := some 10, hi := 900 } ≤ 900) := by
  decide +kernel
theorem witness_PlaybackStepIsExactOrHold :
    (|(4 : Int)| ≤ speedCap player ∧ |4 - player.mpr.v| ≤ 2 * param player (fun b => b.aMax) ∧ travelLo player ≤ player.mpr.p + 4 ∧
      player.mpr.p + 4 ≤ travelHi player) ∧ speedCap player < |(2001 : Int)| := by decide +kernel
theorem witness_PlaybackStepIsExactOrHold_aborts :
    let late := mk (fun t => { t with k := 127 }) player
    let fast := mk (fun t => { t with playMove := some 201 }) player
    (late.tsc.deltaAt late.tks.k = none ∧ updateQuiet inputs late ∧ late.tks.job = .running ∧ late.lnk.fifo.length < 4) ∧
      (fast.tsc.deltaAt fast.tks.k = some 1 ∧ updateQuiet inputs fast ∧ inputs.zonesFirst = false ∧
        2 * param fast (fun b => b.aMax) < |1 + 201 - fast.mpr.v|) := by unfold updateQuiet; decide +kernel
theorem witness_DriveOutputAndLines :
    (axis.stc.drive = .enabled ∧ axis.mpr.mode ≠ .homing ∧ |axis.mpr.p - measured axis * 256| ≤ param axis (fun b => b.followMax) * 256) ∧
      (let s := { axis with mpr := { axis.mpr with p := 10241 } };
        param s (fun b => b.followMax) * 256 < |s.mpr.p - measured s * 256| ∧ s.svo.follow < 3) ∧
      seeker.mpr.mode = .homing ∧ parked.stc.drive = .parked ∧ axisUp desk = false ∧ restartAccepted parked = true := by decide +kernel
theorem witness_DriveOutputAndLines_restart : moveSafe desk := by unfold moveSafe; decide +kernel
theorem witness_HandDemandOfAnUpdate :
    axisUp axis = true ∧ axis.cfg.params = some block ∧ stationOf block.source = 7 ∧
      (after (.demandFrame 7 (demandOf .wheel 19)) axis).dmr.lastKind = some .wheel ∧
      (after (.demandFrame 7 (demandOf .lever 19)) axis).dmr.lastKind = some .lever ∧
      (demandUpdate (after (.demandFrame 7 (demandOf .lever 20)) axis)).dmr.armed = true ∧
      (demandUpdate axis).dmr.stale = true ∧ parked.mpr.mode ≠ .hand ∧
      (let s := peer { ownItems desk with factor := 4096 } 12 (withBlock (fun b => { b with coupling := 7 }) axis);
        (peerEntry s 7).age ≤ 12 ∧ (peerEntry s 7).items.isSome = true) := by decide +kernel

def lens : List LensPoint := [⟨0, 4096⟩, ⟨20000, 2048⟩]

theorem witness_HandDemandOfAnUpdate_zoom :
    let zoom := withBlock (fun b => { b with axisKind := 9, lensCount := 2, lens := lens }) axis
    let t := after (.update inputs) zoom
    (zoom.stc.hold = none ∧ t.stc.hold = none ∧ axisUp t = true ∧ t.hom.state = .homed ∧
        t.cfg.params.map (fun b => (b.axisKind, b.lens)) = some (9, lens) ∧ lens.Pairwise (fun x y => x.pos < y.pos)) ∧
      (lens[0]?.map (·.pos) = some 0 ∧ lens[1]?.map (·.pos) = some 20000 ∧ t.mpr.p / 256 = 0 ∧ t.mpr.factor = 4096) ∧
      (after (.update inputs) axis).mpr.factor = 0 ∧ (after .halt zoom).stc.hold ≠ none := by decide +kernel

def zone : ZoneEntry :=
  { number := 8, sensorStation := 1, sensorInput := 3, aStation := 1, aLo := 0, aHi := 0, bPresent := 1
    bStation := 7, bLo := 0, bHi := 0, members := 2, fraction := 255 }

theorem witness_MemberCapOfTheActiveZones :
    let s := withBlock (fun b => { b with zones := [zone] }) axis
    axisUp s = true ∧ (memberZones s).filter (fun z => (evaluateZone s z).active) = [zone] ∧
      (memberZones axis).filter (fun z => (evaluateZone axis z).active) = [] ∧ controlUp desk = true := by decide +kernel
theorem witness_ZoneEvaluation :
    isOwn (stationOf zone.sensorStation) axis = true ∧ isHomed axis = true ∧ isHomed waking = false ∧ isOwn 7 axis = false ∧
      12 < axis.ptb.peers[(7 : Station)].age ∧
      (let s := peer (ownItems desk) 12 axis;
        s.ptb.peers[(7 : Station)].age ≤ 12 ∧ s.ptb.peers[(7 : Station)].items = some (ownItems desk)) := by decide +kernel
theorem witness_ZoneEvaluation_stored :
    let s := withBlock (fun b => { b with zones := [zone] }) axis
    let far := withBlock (fun b => { b with zones := [{ zone with number := 1, aStation := 7 }] }) axis
    (memberZones s = [zone] ∧ zone.number = (7 : Fin 8).val + 1 ∧ (memberZones s).Pairwise (fun x y => x.number ≠ y.number) ∧
        isOwn (stationOf zone.aStation) s = true ∧ updateQuiet inputs s ∧ inputs.zonesFirst = false ∧ s.tks.job = .idle) ∧
      (∀ z ∈ memberZones far, z.number = (0 : Fin 8).val + 1 ∧ isOwn (stationOf z.aStation) far = false ∧
        isOwn (stationOf z.bStation) far = false) ∧
      (∀ z ∈ memberZones far, z.number ≠ (7 : Fin 8).val + 1) ∧
      (after (.update inputs) s).zmn.records[(7 : Fin 8)].isSome = true := by unfold updateQuiet; decide +kernel
theorem witness_ClockDecisionAtAnUpdate :
    (offsetSet axis).length = 1 ∧ State.reset.cck.timeState = .unset ∧
      (let s := { (peer (ownItems desk) 12 axis) with ptb := { axis.ptb with
          peers := axis.ptb.peers.set 7 { items := some (ownItems desk), age := 12, offset := -501, offsetValid := true } } };
        s.cck.timeState ≠ .unset ∧ (offsetSet s).length ≠ 1 ∧ 500 < |lowerMedian (offsetSet s)|) ∧
      (let s := peer (ownItems desk) 12 axis;
        (offsetSet s).length ≠ 1 ∧ |lowerMedian (offsetSet s)| ≤ 500) := by decide +kernel

def nearlyOwn : State := { parked with cck := { Cck.start with ms := 199 } }
def nearlyUnstepped : State := { parked with cck := { parked.cck with timeStepped := true, stepAge := 999 } }
def polling : State := cfg (fun c => { c with startState := .storeId, params := none, storeIdPolls := 999 }) parked
def faulty : State := { axis with svo := { axis.svo with encFault := true, clean := 999 } }
def clearing : State := { axis with zmn := { axis.zmn with
  filters := axis.zmn.filters.set 3 { raw := false, present := true, clear := 39 } } }
def straying : State := { axis with mpr := { axis.mpr with p := 10241 * 2 }, svo := { axis.svo with follow := 2 } }
def deserted : State := peer (ownItems desk) 25 (withBlock (fun b => { b with expected := 0x80 }) axis)

theorem witness_NamedUpdatesAreUpdates :
    (nearlyOwn.cck.timeState = .unset ∧ nearlyOwn.cck.pending = none ∧ (nearlyOwn.cck.ms + 1).toNat = 200) ∧
      (nearlyUnstepped.cck.timeStepped = true ∧ 1000 ≤ nearlyUnstepped.cck.stepAge + 1) ∧ State.reset.cfg.startState = .straps ∧
      (polling.cfg.startState = .storeId ∧ polling.cfg.identIssued = false ∧ polling.tsc.draining = false ∧
        1000 ≤ polling.cfg.storeIdPolls + 1) ∧
      (faulty.svo.encFault = true ∧ 1000 ≤ faulty.svo.clean + 1) ∧ stallDue inputs seeker = true ∧
      (clearing.zmn.filters[(3 : Fin 4)].present = true ∧ inputs.crew.getLsbD 3 = false ∧
        40 ≤ clearing.zmn.filters[(3 : Fin 4)].clear + 1) ∧
      3 ≤ (toServo inputs straying).1.svo.follow ∧ 5 < axis.ptb.demands[(7 : Station)].age ∧
      (after (.update inputs) deserted).ptb.lost ≠ deserted.ptb.lost ∧
      (waking.stc.drive = .waking ∧ 120 ≤ waking.stc.settle + 1) ∧
      (axis.cck.timeState ≠ .unset ∧ axis.cck.timeStepped = false ∧ axis.cfg.startState ≠ .straps ∧ axis.svo.encFault = false ∧
        stallDue inputs axis = false ∧ (toServo inputs axis).1.svo.follow < 3 ∧ axis.stc.drive ≠ .waking ∧
        axis.tsc.unit = .idle ∧ desk.cfg.role ≠ some .axis ∧ axis.zmn.filters[(0 : Fin 4)].clear + 1 < 40) ∧
      (after (.update inputs) axis).ptb.lost = axis.ptb.lost := by decide +kernel
theorem witness_NamedUpdatesAreUpdates_flash :
    (let s := tsc (fun t => { t with unit := .erasing 9 false, opAge := 999 }) axis;
      s.tsc.unit = .erasing 9 false ∧ 1000 ≤ s.tsc.opAge + 1) ∧
    (let s := tsc (fun t => { t with unit := .programming { work := .config 1, address := 256, data := [3] }, opAge := 999 }) axis;
      s.tsc.unit = .programming { work := .config 1, address := 256, data := [3] } ∧ 1000 ≤ s.tsc.opAge + 1) := by decide +kernel
theorem witness_UpdateClockAgesFiltersAndDemand :
    controlUp desk = true ∧ (controlUp axis = false ∧ axis.cfg.startState ≠ .straps) ∧ channelKind desk 0 = .wheel ∧
      channelKind desk 1 = .lever ∧ (nearlyUnstepped.cck.timeStepped = true ∧ axis.cck.timeStepped = false) ∧
      axis.zmn.filters[(0 : Fin 4)].clear + 1 < 40 ∧
      (axis.cfg.station = some 1 ∧ (after (.update inputs) axis).cck.ms.toNat % 4 = 1 ∧
        (after (.update inputs) nearlyUnstepped).cck.ms.toNat % 4 = 1 ∧
        (after (.update inputs) (after (.update inputs) axis)).cck.ms.toNat % 4 ≠ 1) ∧
      (cfg (fun c => { c with station := none }) axis).cfg.station = none ∧
      (inputs.statusPoint = .last ∧ axis.stc.hold = none ∧ (after (.update inputs) axis).stc.hold = none ∧
        operationLate (ageOperation axis.tsc) = false ∧ inputs.causesFirst = false) := by decide +kernel
theorem witness_UpdateFrame :
    let late := tsc (fun t => { t with opAge := 999 }) (withUnit (.erasing 9 false) axis)
    let held := cfg (fun c => { c with heldErase := some 4095 }) polling
    memoryForm axis ∧ operationLate (ageOperation axis.tsc) = false ∧ operationLate (ageOperation late.tsc) = true ∧
      late.tsc.unit = .erasing 9 false ∧ held.cfg.heldErase = some 4095 := by unfold memoryForm; decide +kernel
theorem witness_updateQuiet : updateQuiet inputs axis ∧ updateQuiet inputs waking ∧ updateQuiet inputs seeker ∧
    updateQuiet inputs player ∧ updateQuiet inputs recorder := by
  unfold updateQuiet; decide +kernel
theorem witness_UpdateTracksOrMoves_waking :
    let s := stc (fun t => { t with settle := 118 }) waking
    travelSafe s ∧ travelSafe parked ∧ s.stc.drive = .waking ∧ s.stc.settle + 1 < 120 ∧ (after (.update inputs) s).stc.drive = .waking :=
  ⟨⟨fun _ _ => ⟨_, rfl, by decide +kernel⟩, by decide +kernel, by decide +kernel, by decide +kernel⟩,
    ⟨fun _ _ => ⟨_, rfl, by decide +kernel⟩, by decide +kernel, by decide +kernel, by decide +kernel⟩, by decide +kernel⟩
theorem witness_UpdateTracksOrMoves :
    (parked.stc.drive = .parked ∧ parked.cfg.startState ≠ .straps ∧ parked.hom.state ≠ .homing ∧ jobAbortable parked.tks.job = false) ∧
      (axis.stc.drive = .enabled ∧ axis.mpr.mode = .hand ∧ axis.tks.job = .idle ∧ axis.hom.state ≠ .homing) := by decide +kernel
def cutAt (c : Ms16) (s : State) : State := mk (fun t => { t with cutTime := some c }) s
def rollAt (c : Ms16) (s : State) : State := mk (fun t => { t with rollTime := some c }) s
def preparedAxis : State := mk (fun t => { t with job := .prepared, jobTake := 12, takeNumber := 12, mask := some 2 }) axis
def cuedAxis : State := { holder with
  mpr := { axis.mpr with mode := .hold }
  tks := { player.tks with job := .cued } }
def cueingAxis (g : Int) : State := { cuedAxis with
  mpr := { axis.mpr with mode := .goto_, g := some g }, tks := { player.tks with job := .cueing } }
def runoutAxis (v : Int) : State := { player with
  mpr := { axis.mpr with mode := .runout, v := v }, tks := { player.tks with job := .runout } }
/-- Another station holds. -/
def under (k : StopKind) (s : State) : State := stc (fun t => { t with holders := t.holders.set 9 (some { kind := k, code := none }) }) s
/-- The axis in HOLD with a move, in a drive state, with or without a park pending. -/
def ramping (d : DriveState) (park : Bool) (v : Int) (s : State) : State :=
  { stc (fun t => { t with drive := d, parkPending := park }) s with mpr := { s.mpr with mode := .hold, v := v } }
/-- The axis a sub-count inside its upper limit with a move. -/
def landing (d : DriveState) (park : Bool) (v : Int) (s : State) : State :=
  let s := ramping d park v s
  { s with mpr := { s.mpr with p := 100000 * 256 - 1 } }

/-- An axis on the test block that is homed, within its limits and up. -/
theorem travelSafe_homed {s : State} (given : s.cfg.params = some block) (up : axisUp s = true) (calm : s.hom.armed = false)
    (within : travelLo s ≤ s.mpr.p ∧ s.mpr.p ≤ travelHi s) : travelSafe s :=
  ⟨fun _ _ => ⟨block, given, by decide +kernel⟩, by simp [calm], fun _ => up, fun _ => within⟩
theorem witness_UpdateTracksOrMoves_hand :
    (updateQuiet inputs (ramping .enabled false 0 axis) ∧ (after (.update inputs) (ramping .enabled false 0 axis)).mpr.mode = .hand) ∧
      (updateQuiet inputs preparedAxis ∧ preparedAxis.tks.job = .prepared ∧ preparedAxis.tks.rollTime = none) ∧
      (updateQuiet inputs (cueingAxis 9000) ∧ (toServo inputs (cueingAxis 9000)).2.arrival = false) := by
  unfold updateQuiet; decide +kernel
theorem witness_UpdateTracksOrMoves_modes :
    causeFree (cueingAxis 9000) ∧ (cueingAxis 9000).mpr.mode = .goto_ ∧ causeFree seeker ∧ seeker.mpr.mode = .homing ∧
      (ramping .enabled false 1 axis).mpr.v ≠ 0 ∧ causeFree (ramping .stopping false 2500 (under .ramp axis)) ∧
      (toServo inputs (ramping .stopping false 2500 (under .ramp axis))).1.mpr.v = 1500 := by decide +kernel
theorem witness_UpdateTracksOrMoves_stopping :
    let goes := ramping .stopping false 1001 (under .ramp axis)
    let rests (park : Bool) (s : State) := ramping .stopping park 1000 s
    let parks (v : Int) := ramping .enabled true v axis
    (travelSafe goes ∧ travelSafe (rests true axis) ∧ travelSafe (rests false axis) ∧ travelSafe (rests false (under .ramp axis)) ∧
        travelSafe (parks 100) ∧ travelSafe (parks 101)) ∧
      (causeFree goes ∧ resultCalm inputs goes ∧ (toServo inputs goes).2.rest = false ∧ resultCalm inputs (rests true axis) ∧
        resultCalm inputs (rests false axis) ∧ (toServo inputs (rests true axis)).2.rest = true) ∧
      ((after (.update inputs) goes).stc.drive = .stopping ∧ (after (.update inputs) (rests true axis)).stc.drive = .parked ∧
        (after (.update inputs) (rests false axis)).stc.drive = .parked ∧
        (after (.update inputs) (rests false (under .ramp axis))).stc.drive = .stopped) ∧
      (resultCalm inputs (parks 100) ∧ (toServo inputs (parks 100)).2.rest = true ∧ resultCalm inputs (parks 101) ∧
        (toServo inputs (parks 101)).2.rest = false ∧ (after (.update inputs) (parks 100)).stc.drive = .parked ∧
        (after (.update inputs) (parks 101)).stc.drive = .enabled) := by
  refine ⟨⟨?_, ?_, ?_, ?_, ?_, ?_⟩, by decide +kernel, by decide +kernel, by decide +kernel⟩ <;>
    exact travelSafe_homed rfl (by decide +kernel) rfl (by decide +kernel)
theorem witness_UpdateTracksOrMoves_overrun :
    let runs := landing .enabled false 2000 axis
    let stops (park : Bool) := landing .stopping park 2500 (under .ramp axis)
    (stopSafe runs ∧ travelSafe runs ∧ stopSafe (stops true) ∧ travelSafe (stops true)) ∧
      (causeFree runs ∧ (toServo inputs runs).1.svo.follow < 3 ∧ (toServo inputs runs).2.overrun = true ∧
        runs.stc.overrunLatch = false ∧ (after (.update inputs) runs).stc.drive = .stopped ∧
        (after (.update inputs) runs).stc.hold = some { kind := .ramp, code := some .overrun }) ∧
      ((toServo inputs (stops true)).1.svo.follow < 3 ∧ (toServo inputs (stops true)).2.overrun = true ∧
        (after (.update inputs) (stops true)).stc.drive = .parked ∧ (after (.update inputs) (stops false)).stc.drive = .stopped) := by
  refine ⟨⟨⟨by decide +kernel, by decide +kernel, by decide +kernel, fun c => by cases c <;> decide +kernel⟩, ?_,
    ⟨by decide +kernel, by decide +kernel, by decide +kernel, fun c => by cases c <;> decide +kernel⟩, ?_⟩,
    by decide +kernel, by decide +kernel⟩ <;>
    exact travelSafe_homed rfl (by decide +kernel) rfl (by decide +kernel)
theorem witness_UpdateReplaysAndRecords_replay :
    let s := player
    s.stc.drive = .enabled ∧ s.mpr.mode = .playback ∧ s.tks.job = .running ∧ s.hom.state = .homed ∧ s.tks.cutTime = none ∧
      s.tsc.deltaAt s.tks.k = some 1 ∧ |(1 : Int) + 3| ≤ speedCap s ∧ |(1 : Int) + 3 - s.mpr.v| ≤ 2 * param s (fun b => b.aMax) ∧
      travelLo s ≤ s.mpr.p + 4 ∧ s.mpr.p + 4 ≤ travelHi s ∧ s.tks.k + 1 ≠ s.tks.endIndex.getD 0 ∧
      (mk (fun t => { t with endIndex := some 5 }) s).tks.k + 1 = 5 := by decide +kernel
theorem witness_UpdateReplaysAndRecords_record :
    let s := recorder
    s.stc.drive = .enabled ∧ s.tks.job = .recording ∧ s.hom.state = .homed ∧ s.tks.cutTime = none ∧
      s.tsc.recordingOf = some ({ number := 12, stored := some stored, recording := some recording }, recording) ∧
      operationLate (ageOperation s.tsc) = false ∧ s.tsc.pageBuffer.length + 1 < 127 ∧ ¬(0 < recording.count ∧ recording.count % 1905 = 0) := by
  decide +kernel

theorem witness_UpdateReplaysAndRecords_cut :
    (updateQuiet inputs (cutAt 2 recorder) ∧ (cutAt 2 recorder).cck.timeState ≠ .unset ∧ recorder.tsc.writeQueue.length < 4) ∧
      recorder.tsc.recordingOf.isSome = true ∧ ((2 : Ms16) - (recorder.cck.ms + 1).setWidth 16).toInt - 1 = 0 ∧
      ((1 : Ms16) - (recorder.cck.ms + 1).setWidth 16).toInt - 1 < 0 ∧
      0 < ((3 : Ms16) - (recorder.cck.ms + 1).setWidth 16).toInt - 1 ∧
      updateQuiet inputs (cutAt 2 player) ∧ inputs.zonesFirst = false ∧ player.tsc.deltaAt player.tks.k = some 1 := by
  unfold updateQuiet; decide +kernel
/-- The recorder with n pages waiting, a count, a page buffer, and the ERASED pool 1, 2, 3, 4, 6 less some. -/
def filling (n count : Nat) (buffered : Nat) (queued : List Nat) : State :=
  tsc (fun t => { t with
    pageBuffer := List.replicate buffered 1
    writeQueue := List.replicate n { sector := 5, seq := 0, page := 1, deltas := [1], steps := [.page] }
    directory := [{ number := 12, stored := some stored, recording := some { recording with count := count } }]
    scanNext := 9
    eraseQueue := queued }) recorder

theorem witness_UpdateReplaysAndRecords_pages :
    let page := filling 5 126 126 []
    let segment := filling 0 1905 0
    (updateQuiet inputs page ∧ page.tsc.writeQueue.length < 6 ∧ page.tsc.pageBuffer.length = 126 ∧
        operationLate (ageOperation page.tsc) = false ∧ page.tsc.recordingOf.isSome = true ∧ page.lnk.fifo.length < 4 ∧
        1 < page.tsc.erased ∧ page.tks.storeLowSent = false) ∧
      6 ≤ (filling 6 126 126 []).tsc.writeQueue.length ∧ (filling 0 126 126 [1, 2, 3, 4]).tsc.erased ≤ 1 ∧
      (updateQuiet inputs (segment []) ∧ (segment [1, 2, 3, 4, 6]).tsc.findErased 4095 1 = none ∧
        (segment [1, 2, 3]).tsc.findErased 4095 1 = some 4 ∧ (after (.update inputs) (segment [1, 2, 3])).tsc.erased = 1) := by
  unfold updateQuiet; decide +kernel
theorem witness_UpdateReplaysAndRecords_roll :
    (updateQuiet inputs (rollAt 2 preparedAxis) ∧ updateQuiet inputs (rollAt 2 cuedAxis) ∧ (2 : Ms16) = (axis.cck.ms + 2).setWidth 16 ∧
        (3 : Ms16) ≠ (axis.cck.ms + 2).setWidth 16 ∧ preparedAxis.tks.job = .prepared ∧ cuedAxis.tks.job = .cued) ∧
      (preparedAxis.tsc.recordingOf = none ∧ preparedAxis.tsc.findErased 4095 preparedAxis.tsc.cursor ≠ none ∧
        preparedAxis.tsc.directory.length < 32) ∧
      (tsc (fun t => { t with scanNext := 1 }) preparedAxis).tsc.findErased 4095 1 = none := by
  unfold updateQuiet; decide +kernel
theorem witness_UpdateReplaysAndRecords_cue :
    (updateQuiet inputs (cueingAxis 30) ∧ (toServo inputs (cueingAxis 30)).2.arrival = true ∧
        (toServo inputs (cueingAxis 9000)).2.arrival = false) ∧
      updateQuiet inputs (runoutAxis 0) ∧ (toServo inputs (runoutAxis 0)).2.rest = true ∧
      (toServo inputs (runoutAxis 500)).2.rest = false := by
  unfold updateQuiet; decide +kernel

theorem witness_NamedOutcomesOfAnUpdate :
    nearlyOwn.cck.ms = 199 ∧ nearlyUnstepped.cck.stepAge = 999 ∧ State.reset.cfg.station = none ∧ polling.cfg.storeIdPolls = 999 ∧
      clearing.zmn.filters[(3 : Fin 4)].clear = 39 ∧ faulty.svo.clean = 999 ∧ (after .chainOpen faulty).stc.hold.isSome = true ∧
      axisUp axis = true ∧ 5 < axis.ptb.demands[stationOf block.source].age := by decide +kernel
theorem witness_StallAndWakingEnd_travel : travelSafe waking ∧ updateQuiet inputs waking :=
  ⟨⟨fun _ _ => ⟨_, rfl, by decide +kernel⟩, by decide +kernel, by decide +kernel, by decide +kernel⟩,
    by unfold updateQuiet; decide +kernel⟩
theorem witness_StallAndWakingEnd :
    (stallDue inputs seeker = true ∧ seeker.stc.drive = .enabled ∧ seeker.tks.job = .idle) ∧
      (waking.stc.drive = .waking ∧ waking.stc.settle = 119 ∧ waking.tks.job = .idle ∧ waking.hom.state ≠ .homing) ∧
      (let turned := after (.demandFrame 7 (demandOf .wheel 19)) waking
        let held := after (.demandFrame 7 (demandOf .lever 21)) waking
        waking.cfg.params = some block ∧ waking.dmr.lastKind = none ∧ turned.stc.settle = 119 ∧
          turned.dmr.lastKind = some .wheel ∧ turned.dmr.pendingWheel ≠ 0 ∧
          held.dmr.lastKind = some .lever ∧ (block.deadband : Int) < |leverValue held block|) := by decide +kernel
def homingIn (phase : HomePhase) (v : Int) (g : Option Int) : State := { seeker with
  hom := { seeker.hom with phase := some phase, seekStart := none, stall := 0 }
  mpr := { seeker.mpr with mode := if g.isSome then .goto_ else .hold, v := v, g := g, p := 0 } }

theorem witness_StallAndWakingEnd_homing :
    let far := { seeker with hom := { seeker.hom with stall := 0, seekStart := some (-51000 * 256) } }
    (updateQuiet inputs (homingIn .decel 0 none) ∧ (toServo inputs (homingIn .decel 0 none)).2.rest = true ∧
        (toServo inputs (homingIn .decel 700 none)).2.rest = false) ∧
      (updateQuiet inputs (homingIn .backOff 0 (some 30)) ∧ (toServo inputs (homingIn .backOff 0 (some 30))).2.arrival = true ∧
        (toServo inputs (homingIn .backOff 0 (some 9000))).2.arrival = false) ∧
      param axis (fun b => b.lo) * 256 ≤ (toServo inputs (homingIn .decel 0 none)).1.mpr.p ∧
      (toServo inputs (homingIn .decel 0 none)).1.mpr.p ≤ param axis (fun b => b.hi) * 256 ∧
      (updateQuiet inputs far ∧ stallDue inputs far = false ∧ far.hom.seekStart = some (-51000 * 256) ∧
        param far (fun b => b.homeMaxTravel) * 256 < |(toServo inputs far).1.mpr.p - -51000 * 256|) ∧
      (seeker.hom.seekStart = some 0 ∧ |(toServo inputs seeker).1.mpr.p - 0| ≤ param seeker (fun b => b.homeMaxTravel) * 256) := by
  unfold updateQuiet; decide +kernel
/-- The seek with a stall count, and the error its update leaves. -/
def leading (n : Nat) (err : Int) : State := { seeker with
  hom := { seeker.hom with stall := n }, mpr := { seeker.mpr with p := err - 600 } }
/-- The end of a homing phase at a position. -/
def endingAt (phase : HomePhase) (p : Int) : State := { homingIn phase 0 (if phase = .backOff then some p else none) with
  mpr := { (homingIn phase 0 (if phase = .backOff then some p else none)).mpr with p := p } }

theorem witness_StallAndWakingEnd_stallCount :
    (updateQuiet inputs (leading 3 257) ∧ (toServo inputs (leading 3 257)).1.svo.err = 257 ∧
        (after (.update inputs) (leading 3 257)).hom.stall = 4) ∧
      (updateQuiet inputs (leading 3 256) ∧ (after (.update inputs) (leading 3 256)).hom.stall = 0) ∧
      (stallDue inputs (leading 18 257) = false ∧ stallDue inputs (leading 19 257) = true ∧ stallDue inputs (leading 19 256) = false) ∧
      (param (leading 3 257) (fun b => b.stallThreshold) = 1 ∧ param (leading 3 257) (fun b => b.homeMode) = 1) ∧
      (after (.update inputs) (withBlock (fun b => { b with homeMode := 0 }) (leading 3 257))).hom.stall = 3 := by
  unfold updateQuiet; decide +kernel
theorem witness_StallAndWakingEnd_outside :
    (∀ s ∈ [endingAt .decel (100000 * 256 + 1), endingAt .backOff (-10000 * 256 - 1)], updateQuiet inputs s ∧ s.stc.overrunLatch = false ∧
        (after (.update inputs) s).stc.drive = .stopped ∧ (after (.update inputs) s).hom.state = .homed ∧
        (after (.update inputs) s).stc.hold = some { kind := .ramp, code := some .overrun }) ∧
      (toServo inputs (endingAt .decel (100000 * 256 + 1))).2.rest = true ∧
      (toServo inputs (endingAt .backOff (-10000 * 256 - 1))).2.arrival = true ∧
      (after (.update inputs) (endingAt .decel (100000 * 256))).stc.drive = .enabled := by
  unfold updateQuiet; decide +kernel
theorem witness_StallAndWakingEnd_safe :
    stopSafe (endingAt .decel (100000 * 256 + 1)) ∧ limitsOrdered (endingAt .decel (100000 * 256 + 1)) :=
  ⟨⟨by decide +kernel, by decide +kernel, by decide +kernel, fun c => by cases c <;> decide +kernel⟩,
    fun _ _ => ⟨_, rfl, by decide +kernel⟩⟩
theorem witness_FollowErrorAndPeerLostStopTheAxis :
    (3 ≤ (toServo inputs straying).1.svo.follow ∧ straying.stc.followLatch = false ∧ straying.stc.drive = .enabled) ∧
      (axisUp deserted = true ∧ deserted.stc.drive = .enabled ∧ deserted.stc.parkPending = false ∧ deserted.hom.state ≠ .homing ∧
        (toServo inputs deserted).1.svo.follow < 3 ∧ (toServo inputs deserted).2.overrun = false ∧
        deserted.stc.companionHalt = false ∧ deserted.ptb.lost = 0 ∧ isOwn 7 deserted = false ∧ expected deserted 7 = true ∧
        24 < deserted.ptb.peers[(7 : Station)].age) := by decide +kernel
theorem witness_FlashTimeoutFailsTheOperation :
    let s := tsc (fun t => { t with unit := .erasing 9 false, opAge := 999, eraseQueue := [9, 10] }) axis
    s.tsc.opAge = 999 ∧ s.tks.job = .idle ∧ s.tsc.draining = false ∧ s.tsc.unit = .erasing 9 false ∧ s.tsc.eraseQueue = [9, 10] ∧
      s.tsc.reported = false ∧ axisUp s = true := by decide +kernel
theorem witness_FlashTimeoutFailsTheOperation_forms :
    let late (w : ProgWork) (s : State) := tsc (fun t => { t with opAge := 999 }) (withUnit (.programming { work := w, address := 256, data := [3] }) s)
    let told := tsc (fun t => { t with suspendAge := 999 }) (withUnit (.erasing 9 true) axis)
    (told.tsc.unit = .erasing 9 true ∧ told.tsc.suspendAge = 999 ∧ told.tsc.reported = false) ∧
      (updateQuiet inputs (late (.record .page) recorder) ∧ (late (.record .page) recorder).tks.cutTime = none ∧
        (late (.record .page) recorder).tsc.recordingOf.isSome = true) ∧
      (late .takeClose closer).tks.job = .closing ∧ ((late (.lock 12) holder).tsc.entry 12).isSome = true ∧
      (late (.config 0) axis).tsc.opAge = 999 ∧ (late .abandoned axis).tks.job = .idle ∧
      (let s := tsc (fun t => { t with reported := true }) (withUnit (.erasing 9 false) axis);
        s.tsc.reported = true ∧ s.tsc.opAge + 1 < 1000 ∧ s.tsc.suspendAge + 1 < 1000) := by unfold updateQuiet; decide +kernel
theorem witness_CorrectionIsApplied :
    let dec (c : Correction) (s : State) : State := { s with cck := { s.cck with pending := some c } }
    (dec (.slew 2) axis).cck.pending = some (.slew 2) ∧ (dec (.adopt 5) axis).cck.pending = some (.adopt 5) ∧
      (jobRunning (dec (.step 501) axis) = false ∧ axis.tks.rollTime = none) ∧ jobRunning (dec (.step 501) recorder) = true ∧
      (mk (fun t => { t with job := .prepared, rollTime := some 9 }) axis).tks.rollTime.isSome = true ∧ axis.cck.pending = none := by
  decide +kernel

def loading : State := cfg (fun c => { c with startState := .configLoad, params := none }) parked
def scanning : State := tsc (fun t => { t with scanNext := 4095 }) (cfg (fun c => { c with startState := .scan }) parked)

theorem witness_StartSequenceChecksTheStore :
    polling.cfg.startState = .storeId ∧ polling.tsc.draining = false ∧ loading.cfg.startState = .configLoad ∧ loading.cfg.role = some .axis ∧
      checkBlock .axis block = none ∧ checkBlock .axis { block with role := 1 } = some (item .role) ∧
      ¬((memRun loading.flash 0 371).length = 371 ∧ fieldNat (memRun loading.flash 0 371) 0 2 = 0x4E31) := by decide +kernel
theorem witness_StartSequenceChecksTheStore_checks :
    let zoom := { block with axisKind := 9, lensCount := 2, lens := lens, zoneCount := 1, zones := [zone], expected := 2 }
    let desk := { block with role := 1, zoneCount := 1, zones := [zone] }
    (checkBlock .axis zoom = none ∧ checkBlock .control desk = none ∧ zoom.lens = [] ++ ⟨0, 4096⟩ :: [⟨20000, 2048⟩]) ∧
      checkBlock .axis { zoom with axisKind := 10 } = some (item .axisKind) ∧
      checkBlock .axis { zoom with hi := -10000 } = some (item .hi) ∧
      checkBlock .axis { zoom with lensCount := 17 } = some (item .lensCount) ∧
      checkBlock .control { desk with channelKinds := #v[1, 0, 2, 2] } = some (itemAt .channelKind 2) ∧
      checkBlock .control { desk with zoneCount := 9 } = some (item .zoneCount) ∧
      checkBlock .control { desk with expected := 3 } = some (item .expectedMask) := by decide +kernel
theorem witness_StartSequenceChecksTheStore_entries :
    let zoom (xs : List LensPoint) := checkBlock .axis { block with axisKind := 9, lensCount := 2, lens := xs, expected := 1 }
    let second (z : ZoneEntry) := checkBlock .axis { block with zoneCount := 2, zones := [zone, z], expected := 1 }
    let z := { zone with number := 1 }
    (zoom [⟨5, 64⟩, ⟨5, 64⟩] = some (itemAt .lensPosition 1) ∧ zoom [⟨5, 63⟩, ⟨5, 64⟩] = some (itemAt .lensFactor 0) ∧
        zoom [⟨5, 64⟩, ⟨6, 4097⟩] = some (itemAt .lensFactor 1)) ∧
      (second zone = some (itemAt .zoneNumber 1) ∧ second { z with sensorStation := 0 } = some (itemAt .zoneSensorStation 1) ∧
        second { z with sensorInput := 4 } = some (itemAt .zoneSensorInput 1) ∧
        second { z with aStation := 16 } = some (itemAt .zoneAxisAStation 1) ∧
        second { z with aLo := -268435457 } = some (itemAt .zoneAxisALo 1) ∧ second { z with aHi := -1 } = some (itemAt .zoneAxisAHi 1)) ∧
      (second { z with bPresent := 2 } = some (itemAt .zoneAxisBPresent 1) ∧
        second { z with bStation := 0 } = some (itemAt .zoneAxisBStation 1) ∧
        second { z with bLo := 268435456 } = some (itemAt .zoneAxisBLo 1) ∧
        second { z with bHi := 268435456 } = some (itemAt .zoneAxisBHi 1) ∧
        second { z with bPresent := 0, bStation := 0, members := 1 } = some (itemAt .zoneMembers 1) ∧
        second z = some (item .expectedMask)) := by decide +kernel
theorem witness_ScanReadsAndResolves :
    scanning.cfg.startState = .scan ∧ scanning.tsc.scanNext ≤ 4095 ∧ partRead (headerPart 99 4 1 2 0 0) = .valid ∧
      fieldNat (headerPart 99 4 1 2 0 0) 0 1 = 99 ∧ partRead (headerPart 100 4 1 2 0 0) = .valid := by decide +kernel
theorem witness_ScanReadsAndResolves_groups :
    let done := tsc (fun t => { t with scanNext := 4096, scanNotes := notes }) (cfg (fun c => { c with startState := .scan }) parked)
    notes.Pairwise (fun x y => x.sector < y.sector) ∧ (done.cfg.startState = .scan ∧ done.tsc.scanNext = 4096) ∧
      (older.notes.length = 2 ∧ older.complete.isSome = true ∧ newest.complete = none) ∧
      keptGroup [older, newest] = some older ∧ newer newest.generation older.generation = true := by decide +kernel
theorem witness_RestartRebuildsOrIsRefused :
    restartAccepted parked = true ∧ restartAccepted axis = false ∧ namesOwn 2 parked = true ∧ namesOwn 4 parked = false ∧
      (withTx .command .resume parked).lnk.tx.isSome = true ∧ (withUnit (.erasing 9 false) parked).tsc.unit ≠ .idle := by decide +kernel
theorem witness_EncoderTransitions :
    isControl desk = true ∧ isControl axis = false ∧ faulty.svo.encFault = true ∧ axis.svo.encFault = false ∧ seeker.hom.state = .homing ∧
      seeker.stc.drive = .enabled ∧ jobRunning recorder = true ∧ waking.stc.drive = .waking ∧ parked.stc.drive = .parked := by
  decide +kernel
theorem witness_HomingStartsAndCaptures :
    let preset (o : Int) := withBlock (fun b => { b with homeMode := 2, homeOffset := o }) axis
    let shift (s : State) := countDiff s.svo.origin (s.svo.raw - BitVec.ofInt 29 (param s (fun b => b.homeOffset))) * 256
    axisUp axis = true ∧ namesOwn 2 axis = true ∧ axis.hom.state ≠ .homing ∧ parked.stc.drive ≠ .enabled ∧ recorder.tks.job ≠ .idle ∧
      param axis (fun b => b.homeMode) = 0 ∧ param seeker (fun b => b.homeMode) = 1 ∧ param (preset 0) (fun b => b.homeMode) = 2 ∧
      (preset 100000).mpr.p + shift (preset 100000) = param axis (fun b => b.hi) * 256 ∧
      param axis (fun b => b.hi) * 256 < (preset 100001).mpr.p + shift (preset 100001) ∧
      ({ seeker with hom := { seeker.hom with armed := true } } : State).hom.armed = true := by decide +kernel

theorem witness_StopsInForceMoveTheDrive :
    hardInForce (under .hard axis) = true ∧ (hardInForce (under .ramp axis) = false ∧ stopInForce (under .ramp axis) = true) ∧
      ({ under .ramp axis with mpr := { axis.mpr with v := 1 } } : State).mpr.v ≠ 0 ∧ axis.mpr.v = 0 ∧ stopInForce axis = false ∧
      (stc (fun t => { t with drive := .stopped }) axis).stc.drive = .stopped ∧ jobAbortable recorder.tks.job = true ∧
      seeker.hom.state = .homing := by decide +kernel
theorem witness_StopSources :
    (axis.stc.chainOpen = false ∧ axis.stc.hold = none) ∧
      (after .halt axis).stc.hold = some { kind := .ramp, code := some .halt } ∧
      (after .chainClose (after .chainOpen axis)).stc.hold = some { kind := .hard, code := some .chain } ∧
      isOwn 9 axis = false ∧ isOwn 1 axis = true := by decide +kernel
theorem witness_ResumeClearsAndReleases :
    let s := peer (ownItems desk) 255 (after (.followError inputs) straying)
    ((peerEntry s 7).items = some (ownItems desk) ∧ (ownItems desk).role = .control ∧ s.stc.hold ≠ none ∧ s.stc.followLatch = true) ∧
      formHold (localCauses (peer (ownItems desk) 1 (after .halt axis))) = some { kind := .ramp, code := some .halt } ∧
      (peerEntry axis 7).items = none ∧ axis.stc.hold = none := by decide +kernel
theorem witness_WakeAndParkByTheDriveState :
    (isAxis parked = true ∧ namesOwn 2 parked = true ∧ parked.stc.drive = .parked ∧ stopInForce parked = false ∧ localCauses parked = [] ∧
        rigReady parked = true ∧ parked.cpt.writeState ≠ .inProgress) ∧
      isAxis desk = false ∧ axis.stc.drive = .enabled ∧ ({ axis with mpr := { axis.mpr with v := 1 } } : State).mpr.v ≠ 0 := by
  decide +kernel
theorem witness_ButtonsAndWheels :
    controlUp desk = true ∧ desk.lnk.fifo.length < 4 ∧ 4 ≤ (lnk (fun l => { l with fifo := [.resume, .resume, .resume, .resume] }) desk).lnk.fifo.length ∧
      isAxis axis = true ∧ isAxis desk = false := by decide +kernel
theorem witness_TransmitStartOffersTheLowestHeader :
    (axis.lnk.tx = none ∧ axis.lnk.receiving = false ∧ axis.lnk.faultPause = false ∧ axis.cfg.startState ≠ .straps ∧
        axis.cfg.station = some 1 ∧ 12 ≤ (hearLine quiet axis).lnk.recessiveRun ∧ (hearLine quiet axis).lnk.errorFlag = 0 ∧
        (hearLine (quiet.drop 1) axis).lnk.recessiveRun < 12) ∧
      (after .chainOpen axis).lnk.safety = some (.stop .hard (some .chain)) ∧ (after (.buttonPress .resume) desk).lnk.fifo = [.resume] ∧
      (after (.update inputs) desk).lnk.demand.isSome = true ∧
      (after (.update { inputs with straps := 0 }) { axis with cck := { axis.cck with ms := 4 } }).lnk.status.isSome = true := by
  decide +kernel
theorem witness_AttemptsReceptionsAndErrors :
    let pausing := lnk (fun l => { l with faultPause := true }) axis
    ((withTx .status .resume axis).lnk.tx.isSome = true ∧ axis.lnk.tx = none ∧ axis.lnk.receiving = false ∧ axis.lnk.bitErrors < 3 ∧
        (lnk (fun l => { l with bitErrors := 3 }) axis).lnk.linkFault = false) ∧
      (12 ≤ (hearLine quiet axis).lnk.recessiveRun ∧ (hearLine (quiet.drop 1) axis).lnk.recessiveRun < 12) ∧
      (after (.receivedStartBit quiet) axis).lnk.receiving = true ∧ frameFails (List.replicate 10 true) = true ∧
      frameFails [true] = false ∧ (hearLine (List.replicate 64 false) axis).lnk.dominantRun = 64 ∧
      (hearLine [false] axis).lnk.dominantRun ≠ 64 ∧ pausing.lnk.faultPause = true ∧
      256 ≤ (hearLine (List.replicate 256 true) pausing).lnk.pauseCount ∧
      (hearLine (List.replicate 255 true) pausing).lnk.pauseCount < 256 := by decide +kernel
theorem witness_CompletionsClearTheirSlots :
    let s := withTx .demand (.demand (demandOf .wheel 7)) desk
    (s.lnk.tx.map (fun x => (x.slot, x.frame.station, x.orphan)) = some (.demand, 7, false) ∧ s.cfg.station = some 7 ∧ s.tks.held = none ∧
        isControl s = true) ∧
      (withTx .safety .release axis).lnk.tx.map (·.frame.body) = some .release ∧
      (let h := mk (fun t => { t with held := some { n := 12, reason := 3, origin := 7 } })
          (lnk (fun l => { l with fifo := [.home 2, .resume, .resume, .resume] }) (withTx .command (.home 2) desk));
        h.tks.held.isSome = true ∧ h.lnk.fifo.length = 4 ∧ isAxis h = false) ∧
      (let h := mk (fun t => { t with held := some { n := 12, reason := 3, origin := 1 } })
          (lnk (fun l => { l with fifo := [.home 2, .resume, .resume, .resume] }) (withTx .command (.home 2) axis));
        h.tks.held.isSome = true ∧ h.lnk.fifo.length = 4 ∧ isAxis h = true ∧ ownStation h = 1 ∧
          (after .heldAbortPlace h).hom.phase = some .seek) := by decide +kernel
theorem witness_FramesJoinTheReceiveQueue :
    axis.cpt.filter.getLsbD (Body.place .resume) = true ∧ axis.cpt.filter.getLsbD (Body.place (.wake 2)) = false ∧
      axis.cpt.rxQueue.length < 32 ∧
      32 ≤ ({ axis with cpt := { axis.cpt with rxQueue := List.replicate 32 { header := 0, own := false, time := ⟨0, 0⟩, payload := [] } } }
        : State).cpt.rxQueue.length := by decide +kernel
theorem witness_DemandAndStatusFramesAreRecorded :
    (isOwn 7 axis = false ∧ axis.cfg.params = some block ∧ axisUp axis = true ∧ block.source = (7 : Station).val ∧ axisUp desk = false) ∧
      axis.dmr.lastKind = none ∧ (after (.demandFrame 7 (demandOf .wheel 1)) axis).dmr.lastKind ≠ some .lever ∧ isOwn 1 axis = true ∧
      State.reset.cck.timeState = .unset ∧ (isOwn 7 desk = true ∧ isControl desk = true ∧ isControl axis = false) ∧
      loading.cfg.params = none ∧ (cfg (fun c => { c with station := some 0 }) axis).cfg.station = some 0 := by decide +kernel
theorem witness_PrepareIsTestedAndTaken :
    prepareFails 12 axis = none ∧ prepareFails 12 parked = some .notEnabled ∧
      prepareFails 12 { axis with hom := Hom.start } = some .notHomed ∧ prepareFails 13 recorder = some .busy ∧
      prepareFails 12 (after (.takeLock 7 12 none) holder) = some .locked ∧
      prepareFails 12 (tsc (fun t => { t with scanNext := 8 }) axis) = some .storeFull ∧ namesOwn 2 axis = true ∧ controlUp desk = true ∧
      prepareFails 13 (tsc (fun t => { t with directory := List.replicate 32 { number := 12, stored := none, recording := none } }) axis)
        = some .directoryFull ∧ (after (.takePrepare 7 12 2) axis).tks.mask = some 2 := by decide +kernel
theorem witness_CueIsTestedAndTaken :
    (cueTest 12 0 0 holder).isOk = true ∧ (cueTest 12 0 0 parked).isOk = false ∧ holder.tks.job = .idle ∧ holder.lnk.fifo.length < 4 ∧
      cueMarks holder stored 0 0 = some ({ index := 0, position := 0, move := 0 }, 300) ∧ cueMarks holder stored 1 0 = none ∧
      (after (.takeCue 7 12 2 0 0) holder).tks.cue = some { mask := 2, inMark := 0, outMark := 0 } := by decide +kernel

theorem witness_RollAndCutAreTaken :
    ((preparedAxis.tks.job = .prepared ∧ preparedAxis.tks.jobTake = 12) ∧ preparedAxis.tks.rollTime = none ∧
        participantsReady 12 preparedAxis.tks.job preparedAxis = true ∧
        participantsReady 12 .prepared (mk (fun t => { t with mask := some 6 }) preparedAxis) = false) ∧
      ((5 : Ms16) - preparedAxis.cck.ms.setWidth 16).toInt = 5 ∧ ((10000 : Ms16) - preparedAxis.cck.ms.setWidth 16).toInt = 10000 ∧
      (recorder.tks.job = .recording ∧ recorder.tks.jobTake = 12 ∧ ((1 : Ms16) - (recorder.cck.ms + 1).setWidth 16).toInt = 0 ∧
        recorder.tks.k ≠ 0) ∧ ((0 : Ms16) - (recorder.cck.ms + 1).setWidth 16).toInt < 0 ∧
      10000 < ((10002 : Ms16) - (recorder.cck.ms + 1).setWidth 16).toInt ∧ (player.tks.job = .running ∧ player.tks.jobTake = 12) := by
  decide +kernel
theorem witness_AbortAndMarkAreTaken :
    (closer.tks.job = .closing ∧ closer.tks.jobTake = 12) ∧ jobAbortable player.tks.job = true ∧ axis.tks.job = .idle ∧
      recorder.tks.job = .recording ∧ recorder.tks.marks.length < 12 ∧
      12 ≤ (mk (fun t => { t with marks := List.replicate 12 { index := 3, at_ := none } }) recorder).tks.marks.length ∧
      0 ≤ ((1 : Ms16) - (recorder.cck.ms + 1).setWidth 16).toInt := by decide +kernel
theorem witness_AbortAndMarkAreTaken_pending :
    let s := mk (fun t => { t with marks := [{ index := 6, at_ := none }, { index := 9, at_ := none }] }) recorder
    updateQuiet inputs s ∧ s.tks.job = .recording ∧ s.tsc.recordingOf.isSome = true ∧ s.tsc.writeQueue.length < 6 ∧
      s.tks.marks.map (·.index) = [s.tks.k + 1, 9] ∧ updateQuiet inputs (cutAt 2 s) ∧ (cutAt 2 s).tks.cutTime = some 2 ∧
      (after (.update inputs) s).tks.marks.map (·.at_.isSome) = [true, false] ∧
      (after (.update inputs) (cutAt 2 s)).tks.markLate = true := by unfold updateQuiet; decide +kernel
theorem witness_DeleteAndLock :
    axis.tsc.entry 12 = none ∧ (holder.tsc.entry 12).isSome = true ∧
      ((after (.takeLock 7 12 none) holder).tsc.entry 12).any DirEntry.lockedIn = true ∧ recorder.tks.jobTake = 12 ∧ stored.state = .complete ∧
      stored.lockPending = false ∧ ({ stored with state := .broken } : StoredTake).state = .broken := by decide +kernel
theorem witness_WorkIsStartedAndReadsFill :
    (axis.tsc.unit = .idle ∧ axis.tsc.draining = false ∧ axis.tsc.reads = [] ∧ axis.tsc.writeQueue = [] ∧ axis.tsc.closeList = [] ∧
        axis.tsc.eraseQueue = [] ∧ axisUp axis = true) ∧
      (withUnit (.suspended 9 (some .dropped)) axis).tsc.unit = .suspended 9 (some .dropped) ∧
      stored.segments.find? (fun y => y.seq == 0) = some { sector := 7, seq := 0, programmed := true, retire := false } ∧
      (let s := tsc (fun t => { t with unit := .idle, closeList := [.segClose, .takeClose] }) closer;
        s.tsc.unit = .idle ∧ s.tsc.recordingOf.isSome = true ∧ s.tsc.closing.isSome = true ∧ (5 - 1) / 1905 = 0 ∧
          s.tsc.reads = [] ∧ s.tsc.writeQueue = []) ∧ closer.tsc.closeList = [.takeClose] ∧
      recording.segments.find? (fun y => y.seq == 0) = some { sector := 5, seq := 0, programmed := true, retire := false } := by
  decide +kernel
theorem witness_EraseLeavesTheSectorErased :
    let s := tsc (fun t => { t with unit := .erasing 4095 false, eraseQueue := [4095] }) axis
    memWf s.flash = true ∧ s.tsc.unit = .erasing 4095 false ∧ s.tsc.eraseQueue = [4095] ∧ s.tsc.draining = false ∧
      s.tsc.reported = false ∧ (after (.eraseComplete none true) s).tsc.reported = true := by decide +kernel
theorem witness_EraseLeavesTheSectorErased_block :
    let s := after (.configWrite (List.replicate 371 0)) parked
    let t := after (.eraseComplete none) s
    s.tsc.unit = .erasing 0 false ∧ s.tsc.closeList = [.configErase, .configPage 0, .configPage 1] ∧
      (closeProgram t (.configPage 0)).isSome = true ∧ t.tsc.closeList = [.configPage 0, .configPage 1] ∧
      (after (.programComplete none) t).tsc.closeList = [.configPage 1] := by decide +kernel
theorem witness_ProgramsAreVerified :
    let made := List.zipWith (· &&& ·) (memRun closer.flash (5 * 4096 + 32) 2) [(0x5A : Byte), 0xFF]
    memWf closer.flash = true ∧ made = [0x5A, 0xFF] ∧ 5 * 4096 + 32 + 2 ≤ 16777216 ∧ closer.tsc.closing.isSome = true ∧
      closer.tsc.recordingOf.isSome = true ∧ closer.tks.job = .closing ∧
      List.zipWith (· &&& ·) (memRun [(5 * 4096 + 32, 0)] (5 * 4096 + 32) 2) [(0x5A : Byte), 0xFF] ≠ [0x5A, 0xFF] ∧
      (tsc (fun t => { t with closeList := [.segClose, .takeClose] }) closer).tsc.closeList = [.segClose, .takeClose] ∧
      closer.tks.jobTake = 12 ∧ (closer.tsc.reported = false ∧ (operationReported closer).tsc.reported = true) := by
  decide +kernel
theorem witness_VerifyFailureEndsTheRecording :
    let p : Program := { work := .record .page, address := 5 * 4096 + 256, data := [1, 2] }
    let s := withUnit (.programming p) recorder
    s.tsc.unit = .programming p ∧ s.tsc.draining = false ∧
      leftRun (some [7, 7]) (programMade p s) ≠ p.data ∧ leftRun none (programMade p (operationReported s)) ≠ p.data ∧
      s.tks.job = .recording ∧
      (withUnit (.programming p) closer).tks.job = .closing := by decide +kernel
theorem witness_SendQueuesTheFrameItSpells :
    (axis.cfg.startState = .parked ∧ desk.cfg.startState = .run ∧ loading.cfg.startState ≠ .run) ∧ sendBody false 0x10 [] = none ∧
      sendBody false 0x11 [0, 2] = some (.wake 2) ∧ axis.lnk.fifo.length < 4 ∧ 6 < (7 : Byte).toNat := by decide +kernel
theorem witness_HaltUnhaltAndFilter :
    axis.cfg.startState ≠ .configFault ∧ (after .halt axis).stc.haltLatch = true ∧
      (axis.stc.haltLatch = false ∧ axis.stc.hold = none ∧ localCauses axis = []) ∧ (2047 : BitVec 16).toNat < 2048 ∧
      2048 ≤ (2048 : BitVec 16).toNat ∧ ({ axis with mpr := { axis.mpr with v := 1 } } : State).mpr.v ≠ 0 := by decide +kernel
theorem witness_ReceiveSnapshotAndBadTransactions :
    axis.cpt.rxQueue = [] ∧ (after (.resume 7) axis).cpt.rxQueue.length = 1 ∧ (after .receive (after (.resume 7) axis)).cpt.copying = true ∧
      axis.cpt.shortCount < 255 ∧ (axis.cpt.began = false ∧ (after (.badCommand 0x60) axis).cpt.began = true) ∧ (0x22 : Byte) ∉ [0x10, 0x20, 0x21, 0x30, 0x31, 0x40, 0x50, 0x51, 0x60] := by decide +kernel
theorem witness_ConfigWriteAndFormat :
    parked.cpt.writeState ≠ .inProgress ∧ (parked.cfg.startState = .parked ∧ parked.stc.drive = .parked) ∧ axisUp parked = true ∧
      parked.tks.job = .idle ∧ parked.tsc.closeList = [] ∧ axis.stc.drive ≠ .parked ∧
      (after (.configWrite []) parked).cpt.writeState = .inProgress := by decide +kernel
theorem witness_AgreedTimeStaysAgreed :
    (isOwn 7 axis = false ∧ axis.cck.timeState = .own ∧ (ownItems desk).timeState ≠ .unset) ∧
      (let s := { (peer (ownItems desk) 12 axis) with cck := { axis.cck with timeState := .agreed } };
        s.cck.timeState = .agreed ∧ s.cfg.startState ≠ .straps ∧ s.ptb.peers[(7 : Station)].age ≤ 12 ∧
        s.ptb.peers[(7 : Station)].offsetValid = true ∧ s.ptb.peers[(7 : Station)].offset = 40) := by decide +kernel

end Sys2Proof.Tests
end

