-- ==== Sys2Proof/Proofs/Profile.lean ====
section
/-! SUPPORT. The arithmetic of the profile update: the braking speed, the stages, and the laws that one update keeps (R7 to R13). -/

namespace Sys2Proof.Machine

open Sys2Proof.Safety

/-! ### The braking speed (R9) -/

/-- The bit-by-bit square root is no smaller than any root of a square within its term that its bits can reach. -/
theorem le_isqrtFrom (n k : Nat) (square : k * k ≤ n) : ∀ b x : Nat, k < x + 2 ^ b → k ≤ isqrtFrom n b x
  | 0, x, reach => by simp only [isqrtFrom]; omega
  | b + 1, x, reach => by
    simp only [isqrtFrom]
    split
    · exact le_isqrtFrom n k square b _ (by rw [pow_succ] at reach; omega)
    · rename_i past
      refine le_isqrtFrom n k square b x (lt_of_not_ge fun le => past ?_)
      exact (Nat.mul_le_mul le le).trans square

/-- The square root of a 64-bit term is its floor square root. -/
theorem isqrt_spec {n : Nat} (small : n < 2 ^ 64) :
    isqrt n * isqrt n ≤ n ∧ n < (isqrt n + 1) * (isqrt n + 1) :=
  isqrtFrom_spec n 32 0 (by omega) (by omega)

theorem isqrt_square {k : Nat} (small : k * k < 2 ^ 64) : isqrt (k * k) = k := by
  obtain ⟨lower, upper⟩ := isqrt_spec small
  exact le_antisymm (Nat.mul_self_le_mul_self_iff.mp lower) (Nat.lt_succ_iff.mp (Nat.mul_self_lt_mul_self_iff.mp upper))

/-- The root in the braking speed is no less than the acceleration. -/
theorem accel_le_root {r a : Int} (room : 0 ≤ r) (accel : 0 ≤ a) (small : a < 2 ^ 32) :
    a ≤ isqrt (a * a + 8 * a * r).toNat := by
  have square : a.toNat * a.toNat ≤ (a * a + 8 * a * r).toNat := by
    have : 0 ≤ a * r := mul_nonneg accel room
    zify
    rw [Int.toNat_of_nonneg accel, Int.toNat_of_nonneg] <;> nlinarith
  have := le_isqrtFrom _ _ square 32 0 (by omega)
  simp only [isqrt]
  omega

theorem vLim_nonneg {r a : Int} (room : 0 ≤ r) (accel : 0 ≤ a) (small : a < 2 ^ 32) : 0 ≤ vLim r a := by
  have := accel_le_root room accel small
  simp only [vLim]
  omega

theorem vLim_zero {a : Int} (accel : 0 ≤ a) (small : a * a < 2 ^ 64) : vLim 0 a = 0 := by
  obtain ⟨k, rfl⟩ := Int.eq_ofNat_of_zero_le accel
  have term : ((k : Int) * k).toNat = k * k := Int.toNat_natCast (k * k)
  simp [vLim, term, isqrt_square (show k * k < 2 ^ 64 by exact_mod_cast small)]

/-- Settles O13: the square root is the floor square root, and the braking speed halves it less a with the floor. -/
theorem brakingSpeed : Obligations.BrakingSpeed := by
  unfold Obligations.BrakingSpeed
  refine ⟨fun n small => isqrt_spec small, fun r a room accel small => ?_⟩
  have square : a * a < 2 ^ 64 := by nlinarith [mul_nonneg accel room]
  refine ⟨vLim_nonneg room accel (by nlinarith), vLim_zero accel square, ?_⟩
  simp only [vLim]
  omega

/-! ### The stages of one profile update (R8 to R12) -/

theorem stageCap_eq {i : ProfileIn} (cap : 0 ≤ i.cap) : stageCap i = max (-i.cap) (min i.cap i.d0) :=
  clampInt_eq (by omega) _

/-- Stages 1 to 3: the demand that stage 4 approaches. -/
def boundDemand (i : ProfileIn) : Int := boundGoto i (boundLimits i (stageCap i))

theorem stageMove_eq {i : ProfileIn} (accel : 0 ≤ i.aEff) :
    stageMove i = i.v + max (-i.aEff) (min i.aEff (boundDemand i - i.v)) := by
  simp only [stageMove, boundDemand, clampInt_eq (show -i.aEff ≤ i.aEff by omega)]

/-- Settles O14, by the clamp of stage 4 as max after min. -/
theorem stageFourLimitsTheChange : Obligations.StageFourLimitsTheChange := by
  unfold Obligations.StageFourLimitsTheChange
  refine ⟨fun i accel => ?_, fun i j move accel demand => ?_⟩
  · have eq := stageMove_eq accel
    simp only [boundDemand] at eq
    exact ⟨eq, fun above => by omega, fun below => by omega⟩
  · simp only [stageMove, move, accel, demand]

/-- Stage 3 toward the goto target bounds the demand by the braking speed and keeps its sign (R9). -/
theorem boundGoto_spec {i : ProfileIn} {g : Int} (goto : i.g = some g) (d : Int) (brake : 0 ≤ vLim |g - i.p| i.aEff) :
    |boundGoto i d| = min |d| (vLim |g - i.p| i.aEff) ∧ (0 ≤ d → 0 ≤ boundGoto i d) ∧ (d ≤ 0 → boundGoto i d ≤ 0) := by
  simp only [boundGoto, goto]
  generalize vLim |g - i.p| i.aEff = brakeSpeed at *
  simp only [abs_eq_max_neg]
  split <;> omega

/-- Stage 3 toward the soft limits never asks for more, where the bounds leave room to brake (R9). -/
theorem abs_boundLimits_le {i : ProfileIn} (d : Int)
    (room : i.homed = true → 0 ≤ vLim (i.hi - i.p) i.aEff ∧ 0 ≤ vLim (i.p - i.lo) i.aEff) : |boundLimits i d| ≤ |d| := by
  simp only [boundLimits, abs_eq_max_neg]
  split
  · next homed =>
    obtain ⟨above, below⟩ := room homed
    split <;> [skip; split] <;> omega
  · exact le_rfl

/-- The bounded demand is within the cap: the soft limits of a homed axis enclose its position (R8, R9). -/
theorem abs_boundDemand_le {i : ProfileIn} (cap : 0 ≤ i.cap) (accel : 0 ≤ i.aEff) (small : i.aEff < 2 ^ 32)
    (inside : i.homed = true → i.lo ≤ i.p ∧ i.p ≤ i.hi) : |boundDemand i| ≤ i.cap := by
  have capped : |stageCap i| ≤ i.cap := by rw [stageCap_eq cap, abs_eq_max_neg]; omega
  have limited : |boundLimits i (stageCap i)| ≤ |stageCap i| := abs_boundLimits_le _ fun homed => by
    obtain ⟨above, below⟩ := inside homed
    exact ⟨vLim_nonneg (by omega) accel small, vLim_nonneg (by omega) accel small⟩
  have targeted : |boundDemand i| ≤ |boundLimits i (stageCap i)| := by
    cases goto : i.g with
    | none => simp [boundDemand, boundGoto, goto]
    | some g =>
      rw [boundDemand, (boundGoto_spec goto _ (vLim_nonneg (abs_nonneg _) accel small)).1]
      exact min_le_left _ _
  exact targeted.trans (limited.trans capped)

/-- Stage 4 stays within a bound on the move and on the demand, and changes the move by at most a_eff (R10). -/
theorem stageMove_within {i : ProfileIn} {m : Int} (accel : 0 ≤ i.aEff) (move : |i.v| ≤ m) (demand : |boundDemand i| ≤ m) :
    |stageMove i| ≤ m ∧ |stageMove i - i.v| ≤ i.aEff := by
  rw [stageMove_eq accel]
  simp only [abs_eq_max_neg] at *
  omega

theorem reaches_iff (p q g : Int) : reaches p q g = true ↔ (p < g ∧ g ≤ q) ∨ (g < p ∧ q ≤ g) ∨ (p = g ∧ q = g) := by
  simp [reaches]

/-- Where the bounds let a position go (R11). -/
def boundedGoal (i : ProfileIn) : Int := max i.lo (min i.hi (i.p + stageMove i))

/-- The target is reached in the update (R12). -/
def arrives (i : ProfileIn) (g : Int) : Prop := i.g = some g ∧ |stageMove i| ≤ i.aMax ∧ reaches i.p (boundedGoal i) g = true

/-- What one profile update can do (R11, R12, R13): it arrives at its target with the move 0, or it goes where the bounds let
it, with the move 0 where they hold it back. -/
theorem profile_cases {i : ProfileIn} (ordered : i.lo ≤ i.hi) :
    (∃ g, arrives i g ∧ (profile i).p = g ∧ (profile i).v = 0 ∧ (profile i).arrival = true) ∨
    ((∀ g, ¬arrives i g) ∧ (profile i).p = boundedGoal i ∧ (profile i).arrival = false ∧
      (boundedGoal i = i.p + stageMove i → (profile i).v = stageMove i) ∧
      (boundedGoal i ≠ i.p + stageMove i → (profile i).v = 0)) := by
  have goal : (if i.hi < i.p + stageMove i then i.hi else if i.p + stageMove i < i.lo then i.lo else i.p + stageMove i) =
      boundedGoal i := by
    simp only [boundedGoal]; split <;> [skip; split] <;> omega
  have passes : (decide (i.hi < i.p + stageMove i) || decide (i.p + stageMove i < i.lo)) =
      decide (boundedGoal i ≠ i.p + stageMove i) := by
    rw [← Bool.decide_or]; congr 1; simp only [boundedGoal, eq_iff_iff]; omega
  simp only [profile, goal, passes]
  cases target : i.g with
  | none =>
    refine .inr ⟨fun g => by simp [arrives, target], rfl, rfl, fun free => ?_, fun held => ?_⟩
    · simp [free]
    · simp [held]
  | some g =>
    by_cases reached : |stageMove i| ≤ i.aMax ∧ reaches i.p (boundedGoal i) g = true
    · exact .inl ⟨g, ⟨target, reached⟩, by simp [reached]⟩
    · have missed : (decide (|stageMove i| ≤ i.aMax) && reaches i.p (boundedGoal i) g) = false := by simpa using reached
      refine .inr ⟨fun x arrived => ?_, by simp [missed], missed, fun free => ?_, fun held => ?_⟩
      · obtain ⟨same, there⟩ := arrived
        cases target.symm.trans same
        exact reached there
      · simp only [missed]
        simp [free]
      · simp [held]

theorem profile_made (i : ProfileIn) : (profile i).made = (profile i).p - i.p := rfl

/-- An overrun is a move past a bound that is larger than a_eff (R11). -/
theorem profile_overrun_iff {i : ProfileIn} (ordered : i.lo ≤ i.hi) :
    (profile i).overrun = true ↔ boundedGoal i ≠ i.p + stageMove i ∧ i.aEff < |stageMove i| := by
  simp only [profile, boundedGoal, Bool.and_eq_true, Bool.or_eq_true, Bool.not_eq_true', decide_eq_true_eq,
    decide_eq_false_iff_not, not_le]
  refine and_congr_left fun _ => ?_
  omega

/-- An overrun leaves the move 0. -/
theorem profile_overrun_v {i : ProfileIn} (overrun : (profile i).overrun = true) : (profile i).v = 0 := by
  simp only [profile, Bool.and_eq_true] at overrun ⊢
  simp [overrun.1]

/-- The move that a profile update leaves is that of stage 4 or 0. -/
theorem profile_v {i : ProfileIn} (ordered : i.lo ≤ i.hi) : (profile i).v = stageMove i ∨ (profile i).v = 0 := by
  obtain ⟨-, -, -, v, -⟩ | ⟨-, -, -, free, held⟩ := profile_cases ordered
  · exact .inr v
  · exact (em _).imp free held

/-- A profile update stays within the bounds it starts in (R13, law 1). -/
theorem profile_inside {i : ProfileIn} (lower : i.lo ≤ i.p) (upper : i.p ≤ i.hi) :
    i.lo ≤ (profile i).p ∧ (profile i).p ≤ i.hi := by
  obtain ⟨g, ⟨-, -, reached⟩, p, -⟩ | ⟨-, p, -⟩ := profile_cases (lower.trans upper)
  · rw [reaches_iff] at reached
    simp only [p, boundedGoal] at *
    omega
  · simp only [p, boundedGoal]; omega

/-- Settles O12, by the two ways a profile update can end. -/
theorem profileKeepsLaws : Obligations.ProfileKeepsLaws := by
  unfold Obligations.ProfileKeepsLaws
  intro i vMax ⟨accel, small, cap, capped, move, lower, upper, targetAccel⟩
  have demand := abs_boundDemand_le cap accel (by omega) fun _ => ⟨lower, upper⟩
  obtain ⟨bounded, change⟩ := stageMove_within accel move (demand.trans capped)
  obtain ⟨low, high⟩ := profile_inside lower upper
  have past := profile_overrun_iff (lower.trans upper)
  have made := profile_made i
  refine ⟨low, high, ?_⟩
  obtain ⟨g, ⟨target, slow, reached⟩, p, v, -⟩ | ⟨-, p, -, free, held⟩ := profile_cases (lower.trans upper)
  · have same := targetAccel (by simp [target])
    rw [reaches_iff] at reached
    have calm : ¬(profile i).overrun = true := by rw [past]; omega
    simp only [boundedGoal, abs_eq_max_neg] at *
    refine ⟨by omega, fun _ => by omega, fun overrun => absurd overrun calm, by omega⟩
  · simp only [boundedGoal, abs_eq_max_neg] at *
    refine ⟨by omega, fun calm => ?_, fun overrun => ?_, by omega⟩
    · rw [← Bool.not_eq_true, past] at calm
      omega
    · rw [past] at overrun
      omega

/-- Settles O15: stages 2 and 3 by their definitions, stages 5 and 6 by the two ways a profile update can end. -/
theorem profileStages : Obligations.ProfileStages := by
  unfold Obligations.ProfileStages
  refine ⟨fun i cap => ?_, fun i ordered => ?_⟩
  · refine ⟨?_, fun none => by simp [boundGoto, none], fun g goto brake => boundGoto_spec goto _ brake⟩
    rw [stageCap_eq cap]
    simp only [boundLimits]
    cases i.homed <;> simp
  · have made := profile_made i
    have past := profile_overrun_iff ordered
    have ends := profile_cases ordered
    have out (o : ProfileOut) (p : (profile i).p = o.p) (v : (profile i).v = o.v) (made : (profile i).made = o.made)
        (arrival : (profile i).arrival = o.arrival) (overrun : (profile i).overrun = true ↔ o.overrun = true) :
        profile i = o := by
      cases o; cases e : profile i; simp_all
    have lost (none : i.g = none) (g : Int) : ¬arrives i g := by simp [arrives, none]
    have far (fast : i.aMax < |stageMove i|) (g : Int) : ¬arrives i g := fun ⟨_, slow, _⟩ => by omega
    have goes (missed : ∀ g, ¬arrives i g) := ends.resolve_left fun ⟨g, there, _⟩ => missed g there
    have free (missed : ∀ g, ¬arrives i g) (lower : i.lo ≤ i.p + stageMove i) (upper : i.p + stageMove i ≤ i.hi) :
        profile i = { p := i.p + stageMove i, v := stageMove i, made := stageMove i, arrival := false, overrun := false } := by
      obtain ⟨-, p, arrival, free, -⟩ := goes missed
      simp only [boundedGoal] at *
      refine out _ ?_ ?_ ?_ arrival ?_ <;> simp only [past, Bool.false_eq_true, iff_false] <;> omega
    have held (none : i.g = none) (bound : Int) (at_ : boundedGoal i = bound) (off : bound ≠ i.p + stageMove i) (large : Bool)
        (size : large = true ↔ i.aEff < |stageMove i|) :
        profile i = { p := bound, v := 0, made := bound - i.p, arrival := false, overrun := large } := by
      obtain ⟨-, p, arrival, -, held⟩ := goes (lost none)
      rw [at_] at p past held
      refine out _ p (held off) (by rw [made, p]) arrival ?_
      simp [past, size, off]
    have atHi (above : i.hi < i.p + stageMove i) : boundedGoal i = i.hi := by simp only [boundedGoal]; omega
    have atLo (below : i.p + stageMove i < i.lo) : boundedGoal i = i.lo := by simp only [boundedGoal]; omega
    refine ⟨fun none => free (lost none),
      fun none above small => held none _ (atHi above) (by omega) _ (by simp [small]),
      fun none below small => held none _ (atLo below) (by omega) _ (by simp [small]),
      fun none above large => held none _ (atHi above) (by omega) _ (by simp [large]),
      fun none below large => held none _ (atLo below) (by omega) _ (by simp [large]),
      fun g target lower upper slow reached => ?_, fun g _ lower upper fast => free (far fast) lower upper⟩
    have goal : boundedGoal i = i.p + stageMove i := by simp only [boundedGoal]; omega
    have there : arrives i g := ⟨target, slow, by rw [reaches_iff, goal]; omega⟩
    obtain ⟨x, ⟨same, -⟩, p, v, arrival⟩ | ⟨missed, -⟩ := ends
    · cases target.symm.trans same
      exact out _ p v (by rw [made, p]) arrival (by simp [past, goal])
    · exact absurd there (missed g)

end Sys2Proof.Machine
end

