-- ==== Sys2Proof/Proofs/Rows.lean ====
section
/-! SUPPORT. The state after START, the rows that name an update, and the lines of the drive. -/

namespace Sys2Proof.Machine

open Sys2Proof.Safety

/-! ### After START (R2, R84, R168) -/

/-- Settles O3, by evaluating the state after START. -/
theorem resetValues : Obligations.ResetValues := by
  unfold Obligations.ResetValues
  intro s
  and_intros
  all_goals decide +kernel

theorem reset_memoryForm : memoryForm State.reset := rfl

theorem reset_stopSafe : stopSafe State.reset := by
  refine ⟨by decide, by decide, by decide, fun c => ?_⟩
  cases c <;> decide

theorem reset_configSafe : configSafe State.reset := rfl

theorem reset_jobSafe : jobSafe State.reset := fun abortable => by cases abortable

theorem reset_travelSafe : travelSafe State.reset := by
  unfold travelSafe limitsOrdered
  decide +kernel

theorem reset_moveSafe : moveSafe State.reset := ⟨fun active => absurd rfl active, fun _ => rfl, by decide⟩

/-- Settles O4: each invariant by the START values it reads. -/
theorem invariantsHoldAtReset : Obligations.InvariantsHoldAtReset :=
  ⟨reset_memoryForm, reset_stopSafe, reset_configSafe, reset_jobSafe, reset_travelSafe, reset_moveSafe⟩

/-! ### The rows that name an update with a given outcome (logs 4 and 5) -/

/-- A row that is the update where a test of the state answers true, in terms of the condition the test decides. -/
theorem updateWhen_row (inp : UpdateInputs) (s : State) {test : Bool} {due : Prop} (decides : test = true ↔ due) :
    (due → Host.Outcome.next (updateWhen test inp s) = (exec (.update inp) s)) ∧
      (¬due → Host.Outcome.next (updateWhen test inp s) = (.next s : Host.Outcome State Fault Refusal)) := by
  refine ⟨fun holds => ?_, fun fails => ?_⟩
  · rw [updateWhen, if_pos (decides.mpr holds)]; rfl
  · rw [updateWhen, if_neg (fun on => fails (decides.mp on))]

theorem ownDue_iff (s : State) :
    ownDue s = true ↔ s.cck.timeState = .unset ∧ s.cck.pending = none ∧ (s.cck.ms + 1).toNat = 200 := by
  simp [ownDue, Config.ownIndex, and_assoc]

theorem stepClearDue_iff (s : State) : stepClearDue s = true ↔ s.cck.timeStepped = true ∧ 1000 ≤ s.cck.stepAge + 1 := by
  simp [stepClearDue, Config.stepAgeEnd]

theorem storeIdTimeoutDue_iff (inp : UpdateInputs) (s : State) :
    storeIdTimeoutDue inp s = true ↔ s.cfg.startState = .storeId ∧ s.cfg.identIssued = false ∧ s.tsc.draining = false ∧
      inp.storeBusy = true ∧ 1000 ≤ s.cfg.storeIdPolls + 1 := by
  simp [storeIdTimeoutDue, storeIdPolls, Config.storeIdPolls, and_assoc]

theorem faultEndDue_iff (s : State) : faultEndDue s = true ↔ s.svo.encFault = true ∧ 1000 ≤ s.svo.clean + 1 := by
  simp [faultEndDue, Config.cleanUpdates]

theorem crewAbsentDue_iff (inp : UpdateInputs) (s : State) :
    crewAbsentDue inp s = true ↔ ∃ i : Fin 4,
      s.zmn.filters[i].present = true ∧ inp.crew.getLsbD i.val = false ∧ 40 ≤ s.zmn.filters[i].clear + 1 := by
  have every (i : Fin 4) : i ∈ [(0 : Fin 4), 1, 2, 3] := by fin_cases i <;> simp
  simp only [crewAbsentDue, List.any_eq_true, Bool.and_eq_true, Bool.not_eq_true', decide_eq_true_eq, and_assoc]
  simp only [Config.crewClear]
  exact ⟨fun ⟨i, _, due⟩ => ⟨i, due⟩, fun ⟨i, due⟩ => ⟨i, every i, due⟩⟩

theorem followDue_iff (inp : UpdateInputs) (s : State) : followDue inp s = true ↔ 3 ≤ (toServo inp s).1.svo.follow :=
  decide_eq_true_iff

theorem staleDue_iff (s : State) :
    staleDue s = true ↔ ∃ b, s.cfg.params = some b ∧ axisUp s = true ∧ 5 < s.ptb.demands[stationOf b.source].age := by
  cases params : s.cfg.params <;> simp [staleDue, params, routeStale, show Config.demandStaleAge = 5 from rfl]

theorem peerLostDue_iff (inp : UpdateInputs) (s : State) :
    peerLostDue inp s = true ↔ ∃ t, exec (.update inp) s = .next t ∧ t.ptb.lost ≠ s.ptb.lost := by
  have taken : exec (.update inp) s = .next (update inp s) := rfl
  simp [peerLostDue, taken]

theorem wakingEndDue_iff (s : State) : wakingEndDue s = true ↔ s.stc.drive = .waking ∧ 120 ≤ s.stc.settle + 1 := by
  simp [wakingEndDue, Config.settleEnd]

theorem operationLate_iff (t : Tsc) :
    operationLate t = true ↔ t.reported = false ∧ (1000 ≤ t.opAge ∨ 1000 ≤ t.suspendAge) := by
  simp [operationLate, show Config.flashUpdates = 1000 from rfl]

theorem ageOperation_of_reported {t : Tsc} (told : t.reported = true) : ageOperation t = t := by
  simp [ageOperation, told]

theorem ageOperation_of_programming {t : Tsc} {p : Program} (told : t.reported = false) (work : t.unit = .programming p) :
    ageOperation t = { t with opAge := t.opAge + 1 } := by
  simp [ageOperation, told, work]

theorem ageOperation_of_erasing {t : Tsc} {c : Nat} {off : Bool} (told : t.reported = false) (work : t.unit = .erasing c off) :
    ageOperation t = { t with opAge := t.opAge + 1, suspendAge := if off then t.suspendAge + 1 else t.suspendAge } := by
  cases off <;> simp [ageOperation, told, work]

theorem flashLateDue_iff (s : State) :
    flashLateDue s = true ↔ s.tsc.reported = false ∧
      ((∃ p, s.tsc.unit = .programming p ∧ (1000 ≤ s.tsc.opAge + 1 ∨ 1000 ≤ s.tsc.suspendAge)) ∨
        (∃ c, s.tsc.unit = .erasing c false ∧ (1000 ≤ s.tsc.opAge + 1 ∨ 1000 ≤ s.tsc.suspendAge)) ∨
        ∃ c, s.tsc.unit = .erasing c true ∧ (1000 ≤ s.tsc.opAge + 1 ∨ 1000 ≤ s.tsc.suspendAge + 1)) := by
  simp only [flashLateDue, Bool.and_eq_true, operationLate_iff]
  by_cases told : s.tsc.reported = true
  · simp [ageOperation_of_reported told, told]
  · rw [Bool.not_eq_true] at told
    match work : s.tsc.unit with
    | .programming p => simp [ageOperation_of_programming told work, told]
    | .erasing c false => simp [ageOperation_of_erasing told work, told]
    | .erasing c true => simp [ageOperation_of_erasing told work, told]
    | .idle | .reading _ | .suspended _ _ => simp

/-- Settles O22: each row by the condition that its test decides. -/
theorem namedUpdatesAreUpdates : Obligations.NamedUpdatesAreUpdates := by
  unfold Obligations.NamedUpdatesAreUpdates
  intro inp s
  exact ⟨updateWhen_row inp s (ownDue_iff s), updateWhen_row inp s (stepClearDue_iff s), updateWhen_row inp s beq_iff_eq,
    updateWhen_row inp s (storeIdTimeoutDue_iff inp s), updateWhen_row inp s (faultEndDue_iff s), updateWhen_row inp s .rfl,
    updateWhen_row inp s (crewAbsentDue_iff inp s), updateWhen_row inp s (followDue_iff inp s),
    updateWhen_row inp s (staleDue_iff s), updateWhen_row inp s (peerLostDue_iff inp s),
    updateWhen_row inp s (wakingEndDue_iff s), updateWhen_row inp s (flashLateDue_iff s)⟩

/-! ### Drive output and the lines of the drive (R22 to R24) -/

theorem driveEnable_iff (s : State) : driveEnable s = true ↔ s.stc.drive = .enabled ∨ s.stc.drive = .stopping := by
  simp [driveEnable]

theorem brakeEngaged_eq_false_iff (s : State) :
    brakeEngaged s = false ↔ s.stc.drive = .enabled ∨ s.stc.drive = .stopping := by
  simp [brakeEngaged, driveEnable_iff]

/-- A drive that is off has its enable off and its brake engaged. -/
theorem lines_of_off {s : State} (off : s.stc.drive ≠ .enabled ∧ s.stc.drive ≠ .stopping) :
    driveEnable s = false ∧ brakeEngaged s = true := by
  simp [brakeEngaged, driveEnable, off.1, off.2]

theorem servo_of_on {s : State} (on : s.stc.drive = .enabled ∨ s.stc.drive = .stopping) :
    servo s = { s with svo := { s.svo with
      err := s.mpr.p - measured s * 256
      u := driveOutput (param s (fun b => b.kf)) (param s (fun b => b.kp)) s.mpr.v (s.mpr.p - measured s * 256)
      follow :=
        if s.mpr.mode = .homing then 0
        else if param s (fun b => b.followMax) * 256 < |s.mpr.p - measured s * 256| then min 3 (s.svo.follow + 1) else 0 } } := by
  simp only [servo, (driveEnable_iff s).mpr on, if_true, Config.followTrip]

theorem servo_of_off {s : State} (off : s.stc.drive ≠ .enabled ∧ s.stc.drive ≠ .stopping) :
    servo s = { s with svo := { s.svo with u := 0, follow := 0 } } := by
  simp only [servo, (lines_of_off off).1, Bool.false_eq_true, if_false]

@[simp] theorem servo_raw (s : State) : (servo s).svo.raw = s.svo.raw := by unfold servo; split <;> rfl
@[simp] theorem servo_origin (s : State) : (servo s).svo.origin = s.svo.origin := by unfold servo; split <;> rfl
@[simp] theorem servo_encFault (s : State) : (servo s).svo.encFault = s.svo.encFault := by unfold servo; split <;> rfl
@[simp] theorem servo_clean (s : State) : (servo s).svo.clean = s.svo.clean := by unfold servo; split <;> rfl

theorem servo_eq (s : State) : servo s = { s with svo := (servo s).svo } := by unfold servo; split <;> rfl

theorem driveOutput_eq (kf kp v err : Int) :
    driveOutput kf kp v err = max (-32767) (min 32767 ((kf * v + kp * err).tdiv 256)) :=
  satInt_eq (by decide) _

end Sys2Proof.Machine
end

