-- ==== Sys2Proof/Proofs/Stops.lean ====
section
/-! SUPPORT. The drive state follows the stops: what leaving ENABLED hands on, the entries to the drive states, and the reaction (R92 to R99). -/

namespace Sys2Proof.Machine

open Sys2Proof.Safety

/-! ### Parts of the state that the changes of this layer leave alone -/

/-- MPR without its mode and target: what a mode request leaves alone (R4). -/
def Mpr.course (m : Mpr) : Mpr := { m with mode := .hold, g := none }

/-- STC without what a change of drive state writes (R92 to R98). -/
def Stc.orders (t : Stc) : Stc := { t with drive := .parked, settle := 0, parkPending := false }

/-- LNK without its command FIFO: what a broadcast leaves alone (R107). -/
def Lnk.besideFifo (l : Lnk) : Lnk := { l with fifo := [] }

/-- SVO without its drive output and follow counter: what a change of drive state leaves alone (R24). -/
def Svo.counts (v : Svo) : Svo := { v with follow := 0, u := 0 }

theorem p_of_course {a b : Mpr} (same : a.course = b.course) : a.p = b.p := (congrArg Mpr.p same :)
theorem v_of_course {a b : Mpr} (same : a.course = b.course) : a.v = b.v := (congrArg Mpr.v same :)

theorem stopInForce_of_orders {s t : State} (same : t.stc.orders = s.stc.orders) : stopInForce t = stopInForce s := by
  have hold : t.stc.hold = s.stc.hold := (congrArg Stc.hold same :)
  have holders : t.stc.holders = s.stc.holders := (congrArg Stc.holders same :)
  simp only [stopInForce, hold, holders]

theorem hardInForce_of_orders {s t : State} (same : t.stc.orders = s.stc.orders) : hardInForce t = hardInForce s := by
  have hold : t.stc.hold = s.stc.hold := (congrArg Stc.hold same :)
  have holders : t.stc.holders = s.stc.holders := (congrArg Stc.holders same :)
  simp only [hardInForce, hold, holders]

/-- The part of STC that says which causes are present (R85). -/
def Stc.latches (t : Stc) : Bool × Bool × Bool × Bool := (t.chainOpen, t.followLatch, t.haltLatch, t.overrunLatch)

theorem localCauses_congr {s t : State} (latches : t.stc.latches = s.stc.latches) (fault : t.svo.encFault = s.svo.encFault)
    (lost : t.ptb.lost = s.ptb.lost) (link : t.lnk.linkFault = s.lnk.linkFault) : localCauses t = localCauses s := by
  simp only [Stc.latches, Prod.mk.injEq] at latches
  obtain ⟨chain, follow, halt, overrun⟩ := latches
  have present : causePresent t = causePresent s := by
    funext c
    cases c <;> simp [causePresent, causeCondition, chain, follow, halt, overrun, fault, lost, link]
  simp only [localCauses, present]

theorem stopInForce_of_hard {s : State} (hard : hardInForce s = true) : stopInForce s = true := by
  simp only [hardInForce, stopInForce, Bool.or_eq_true, List.any_eq_true] at *
  rcases hard with own | ⟨e, held, kind⟩
  · cases hold : s.stc.hold <;> simp_all
  · refine .inr ⟨e, held, ?_⟩
    cases e <;> simp_all

/-! ### Mode requests (R4) -/

@[simp] theorem requestMode_course (m : Mode) (s : State) : (requestMode m s).mpr.course = s.mpr.course := by
  unfold requestMode; split <;> rfl

@[simp] theorem requestGoto_course (x : Int) (s : State) : (requestGoto x s).mpr.course = s.mpr.course := by
  unfold requestGoto; split <;> rfl

theorem requestMode_of_off {s : State} (off : s.stc.drive ≠ .enabled) (m : Mode) : requestMode m s = s := if_neg off

theorem requestMode_of_enabled {s : State} (on : s.stc.drive = .enabled) (m : Mode) :
    requestMode m s = { s with mpr := { s.mpr with mode := m, g := none } } := if_pos on

theorem requestGoto_of_enabled {s : State} (on : s.stc.drive = .enabled) (x : Int) :
    requestGoto x s = { s with mpr := { s.mpr with
      mode := .goto_, g := some (if isHomed s then clampInt (travelLo s) (travelHi s) x else x) } } := if_pos on

/-! ### The end of a job by a stop or a PARK (R99, R107, R124) -/

theorem queueCommand_lnk (b : Body) (s : State) :
    (queueCommand b s).lnk = if fifoRoom s then { s.lnk with fifo := s.lnk.fifo ++ [b] } else s.lnk := by
  unfold queueCommand; split <;> rfl

@[simp] theorem queueCommand_besideFifo (b : Body) (s : State) : (queueCommand b s).lnk.besideFifo = s.lnk.besideFifo := by
  unfold queueCommand; split <;> rfl

@[simp] theorem broadcastAbort_besideFifo (n : Byte) (r : Reason) (s : State) :
    (broadcastAbort n r s).lnk.besideFifo = s.lnk.besideFifo := by
  unfold broadcastAbort; split
  · simp
  · split <;> rfl

@[simp] theorem abortOwn_besideFifo (r : Reason) (s : State) : (abortOwn r s).lnk.besideFifo = s.lnk.besideFifo := by
  simp [abortOwn]

@[simp] theorem handedToTakes_besideFifo (r : Reason) (s : State) : (handedToTakes r s).lnk.besideFifo = s.lnk.besideFifo := by
  unfold handedToTakes; split <;> simp

@[simp] theorem endJob_course (o : TakeOutcome) (s : State) : (endJob o s).mpr.course = s.mpr.course := by
  simp only [endJob, jobToIdle]
  cases s.tks.job <;> simp

@[simp] theorem abortOwn_course (r : Reason) (s : State) : (abortOwn r s).mpr.course = s.mpr.course := by
  simp [abortOwn]

@[simp] theorem handedToTakes_course (r : Reason) (s : State) : (handedToTakes r s).mpr.course = s.mpr.course := by
  unfold handedToTakes; split <;> simp

@[simp] theorem endJob_job (o : TakeOutcome) (s : State) : (endJob o s).tks.job = .idle := rfl
@[simp] theorem endJob_outcome (o : TakeOutcome) (s : State) : (endJob o s).tks.outcome = o := rfl

@[simp] theorem broadcastAbort_job (n : Byte) (r : Reason) (s : State) : (broadcastAbort n r s).tks.job = s.tks.job := by
  unfold broadcastAbort; split
  · simp
  · split <;> rfl

@[simp] theorem broadcastAbort_outcome (n : Byte) (r : Reason) (s : State) :
    (broadcastAbort n r s).tks.outcome = s.tks.outcome := by
  unfold broadcastAbort; split
  · simp
  · split <;> rfl

@[simp] theorem abortOwn_job (r : Reason) (s : State) : (abortOwn r s).tks.job = .idle := by simp [abortOwn]

@[simp] theorem abortOwn_outcome (r : Reason) (s : State) :
    (abortOwn r s).tks.outcome = .aborted (reasonCode r) (ownByte s) := by simp [abortOwn]

theorem ownByte_congr {s t : State} (same : t.cfg = s.cfg) : ownByte t = ownByte s := by
  simp only [ownByte, ownStation, same]

theorem handedToTakes_of_abortable {s : State} (held : jobAbortable s.tks.job = true) (r : Reason) :
    handedToTakes r s = abortOwn r s := if_pos held

theorem handedToTakes_of_none {s : State} (none : jobAbortable s.tks.job = false) (r : Reason) : handedToTakes r s = s := by
  simp [handedToTakes, none]

theorem endJob_mpr_of_off (o : TakeOutcome) {s : State} (off : s.stc.drive ≠ .enabled) : (endJob o s).mpr = s.mpr := by
  simp only [endJob, jobToIdle]
  cases s.tks.job <;> simp [requestMode_of_off off]

theorem handedToTakes_mpr_of_off (r : Reason) {s : State} (off : s.stc.drive ≠ .enabled) :
    (handedToTakes r s).mpr = s.mpr := by
  unfold handedToTakes
  split
  · simp [abortOwn, endJob_mpr_of_off _ off]
  · rfl

/-! ### STOP and PARK handed to HOM, DMR and TKS (R98, R99) -/

/-- What a failed homing leaves of HOM (R49, R50, R51). -/
def failedHom (r : HomeFail) : Hom :=
  { state := .unhomed, phase := none, seekStart := none, stall := 0, armed := false, outcome := .failed r }

theorem failHoming_of_homing {s : State} (seeks : s.hom.state = .homing) (r : HomeFail) :
    failHoming r s = requestMode .hold { s with hom := failedHom r } := if_pos seeks

theorem failHoming_of_none {s : State} (none : s.hom.state ≠ .homing) (r : HomeFail) : failHoming r s = s := if_neg none

theorem failHoming_hom (r : HomeFail) (s : State) :
    (failHoming r s).hom = if s.hom.state = .homing then failedHom r else s.hom := by
  unfold failHoming; split <;> simp [failedHom]

@[simp] theorem failHoming_course (r : HomeFail) (s : State) : (failHoming r s).mpr.course = s.mpr.course := by
  unfold failHoming; split <;> simp

theorem failHoming_mpr_of_off (r : HomeFail) {s : State} (off : s.stc.drive ≠ .enabled) : (failHoming r s).mpr = s.mpr := by
  unfold failHoming; split
  · rw [requestMode_of_off (by exact off)]
  · rfl

/-- HOM fails its homing, DMR disarms and TKS is told: what STOP and PARK do to the blocks (R98, R99). -/
def handOn (f : HomeFail) (r : Reason) (s : State) : State := handedToTakes r (disarm (failHoming f s))

theorem handStop_eq (s : State) : handStop s = handOn .stop .stop s := rfl
theorem handPark_eq (s : State) : handPark s = handOn .park .parked s := rfl

@[simp] theorem handOn_frame (f : HomeFail) (r : Reason) (s : State) :
    (handOn f r s).cfg = s.cfg ∧ (handOn f r s).cck = s.cck ∧ (handOn f r s).ptb = s.ptb ∧ (handOn f r s).chan = s.chan ∧
    (handOn f r s).svo = s.svo ∧ (handOn f r s).zmn = s.zmn ∧ (handOn f r s).stc = s.stc ∧ (handOn f r s).cpt = s.cpt ∧
    (handOn f r s).flash = s.flash ∧ (handOn f r s).freeCount = s.freeCount ∧ (handOn f r s).pending = s.pending := by
  simp [handOn]

@[simp] theorem handOn_course (f : HomeFail) (r : Reason) (s : State) : (handOn f r s).mpr.course = s.mpr.course := by
  simp [handOn]

@[simp] theorem handOn_besideFifo (f : HomeFail) (r : Reason) (s : State) :
    (handOn f r s).lnk.besideFifo = s.lnk.besideFifo := by
  simp [handOn]

theorem handOn_dmr (f : HomeFail) (r : Reason) (s : State) : (handOn f r s).dmr = s.dmr.disarm := by
  simp [handOn, disarm]

theorem handOn_hom (f : HomeFail) (r : Reason) (s : State) :
    (handOn f r s).hom = if s.hom.state = .homing then failedHom f else s.hom := by
  simp [handOn, failHoming_hom]

theorem handOn_mpr_of_off (f : HomeFail) (r : Reason) {s : State} (off : s.stc.drive ≠ .enabled) :
    (handOn f r s).mpr = s.mpr := by
  rw [handOn, handedToTakes_mpr_of_off _ (by simpa using off)]
  simp [failHoming_mpr_of_off _ off]

theorem handOn_takes_of_abortable (f : HomeFail) (r : Reason) {s : State} (held : jobAbortable s.tks.job = true) :
    (handOn f r s).tks.job = .idle ∧ (handOn f r s).tks.outcome = .aborted (reasonCode r) (ownByte s) := by
  rw [handOn, handedToTakes_of_abortable (by simpa using held)]
  exact ⟨abortOwn_job _ _, by rw [abortOwn_outcome, ownByte_congr (s := s) (by simp)]⟩

theorem handOn_takes_of_none (f : HomeFail) (r : Reason) {s : State} (none : jobAbortable s.tks.job = false) :
    (handOn f r s).tks = s.tks ∧ (handOn f r s).tsc = s.tsc ∧ (handOn f r s).lnk = s.lnk := by
  rw [handOn, handedToTakes_of_none (by simpa using none)]
  simp

/-! ### Entries to the drive states (R92 to R95, R98) -/

/-- STOPPED before STOP is handed on: the drive off, the position tracked (R3, R92). -/
def stoppedDrive (s : State) : State :=
  { s with
    stc := { s.stc with drive := .stopped, settle := 0, parkPending := false }
    svo := { s.svo with follow := 0, u := 0 }
    mpr := (track s).mpr }

theorem enterStopped_eq (s : State) :
    enterStopped s = if s.stc.drive = .enabled then handOn .stop .stop (stoppedDrive s) else stoppedDrive s := rfl

theorem enterStopped_of_enabled {s : State} (on : s.stc.drive = .enabled) :
    enterStopped s = handOn .stop .stop (stoppedDrive s) := by rw [enterStopped_eq, if_pos on]

theorem enterStopped_of_other {s : State} (off : s.stc.drive ≠ .enabled) : enterStopped s = stoppedDrive s := by
  rw [enterStopped_eq, if_neg off]

@[simp] theorem enterStopped_stc (s : State) :
    (enterStopped s).stc = { s.stc with drive := .stopped, settle := 0, parkPending := false } := by
  rw [enterStopped_eq]; split <;> simp [stoppedDrive]

@[simp] theorem enterStopped_svo (s : State) : (enterStopped s).svo = { s.svo with follow := 0, u := 0 } := by
  rw [enterStopped_eq]; split <;> simp [stoppedDrive]

@[simp] theorem enterStopped_mpr (s : State) : (enterStopped s).mpr = (track s).mpr := by
  rw [enterStopped_eq]; split
  · rw [handOn_mpr_of_off _ _ (by simp [stoppedDrive])]; rfl
  · rfl

@[simp] theorem enterStopped_besideFifo (s : State) : (enterStopped s).lnk.besideFifo = s.lnk.besideFifo := by
  rw [enterStopped_eq]; split <;> simp [stoppedDrive]

@[simp] theorem enterParked_stc (s : State) :
    (enterParked s).stc = { s.stc with drive := .parked, settle := 0, parkPending := false } := by
  simp only [enterParked, setDrive]; split <;> simp

@[simp] theorem enterParked_svo (s : State) : (enterParked s).svo = { s.svo with follow := 0, u := 0 } := by
  simp only [enterParked, setDrive]; split <;> simp

@[simp] theorem enterParked_mpr (s : State) : (enterParked s).mpr = { s.mpr with v := 0, mode := .hold, g := none } := by
  simp only [enterParked]; split <;> simp

theorem enterParked_dmr (s : State) : (enterParked s).dmr = if s.stc.drive = .enabled then s.dmr.disarm else s.dmr := by
  simp only [enterParked, setDrive]; split <;> rfl

theorem leaveStopped_of_stop {s : State} (stop : stopInForce s = true) : leaveStopped s = s := by simp [leaveStopped, stop]

theorem leaveStopped_of_other {s : State} (other : s.stc.drive ≠ .stopped) : leaveStopped s = s := by
  simp [leaveStopped, other]

theorem leaveStopped_of_free {s : State} (stopped : s.stc.drive = .stopped) (free : stopInForce s = false) :
    leaveStopped s = enterParked s := by
  simp [leaveStopped, stopped, free]

@[simp] theorem leaveStopped_orders (s : State) : (leaveStopped s).stc.orders = s.stc.orders := by
  unfold leaveStopped; split
  · rw [enterParked_stc]; rfl
  · rfl

/-- STOPPING as it is entered: STOP handed on, HOLD requested, the move left to ramp down (R93, R99). -/
def stoppingDrive (s : State) : State :=
  handOn .stop .stop { s with
    stc := { s.stc with drive := .stopping }
    svo := { s.svo with follow := 0 }
    mpr := { s.mpr with mode := .hold, g := none } }

theorem enterStopping_eq (s : State) :
    enterStopping s = if s.mpr.v = 0 then endStopping (stoppingDrive s) else stoppingDrive s := by
  have move : (stoppingDrive s).mpr.v = s.mpr.v := by rw [stoppingDrive, handOn_mpr_of_off _ _ (by simp)]
  rw [← move]; rfl

@[simp] theorem stoppingDrive_stc (s : State) : (stoppingDrive s).stc = { s.stc with drive := .stopping } := by
  simp [stoppingDrive]

@[simp] theorem stoppingDrive_svo (s : State) : (stoppingDrive s).svo = { s.svo with follow := 0 } := by simp [stoppingDrive]

@[simp] theorem stoppingDrive_cfg (s : State) : (stoppingDrive s).cfg = s.cfg := by simp [stoppingDrive]

theorem stoppingDrive_mpr (s : State) : (stoppingDrive s).mpr = { s.mpr with mode := .hold, g := none } := by
  rw [stoppingDrive, handOn_mpr_of_off _ _ (by simp)]

/-- STOPPING ends: in PARKED with a park pending, in STOPPED while a stop is in force, in PARKED where it has been released; MPR
tracks (R94, R95, R98). -/
theorem endStopping_eq {s : State} (stopping : s.stc.drive = .stopping) :
    endStopping s = { s with
      stc := { s.stc with
        drive := if s.stc.parkPending = false ∧ stopInForce s = true then .stopped else .parked
        settle := 0, parkPending := false }
      svo := { s.svo with follow := 0, u := 0 }
      mpr := (track s).mpr } := by
  have stopped : enterStopped s = stoppedDrive s := enterStopped_of_other (by simp [stopping])
  have same : stopInForce (stoppedDrive s) = stopInForce s := stopInForce_of_orders rfl
  cases pending : s.stc.parkPending
  · cases stop : stopInForce s
    · simp only [endStopping, pending, Bool.false_eq_true, if_false, stopped]
      rw [leaveStopped_of_free rfl (same.trans stop)]
      simp [enterParked, setDrive, stoppedDrive, track, setLimitFlags]
    · simp only [endStopping, pending, Bool.false_eq_true, if_false, stopped]
      rw [leaveStopped_of_stop (same.trans stop)]
      simp [stoppedDrive]
  · simp [endStopping, pending, enterParked, setDrive, stopping, track, setLimitFlags]

/-! ### The reaction (R92, R93, R95) -/

theorem reactStops_of_parked {s : State} (parked : s.stc.drive = .parked) : reactStops s = s := by
  have stays : leaveStopped s = s := leaveStopped_of_other (by simp [parked])
  simp [reactStops, parked, stays]

theorem reactStops_of_stopped {s : State} (stopped : s.stc.drive = .stopped) : reactStops s = leaveStopped s := by
  simp [reactStops, stopped]

theorem reactStops_of_free {s : State} (free : stopInForce s = false) : reactStops s = leaveStopped s := by
  have soft : hardInForce s = false := by
    rw [← Bool.not_eq_true]; exact fun hard => by simp [stopInForce_of_hard hard] at free
  simp [reactStops, soft, free]

theorem enterStopped_held {s : State} (stop : stopInForce s = true) : leaveStopped (enterStopped s) = enterStopped s :=
  leaveStopped_of_stop ((stopInForce_of_orders (by rw [enterStopped_stc]; rfl)).trans stop)

theorem reactStops_of_hard {s : State} (hard : hardInForce s = true) (on : driveActive s.stc.drive = true) :
    reactStops s = enterStopped s := by
  have held := enterStopped_held (stopInForce_of_hard hard)
  cases drive : s.stc.drive <;> simp_all [reactStops, driveActive]

theorem reactStops_of_waking {s : State} (stop : stopInForce s = true) (waking : s.stc.drive = .waking) :
    reactStops s = enterStopped s := by
  have held := enterStopped_held stop
  simp [reactStops, stop, waking, held]

theorem enterStopping_orders (s : State) : (enterStopping s).stc.orders = s.stc.orders := by
  rw [enterStopping_eq]; split
  · rw [endStopping_eq (by simp)]; simp [Stc.orders]
  · simp [Stc.orders]

theorem reactStops_of_ramp {s : State} (soft : hardInForce s = false) (stop : stopInForce s = true)
    (on : s.stc.drive = .enabled) : reactStops s = enterStopping s := by
  have held : leaveStopped (enterStopping s) = enterStopping s :=
    leaveStopped_of_stop ((stopInForce_of_orders (enterStopping_orders s)).trans stop)
  simp [reactStops, soft, stop, on, held]

theorem reactStops_of_stopping {s : State} (soft : hardInForce s = false) (stopping : s.stc.drive = .stopping) :
    reactStops s = s := by
  have stays : leaveStopped s = s := leaveStopped_of_other (by simp [stopping])
  simp [reactStops, soft, stopping, stays]

/-- What a reaction can do: nothing, or one entry to another drive state (R92, R93, R95). -/
theorem reactStops_cases (s : State) :
    reactStops s = s ∨ (reactStops s = enterStopped s ∧ stopInForce s = true ∧ driveActive s.stc.drive = true) ∨
      (reactStops s = enterStopping s ∧ stopInForce s = true ∧ s.stc.drive = .enabled) ∨
      (reactStops s = enterParked s ∧ stopInForce s = false ∧ s.stc.drive = .stopped) := by
  cases stop : stopInForce s
  · by_cases stopped : s.stc.drive = .stopped
    · exact .inr (.inr (.inr ⟨by rw [reactStops_of_free stop, leaveStopped_of_free stopped stop], rfl, stopped⟩))
    · exact .inl (by rw [reactStops_of_free stop, leaveStopped_of_other stopped])
  · by_cases on : driveActive s.stc.drive = true
    · cases hard : hardInForce s
      · cases drive : s.stc.drive
        · exact .inl (reactStops_of_parked drive)
        · exact .inr (.inl ⟨reactStops_of_waking stop drive, rfl, rfl⟩)
        · exact .inr (.inr (.inl ⟨reactStops_of_ramp hard stop drive, rfl, rfl⟩))
        · exact .inl (reactStops_of_stopping hard drive)
        · simp [drive, driveActive] at on
      · exact .inr (.inl ⟨reactStops_of_hard hard on, rfl, on⟩)
    · cases drive : s.stc.drive <;> simp [drive, driveActive] at on
      · exact .inl (reactStops_of_parked drive)
      · exact .inl (by rw [reactStops_of_stopped drive, leaveStopped_of_stop stop])

/-! ### The parts a reaction leaves alone -/

@[simp] theorem enterStopping_besideFifo (s : State) : (enterStopping s).lnk.besideFifo = s.lnk.besideFifo := by
  rw [enterStopping_eq]; split
  · rw [endStopping_eq (by simp)]; simp [stoppingDrive]
  · simp [stoppingDrive]

@[simp] theorem enterStopping_counts (s : State) : (enterStopping s).svo.counts = s.svo.counts := by
  rw [enterStopping_eq]; split
  · rw [endStopping_eq (by simp)]; simp [Svo.counts]
  · simp [Svo.counts]

@[simp] theorem reactStops_orders (s : State) : (reactStops s).stc.orders = s.stc.orders := by
  obtain eq | ⟨eq, -⟩ | ⟨eq, -⟩ | ⟨eq, -⟩ := reactStops_cases s <;> rw [eq]
  · simp [Stc.orders]
  · exact enterStopping_orders s
  · simp [Stc.orders]

@[simp] theorem reactStops_besideFifo (s : State) : (reactStops s).lnk.besideFifo = s.lnk.besideFifo := by
  obtain eq | ⟨eq, -⟩ | ⟨eq, -⟩ | ⟨eq, -⟩ := reactStops_cases s <;> rw [eq] <;> simp

@[simp] theorem reactStops_counts (s : State) : (reactStops s).svo.counts = s.svo.counts := by
  obtain eq | ⟨eq, -⟩ | ⟨eq, -⟩ | ⟨eq, -⟩ := reactStops_cases s <;> rw [eq]
  · simp [Svo.counts]
  · exact enterStopping_counts s
  · simp [Svo.counts]

theorem reactStops_localCauses (s : State) : localCauses (reactStops s) = localCauses s :=
  localCauses_congr (congrArg Stc.latches (reactStops_orders s) :) (congrArg Svo.encFault (reactStops_counts s) :) (by simp)
    (congrArg Lnk.linkFault (reactStops_besideFifo s) :)

theorem stopInForce_reactStops (s : State) : stopInForce (reactStops s) = stopInForce s :=
  stopInForce_of_orders (reactStops_orders s)

/-! ### Leaving ENABLED by a stop (R93, R99) -/

/-- Leaving ENABLED at rest ends at once: PARKED with a park pending, else STOPPED (R94). -/
theorem enterStopping_of_rest {s : State} (rest : s.mpr.v = 0) (stop : stopInForce s = true) :
    (enterStopping s).stc.drive = (if s.stc.parkPending then .parked else .stopped) ∧ (enterStopping s).mpr.v = 0 := by
  have same : stopInForce (stoppingDrive s) = true := by
    rw [stopInForce_of_orders (s := s) (by rw [stoppingDrive_stc]; rfl), stop]
  rw [enterStopping_eq, if_pos rest, endStopping_eq (by simp)]
  cases pending : s.stc.parkPending <;> simp [pending, same]

theorem enterStopping_of_move {s : State} (moves : s.mpr.v ≠ 0) : enterStopping s = stoppingDrive s := by
  rw [enterStopping_eq, if_neg moves]

/-- A stop in force takes the axis out of ENABLED, and STOP is handed on in the same event. -/
theorem reactStops_of_enabled {s : State} (on : s.stc.drive = .enabled) (stop : stopInForce s = true) :
    ∃ x, x.cfg = s.cfg ∧ x.dmr = s.dmr ∧ x.hom = s.hom ∧ x.tks = s.tks ∧ x.tsc = s.tsc ∧ x.lnk = s.lnk ∧
      (reactStops s).dmr = (handOn .stop .stop x).dmr ∧ (reactStops s).hom = (handOn .stop .stop x).hom ∧
      (reactStops s).tks = (handOn .stop .stop x).tks ∧ (reactStops s).tsc = (handOn .stop .stop x).tsc ∧
      (reactStops s).lnk = (handOn .stop .stop x).lnk := by
  cases hard : hardInForce s
  · refine ⟨{ s with
      stc := { s.stc with drive := .stopping }, svo := { s.svo with follow := 0 }
      mpr := { s.mpr with mode := .hold, g := none } }, rfl, rfl, rfl, rfl, rfl, rfl, ?_⟩
    rw [reactStops_of_ramp hard stop on, enterStopping_eq]
    split
    · rw [endStopping_eq (by simp)]; simp [stoppingDrive]
    · simp [stoppingDrive]
  · refine ⟨stoppedDrive s, rfl, rfl, rfl, rfl, rfl, rfl, ?_⟩
    rw [reactStops_of_hard hard (by simp [on, driveActive]), enterStopped_of_enabled on]
    simp

theorem brakeEngaged_of_off {s : State} {d : DriveState} (at_ : s.stc.drive = d) (off : d ≠ .enabled ∧ d ≠ .stopping) :
    brakeEngaged s = true := (lines_of_off (at_ ▸ off)).2

/-- Settles O37, by the entry that each combination of stops and drive state leads to. -/
theorem stopsInForceMoveTheDrive : Obligations.StopsInForceMoveTheDrive := by
  unfold Obligations.StopsInForceMoveTheDrive
  intro s
  have orders := reactStops_orders s
  have link := reactStops_besideFifo s
  have counts := reactStops_counts s
  refine ⟨_, rfl, fun hard active => ?_, fun soft stop => ⟨fun waking => ?_, fun on moves => ?_, fun on rest => ?_, fun stopping =>
    reactStops_of_stopping soft stopping⟩, reactStops_of_parked, fun stop stopped => ?_, fun free other => ?_,
    fun free stopped => ?_, fun on stop => ?_,
    ⟨(congrArg Stc.hold orders :), (congrArg Stc.holders orders :), reactStops_localCauses s, (congrArg Stc.haltInput orders :),
      (congrArg Stc.companionHalt orders :), (congrArg Stc.wakeRefused orders :)⟩,
    ⟨by simp, by simp, by simp, by simp, by simp, by simp, by simp, by simp, by simp, (congrArg Svo.raw counts :),
      (congrArg Svo.origin counts :), (congrArg Lnk.safety link :), (congrArg Lnk.tx link :)⟩⟩
  · rw [reactStops_of_hard hard (by rcases active with on | on | on <;> simp [on, driveActive])]
    simp [brakeEngaged, driveEnable]
  · rw [reactStops_of_waking stop waking]
    simp
  · rw [reactStops_of_ramp soft stop on, enterStopping_of_move moves]
    simp [stoppingDrive_mpr]
  · obtain ⟨drive, move⟩ := enterStopping_of_rest rest stop
    rw [reactStops_of_ramp soft stop on]
    exact ⟨drive, move, brakeEngaged_of_off drive (by split <;> simp)⟩
  · rw [reactStops_of_stopped stopped, leaveStopped_of_stop stop]
  · rw [reactStops_of_free free, leaveStopped_of_other other]
  · rw [reactStops_of_free free, leaveStopped_of_free stopped free]
    simp [brakeEngaged, driveEnable]
  · obtain ⟨x, cfg, dmr, hom, tks, tsc, lnk, dmr', hom', tks', tsc', lnk'⟩ := reactStops_of_enabled on stop
    refine ⟨by rw [dmr', handOn_dmr, dmr]; rfl, fun seeks => ?_, fun none => ?_, fun held => ?_, fun none => ?_⟩
    · rw [hom', handOn_hom, hom, if_pos seeks]; rfl
    · rw [hom', handOn_hom, hom, if_neg none]
    · rw [tks', ← ownByte_congr cfg]
      exact handOn_takes_of_abortable _ _ (tks ▸ held)
    · obtain ⟨job, store, slots⟩ := handOn_takes_of_none .stop .stop (s := x) (tks ▸ none)
      exact ⟨tks'.trans (job.trans tks), tsc'.trans (store.trans tsc), lnk'.trans (slots.trans lnk)⟩

/-! ### The lines of a node that has not reached PARKED, after START and after a RESTART (R23) -/

@[simp] theorem holdAgain_drive (s : State) : (holdAgain s).stc.drive = s.stc.drive := by
  unfold holdAgain; split <;> simp

@[simp] theorem holdFor_drive (c : Cause) (s : State) : (holdFor c s).stc.drive = s.stc.drive := by
  unfold holdFor; split
  · simp
  · split <;> simp

theorem causeArises_of_parked (c : Cause) {s : State} (parked : s.stc.drive = .parked) : causeArises c s = holdFor c s :=
  reactStops_of_parked (by simpa using parked)

theorem openChain_drive_of_parked {s : State} (parked : s.stc.drive = .parked) : (openChain s).stc.drive = .parked := by
  simp only [openChain, raiseCause]
  split
  · exact parked
  · rw [causeArises_of_parked _ (by exact parked), holdFor_drive]; exact parked

theorem startPart_drive (chainOpen : Bool) (memory : MemoryPower) (s : State) :
    (startPart chainOpen memory s).stc.drive = .parked := by
  unfold startPart; dsimp only; split
  · exact openChain_drive_of_parked rfl
  · rfl

theorem restartPart_drive (s : State) : (restartPart s).stc.drive = .parked := by simp [restartPart, Stc.restart]

theorem requestRestart_of_accepted {s : State} (accepted : restartAccepted s = true) : requestRestart s = restartPart s :=
  if_pos accepted

theorem lines_of_parked {s : State} (parked : s.stc.drive = .parked) : driveEnable s = false ∧ brakeEngaged s = true :=
  lines_of_off (by simp [parked])

/-- Settles O17: SVO by the drive lines, and the lines by the drive state that START, RESTART and the move invariant leave. -/
theorem driveOutputAndLines : Obligations.DriveOutputAndLines := by
  unfold Obligations.DriveOutputAndLines
  refine ⟨fun s => ⟨_, rfl, servo_eq s, servo_raw s, servo_origin s, servo_encFault s, servo_clean s, fun on => ?_, fun off => ?_⟩,
    fun s => ⟨driveEnable_iff s, brakeEngaged_eq_false_iff s⟩, fun s move down => ?_, fun chainOpen memory s t started => ?_,
    fun s t accepted restarted => ?_⟩
  · rw [servo_of_on on]
    refine ⟨rfl, driveOutput_eq _ _ _ _, fun homing => by simp [homing], fun other small => ?_, fun other large below => ?_⟩
    · simp [other, not_lt.mpr small]
    · simp only [other, if_false, large, if_true]; omega
  · rw [servo_of_off (by rcases off with d | d | d <;> simp [d])]
    exact ⟨rfl, rfl, rfl⟩
  · refine lines_of_parked (not_not.mp fun active => ?_)
    simp [move.1 active] at down
  · cases started
    exact lines_of_parked (startPart_drive _ _ _)
  · cases restarted
    refine lines_of_parked ?_
    simp [portRestart, requestRestart_of_accepted accepted, restartPart_drive]

end Sys2Proof.Machine
end

