-- ==== Sys2Proof/Proofs/MotionView.lean ====
section
/-! SUPPORT. The motion view of a state, the changes that the operations make to it, and the two laws that each change keeps (R3, R13, R14, R172). -/

namespace Sys2Proof.Machine

open Sys2Proof.Safety

/-! ### The view and its changes -/

/-- What the two motion laws read of a state: identity and parameters, homing, the commanded position and move, the drive. -/
structure MotionView where
  role : Option Role
  startState : StartState
  params : Option Block
  home : HomeState
  armed : Bool
  p : Int
  v : Int
  drive : DriveState

def motionView (s : State) : MotionView :=
  { role := s.cfg.role, startState := s.cfg.startState, params := s.cfg.params, home := s.hom.state, armed := s.hom.armed
    p := s.mpr.p, v := s.mpr.v, drive := s.stc.drive }

namespace MotionView

/-- An AXIS node that has reached PARKED. -/
def up (m : MotionView) : Prop := m.role = some .axis ∧ m.startState = .parked

def item (m : MotionView) (f : Block → Int) : Int := match m.params with | some b => f b | none => 0

/-- A position within the soft limits. -/
def inside (m : MotionView) (q : Int) : Prop := m.item (·.lo) * 256 ≤ q ∧ q ≤ m.item (·.hi) * 256

/-- An axis that scans or has reached PARKED holds a block with the property. -/
def holds (P : Block → Prop) (m : MotionView) : Prop :=
  m.role = some .axis → (m.startState = .scan ∨ m.startState = .parked) → ∃ b, m.params = some b ∧ P b

/-- The first law on the view (R13). -/
def travel (m : MotionView) : Prop :=
  m.holds (fun b => b.lo < b.hi) ∧ (m.armed = true → m.home = .homing) ∧ (m.home = .homing ∨ m.home = .homed → m.up) ∧
    (m.home = .homed → m.inside m.p)

/-- The second law on the view (R13). -/
def limited (m : MotionView) : Prop :=
  (m.drive ≠ .parked → m.up) ∧ (m.drive = .parked ∨ m.drive = .waking ∨ m.drive = .stopped → m.v = 0) ∧
    |m.v| ≤ m.item (fun b => b.vMax)

end MotionView

/-- The changes of the view that the node's operations are made of. -/
inductive MotionStep : MotionView → MotionView → Prop
  /-- The move ends; the position stays or is tracked (R3, R92, R94, R97, R98). -/
  | rest (m : MotionView) (d : DriveState) (q : Int) (active : d = .parked ∨ m.drive ≠ .parked)
      (inside : m.home = .homed → q = m.p ∨ (m.item (·.lo) ≤ m.item (·.hi) → m.inside q)) :
      MotionStep m { m with drive := d, p := q, v := 0 }
  /-- A ramp down or a wake begins (R93, R96). -/
  | drive (m : MotionView) (d : DriveState) (still : d = .stopping ∨ m.drive = .parked) (active : m.drive ≠ .parked ∨ m.up) :
      MotionStep m { m with drive := d }
  /-- The homing begins, goes on, ends or is lost; an end in HOMED leaves the position within the limits (R14, R42 to R51). -/
  | home (m : MotionView) (h : HomeState) (a : Bool) (q w : Int) (armed : a = true → h = .homing)
      (up : h = .unhomed ∨ m.up ∨ m.home ≠ .unhomed)
      (inside : h = .homed → m.item (·.lo) ≤ m.item (·.hi) → m.inside q) (move : w = m.v ∨ w = 0) :
      MotionStep m { m with home := h, armed := a, p := q, v := w }
  /-- A profile update or a playback step (R6, R15). -/
  | move (m : MotionView) (q w : Int) (on : m.drive = .enabled ∨ m.drive = .stopping)
      (inside : m.home = .homed → m.inside m.p → m.inside q)
      (bounded : (∃ b, m.params = some b ∧ checkBlock .axis b = none) → (m.home = .homed → m.inside m.p) →
        |m.v| ≤ m.item (fun b => b.vMax) → |w| ≤ m.item (fun b => b.vMax)) :
      MotionStep m { m with p := q, v := w }
  /-- The start sequence goes on (R169 to R173). -/
  | config (m : MotionView) (r : Option Role) (st : StartState) (ps : Option Block) (down : ¬m.up)
      (checked : st = .scan ∨ st = .parked → (∃ b, ps = some b ∧ checkBlock .axis b = none) ∨
        m.startState = .scan ∧ r = m.role ∧ ps = m.params) :
      MotionStep m { m with role := r, startState := st, params := ps }
  /-- A START or an accepted RESTART (R168, R176). -/
  | reset (m : MotionView) (r : Option Role) (st : StartState) (q : Int) (start : st ≠ .scan ∧ st ≠ .parked) :
      MotionStep m { role := r, startState := st, params := none, home := .unhomed, armed := false, p := q, v := 0, drive := .parked }
  /-- No state within the first law has its capture armed outside a homing. -/
  | unreachable (m n : MotionView) (wrong : m.armed = true ∧ m.home ≠ .homing) : MotionStep m n

/-- t comes from s by changes of the motion view. -/
def Moves (s t : State) : Prop := Relation.ReflTransGen MotionStep (motionView s) (motionView t)

/-! ### Each change keeps the laws -/

theorem passes_of_firstFailing {l : List (Bool × FailingItem)} (none : firstFailing l = none) : ∀ x ∈ l, x.1 = true := by
  induction l with
  | nil => simp
  | cons x xs ih =>
    obtain ⟨ok, f⟩ := x
    rw [firstFailing_cons] at none
    cases ok
    · cases none
    · exact List.forall_mem_cons.mpr ⟨rfl, ih none⟩

/-- The orders of R172 that the motion laws rest on. -/
theorem motion_of_checkBlock {b : Block} (passed : checkBlock .axis b = none) :
    b.lo < b.hi ∧ b.aMax ≤ 16383 ∧ b.aStop ≤ 65535 := by
  have tests := passes_of_firstFailing passed
  have among (x : Bool × FailingItem) (listed : x ∈ motionTests b) : x.1 = true := tests x (by simp [blockTests, listed])
  have hi := among (inRange countMin countMax b.hi && decide (b.lo < b.hi), item .hi) (by simp [motionTests, item])
  have aMax := among (inRange 1 16383 b.aMax, item .aMax) (by simp [motionTests, item])
  have aStop := among (inRange b.aMax 65535 b.aStop, item .aStop) (by simp [motionTests, item])
  simp only [Bool.and_eq_true, decide_eq_true_eq, inRange_iff] at hi aMax aStop
  omega

namespace MotionStep

open MotionView

theorem holds {P : Block → Prop} (implied : ∀ b, checkBlock .axis b = none → P b) {m n : MotionView} (change : MotionStep m n)
    (sane : m.armed = true → m.home = .homing) (held : m.holds P) : n.holds P := by
  cases change with
  | rest | drive | home | move => exact held
  | config r st ps down checked =>
    intro axis scans
    obtain ⟨b, same, passed⟩ | ⟨scan, role, same⟩ := checked scans
    · exact ⟨b, same, implied b passed⟩
    · obtain ⟨b, there, ok⟩ := held (role ▸ axis) (.inl scan)
      exact ⟨b, same.trans there, ok⟩
  | reset r st q start => exact fun _ scans => (scans.elim start.1 start.2).elim
  | unreachable _ wrong => exact absurd (sane wrong.1) wrong.2

/-- On an axis that has reached PARKED the limits are in order. -/
theorem ordered_of_up {m : MotionView} (held : m.holds (fun b => b.lo < b.hi)) (up : m.up) : 
    m.item (·.lo) ≤ m.item (·.hi) := by
  obtain ⟨b, same, order⟩ := held up.1 (.inr up.2)
  simp only [MotionView.item, same]
  omega

theorem travel {m n : MotionView} (change : MotionStep m n) (safe : m.travel) : n.travel := by
  obtain ⟨held, sane, up, inside⟩ := safe
  have ordered := change.holds (fun b passed => (motion_of_checkBlock passed).1) sane held
  refine ⟨ordered, ?_⟩
  cases change with
  | rest d q active tracked =>
    refine ⟨sane, up, fun homed => ?_⟩
    obtain rfl | clamped := tracked homed
    · exact inside homed
    · exact clamped (ordered_of_up held (up (.inr homed)))
  | drive d still active => exact ⟨sane, up, inside⟩
  | home h a q w armed goes clamped _ =>
    have upAfter (at_ : h = .homing ∨ h = .homed) : m.up := by
      obtain rfl | now | before := goes
      · simp at at_
      · exact now
      · exact up (by cases e : m.home <;> simp_all)
    exact ⟨armed, upAfter, fun homed => clamped homed (ordered_of_up held (upAfter (.inr homed)))⟩
  | move q w on keeps => exact ⟨sane, up, fun homed => keeps homed (inside homed)⟩
  | config r st ps down =>
    have away (x : HomeState) (at_ : m.home = x) (set : x = .homing ∨ x = .homed) : False := down (up (at_ ▸ set))
    refine ⟨sane, fun set => (away _ rfl set).elim, fun homed => (away _ rfl (.inr homed)).elim⟩
  | reset => simp
  | unreachable _ wrong => exact absurd (sane wrong.1) wrong.2

theorem limited {m n : MotionView} (change : MotionStep m n) (passed : m.holds (fun b => checkBlock .axis b = none))
    (safe : m.travel) (slow : m.limited) : n.limited := by
  obtain ⟨-, sane, -, inside⟩ := safe
  obtain ⟨active, rest, bound⟩ := slow
  have zero (x : MotionView) : |(0 : Int)| ≤ x.item (fun b => b.vMax) := by
    simp only [MotionView.item]; split <;> simp
  cases change with
  | rest d q off _ => exact ⟨fun on => active (off.resolve_left on), fun _ => rfl, zero _⟩
  | drive d still goes =>
    refine ⟨fun _ => goes.elim active id, fun off => ?_, bound⟩
    obtain rfl | parked := still
    · simp at off
    · exact rest (.inl parked)
  | home h a q w _ _ _ move =>
    obtain rfl | rfl := move
    · exact ⟨active, rest, bound⟩
    · exact ⟨active, fun _ => rfl, zero _⟩
  | move q w on _ bounded =>
    have up : m.up := active (by rcases on with d | d <;> simp [d])
    exact ⟨active, fun off => by rcases on with d | d <;> simp [d] at off, bounded (passed up.1 (.inr up.2)) inside bound⟩
  | config r st ps down =>
    have parked : m.drive = .parked := not_not.mp fun on => down (active on)
    have still : m.v = 0 := rest (.inl parked)
    exact ⟨fun on => absurd parked on, fun _ => still, by rw [show |m.v| = |0| by rw [still]]; exact zero _⟩
  | reset => exact ⟨fun on => absurd rfl on, fun _ => rfl, zero _⟩
  | unreachable _ wrong => exact absurd (sane wrong.1) wrong.2

end MotionStep

theorem travelSafe_iff (s : State) : travelSafe s ↔ (motionView s).travel := by
  have limits (homed : s.hom.state = .homed) : (travelLo s ≤ s.mpr.p ∧ s.mpr.p ≤ travelHi s) ↔ (motionView s).inside s.mpr.p := by
    simp only [travelLo, travelHi, isHomed, homed, beq_self_eq_true, if_true]
    exact Iff.rfl
  simp only [travelSafe, MotionView.travel, axisUp, isAxis, Bool.and_eq_true, beq_iff_eq]
  exact and_congr Iff.rfl (and_congr Iff.rfl (and_congr Iff.rfl (forall_congr' limits)))

theorem moveSafe_iff (s : State) : moveSafe s ↔ (motionView s).limited := by
  simp only [moveSafe, MotionView.limited, axisUp, isAxis, Bool.and_eq_true, beq_iff_eq]
  rfl

theorem holds_of_configSafe {s : State} (safe : configSafe s) : (motionView s).holds (fun b => checkBlock .axis b = none) := by
  intro _ scans
  rcases scans with at_ | at_ <;> simp only [motionView] at at_ <;> simp only [configSafe, at_] at safe <;> exact safe.2

theorem Moves.travel {s t : State} (moves : Moves s t) (safe : travelSafe s) : travelSafe t := by
  rw [travelSafe_iff] at safe ⊢
  suffices kept : ∀ n, Relation.ReflTransGen MotionStep (motionView s) n → n.travel from kept _ moves
  intro n chain
  induction chain with
  | refl => exact safe
  | tail _ change ih => exact change.travel ih

theorem Moves.limited {s t : State} (moves : Moves s t) (config : configSafe s) (safe : travelSafe s) (slow : moveSafe s) :
    moveSafe t := by
  have passed := holds_of_configSafe config
  rw [travelSafe_iff] at safe
  rw [moveSafe_iff] at slow ⊢
  suffices kept : ∀ n, Relation.ReflTransGen MotionStep (motionView s) n →
      n.holds (fun b => checkBlock .axis b = none) ∧ n.travel ∧ n.limited from (kept _ moves).2.2
  intro n chain
  induction chain with
  | refl => exact ⟨passed, safe, slow⟩
  | tail _ change ih =>
    obtain ⟨passed, safe, slow⟩ := ih
    exact ⟨change.holds (fun _ => id) safe.2.1 passed, change.travel safe, change.limited passed safe slow⟩

end Sys2Proof.Machine
end

