-- ==== Sys2Proof/Proofs/Motion.lean ====
section
/-! SUPPORT. What each operation of the node does to the motion view, and the two motion laws of every step (O10, O11). -/

namespace Sys2Proof.Machine

open Sys2Proof.Safety

/-! ### Takes: a job requests modes and targets, and leaves the course alone (R4, R107 to R122) -/

@[simp] theorem abortRunning_course (r : Reason) (s : State) : (abortRunning r s).mpr.course = s.mpr.course := by
  unfold abortRunning; split <;> simp

@[simp] theorem refuse_course (n : Byte) (r : Reason) (s : State) : (refuse n r s).mpr.course = s.mpr.course := by
  unfold refuse; split
  · rfl
  · simp only [broadcastAbort_frame]; split <;> simp

@[simp] theorem takePrepare_course (n : Byte) (m : StationMask) (s : State) : (takePrepare n m s).mpr.course = s.mpr.course := by
  unfold takePrepare; repeat' split
  all_goals simp

@[simp] theorem takeCue_course (n : Byte) (m : StationMask) (i o : Byte) (s : State) :
    (takeCue n m i o s).mpr.course = s.mpr.course := by
  unfold takeCue; dsimp only; repeat' split
  all_goals simp

@[simp] theorem takeRoll_course (n : Byte) (t : Ms16) (s : State) : (takeRoll n t s).mpr.course = s.mpr.course := by
  unfold takeRoll; repeat' split
  all_goals simp

@[simp] theorem takeCut_course (n : Byte) (t : Ms16) (s : State) : (takeCut n t s).mpr.course = s.mpr.course := by
  unfold takeCut; dsimp only; repeat' split
  all_goals simp

@[simp] theorem takeAbort_course (own : Bool) (n r o : Byte) (s : State) :
    (takeAbort own n r o s).mpr.course = s.mpr.course := by
  unfold takeAbort; repeat' split
  all_goals simp

@[simp] theorem storeReport_course (r : StoreReport) (s : State) : (storeReport r s).mpr.course = s.mpr.course := by
  unfold storeReport; repeat' split
  all_goals simp

@[simp] theorem beginRecording_course (s : State) : (beginRecording s).mpr.course = s.mpr.course := by
  simp [beginRecording]

@[simp] theorem beginPlayback_course (s : State) : (beginPlayback s).mpr.course = s.mpr.course := by
  simp [beginPlayback]

@[simp] theorem beginClosing_course (e : Int) (s : State) : (beginClosing e s).mpr.course = s.mpr.course := by
  unfold beginClosing; dsimp only; split <;> simp

@[simp] theorem recordMove_course (m : Int) (s : State) : (recordMove m s).mpr.course = s.mpr.course := by
  simp [recordMove]

@[simp] theorem recordingUpdate_course (r : Result) (s : State) : (recordingUpdate r s).mpr.course = s.mpr.course := by
  unfold recordingUpdate; dsimp only; repeat' split
  all_goals simp

@[simp] theorem beginRunout_course (s : State) : (beginRunout s).mpr.course = s.mpr.course := by
  simp [beginRunout]

@[simp] theorem playbackCut_course (s : State) : (playbackCut s).mpr.course = s.mpr.course := by
  unfold playbackCut; repeat' split
  all_goals simp

@[simp] theorem playbackResult_course (r : Result) (s : State) : (playbackResult r s).mpr.course = s.mpr.course := by
  unfold playbackResult; dsimp only; repeat' split
  all_goals simp

@[simp] theorem takesUpdate_course (r : Result) (s : State) : (takesUpdate r s).mpr.course = s.mpr.course := by
  unfold takesUpdate; dsimp only; repeat' split
  all_goals simp

@[simp] theorem handTake_course (own : Bool) (c : TakeCmd) (s : State) : (handTake own c s).mpr.course = s.mpr.course := by
  cases c <;> simp [handTake]

/-! ### How the view is shown to move -/

/-- A change that leaves identity, homing, course and drive alone leaves the view alone. -/
theorem Moves.still {s t : State}
    (same : t.cfg = s.cfg ∧ t.hom = s.hom ∧ t.mpr.course = s.mpr.course ∧ t.stc.drive = s.stc.drive) : Moves s t := by
  obtain ⟨cfg, hom, course, drive⟩ := same
  rw [Moves, show motionView t = motionView s by
    simp only [motionView, cfg, hom, drive, p_of_course course, v_of_course course]]

theorem Moves.of_eq {s t : State} (same : motionView t = motionView s) : Moves s t := by
  rw [Moves, same]

theorem Moves.of_step {s t : State} {n : MotionView} (change : MotionStep (motionView s) n) (view : motionView t = n) :
    Moves s t :=
  Relation.ReflTransGen.single (view ▸ change)

theorem Moves.ite {c : Prop} [Decidable c] {s t u : State} (yes : c → Moves s t) (no : ¬c → Moves s u) :
    Moves s (if c then t else u) := by
  split
  · exact yes ‹_›
  · exact no ‹_›

theorem Moves.rfl {s : State} : Moves s s := Relation.ReflTransGen.refl

theorem Moves.trans {s t u : State} (first : Moves s t) (second : Moves t u) : Moves s u :=
  Relation.ReflTransGen.trans first second

theorem requestMode_moves (m : Mode) (s : State) : Moves s (requestMode m s) := .still (by simp)
theorem requestGoto_moves (x : Int) (s : State) : Moves s (requestGoto x s) := .still (by simp)

/-! ### Stops and the drive (R92 to R98) -/

theorem handOn_moves (f : HomeFail) (r : Reason) (s : State) : Moves s (handOn f r s) := by
  by_cases seeks : s.hom.state = .homing
  · refine .of_step (.home _ .unhomed false s.mpr.p s.mpr.v (by simp) (.inl rfl) (by simp) (.inl rfl)) ?_
    have course := handOn_course f r s
    simp [motionView, handOn_hom, seeks, failedHom, p_of_course course, v_of_course course]
  · exact .still (by simp [handOn_hom, seeks])

/-- Where tracking leaves the position: within the limits on a homed axis (R3). -/
theorem track_inside (s : State) (homed : (motionView s).home = .homed)
    (ordered : (motionView s).item (·.lo) ≤ (motionView s).item (·.hi)) : (motionView s).inside (track s).mpr.p := by
  have at_ : isHomed s = true := by simpa [isHomed, motionView] using homed
  have lo : travelLo s = (motionView s).item (·.lo) * 256 := by simp only [travelLo, at_, if_true]; rfl
  have hi : travelHi s = (motionView s).item (·.hi) * 256 := by simp only [travelHi, at_, if_true]; rfl
  have p : (track s).mpr.p = clampInt (travelLo s) (travelHi s) (measured s * 256) := by simp [track, setLimitFlags, at_]
  rw [p, MotionView.inside, ← lo, ← hi]
  exact clampInt_bounds (by omega) _

theorem stoppedDrive_moves {s : State} (active : s.stc.drive ≠ .parked) : Moves s (stoppedDrive s) :=
  .of_step (.rest _ .stopped (track s).mpr.p (.inr active) fun homed => .inr (track_inside s homed)) rfl

theorem enterStopped_moves {s : State} (active : s.stc.drive ≠ .parked) : Moves s (enterStopped s) := by
  rw [enterStopped_eq]
  exact .ite (fun _ => (stoppedDrive_moves active).trans (handOn_moves _ _ _)) fun _ => stoppedDrive_moves active

theorem enterParked_moves (s : State) : Moves s (enterParked s) :=
  .of_step (.rest _ .parked s.mpr.p (.inl rfl) fun _ => .inl rfl) (by simp [motionView])

theorem endStopping_moves {s : State} (stopping : s.stc.drive = .stopping) : Moves s (endStopping s) := by
  rw [endStopping_eq stopping]
  exact .of_step (.rest _ _ (track s).mpr.p (.inr (by simp [motionView, stopping])) fun homed => .inr (track_inside s homed)) rfl

theorem stoppingDrive_moves {s : State} (on : s.stc.drive = .enabled) : Moves s (stoppingDrive s) :=
  .trans (.of_step (.drive _ .stopping (.inl rfl) (.inl (by simp [motionView, on]))) rfl) (handOn_moves _ _ _)

theorem enterStopping_moves {s : State} (on : s.stc.drive = .enabled) : Moves s (enterStopping s) := by
  rw [enterStopping_eq]
  exact .ite (fun _ => (stoppingDrive_moves on).trans (endStopping_moves (by simp))) fun _ => stoppingDrive_moves on

theorem reactStops_moves (s : State) : Moves s (reactStops s) := by
  obtain eq | ⟨eq, -, on⟩ | ⟨eq, -, on⟩ | ⟨eq, -⟩ := reactStops_cases s <;> rw [eq]
  · exact .rfl
  · exact enterStopped_moves (by cases d : s.stc.drive <;> simp_all [driveActive])
  · exact enterStopping_moves on
  · exact enterParked_moves s

theorem causeArises_moves (c : Cause) (s : State) : Moves s (causeArises c s) :=
  .trans (.still (by simp)) (reactStops_moves (holdFor c s))

theorem raiseCause_moves (c : Cause) {f : State → State} {s : State} (set : Moves s (f s)) : Moves s (raiseCause c f s) :=
  .ite (fun _ => set) fun _ => set.trans (causeArises_moves c _)

theorem raiseOverrun_moves (s : State) : Moves s (raiseOverrun s) := raiseCause_moves _ (.still (by simp))
theorem raiseFollow_moves (s : State) : Moves s (raiseFollow s) := raiseCause_moves _ (.still (by simp))
theorem raiseLinkFault_moves (s : State) : Moves s (raiseLinkFault s) := raiseCause_moves _ (.still (by simp))
theorem openChain_moves (s : State) : Moves s (openChain s) := raiseCause_moves _ (.still (by simp))
theorem raiseHalt_moves (s : State) : Moves s (raiseHalt s) := .ite (fun _ => raiseCause_moves _ (.still (by simp))) fun _ => .rfl

theorem updateCauses_moves (s : State) : Moves s (updateCauses s) :=
  (raiseHalt_moves s).trans (.ite (fun _ => .trans (.still (by simp)) (causeArises_moves _ _)) fun _ => .still (by simp))

theorem settleHold_moves (before s : State) : Moves s (settleHold before s) :=
  .ite (fun _ => .trans (.still (by simp)) (reactStops_moves _)) fun _ => .rfl

theorem setHolder_moves (st : Station) (h : Option Hold) (s : State) : Moves s (setHolder st h s) :=
  .ite (fun _ => .rfl) fun _ => .trans (.still (by simp)) (reactStops_moves _)

theorem clearLatches_moves (s : State) : Moves s (clearLatches s) := .still ⟨by simp, by simp, by simp, rfl⟩

theorem resumeStops_moves (s : State) : Moves s (resumeStops s) :=
  (clearLatches_moves s).trans (.ite (fun _ => .rfl) fun _ => .ite (fun _ => .trans (.still (by simp)) (reactStops_moves _))
    fun _ => .trans (.still (by simp)) (reactStops_moves _))

theorem up_of_axisUp {s : State} (up : axisUp s = true) : (motionView s).up := by
  simpa [axisUp, isAxis, motionView, MotionView.up] using up

theorem takeWake_moves (mask : StationMask) (s : State) : Moves s (takeWake mask s) := by
  unfold takeWake
  refine .ite (fun _ => ?_) fun _ => .rfl
  split
  · next parked =>
    refine .ite (fun accepted => ?_) fun _ => .still (by simp)
    have up : axisUp s = true := by simp only [wakeAccepted, Bool.and_eq_true] at accepted; exact accepted.1.2
    exact .of_step (.drive _ .waking (.inr parked) (.inr (up_of_axisUp up))) rfl
  all_goals exact .still (by simp)

theorem takePark_moves (mask : StationMask) (s : State) : Moves s (takePark mask s) := by
  unfold takePark
  refine .ite (fun _ => ?_) fun _ => .rfl
  have handed : Moves s (handPark s) := handOn_moves _ _ _
  split
  · exact handed.trans (enterParked_moves _)
  · exact handed.trans (.ite (fun _ => enterParked_moves _) fun _ => .still (by simp))
  · exact handed.trans (.still (by simp))
  all_goals exact .rfl

theorem endWaking_moves {s : State} (waking : s.stc.drive = .waking) : Moves s (endWaking s) :=
  .of_step (.rest _ .enabled (track s).mpr.p (.inr (by simp [motionView, waking])) fun homed => .inr (track_inside s homed)) rfl

theorem wakingUpdate_moves (s : State) : Moves s (wakingUpdate s) := by
  unfold wakingUpdate
  refine .ite (fun waking => .ite (fun _ => .trans (.still (by simp)) (endWaking_moves (s := _) waking)) fun _ => .still (by simp)) fun _ => .rfl

theorem restUpdate_moves (r : Result) (s : State) : Moves s (restUpdate r s) := by
  unfold restUpdate
  refine .ite (fun _ => ?_) fun _ => .rfl
  split
  · exact endStopping_moves ‹_›
  · exact .ite (fun _ => enterParked_moves s) fun _ => .rfl
  all_goals exact .rfl

/-! ### Homing (R42 to R51) -/

theorem failHoming_moves (r : HomeFail) (s : State) : Moves s (failHoming r s) := by
  refine .ite (fun _ => .trans (t := { s with hom := failedHom r }) ?_ (.still (by simp [failedHom]))) fun _ => .rfl
  exact .of_step (.home _ .unhomed false s.mpr.p s.mpr.v (by simp) (.inl rfl) (by simp) (.inl rfl)) rfl

/-- What a homing that is done leaves of HOM (R20, R44, R46, R48). -/
def doneHom : Hom := { state := .homed, phase := none, seekStart := none, stall := 0, armed := false, outcome := .done }

/-- The soft limits of a homed axis (R1). -/
def softLo (s : State) : Int := param s (·.lo) * 256
def softHi (s : State) : Int := param s (·.hi) * 256

theorem travelLo_of_homed {s : State} (homed : s.hom.state = .homed) : travelLo s = softLo s := by
  simp [travelLo, softLo, isHomed, homed]

theorem travelHi_of_homed {s : State} (homed : s.hom.state = .homed) : travelHi s = softHi s := by
  simp [travelHi, softHi, isHomed, homed]

/-- An axis become homed whose position is brought within the soft limits (R14). -/
def clampedHome (s : State) : State :=
  setLimitFlags { s with hom := doneHom, mpr := { s.mpr with p := clampInt (softLo s) (softHi s) s.mpr.p, v := 0 } }

theorem becomeHomed_eq (s : State) :
    becomeHomed s = if s.mpr.p < softLo s ∨ softHi s < s.mpr.p then raiseOverrun (clampedHome s)
      else { s with hom := doneHom } := rfl

/-- An axis that becomes homed, wherever its position was: p is within the limits or is clamped with the move 0 (R14). -/
theorem becomeHomed_moves {s x : State} (p : Int) (view : motionView x = { motionView s with p := p })
    (goes : (motionView s).up ∨ s.hom.state ≠ .unhomed) : Moves s (becomeHomed x) := by
  have homed (q w : Int) (inside : softLo x ≤ softHi x → softLo x ≤ q ∧ q ≤ softHi x) (move : w = x.mpr.v ∨ w = 0) :
      MotionStep (motionView s) { motionView x with home := .homed, armed := false, p := q, v := w } := by
    have params : x.cfg.params = s.cfg.params := congrArg MotionView.params view
    have v : x.mpr.v = s.mpr.v := congrArg MotionView.v view
    have lo : softLo x = (motionView s).item (·.lo) * 256 := by simp only [softLo, param, params]; rfl
    have hi : softHi x = (motionView s).item (·.hi) * 256 := by simp only [softHi, param, params]; rfl
    rw [lo, hi] at inside
    rw [view]
    exact .home _ .homed false q w (by simp) (.inr goes) (fun _ ordered => inside (by omega)) (move.imp_left (·.trans v))
  rw [becomeHomed_eq]
  exact .ite (fun _ => .trans (.of_step (homed _ 0 (fun ordered => clampInt_bounds ordered x.mpr.p) (.inr rfl)) rfl)
    (raiseOverrun_moves _)) fun inside => .of_step (homed x.mpr.p x.mpr.v (fun _ => by omega) (.inl rfl)) rfl

theorem startSeek_moves (capture : Bool) {s : State} (up : axisUp s = true) : Moves s (startSeek capture s) := by
  refine .trans (t := { s with
    svo := { s.svo with follow := 0 }
    hom := { state := .homing, phase := some .seek, seekStart := some s.mpr.p, stall := 0, armed := capture, outcome := .none } })
    ?_ (requestMode_moves _ _)
  exact .of_step (.home _ .homing capture s.mpr.p s.mpr.v (by simp) (.inr (.inl (up_of_axisUp up))) (by simp) (.inl rfl)) rfl

theorem startHoming_moves {s : State} (up : axisUp s = true) : Moves s (startHoming s) := by
  unfold startHoming
  split
  · exact becomeHomed_moves _ rfl (.inl (up_of_axisUp up))
  · exact startSeek_moves _ up
  · exact startSeek_moves _ up

theorem takeHome_moves (mask : StationMask) (s : State) : Moves s (takeHome mask s) := by
  refine .ite (fun named => ?_) fun _ => .rfl
  have up : axisUp s = true := by rw [Bool.and_eq_true] at named; exact named.1
  have refuses (o : HomeOutcome) : Moves s { s with hom := { s.hom with outcome := o } } := .of_eq rfl
  exact .ite (fun _ => .rfl) fun _ => .ite (fun _ => .ite (fun _ => startHoming_moves up) fun _ => refuses _) fun _ => refuses _

/-- A homing goes on at a shifted origin (R21). -/
theorem homing_moves {s t : State} (seeks : s.hom.state = .homing) (p : Int)
    (view : motionView t = { motionView s with p := p, armed := t.hom.armed }) : Moves s t :=
  .of_step (.home _ .homing t.hom.armed p s.mpr.v (fun _ => rfl) (.inr (.inr (by simp [motionView, seeks]))) (by simp) (.inl rfl))
    (by rw [view]; simp [motionView, seeks])

theorem captureEdge_moves (s : State) : Moves s (captureEdge s) := by
  refine .ite (fun armed => ?_) fun _ => .rfl
  by_cases seeks : s.hom.state = .homing
  · have moved : Moves s (requestMode .hold (originChange (homeOrigin s) s)) := 
      (homing_moves (t := originChange (homeOrigin s) s) seeks _ rfl).trans (requestMode_moves _ _)
    exact moved.trans (homing_moves (by simpa using seeks) _ rfl)
  · exact .of_step (.unreachable _ _ ⟨armed, seeks⟩) rfl

theorem stalled_moves {s : State} (seeks : s.hom.state = .homing) : Moves s (stalled s) := by
  have moved : Moves s (requestGoto (backOffTarget s) (originChange (homeOrigin s) s)) :=
    (homing_moves (t := originChange (homeOrigin s) s) seeks _ rfl).trans (requestGoto_moves _ _)
  exact moved.trans (.of_eq rfl)

theorem travelUpdate_moves (s : State) : Moves s (travelUpdate s) := .ite (fun _ => failHoming_moves _ s) fun _ => .rfl

theorem homingUpdate_moves (r : Result) (s : State) : Moves s (homingUpdate r s) := by
  refine .ite (fun seeks => ?_) fun _ => .rfl
  have up : (motionView s).up ∨ s.hom.state ≠ .unhomed := .inr (by simp [seeks])
  split
  · exact .ite (fun _ => .ite (fun _ => stalled_moves seeks) fun _ => .trans (.of_eq rfl) (travelUpdate_moves { s with hom := { s.hom with stall := stallCount s } }))
      fun _ => travelUpdate_moves s
  · exact .ite (fun _ => becomeHomed_moves s.mpr.p rfl up) fun _ => .rfl
  · exact .ite (fun _ => .trans (.still (by simp)) (becomeHomed_moves _ rfl (.inr (by simp [seeks])))) fun _ => .rfl
  · exact .rfl

theorem faultHoming_moves (s : State) : Moves s (faultHoming s) := by
  unfold faultHoming
  split
  · exact (failHoming_moves .encoder s).trans (.still (by simp))
  · next homed =>
    cases armed : s.hom.armed
    · refine .trans (t := { s with hom := { s.hom with state := .unhomed } }) ?_ (.still (by simp))
      exact .of_step (.home _ .unhomed false s.mpr.p s.mpr.v (by simp) (.inl rfl) (by simp) (.inl rfl))
        (by simp [motionView, armed])
    · exact .of_step (.unreachable _ _ ⟨armed, by simp [motionView, homed]⟩) rfl
  · exact .still (by simp)

theorem encoderFault_moves (first : Bool) (s : State) : Moves s (encoderFault first s) := by
  have set : Moves s { s with svo := { s.svo with encFault := true, clean := 0 } } := .still (by simp)
  exact .ite (fun _ => set) fun _ => .ite (fun _ => set.trans ((causeArises_moves _ _).trans (faultHoming_moves _)))
    fun _ => set.trans ((faultHoming_moves _).trans (causeArises_moves _ _))

theorem encoderStep_moves (q : QuadStep) (first : Bool) (s : State) : Moves s (encoderStep q first s) := by
  refine .ite (fun _ => .rfl) fun _ => ?_
  cases q
  · exact .still (by simp)
  · exact .still (by simp)
  · exact encoderFault_moves _ s

/-! ### Profile and playback (R6, R15) -/

theorem param_nonneg (s : State) (f : Block → Nat) : 0 ≤ param s (fun b => (f b : Int)) := by
  unfold param; split <;> simp

theorem speedCap_nonneg (s : State) : 0 ≤ speedCap s := by
  have := param_nonneg s Block.vMax
  have := param_nonneg s Block.vHome
  simp only [speedCap]; split <;> omega

theorem speedCap_le (s : State) : speedCap s ≤ param s (fun b => b.vMax) := by
  simp only [speedCap]; split <;> omega

/-- The deceleration in use of a block that passes the checks (R6, R172). -/
theorem aEffective_bounds {s : State} {b : Block} (params : s.cfg.params = some b) (passed : checkBlock .axis b = none) :
    0 ≤ aEffective s ∧ aEffective s ≤ 65535 := by
  have := motion_of_checkBlock passed
  simp only [aEffective, param, params]; split <;> omega

/-- On a homed axis the travel bounds are the soft limits. -/
theorem travel_inside {s : State} (homed : s.hom.state = .homed) (q : Int) :
    (travelLo s ≤ q ∧ q ≤ travelHi s) ↔ (motionView s).inside q := by
  rw [travelLo_of_homed homed, travelHi_of_homed homed]; exact Iff.rfl

theorem travel_ordered {s : State} (inside : (motionView s).home = .homed → (motionView s).inside s.mpr.p) :
    travelLo s ≤ travelHi s := by
  by_cases homed : s.hom.state = .homed
  · obtain ⟨lo, hi⟩ := (travel_inside homed _).mpr (inside homed)
    exact lo.trans hi
  · simp [travelLo, travelHi, isHomed, homed, Config.unhomedLo, Config.unhomedHi]

theorem profileUpdate_moves {s : State} (on : s.stc.drive = .enabled ∨ s.stc.drive = .stopping) :
    Moves s (profileUpdate s).1 := by
  refine .of_step (.move _ (profile (profileInputs s s.mpr.mode)).p (profile (profileInputs s s.mpr.mode)).v on
    (fun homed inside => ?_) fun ⟨b, params, passed⟩ inside slow => ?_) rfl
  · obtain ⟨lo, hi⟩ := (travel_inside homed _).mpr inside
    exact (travel_inside homed _).mp (profile_inside lo hi)
  · obtain ⟨accel, small⟩ := aEffective_bounds params passed
    have within : |boundDemand (profileInputs s s.mpr.mode)| ≤ speedCap s :=
      abs_boundDemand_le (speedCap_nonneg s) accel (by simp only [profileInputs]; omega) fun at_ => by
        have homed : s.hom.state = .homed := by simpa [isHomed, profileInputs] using at_
        exact (travel_inside homed _).mpr (inside homed)
    obtain v | v := profile_v (i := profileInputs s s.mpr.mode) (travel_ordered inside) <;> rw [v]
    · exact (stageMove_within accel slow (within.trans (speedCap_le s))).1
    · simpa using (abs_nonneg _).trans slow

theorem playable_iff (m v p cap aMax lo hi : Int) :
    playable m v p cap aMax lo hi = true ↔ |m| ≤ cap ∧ |m - v| ≤ 2 * aMax ∧ lo ≤ p + m ∧ p + m ≤ hi := by
  simp [playable, and_assoc]

theorem playbackUpdate_moves (supplied : Option Int) {s : State} (on : s.stc.drive = .enabled) :
    Moves s (playbackUpdate supplied s).1 := by
  have held : Moves s (profileUpdate { s with mpr := { s.mpr with mode := .hold } }).1 :=
    .trans (.of_eq rfl) (profileUpdate_moves (s := { s with mpr := { s.mpr with mode := .hold } }) (.inl on))
  unfold playbackUpdate
  cases supplied with
  | none => exact held
  | some m =>
    dsimp only
    split
    · next passes =>
      obtain ⟨slow, -, inside⟩ := (playable_iff ..).mp passes
      exact .of_step (.move _ (s.mpr.p + m) m (.inl on) (fun homed _ => (travel_inside homed _).mp inside)
        fun _ _ _ => slow.trans (speedCap_le s)) rfl
    · exact held

@[simp] theorem modeToHand_course (s : State) : (modeToHand s).mpr.course = s.mpr.course := by
  unfold modeToHand; split <;> rfl

theorem track_moves (s : State) : Moves s (track s) :=
  .of_step (.rest _ s.stc.drive (track s).mpr.p (em _) fun homed => .inr (track_inside s homed)) rfl

theorem motion_moves (supplied : Option Int) (s : State) : Moves s (motion supplied s).1 := by
  unfold motion
  split
  · next on =>
    have still : Moves s (modeToHand s) := .still (by simp)
    refine still.trans ?_
    unfold moveInMode
    split
    · exact playbackUpdate_moves _ (by simpa using on)
    · exact profileUpdate_moves (.inl (by simpa using on))
  · next stopping =>
    exact .trans (.of_eq rfl) (profileUpdate_moves (s := { s with mpr := { s.mpr with mode := .hold, g := none } }) (.inr stopping))
  all_goals exact track_moves s

/-! ### The start sequence and the resets (R168 to R176) -/

theorem config_moves {s t : State} (down : s.cfg.startState ≠ .parked)
    (checked : t.cfg.startState = .scan ∨ t.cfg.startState = .parked →
      (∃ b, t.cfg.params = some b ∧ checkBlock .axis b = none) ∨
        s.cfg.startState = .scan ∧ t.cfg.role = s.cfg.role ∧ t.cfg.params = s.cfg.params)
    (same : t.hom = s.hom ∧ t.mpr = s.mpr ∧ t.stc = s.stc) : Moves s t :=
  .of_step (.config _ t.cfg.role t.cfg.startState t.cfg.params (fun up => down up.2) checked)
    (by simp only [motionView, same])

theorem readStraps_startState (inp : UpdateInputs) (s : State) :
    (readStraps inp s).cfg.startState = .storeId ∨ (readStraps inp s).cfg.startState = .configFault := by
  unfold readStraps; dsimp only; split
  · exact .inr rfl
  · exact .inl rfl

theorem startUpdate_moves (inp : UpdateInputs) (s : State) : Moves s (startUpdate inp s) := by
  refine .ite (fun straps => ?_) fun _ => ?_
  · refine config_moves (by simp [straps]) (fun scans => ?_) (by simp)
    rcases readStraps_startState inp s with at_ | at_ <;> simp [at_] at scans
  · refine .ite (fun polls => ?_) fun _ => .rfl
    have storeId : s.cfg.startState = .storeId := by
      simp only [storeIdPolls, Bool.and_eq_true, beq_iff_eq] at polls; exact polls.1.1
    dsimp only
    refine .ite (fun _ => .ite (fun _ => ?_) fun _ => .of_eq rfl) fun _ => ?_
    · exact config_moves (by simp [storeId]) (by simp [configFault]) (by simp)
    · refine config_moves (by simp [storeId]) (fun scans => ?_) (by simp)
      unfold finishErase at scans
      split at scans <;> simp [storeId] at scans

theorem judgeIdentification_moves (b0 b1 b2 : Byte) (s : State) : Moves s (judgeIdentification b0 b1 b2 s) := by
  refine .ite (fun ⟨storeId, _⟩ => ?_) fun _ => .rfl
  dsimp only
  refine .ite (fun _ => ?_) fun _ => ?_ <;>
  · exact config_moves (by simp [storeId]) (by simp [configFault]) (by simp)

theorem loadBlock_moves (bs : List Byte) {s : State} (load : s.cfg.startState = .configLoad) : Moves s (loadBlock bs s) := by
  have down : s.cfg.startState ≠ .parked := by simp [load]
  refine .ite (fun _ => ?_) fun _ => config_moves down (by simp [configFault]) (by simp)
  split
  · exact config_moves down (by simp [configFault]) (by simp)
  · next passed =>
    refine config_moves down (fun scans => .inl ⟨readBlock bs, ?_, ?_⟩) (by simp)
    · unfold handParameters; dsimp only; split <;> rfl
    · have axis : s.cfg.role ≠ some .control := fun control => by
        simp [handParameters, isControl, holdImage, control] at scans
      have role : s.cfg.role.getD .axis = .axis := by
        cases known : s.cfg.role with
        | none => rfl
        | some r => cases r <;> simp_all
      rwa [role] at passed

theorem configLoaded_moves (seen : Option (List Byte)) (s : State) : Moves s (configLoaded seen s) :=
  .ite (fun load => loadBlock_moves _ load) fun _ => .rfl

theorem scanEnded_moves (s : State) : Moves s (scanEnded s) :=
  .ite (fun scan => config_moves (by simp [scan]) (fun _ => .inr ⟨scan, by simp, by simp⟩) (by simp)) fun _ => .rfl

theorem startPart_moves (chainOpen : Bool) (memory : MemoryPower) (s : State) : Moves s (startPart chainOpen memory s) := by
  unfold startPart
  exact .ite (fun _ => .trans (.of_step (.reset _ none .straps 0 (by simp)) rfl) (openChain_moves _))
    fun _ => .of_step (.reset _ none .straps 0 (by simp)) rfl

theorem holdAgain_moves (s : State) : Moves s (holdAgain s) := .still (by simp)

theorem restartPart_moves (s : State) : Moves s (restartPart s) :=
  .trans (.of_step (.reset _ s.cfg.role s.cfg.restart.startState (measured s * 256) (by
    simp only [Cfg.restart]; split <;> simp)) rfl) (holdAgain_moves _)

theorem requestRestart_moves (s : State) : Moves s (requestRestart s) :=
  .ite (fun _ => restartPart_moves s) fun _ => .of_eq rfl

/-! ### The update (R62 and what every chapter does at each update) -/

theorem clockUpdate_still (s : State) : Moves s (stepAging (clockWrap (countUpdate s))) := .still (by simp)

@[simp] theorem readHalt_drive (inp : UpdateInputs) (s : State) : (readHalt inp s).stc.drive = s.stc.drive := rfl

theorem beforeMotion_moves (inp : UpdateInputs) (known : Bool) (s : State) : Moves s (beforeMotion inp known s) := by
  have sampled (x : State) : Moves x (cleanUpdate (readHalt inp (crewUpdate inp.crew x))) := .still (by simp)
  have decided (x : State) : Moves x (clockDecide x) := .still (by simp)
  have zones (x : State) : Moves x (zoneUpdate x) := .still (by simp)
  have demand (x : State) : Moves x (demandUpdate x) := .still (by simp)
  have status (b : Bool) (x : State) : Moves x (statusAt b x) := .still (by simp)
  have opt (c : Prop) [Decidable c] {f : State → State} (moves : ∀ x, Moves x (f x)) (x : State) :
      Moves x (if c then f x else x) := .ite (fun _ => moves x) fun _ => .rfl
  exact (clockUpdate_still s).trans ((startUpdate_moves inp _).trans ((sampled _).trans ((opt _ updateCauses_moves _).trans
    ((decided _).trans ((opt _ zones _).trans ((opt _ demand _).trans (status _ _)))))))

theorem toServo_moves (inp : UpdateInputs) (s : State) : Moves s (toServo inp s).1 := by
  have served (x : State) : Moves x (servo x) := .still (by simp)
  exact (beforeMotion_moves inp _ s).trans ((motion_moves _ _).trans (served _))

theorem resultCauses_moves (r : Result) (s : State) : Moves s (resultCauses r s) := by
  have raised : Moves s (if Config.followTrip ≤ s.svo.follow then raiseFollow s else s) :=
    .ite (fun _ => raiseFollow_moves s) fun _ => .rfl
  exact raised.trans (.ite (fun _ => raiseOverrun_moves _) fun _ => .rfl)

theorem takesUpdate_moves (r : Result) (s : State) : Moves s (takesUpdate r s) := .still (by simp)

theorem takeResult_moves (r : Result) (s : State) : Moves s (takeResult r s) :=
  (resultCauses_moves r s).trans ((homingUpdate_moves r _).trans ((restUpdate_moves r _).trans
    ((wakingUpdate_moves _).trans (takesUpdate_moves r _))))

theorem operationUpdate_moves (left : Option (List Byte)) (s : State) : Moves s (operationUpdate left s) := by
  obtain ⟨mpr, hom, cfg, stc, -⟩ := operationUpdate_kept left s
  exact .of_eq (by simp only [motionView, cfg, hom, stc]; rw [mpr])

theorem afterMotion_moves (inp : UpdateInputs) (known : Bool) (s : State) : Moves s (afterMotion inp known s) := by
  have zones (x : State) : Moves x (zoneUpdate x) := .still (by simp)
  have demand (x : State) : Moves x (demandUpdate x) := .still (by simp)
  have shown (a : Bool) (x : State) : Moves x (updateFactor (statusAt a x)) := .of_eq (by simp [motionView, updateFactor])
  have queued (a : Bool) (x : State) : Moves x (ageEntries (statusAt a (queueUpdateDemand inp.levers x))) := .still (by simp)
  have opt (c : Prop) [Decidable c] {f : State → State} (moves : ∀ x, Moves x (f x)) (x : State) :
      Moves x (if c then x else f x) := .ite (fun _ => .rfl) fun _ => moves x
  exact (opt _ zones s).trans ((opt _ demand _).trans ((opt _ updateCauses_moves _).trans ((shown _ _).trans
    ((queued _ _).trans (operationUpdate_moves _ _)))))

theorem update_moves (inp : UpdateInputs) (s : State) : Moves s (update inp s) := by
  have shown (x : State) : Moves x (startWork (showDemand x)) := .still (by simp)
  exact (toServo_moves inp s).trans ((takeResult_moves _ _).trans ((afterMotion_moves inp _ _).trans
    ((settleHold_moves s _).trans (shown _))))

theorem updateWhen_moves (due : Bool) (inp : UpdateInputs) (s : State) : Moves s (updateWhen due inp s) :=
  .ite (fun _ => update_moves inp s) fun _ => .rfl

end Sys2Proof.Machine
end

