-- ==== Sys2Proof/Proofs/StepMotion.lean ====
section
/-! SUPPORT. What each command of the table does to the motion view, and the two motion laws of every step (O10, O11). -/

namespace Sys2Proof.Machine

open Sys2Proof.Safety

/-! ### Frames of the link (R155 to R164) -/

theorem receiveStatus_moves (own : Bool) (st : Station) (i : StatusItems) (c : CraneTime) (s : State) :
    Moves s (receiveStatus own st i c s) :=
  .ite (fun _ => .rfl) fun _ => .ite (fun _ => .still (by simp)) fun _ => .trans (.still (by simp)) (setHolder_moves _ _ _)

theorem handBlocks_moves (own : Bool) (f : Frame) (c : CraneTime) (s : State) : Moves s (handBlocks own f c s) := by
  unfold handBlocks
  split
  · exact setHolder_moves _ _ s
  · exact setHolder_moves _ _ s
  · exact .ite (fun _ => resumeStops_moves s) fun _ => .rfl
  · exact takeWake_moves _ s
  · exact takePark_moves _ s
  · exact takeHome_moves _ s
  · exact .ite (fun _ => requestRestart_moves s) fun _ => .rfl
  · exact .still (by simp)
  · exact .still (by simp)
  · exact .still (by simp)
  · exact receiveStatus_moves own _ _ c s

theorem handFrame_moves (own : Bool) (f : Frame) (c : CraneTime) (s : State) : Moves s (handFrame own f c s) := by
  have joined : Moves s (joinQueue f own c s) := .still (by simp)
  exact joined.trans (.ite (fun _ => .still (by simp)) fun _ => handBlocks_moves own f c _)

theorem startWork_moves {s t : State} (moves : Moves s t) : Moves s (startWork t) := moves.trans (.still (by simp))

theorem deliver_moves (st : Station) (b : Body) (s : State) : Moves s (deliver st b s) :=
  startWork_moves (.trans (.still (by simp)) (handFrame_moves _ _ _ _))

theorem applyPause_moves (s : State) : Moves s (applyPause s) := .still (by simp)

theorem failAttempt_moves (s : State) : Moves s (failAttempt s) := by
  unfold failAttempt
  split
  · exact .rfl
  · exact .trans (.trans (.still (by simp)) (.ite (fun _ => raiseLinkFault_moves _) fun _ => .rfl)) (applyPause_moves _)

theorem dominantBit_moves (s : State) : Moves s (dominantBit s) :=
  .ite (fun _ => .trans (.trans (.still (by simp)) (raiseLinkFault_moves _)) (applyPause_moves _)) fun _ => .still (by simp)

theorem hearLine_moves (line : List Bool) (s : State) : Moves s (hearLine line s) := .still (by simp)

theorem completeAttempt_moves (s : State) : Moves s (completeAttempt s) := by
  unfold completeAttempt
  split
  · exact .rfl
  · refine .ite (fun _ => .still (by simp)) fun _ => startWork_moves (.trans (.still (by simp)) (handFrame_moves _ _ _ _))

theorem placeAbort_moves (s : State) : Moves s (placeAbort s) := by
  unfold placeAbort
  split
  · exact .rfl
  · refine .ite (fun _ => .still (by simp)) fun _ => ?_
    split
    · exact .ite (fun _ => completeAttempt_moves s) fun _ => .rfl
    · exact .rfl

/-! ### The take memory, the clock and the companion port -/

theorem unitIdle_moves {s t : State} (moves : Moves s t) : Moves s (unitIdle t) := moves.trans (.still (by simp))

theorem programEnded_moves (seen : Option (List Byte)) (reportOnly : Bool) (s : State) :
    Moves s (programEnded seen reportOnly s) := by
  unfold programEnded
  split
  · exact .ite (fun _ => .rfl) fun _ => .ite (fun _ => .still (by simp)) fun _ => unitIdle_moves
      (.ite (fun _ => .still (by simp)) fun _ => .still (by simp))
  all_goals exact .rfl

theorem eraseEnded_moves (seen : Option (List Byte)) (reportOnly : Bool) (s : State) :
    Moves s (eraseEnded seen reportOnly s) := by
  unfold eraseEnded
  split
  · exact .ite (fun _ => .rfl) fun _ => .ite (fun _ => .still (by simp)) fun _ => .still (by simp)
  all_goals exact .rfl

theorem applyCorrection_moves (s : State) : Moves s (applyCorrection s) := by
  unfold applyCorrection applyStep
  dsimp only
  split
  · exact .rfl
  · exact .still (by simp)
  · exact .still (by simp)
  · refine startWork_moves (.ite (fun _ => .still (by simp)) fun _ => .ite (fun _ => .still (by simp)) fun _ => .still (by simp))

theorem portHalt_moves (s : State) : Moves s (portHalt s) := by
  have halted : Moves s { s with stc := { s.stc with companionHalt := true } } := .of_eq rfl
  exact .ite (fun _ => .still (by simp)) fun _ => (halted.trans (raiseHalt_moves _)).trans (.still (by simp))

theorem portRestart_moves (s : State) : Moves s (portRestart s) := (requestRestart_moves s).trans (.still (by simp [portRestart]))

theorem portSend_moves (kind : Byte) (payload : List Byte) (s : State) : Moves s (portSend kind payload s) := by
  refine .ite (fun _ => .still (by simp)) fun _ => ?_
  split
  · exact .still (by simp)
  · exact .ite (fun _ => .still (by simp)) fun _ => .still (by simp)

theorem portReceive_moves (s : State) : Moves s (portReceive s) := by
  unfold portReceive
  split <;> exact .still (by simp)

theorem portSnapshot_moves (sec index : Byte) (s : State) : Moves s (portSnapshot sec index s) := by
  unfold portSnapshot
  split <;> exact .still (by simp)

theorem portConfigWrite_moves (block : List Byte) (s : State) : Moves s (portConfigWrite block s) :=
  .ite (fun _ => .still (by simp)) fun _ => .ite (fun _ => .still (by simp)) fun _ => .still (by simp)

theorem portFormat_moves (s : State) : Moves s (portFormat s) :=
  .ite (fun _ => .ite (fun _ => .still (by simp)) fun _ => .still (by simp)) fun _ => .still (by simp)

/-! ### Every command, and every step -/

theorem exec_moves (c : Instr) (s t : State) (taken : exec c s = .next t) : Moves s t := by
  cases c <;> cases taken
  case start chainOpen memory => exact startPart_moves _ _ s
  case restartCommand => exact portRestart_moves s
  case update inp => exact update_moves inp s
  case correctionApply => exact applyCorrection_moves s
  case timeOwn | timeSteppedClear | strapsRead | storeIdTimeout | encoderFaultEnd | stall | crewAbsent | followError |
      demandStale | peerLost | wakingEnd | flashTimeout => exact updateWhen_moves _ _ s
  case identification => exact judgeIdentification_moves _ _ _ s
  case configLoad => exact configLoaded_moves _ s
  case scanEnd => exact scanEnded_moves s
  case encoderTransition => exact startWork_moves (encoderStep_moves _ _ s)
  case switchCapture => exact captureEdge_moves s
  case chainOpen => exact startWork_moves (openChain_moves s)
  case chainClose => exact .of_eq rfl
  case programComplete => exact programEnded_moves _ _ s
  case eraseComplete => exact eraseEnded_moves _ _ s
  case heldAbortPlace => exact placeAbort_moves s
  case bitError => exact startWork_moves ((hearLine_moves _ s).trans (failAttempt_moves _))
  case stuckLine => exact startWork_moves ((hearLine_moves _ s).trans (dominantBit_moves _))
  case transmitComplete => exact completeAttempt_moves s
  case restartFrame | stopFrame | releaseFrame | resume | wake | park | home | demandFrame | statusFrame | takePrepare |
      takeCue | takeRoll | takeCut | takeAbort | takeDelete | takeLock | mark => exact deliver_moves _ _ s
  case send => exact portSend_moves _ _ s
  case halt => exact startWork_moves (portHalt_moves s)
  case unhalt => exact .ite (fun _ => .still (by simp)) fun _ => .of_eq rfl
  case receive => exact portReceive_moves s
  case receiveCopyEnd => exact .ite (fun _ => .of_eq rfl) fun _ => .rfl
  case filter => exact .ite (fun _ => .still (by simp)) fun _ => .ite (fun _ => .still (by simp)) fun _ => .still (by simp)
  case snapshot => exact portSnapshot_moves _ _ s
  case configWrite => exact portConfigWrite_moves _ s
  case format => exact portFormat_moves s
  all_goals exact .still (by simp)

theorem step_moves {s t : State} (stepped : step s = .next t) : Moves s t := by
  cases waiting : s.pending with
  | nil =>
    simp only [step, waiting] at stepped
    cases stepped
    exact .still (by simp)
  | cons c rest =>
    rw [step_front waiting] at stepped
    exact .trans (.of_eq rfl) (exec_moves c { s with pending := rest } t stepped)

/-- Settles O10: every change of the motion view keeps the first law. -/
theorem stepKeepsSoftLimits : Obligations.StepKeepsSoftLimits :=
  fun _ _ safe stepped => (step_moves stepped).travel safe

/-- Settles O11: every change of the motion view keeps the second law. -/
theorem stepKeepsMoveLimit : Obligations.StepKeepsMoveLimit :=
  fun _ _ config safe slow stepped => (step_moves stepped).limited config safe slow

end Sys2Proof.Machine
end

