-- ==== Sys2Proof/Proofs/LateLock.lean ====
section
/-! SUPPORT. A playback that ends in the update in which a lock in flight runs out of time: the refutation of O16. -/

namespace Sys2Proof.Machine

open Sys2Proof.Safety

/-- A SWING axis that the checks of R172 pass. -/
def swingBlock : Block :=
  { format := 0x4E31, role := 0, axisKind := 0, lo := -9000, hi := 9000, vMax := 2000, aMax := 50, aStop := 500, vGoto := 400
    vHome := 400, kf := 256, kp := 512, followMax := 60, homeMode := 0, homeDirection := 0, homeOffset := 0
    homeMaxTravel := 20000, stallThreshold := 80, backOff := 40, routePresent := 1, source := 3, channel := 0, invert := 0
    gain := 8, deadband := 10, coupling := 0, lensCount := 0, fMin := 64, expected := 0, channelKinds := #v[0, 0, 0, 0]
    zoneCount := 0, lens := [], zones := [] }

/-- A homed axis RUNNING take 9, which was locked before its CUE: the lock's program has been in flight for 999 updates, status
has not reported it, and the next page has not come from the memory. -/
def lateLock : State :=
  { State.reset with
    cfg := { Cfg.start with startState := .parked, station := some 2, role := some .axis, params := some swingBlock }
    zmn := Zmn.start 2000
    stc := { Stc.start with drive := .enabled }
    hom := { Hom.start with state := .homed }
    mpr := { Mpr.start 0 with mode := .playback }
    tks := { Tks.start with
      job := .running, jobTake := 9, takeNumber := 9, mask := some 4, k := 127, inIndex := some 0, endIndex := some 200 }
    tsc := { Tsc.start 1 0 with
      scanNext := 4096
      directory := [{
        number := 9
        stored := some {
          generation := 0, state := .complete, lockPending := true, mask := 4, startPos := 0, initialMove := 0, length := 200
          endPos := some 0, marks := [], segments := [{ sector := 3, seq := 0, programmed := true, retire := false }] }
        recording := none }]
      closeList := [.lock 9]
      unit := .programming { work := .lock 9, address := memAddress 3 0 255, data := [0] }
      opAge := 999 } }

/-- An update with every line quiet, the zones and the demand formed after the profile. -/
def quietInputs : UpdateInputs :=
  { crew := 0, levers := #v[0, 0, 0, 0], haltActive := false, straps := 2, roleHigh := false, storeBusy := false
    demandFirst := false, zonesFirst := false, causesFirst := false, statusPoint := .last, left := none }

theorem lateLock_quiet : updateQuiet quietInputs lateLock := by
  unfold updateQuiet
  decide +kernel

theorem lateLock_noDelta : lateLock.tsc.deltaAt lateLock.tks.k = none := by decide +kernel

/-- The take is aborted with STORE-READ, and the failed lock then reports its refusal in the same update (R126, R145). -/
theorem lateLock_outcome : (update quietInputs lateLock).tks.outcome = .refused (reasonCode .storeWrite) := by decide +kernel

/-- Refutes O16: the outcome of the aborted take does not stand where a lock in flight fails at the end of the same update. -/
theorem not_playbackStepIsExactOrHold : ¬Obligations.PlaybackStepIsExactOrHold := by
  unfold Obligations.PlaybackStepIsExactOrHold
  intro ⟨_, steps⟩
  obtain ⟨missing, -⟩ := steps quietInputs lateLock rfl rfl rfl rfl lateLock_quiet rfl
  obtain ⟨t, taken, -, outcome, -⟩ := missing lateLock_noDelta
  cases taken
  rw [lateLock_outcome] at outcome
  cases outcome

end Sys2Proof.Machine
end

