-- ==== Sys2Proof/Proofs/Encoder.lean ====
section
/-! SUPPORT. What a cause that arises does to the hold and the drive, and the encoder's transitions (R18, R19, R51, R88). -/

namespace Sys2Proof.Machine

open Sys2Proof.Safety

/-! ### What a reaction does to homing and takes (R99) -/

theorem reactStops_of_other {s : State} (other : s.stc.drive ≠ .enabled) :
    (reactStops s).dmr = s.dmr ∧ (reactStops s).hom = s.hom ∧ (reactStops s).tks = s.tks ∧ (reactStops s).tsc = s.tsc ∧
      (reactStops s).lnk = s.lnk := by
  obtain eq | ⟨eq, -⟩ | ⟨eq, -, on⟩ | ⟨eq, -⟩ := reactStops_cases s
  · simp [eq]
  · rw [eq, enterStopped_of_other other]; simp [stoppedDrive]
  · exact absurd on other
  · rw [eq]; simp [enterParked_dmr, other]

theorem reactStops_hom (s : State) :
    (reactStops s).hom =
      if s.stc.drive = .enabled ∧ stopInForce s = true ∧ s.hom.state = .homing then failedHom .stop else s.hom := by
  by_cases on : s.stc.drive = .enabled
  · cases stop : stopInForce s
    · rw [reactStops_of_free stop, leaveStopped_of_other (by simp [on])]; simp
    · obtain ⟨x, -, -, hom, -, -, -, -, left, -⟩ := reactStops_of_enabled on stop
      rw [left, handOn_hom, hom]; simp [on]
  · rw [(reactStops_of_other on).2.1]; simp [on]

/-- A job that no stop aborts is left alone. -/
theorem reactStops_tks_of_none {s : State} (none : jobAbortable s.tks.job = false) : (reactStops s).tks = s.tks := by
  by_cases on : s.stc.drive = .enabled
  · cases stop : stopInForce s
    · rw [reactStops_of_free stop, leaveStopped_of_other (by simp [on])]
    · obtain ⟨x, -, -, -, tks, -, -, -, -, left, -⟩ := reactStops_of_enabled on stop
      rw [left, (handOn_takes_of_none _ _ (tks ▸ none)).1, tks]
  · exact (reactStops_of_other on).2.2.1

theorem reactStops_tks_of_abortable {s : State} (on : s.stc.drive = .enabled) (stop : stopInForce s = true)
    (held : jobAbortable s.tks.job = true) :
    (reactStops s).tks.job = .idle ∧ (reactStops s).tks.outcome = .aborted (reasonCode .stop) (ownByte s) := by
  obtain ⟨x, cfg, -, -, tks, -, -, -, -, left, -⟩ := reactStops_of_enabled on stop
  rw [left, ← ownByte_congr cfg]
  exact handOn_takes_of_abortable _ _ (tks ▸ held)

/-! ### A HARD cause that arises (R88, R92) -/

theorem mem_localCauses {s : State} {c : Cause} : c ∈ localCauses s ↔ causePresent s c = true := by
  have listed : c ∈ causeOrder := by cases c <;> simp [causeOrder]
  simp [localCauses, listed]

theorem formHold_of_hard {cs : List Cause} {c : Cause} (listed : c ∈ cs) (kind : causeKind c = .hard) :
    ∃ h, formHold cs = some h ∧ h.kind = .hard := by
  cases cs with
  | nil => simp at listed
  | cons x xs =>
    refine ⟨_, rfl, ?_⟩
    rw [if_pos (List.any_eq_true.mpr ⟨c, listed, by simp [kind]⟩)]

theorem holdAgain_of_formed {s : State} {h : Hold} (formed : formHold (localCauses s) = some h) :
    holdAgain s = queueSafety (.stop h.kind h.code) { s with stc := { s.stc with hold := some h } } := by
  simp [holdAgain, formed]

/-- A HARD cause begins a HARD hold, makes a RAMP hold HARD, or finds a HARD one (R88). -/
theorem holdFor_hard {c : Cause} (kind : causeKind c = .hard) {s : State} (present : causePresent s c = true) :
    ∃ h, (holdFor c s).stc.hold = some h ∧ h.kind = .hard := by
  unfold holdFor
  cases hold : s.stc.hold with
  | none =>
    obtain ⟨h, formed, hard⟩ := formHold_of_hard (mem_localCauses.mpr present) kind
    exact ⟨h, by simp [holdAgain_of_formed formed], hard⟩
  | some h =>
    dsimp only
    split
    · exact ⟨{ kind := .hard, code := some c }, by simp, rfl⟩
    · next other =>
      refine ⟨h, hold, ?_⟩
      cases at_ : h.kind
      · rfl
      · simp [at_, kind] at other

theorem hardInForce_of_hold {s : State} (held : ∃ h, s.stc.hold = some h ∧ h.kind = .hard) : hardInForce s = true := by
  obtain ⟨h, hold, kind⟩ := held
  simp [hardInForce, hold, kind]

@[simp] theorem causeArises_counts (c : Cause) (s : State) : (causeArises c s).svo.counts = s.svo.counts := by
  simp [causeArises]

theorem causeArises_hold (c : Cause) (s : State) : (causeArises c s).stc.hold = (holdFor c s).stc.hold :=
  (congrArg Stc.hold (reactStops_orders _) :)

theorem causeArises_hom (c : Cause) (s : State) :
    (causeArises c s).hom =
      if s.stc.drive = .enabled ∧ stopInForce (holdFor c s) = true ∧ s.hom.state = .homing then failedHom .stop else s.hom := by
  simp [causeArises, reactStops_hom]

/-- A HARD cause takes an active drive to STOPPED and leaves the others (R92). -/
theorem causeArises_drive {c : Cause} (kind : causeKind c = .hard) {s : State} (present : causePresent s c = true) :
    (causeArises c s).stc.drive = if driveActive s.stc.drive = true then .stopped else s.stc.drive := by
  have hard := hardInForce_of_hold (holdFor_hard kind present)
  have same := holdFor_drive c s
  rw [causeArises]
  split
  · next on => rw [reactStops_of_hard hard (by rwa [same]), enterStopped_stc]
  · next off =>
    cases drive : s.stc.drive <;> simp [drive, driveActive] at off
    · rw [reactStops_of_parked (same.trans drive), same, drive]
    · rw [reactStops_of_stopped (same.trans drive), leaveStopped_of_stop (stopInForce_of_hard hard), same, drive]

/-! ### The loss of the encoder (R19, R51) -/

/-- What the loss of the encoder leaves of HOM: a homing fails, a homed axis is UNHOMED. -/
def lostHom (h : Hom) : Hom :=
  match h.state with
  | .homing => failedHom .encoder
  | .homed => { h with state := .unhomed }
  | .unhomed => h

theorem lostHom_failed (r : HomeFail) : lostHom (failedHom r) = failedHom r := rfl

theorem lostHom_state (h : Hom) : (lostHom h).state = .unhomed := by
  unfold lostHom
  cases state : h.state <;> simp [failedHom, state]

theorem lostHom_of_homing {h : Hom} (seeks : h.state = .homing) : lostHom h = failedHom .encoder := by simp [lostHom, seeks]

theorem lostHom_outcome {h : Hom} (none : h.state ≠ .homing) : (lostHom h).outcome = h.outcome := by
  unfold lostHom
  cases state : h.state <;> simp_all

@[simp] theorem faultHoming_hom (s : State) : (faultHoming s).hom = lostHom s.hom := by
  unfold faultHoming lostHom
  cases state : s.hom.state <;> simp [failHoming_hom, state]

theorem abortable_of_running {s : State} (runs : jobRunning s = true) : jobAbortable s.tks.job = true := by
  simp only [jobRunning] at runs
  cases job : s.tks.job <;> simp_all [jobAbortable]

theorem abortRunning_tks (r : Reason) {s : State} (runs : jobRunning s = true) :
    (abortRunning r s).tks.job = .idle ∧ (abortRunning r s).tks.outcome = .aborted (reasonCode r) (ownByte s) := by
  rw [abortRunning, if_pos runs]
  exact ⟨abortOwn_job r s, abortOwn_outcome r s⟩

theorem abortRunning_of_none (r : Reason) {s : State} (none : jobRunning s = false) : abortRunning r s = s := by
  simp [abortRunning, none]

theorem faultHoming_tks {s : State} (runs : jobRunning s = true) :
    (faultHoming s).tks.job = .idle ∧ (faultHoming s).tks.outcome = .aborted (reasonCode .stop) (ownByte s) := by
  unfold faultHoming
  split
  · obtain ⟨job, outcome⟩ := abortRunning_tks .stop (s := failHoming .encoder s) (by simpa [jobRunning] using runs)
    exact ⟨job, outcome.trans (by rw [ownByte_congr (s := s) (by simp)])⟩
  · exact abortRunning_tks .stop runs
  · exact abortRunning_tks .stop runs

theorem faultHoming_tks_of_none {s : State} (none : jobRunning s = false) : (faultHoming s).tks = s.tks := by
  unfold faultHoming
  split
  · rw [abortRunning_of_none _ (by simpa [jobRunning] using none)]; simp
  · exact (congrArg State.tks (abortRunning_of_none .stop (s := { s with hom := { s.hom with state := .unhomed } }) none) :)
  · rw [abortRunning_of_none _ none]

/-- A take that a stop ends is ended once: by the stop that takes the axis out of ENABLED, or by the loss of the homing. -/
theorem causeArises_tks (c : Cause) {s : State} (stop : stopInForce (holdFor c s) = true) (runs : jobRunning s = true) :
    if s.stc.drive = .enabled then
      (causeArises c s).tks.job = .idle ∧ (causeArises c s).tks.outcome = .aborted (reasonCode .stop) (ownByte s)
    else (causeArises c s).tks = s.tks := by
  split
  · next on =>
    rw [← ownByte_congr (s := s) (t := holdFor c s) (by simp)]
    exact reactStops_tks_of_abortable (by simpa using on) stop (by simpa using abortable_of_running runs)
  · next off => simpa [causeArises] using (reactStops_of_other (s := holdFor c s) (by simpa using off)).2.2.1

/-- The encoder's condition as an illegal transition sets it (R19). -/
def faulted (s : State) : State := { s with svo := { s.svo with encFault := true, clean := 0 } }

theorem encoderFault_eq {first : Bool} {s : State} (clear : s.svo.encFault = false) :
    encoderFault first s =
      if first then faultHoming (causeArises .encoderFault (faulted s)) else causeArises .encoderFault (faultHoming (faulted s)) := by
  simp only [encoderFault, clear, Bool.false_eq_true, if_false]
  rfl

theorem encoderFault_counts (first : Bool) {s : State} (clear : s.svo.encFault = false) :
    (encoderFault first s).svo.counts = (faulted s).svo.counts := by
  rw [encoderFault_eq clear]; split <;> simp

/-- The condition is present when its cause arises, whichever of drive and homing goes first. -/
theorem encoderFault_stc (first : Bool) {s : State} (clear : s.svo.encFault = false) :
    ∃ x, x.stc = s.stc ∧ causePresent x .encoderFault = true ∧ (encoderFault first s).stc = (causeArises .encoderFault x).stc := by
  rw [encoderFault_eq clear]
  cases first
  · exact ⟨faultHoming (faulted s), by simp [faulted], by simp [causePresent, causeCondition, faulted], rfl⟩
  · exact ⟨faulted s, rfl, rfl, by simp⟩

theorem encoderFault_drive (first : Bool) {s : State} (clear : s.svo.encFault = false) :
    (encoderFault first s).stc.drive = if driveActive s.stc.drive = true then .stopped else s.stc.drive := by
  obtain ⟨x, stc, present, same⟩ := encoderFault_stc first clear
  rw [same, causeArises_drive rfl present, stc]

theorem faulted_stop {x : State} (present : causePresent x .encoderFault = true) :
    stopInForce (holdFor .encoderFault x) = true :=
  stopInForce_of_hard (hardInForce_of_hold (holdFor_hard rfl present))

theorem encoderFault_hom (first : Bool) {s : State} (clear : s.svo.encFault = false) :
    (encoderFault first s).hom =
      if first = true ∧ s.stc.drive = .enabled ∧ s.hom.state = .homing then failedHom .stop else lostHom s.hom := by
  rw [encoderFault_eq clear]
  cases first
  · simp [causeArises_hom, lostHom_state, faulted]
  · simp only [if_true, true_and, faultHoming_hom, causeArises_hom, faulted_stop (x := faulted s) rfl, apply_ite lostHom,
      lostHom_failed]
    rfl

theorem encoderFault_tks (first : Bool) {s : State} (clear : s.svo.encFault = false) (runs : jobRunning s = true) :
    (encoderFault first s).tks.job = .idle ∧
      (encoderFault first s).tks.outcome = .aborted (reasonCode .stop) (ownByte s) := by
  rw [encoderFault_eq clear]
  cases first
  · have ended := faultHoming_tks (s := faulted s) runs
    have kept : (causeArises .encoderFault (faultHoming (faulted s))).tks = (faultHoming (faulted s)).tks := by
      simpa [causeArises] using reactStops_tks_of_none (s := holdFor .encoderFault (faultHoming (faulted s))) (by simp [ended.1, jobAbortable])
    rw [if_neg (by simp), kept]
    exact ended
  · have ended := causeArises_tks .encoderFault (faulted_stop (x := faulted s) rfl) runs
    rw [if_pos rfl]
    by_cases on : s.stc.drive = .enabled
    · rw [if_pos (by exact on)] at ended
      rw [faultHoming_tks_of_none (by simp [jobRunning, ended.1])]
      exact ended
    · rw [if_neg (by exact on)] at ended
      rw [← ownByte_congr (s := s) (t := causeArises .encoderFault (faulted s)) (by simp [faulted])]
      exact faultHoming_tks (by rw [jobRunning, ended]; exact runs)

theorem encoderFault_of_present {first : Bool} {s : State} (present : s.svo.encFault = true) :
    encoderFault first s = { s with svo := { s.svo with clean := 0 } } := by
  simp only [encoderFault, present, if_true]

theorem eq_of_encoder_frame {s t : State}
    (frame : t.cfg = s.cfg ∧ t.cck = s.cck ∧ t.ptb = s.ptb ∧ t.chan = s.chan ∧ t.zmn = s.zmn ∧ t.cpt = s.cpt ∧
      t.flash = s.flash ∧ t.freeCount = s.freeCount ∧ t.pending = s.pending) :
    t = { s with svo := t.svo, hom := t.hom, stc := t.stc, mpr := t.mpr, dmr := t.dmr, tks := t.tks, tsc := t.tsc, lnk := t.lnk } := by
  obtain ⟨cfg, cck, ptb, chan, zmn, cpt, flash, freeCount, pending⟩ := frame
  rw [← cfg, ← cck, ← ptb, ← chan, ← zmn, ← cpt, ← flash, ← freeCount, ← pending]

/-- Settles O35: the counts by the transition, the rest by the cause that arises and the homing that is lost. -/
theorem encoderTransitions : Obligations.EncoderTransitions := by
  unfold Obligations.EncoderTransitions
  intro s first
  refine ⟨fun control q => ?_, fun axis => ⟨?_, ?_, fun present => ?_, fun clear => ?_⟩⟩
  · show Host.Outcome.next (startWork (encoderStep q first s)) = _
    simp [encoderStep, control]
  · show Host.Outcome.next (startWork (encoderStep .plus first s)) = _
    simp [encoderStep, axis]
  · show Host.Outcome.next (startWork (encoderStep .minus first s)) = _
    simp [encoderStep, axis]
  · show Host.Outcome.next (startWork (encoderStep .illegal first s)) = _
    simp [encoderStep, axis, encoderFault_of_present present]
  have taken : exec (.encoderTransition .illegal first) s = .next (startWork (encoderFault first s)) := by
    show Host.Outcome.next (startWork (encoderStep .illegal first s)) = _
    simp [encoderStep, axis]
  have counts := encoderFault_counts first clear
  have drive := encoderFault_drive first clear
  have hom := encoderFault_hom first clear
  obtain ⟨x, stc, present, same⟩ := encoderFault_stc first clear
  have off : (encoderFault first s).stc.drive ≠ .enabled ∧ (encoderFault first s).stc.drive ≠ .stopping := by
    rw [drive]; cases d : s.stc.drive <;> simp [driveActive]
  have whole := eq_of_encoder_frame (s := s) (t := startWork (encoderFault first s)) (by simp)
  refine ⟨_, taken, ?_⟩
  simp only [startWork_frame] at whole ⊢
  refine ⟨(congrArg Svo.raw counts :), (congrArg Svo.origin counts :), (congrArg Svo.encFault counts :),
    (congrArg Svo.clean counts :), ?_, ?_, fun still => ?_, fun active => ?_, ?_, fun none => ?_, fun seeks last => ?_,
    fun seeks leads on => ?_, fun runs => encoderFault_tks first clear runs, whole⟩
  · rw [hom]; split
    · rfl
    · exact lostHom_state _
  · rw [same, causeArises_hold]
    exact holdFor_hard rfl present
  · rw [drive]; rcases still with d | d <;> simp [d, driveActive]
  · rw [drive]; rcases active with d | d | d <;> simp [d, driveActive]
  · simpa [brakeEngaged, driveEnable] using off
  · rw [hom, if_neg (fun both => none both.2.2), lostHom_outcome none]
  · rw [hom, if_neg (by simp [last]), lostHom_of_homing seeks]; rfl
  · rw [hom, if_pos ⟨leads, on, seeks⟩]; rfl

end Sys2Proof.Machine
end

