-- ==== Sys2Proof/Proofs/Homing.lean ====
section
/-! SUPPORT. Homing: the origin shift, the switch capture and what HOME does (R20, R21, R42 to R45). -/

namespace Sys2Proof.Machine

open Sys2Proof.Safety

/-! ### The shift of an origin change (R18, R21) -/

/-- The difference seen from the new origin is the one seen from the old origin and that of the origins, wrapped to a count. -/
theorem countDiff_origin (raw old new : Count) :
    countDiff raw new = (countDiff raw old + countDiff old new).bmod 536870912 := by
  have split : raw - new = (raw - old) + (old - new) := by
    rw [BitVec.sub_eq_add_neg, BitVec.sub_eq_add_neg, BitVec.sub_eq_add_neg, BitVec.add_assoc, ← BitVec.add_assoc (-old),
      BitVec.add_comm (-old) old, BitVec.add_right_neg, BitVec.zero_add]
  simp only [countDiff, split, BitVec.toInt_add]

/-! ### Where tracking puts the position (R3) -/

/-- The position that tracking gives. -/
def tracked (s : State) : Int :=
  if isHomed s then clampInt (travelLo s) (travelHi s) (measured s * 256) else measured s * 256

theorem track_p (s : State) : (track s).mpr.p = tracked s := rfl

theorem param_congr {s t : State} (params : t.cfg.params = s.cfg.params) (f : Block → Int) : param t f = param s f := by
  simp only [param, params]

theorem measured_congr {s t : State} (role : t.cfg.role = s.cfg.role) (counts : t.svo.counts = s.svo.counts) :
    measured t = measured s := by
  have raw : t.svo.raw = s.svo.raw := (congrArg Svo.raw counts :)
  have origin : t.svo.origin = s.svo.origin := (congrArg Svo.origin counts :)
  have control : isControl t = isControl s := by simp only [isControl, role]
  simp only [measured, control, raw, origin]

theorem travelLo_congr {s t : State} (cfg : t.cfg = s.cfg) (homed : isHomed t = isHomed s) : travelLo t = travelLo s := by
  simp only [travelLo, homed, param, cfg]

theorem travelHi_congr {s t : State} (cfg : t.cfg = s.cfg) (homed : isHomed t = isHomed s) : travelHi t = travelHi s := by
  simp only [travelHi, homed, param, cfg]

theorem tracked_congr {s t : State} (cfg : t.cfg = s.cfg) (counts : t.svo.counts = s.svo.counts)
    (homed : isHomed t = isHomed s) : tracked t = tracked s := by
  simp only [tracked, travelLo_congr cfg homed, travelHi_congr cfg homed, measured_congr (by rw [cfg]) counts, homed]

theorem tracked_inside {s : State} (homed : s.hom.state = .homed) (ordered : softLo s ≤ softHi s) :
    softLo s ≤ tracked s ∧ tracked s ≤ softHi s := by
  have at_ : isHomed s = true := by simp [isHomed, homed]
  rw [tracked, at_, if_pos rfl, travelLo_of_homed homed, travelHi_of_homed homed]
  exact clampInt_bounds ordered _

@[simp] theorem handOn_isHomed (f : HomeFail) (r : Reason) (s : State) : isHomed (handOn f r s) = isHomed s := by
  rw [isHomed, handOn_hom]
  split
  · next seeks => simp [isHomed, failedHom, seeks]
  · rfl

theorem tracked_stoppingDrive (s : State) : tracked (stoppingDrive s) = tracked s :=
  tracked_congr (by simp) (by rw [stoppingDrive_svo]; rfl) (by rw [stoppingDrive, handOn_isHomed]; rfl)

/-- A reaction leaves the position or tracks, and leaves a move of 0. -/
theorem reactStops_course (s : State) :
    ((reactStops s).mpr.p = s.mpr.p ∨ (reactStops s).mpr.p = tracked s) ∧ (s.mpr.v = 0 → (reactStops s).mpr.v = 0) := by
  obtain eq | ⟨eq, -⟩ | ⟨eq, -⟩ | ⟨eq, -⟩ := reactStops_cases s <;> rw [eq]
  · exact ⟨.inl rfl, id⟩
  · rw [enterStopped_mpr]
    exact ⟨.inr rfl, fun _ => rfl⟩
  · rw [enterStopping_eq]
    split
    · rw [endStopping_eq (by simp)]
      exact ⟨.inr (tracked_stoppingDrive s), fun _ => rfl⟩
    · rw [stoppingDrive_mpr]
      exact ⟨.inl rfl, id⟩
  · rw [enterParked_mpr]
    exact ⟨.inl rfl, fun _ => rfl⟩

/-! ### OVERRUN raised (R11, R14, R88) -/

/-- STC with the latch of OVERRUN set. -/
def overrunSet (s : State) : State := { s with stc := { s.stc with overrunLatch := true } }

@[simp] theorem overrunSet_frame (s : State) :
    (overrunSet s).cfg = s.cfg ∧ (overrunSet s).mpr = s.mpr ∧ (overrunSet s).svo = s.svo ∧ (overrunSet s).hom = s.hom ∧
    (overrunSet s).stc.drive = s.stc.drive := ⟨rfl, rfl, rfl, rfl, rfl⟩

theorem raiseOverrun_eq (s : State) :
    raiseOverrun s = if s.stc.overrunLatch = true then overrunSet s else causeArises .overrun (overrunSet s) := rfl

theorem holdFor_some (c : Cause) {s : State} (present : causePresent s c = true) : (holdFor c s).stc.hold.isSome = true := by
  unfold holdFor
  cases hold : s.stc.hold with
  | none =>
    cases causes : localCauses s with
    | nil => exact absurd (mem_localCauses.mpr present) (by simp [causes])
    | cons x xs => simp [holdAgain_of_formed (s := s) (by rw [causes]; rfl)]
  | some h => dsimp only; split <;> simp [hold]

theorem stopInForce_of_hold {s : State} (held : s.stc.hold.isSome = true) : stopInForce s = true := by
  simp [stopInForce, held]

/-- A stop in force takes the axis out of ENABLED and WAKING (R92, R93). -/
theorem reactStops_leaves {s : State} (stop : stopInForce s = true) :
    (reactStops s).stc.drive ≠ .enabled ∧ (reactStops s).stc.drive ≠ .waking := by
  obtain eq | ⟨eq, -⟩ | ⟨eq, -, on⟩ | ⟨eq, free, -⟩ := reactStops_cases s
  · cases hard : hardInForce s
    · cases drive : s.stc.drive
      · simp [eq, drive]
      · rw [reactStops_of_waking stop drive]; simp
      · rw [reactStops_of_ramp hard stop drive]
        by_cases rest : s.mpr.v = 0
        · rw [(enterStopping_of_rest rest stop).1]; split <;> simp
        · rw [enterStopping_of_move rest]; simp
      · simp [eq, drive]
      · simp [eq, drive]
    · cases on : driveActive s.stc.drive
      · rw [eq]; cases drive : s.stc.drive <;> simp [drive, driveActive] at on ⊢
      · rw [reactStops_of_hard hard on]; simp
  · simp [eq]
  · rw [eq]
    by_cases rest : s.mpr.v = 0
    · rw [(enterStopping_of_rest rest stop).1]; split <;> simp
    · rw [enterStopping_of_move rest]; simp
  · simp [free] at stop

theorem causeArises_leaves (c : Cause) {s : State} (present : causePresent s c = true) :
    (causeArises c s).stc.drive ≠ .enabled ∧ (causeArises c s).stc.drive ≠ .waking :=
  reactStops_leaves (stopInForce_of_hold (holdFor_some c present))

/-- STC without its hold: what forming a hold leaves alone (R88). -/
def Stc.unheld (t : Stc) : Stc := { t with hold := none }

@[simp] theorem holdAgain_unheld (s : State) : (holdAgain s).stc.unheld = s.stc.unheld := by
  unfold holdAgain; split <;> simp [Stc.unheld]

@[simp] theorem holdFor_unheld (c : Cause) (s : State) : (holdFor c s).stc.unheld = s.stc.unheld := by
  unfold holdFor; split
  · simp
  · split <;> simp [Stc.unheld]

theorem raiseOverrun_latch (s : State) : (raiseOverrun s).stc.overrunLatch = true := by
  rw [raiseOverrun_eq]; split
  · rfl
  · have reacted : (causeArises .overrun (overrunSet s)).stc.overrunLatch = (holdFor .overrun (overrunSet s)).stc.overrunLatch :=
      (congrArg Stc.overrunLatch (reactStops_orders _) :)
    exact reacted.trans (congrArg Stc.overrunLatch (holdFor_unheld .overrun (overrunSet s)) :)

theorem raiseOverrun_counts (s : State) : (raiseOverrun s).svo.counts = s.svo.counts := by
  rw [raiseOverrun_eq]; split
  · rfl
  · rw [causeArises_counts]; rfl

theorem raiseOverrun_hom {s : State} (none : s.hom.state ≠ .homing) : (raiseOverrun s).hom = s.hom := by
  rw [raiseOverrun_eq]; split
  · rfl
  · rw [causeArises_hom, if_neg (fun all => none all.2.2)]; rfl

/-- The position and move that OVERRUN leaves: those of before, or tracked with the move 0. -/
theorem raiseOverrun_course (s : State) :
    ((raiseOverrun s).mpr.p = s.mpr.p ∨ (raiseOverrun s).mpr.p = tracked s) ∧ (s.mpr.v = 0 → (raiseOverrun s).mpr.v = 0) := by
  rw [raiseOverrun_eq]; split
  · exact ⟨.inl rfl, id⟩
  · have reacted := reactStops_course (holdFor .overrun (overrunSet s))
    have same : tracked (holdFor .overrun (overrunSet s)) = tracked s :=
      tracked_congr (by simp) (by simp) (by simp [isHomed])
    simpa [same, causeArises] using reacted

theorem raiseOverrun_leaves {s : State} (clear : s.stc.overrunLatch = false) :
    (raiseOverrun s).stc.drive ≠ .enabled ∧ (raiseOverrun s).stc.drive ≠ .waking := by
  rw [raiseOverrun_eq, if_neg (by simp [clear])]
  exact causeArises_leaves .overrun rfl

/-- An axis become homed outside its soft limits ends within them, wherever the OVERRUN leaves it (R14). -/
theorem clampedHome_inside {s : State} (ordered : softLo s ≤ softHi s) :
    softLo s ≤ (raiseOverrun (clampedHome s)).mpr.p ∧ (raiseOverrun (clampedHome s)).mpr.p ≤ softHi s := by
  obtain p | p := (raiseOverrun_course (clampedHome s)).1
  · rw [p]; exact clampInt_bounds ordered _
  · rw [p]; exact tracked_inside (s := clampedHome s) rfl ordered

/-! ### HOME and the switch capture -/

theorem captureEdge_of_unarmed {s : State} (unarmed : s.hom.armed = false) : captureEdge s = s := by simp [captureEdge, unarmed]

theorem captureEdge_of_enabled {s : State} (armed : s.hom.armed = true) (on : s.stc.drive = .enabled) :
    captureEdge s = { s with
      svo := { s.svo with origin := homeOrigin s }
      mpr := { s.mpr with p := s.mpr.p + originShift (homeOrigin s) s * 256, mode := .hold, g := none }
      hom := { s.hom with armed := false, phase := some .decel, seekStart := none } } := by
  rw [captureEdge, if_pos armed, requestMode_of_enabled (by exact on)]
  rfl

theorem homeMode_switch {s : State} (mode : param s (fun b => b.homeMode) = 0) : homeMode s = .switch := by simp [homeMode, mode]
theorem homeMode_hardStop {s : State} (mode : param s (fun b => b.homeMode) = 1) : homeMode s = .hardStop := by
  simp [homeMode, mode]
theorem homeMode_preset {s : State} (mode : param s (fun b => b.homeMode) = 2) : homeMode s = .preset := by simp [homeMode, mode]

theorem axisUp_congr {s t : State} (cfg : t.cfg = s.cfg) : axisUp t = axisUp s := by simp only [axisUp, isAxis, cfg]
theorem namesOwn_congr {s t : State} (m : StationMask) (cfg : t.cfg = s.cfg) : namesOwn m t = namesOwn m s := by
  simp only [namesOwn, cfg]

@[simp] theorem received_frame (st : Station) (b : Body) (s : State) :
    (received st b s).cfg = s.cfg ∧ (received st b s).cck = s.cck ∧ (received st b s).ptb = s.ptb ∧
    (received st b s).chan = s.chan ∧ (received st b s).dmr = s.dmr ∧ (received st b s).mpr = s.mpr ∧
    (received st b s).svo = s.svo ∧ (received st b s).hom = s.hom ∧ (received st b s).zmn = s.zmn ∧
    (received st b s).stc = s.stc ∧ (received st b s).tks = s.tks ∧ (received st b s).tsc = s.tsc ∧
    (received st b s).flash = s.flash ∧ (received st b s).freeCount = s.freeCount ∧
    (received st b s).pending = s.pending := by
  simp [received]

/-- A frame of a station 1..15 reaches the blocks that act on its kind (R164). -/
theorem deliver_eq {st : Station} (known : st ≠ 0) (b : Body) (s : State) :
    deliver st b s = startWork (handBlocks false { station := st, body := b } (capturedTime s) (received st b s)) := by
  simp [deliver, handFrame, known, received]

/-- A homing made at once (R44). -/
def presetHomed (s : State) : State := becomeHomed (originChange (homeOrigin s) s)

theorem takeHome_of_none {mask : StationMask} {s : State}
    (none : axisUp s = false ∨ namesOwn mask s = false ∨ s.hom.state = .homing) : takeHome mask s = s := by
  unfold takeHome
  rcases none with up | own | seeks
  · simp [up]
  · simp [own]
  · simp [seeks]

/-- HOME on an axis that it names and that does not seek: refused, or the homing starts (R42). -/
theorem takeHome_of_named {mask : StationMask} {s : State} (up : axisUp s = true) (own : namesOwn mask s = true)
    (none : s.hom.state ≠ .homing) :
    takeHome mask s =
      if s.stc.drive = .enabled ∧ s.stc.parkPending = false then
        if s.tks.job = .idle then startHoming s else { s with hom := { s.hom with outcome := .refused .busy } }
      else { s with hom := { s.hom with outcome := .refused .notEnabled } } := by
  simp [takeHome, up, own, none]

theorem startSeek_of_enabled (capture : Bool) {s : State} (on : s.stc.drive = .enabled) :
    startSeek capture s = { s with
      svo := { s.svo with follow := 0 }
      hom := { state := .homing, phase := some .seek, seekStart := some s.mpr.p, stall := 0, armed := capture, outcome := .none }
      mpr := { s.mpr with mode := .homing, g := none } } := by
  rw [startSeek, requestMode_of_enabled (by exact on)]

/-- Settles O36: the shift modulo a turn of the count, the capture and HOME by their cases. -/
theorem homingStartsAndCaptures : Obligations.HomingStartsAndCaptures := by
  unfold Obligations.HomingStartsAndCaptures
  refine ⟨fun raw old new => ?_, fun s => ⟨fun unarmed => ?_, fun armed on => ?_⟩, fun st mask s known => ?_⟩
  · have wraps := countDiff_origin raw old new
    dsimp only
    rw [wraps]
    have turn := Int.emod_bmod (countDiff raw old + countDiff old new) 536870912
    refine ⟨fun low high => ?_, ?_⟩ <;> simp only [Int.bmod] at * <;> omega
  · exact congrArg _ (captureEdge_of_unarmed unarmed)
  · exact congrArg _ (captureEdge_of_enabled armed on)
  have up : axisUp (received st (.home mask) s) = axisUp s := axisUp_congr (by simp)
  have own : namesOwn mask (received st (.home mask) s) = namesOwn mask s := namesOwn_congr mask (by simp)
  have taken : exec (.home st mask) s = .next (startWork (takeHome mask (received st (.home mask) s))) :=
    congrArg _ (deliver_eq known _ s)
  have item (f : Block → Int) : param (received st (.home mask) s) f = param s f := param_congr (by simp) f
  obtain ⟨cfg, -, -, -, -, mpr, svo, hom, -, stc, tks, -⟩ := received_frame st (.home mask) s
  simp only [taken]
  generalize received st (.home mask) s = r at *
  have origin : homeOrigin r = s.svo.raw - BitVec.ofInt 29 (param s (fun b => b.homeOffset)) := by rw [homeOrigin, item, svo]
  have drive : r.stc.drive = s.stc.drive := by rw [stc]
  refine ⟨fun none => ?_, fun isUp isOwn none => ?_⟩
  · rw [takeHome_of_none (by simpa only [up, own, hom] using none)]
  have found := takeHome_of_named (up.trans isUp) (own.trans isOwn) (hom ▸ none)
  refine ⟨fun off => ?_, fun on free busy => ?_, fun on free idle => ?_⟩
  · rw [found, if_neg (by rw [stc]; exact fun both => off.elim (· both.1) (by simp [both.2])), hom]
  · rw [found, if_pos (by rw [stc]; exact ⟨on, free⟩), if_neg (by rw [tks]; exact busy), hom]
  rw [if_pos (by rw [stc]; exact ⟨on, free⟩), if_pos (by rw [tks]; exact idle)] at found
  refine ⟨fun at_ => ?_, fun at_ => ?_, fun at_ => ?_⟩
  · simp only [found, startHoming, homeMode_switch ((item _).trans at_), startSeek_of_enabled true (drive.trans on), svo, mpr]
  · simp only [found, startHoming, homeMode_hardStop ((item _).trans at_), startSeek_of_enabled false (drive.trans on), svo, mpr]
  simp only [startHoming, homeMode_preset ((item _).trans at_), becomeHomed_eq] at found
  have p : (originChange (homeOrigin r) r).mpr.p = s.mpr.p + originShift (homeOrigin r) s * 256 := by
    simp only [originChange, originShift, svo, mpr]
  have lo : softLo (originChange (homeOrigin r) r) = param s (fun b => b.lo) * 256 := congrArg (· * 256) (item _)
  have hi : softHi (originChange (homeOrigin r) r) = param s (fun b => b.hi) * 256 := congrArg (· * 256) (item _)
  refine ⟨fun low high => ?_, fun ordered out => ?_⟩
  · rw [found, if_neg (by rw [p, lo, hi, origin, originShift]; omega)]
    simp only [originChange, originShift, svo, mpr, origin, doneHom]
  · rw [found, if_pos (by rw [p, lo, hi, origin, originShift]; exact out)]
    refine ⟨_, rfl, ?_⟩
    simp only [startWork_frame]
    have counts := raiseOverrun_counts (clampedHome (originChange (homeOrigin r) r))
    have inside := clampedHome_inside (s := originChange (homeOrigin r) r) (by rw [lo, hi]; omega)
    rw [lo, hi] at inside
    exact ⟨raiseOverrun_hom (by simp [clampedHome, doneHom]), (congrArg Svo.origin counts :).trans origin,
      (raiseOverrun_course _).2 rfl, raiseOverrun_latch _,
      fun clear => (raiseOverrun_leaves (s := clampedHome (originChange (homeOrigin r) r))
        (show r.stc.overrunLatch = false from stc ▸ clear)).1, inside⟩

end Sys2Proof.Machine
end

