-- ==== Sys2Proof/Proofs/Restart.lean ====
section
/-! SUPPORT. What an accepted RESTART rebuilds, and how a request for one is taken (R168, R175, R176). -/

namespace Sys2Proof.Machine

open Sys2Proof.Safety

/-- The node as a RESTART rebuilds it, before the hold is formed again (R176). -/
def rebuilt (s : State) : State :=
  { s with
    cfg := s.cfg.restart
    chan := Chan.start
    dmr := Dmr.start 4096
    mpr := Mpr.start (measured s * 256)
    svo := { s.svo with follow := 0, u := 0, err := 0 }
    hom := Hom.start
    zmn := s.zmn.restart
    stc := s.stc.restart
    tks := Tks.start
    tsc := restartStore s.tsc
    lnk := s.lnk.restart
    cpt := s.cpt.restart }

theorem restartPart_eq (s : State) : restartPart s = holdAgain (rebuilt s) := rfl

/-- LNK without its safety slot and the transmission in flight: what queueing a STOP leaves alone (R156). -/
def Lnk.besideSafety (l : Lnk) : Lnk := { l with safety := none, tx := none }

@[simp] theorem queueSafety_besideSafety (b : Body) (s : State) : (queueSafety b s).lnk.besideSafety = s.lnk.besideSafety := by
  simp only [queueSafety, Lnk.markRefilled]
  split
  · split <;> rfl
  · rfl

theorem queueSafety_tx (b : Body) (s : State) {x : Tx} (sent : s.lnk.tx = some x) :
    ∃ y, (queueSafety b s).lnk.tx = some y ∧ y.orphan = x.orphan ∧ y.frame = x.frame := by
  simp only [queueSafety, Lnk.markRefilled, sent]
  split
  · exact ⟨_, rfl, rfl, rfl⟩
  · exact ⟨x, sent, rfl, rfl⟩

@[simp] theorem holdAgain_besideSafety (s : State) : (holdAgain s).lnk.besideSafety = s.lnk.besideSafety := by
  unfold holdAgain; split <;> simp

theorem holdAgain_tx {s : State} {x : Tx} (sent : s.lnk.tx = some x) :
    ∃ y, (holdAgain s).lnk.tx = some y ∧ y.orphan = x.orphan ∧ y.frame = x.frame := by
  unfold holdAgain; split
  · exact queueSafety_tx _ _ sent
  · exact ⟨x, sent, rfl, rfl⟩

theorem holdAgain_localCauses (s : State) : localCauses (holdAgain s) = localCauses s :=
  localCauses_congr (congrArg Stc.latches (holdAgain_unheld s) :) (by simp) (by simp)
    (congrArg Lnk.linkFault (holdAgain_besideSafety s) :)

/-- Where the node held nothing, forming the hold again leaves the hold of the causes present. -/
theorem holdAgain_hold {s : State} (none : s.stc.hold = none) :
    (holdAgain s).stc.hold = formHold (localCauses (holdAgain s)) := by
  rw [holdAgain_localCauses]
  cases formed : formHold (localCauses s) with
  | none => simp [holdAgain, formed, none]
  | some h => simp [holdAgain_of_formed formed]

/-- The STOP of the hold formed, in a safety slot that was empty. -/
theorem holdAgain_safety {s : State} (empty : s.lnk.safety = none) (none : s.stc.hold = none) :
    (holdAgain s).lnk.safety = (holdAgain s).stc.hold.map (fun h => .stop h.kind h.code) := by
  cases formed : formHold (localCauses s) with
  | none => simp [holdAgain, formed, none, empty]
  | some h => simp [holdAgain_of_formed formed]

theorem restartStore_idle {t : Tsc} (idle : t.unit = .idle) : restartStore t = Tsc.start t.cursor t.rereads := by
  simp [restartStore, idle]

theorem restartStore_busy {t : Tsc} (busy : t.unit ≠ .idle) :
    (restartStore t).draining = true ∧ (restartStore t).unit ≠ .idle ∧ (restartStore t).cursor = t.cursor := by
  cases work : t.unit <;> simp_all [restartStore]

theorem restartAccepted_iff (s : State) :
    restartAccepted s = true ↔
      (s.cfg.startState = .parked ∧ s.stc.drive = .parked ∨ s.cfg.startState = .run ∨ s.cfg.startState = .configFault) ∧
        s.cpt.writeState ≠ .inProgress := by
  simp [restartAccepted, writeInProgress, or_assoc]

theorem requestRestart_of_refused {s : State} (refused : restartAccepted s = false) :
    requestRestart s = { s with cfg := { s.cfg with refusedRestarts := satInc 255 s.cfg.refusedRestarts } } := by
  simp [requestRestart, refused]

@[simp] theorem received_writeState (st : Station) (b : Body) (s : State) :
    (received st b s).cpt.writeState = s.cpt.writeState := by
  simp only [received, joinQueue]; split
  · split <;> rfl
  · rfl

/-- Settles O34: the rebuilt node with its hold formed again, and the two ways a request ends. -/
theorem restartRebuildsOrIsRefused : Obligations.RestartRebuildsOrIsRefused := by
  unfold Obligations.RestartRebuildsOrIsRefused
  refine ⟨fun s => ?_, fun st mask s known => ?_⟩
  · have slots := holdAgain_besideSafety (rebuilt s)
    have stops := holdAgain_unheld (rebuilt s)
    refine ⟨_, restartPart_eq s, ?_⟩
    simp only [holdAgain_frame]
    refine ⟨?_, rfl, rfl, rfl, rfl, rfl, rfl, rfl, rfl, rfl, rfl, rfl, rfl, rfl, fun i => ?_, ?_, holdAgain_hold rfl,
      holdAgain_safety rfl rfl, ?_, ?_, ?_, ?_, fun x sent => ?_, rfl, restartStore_idle, restartStore_busy, rfl, rfl, rfl⟩
    · simp [rebuilt, Cfg.restart]
    · simp [rebuilt, Zmn.restart, Zmn.start, CrewFilter.start, vmap_getElem]
    · exact ⟨(congrArg Stc.drive stops :), (congrArg Stc.holders stops :), (congrArg Stc.followLatch stops :),
        (congrArg Stc.haltLatch stops :), (congrArg Stc.overrunLatch stops :), (congrArg Stc.companionHalt stops :),
        (congrArg Stc.wakeRefused stops :), (congrArg Stc.settle stops :), (congrArg Stc.parkPending stops :),
        (congrArg Stc.chainOpen stops :)⟩
    · exact (congrArg Lnk.fifo slots :)
    · exact (congrArg Lnk.demand slots :)
    · exact (congrArg Lnk.status slots :)
    · exact ⟨(congrArg Lnk.rxErrors slots :), (congrArg Lnk.bitErrors slots :), (congrArg Lnk.bitErrorTotal slots :),
        (congrArg Lnk.linkFault slots :), (congrArg Lnk.faultPause slots :), (congrArg Lnk.capture slots :)⟩
    · obtain ⟨y, there, orphan, frame⟩ := holdAgain_tx (s := rebuilt s) (x := { x with orphan := true })
        (by simp [rebuilt, Lnk.restart, sent])
      exact ⟨y, there, orphan, frame⟩
  · have accepted := restartAccepted_iff s
    have same : restartAccepted (received st (.restart mask) s) = restartAccepted s := by
      simp [restartAccepted, writeInProgress]
    have frame : exec (.restartFrame st mask) s = .next (startWork
        (if namesOwn mask s then requestRestart (received st (.restart mask) s) else received st (.restart mask) s)) := by
      rw [← namesOwn_congr mask (s := s) (t := received st (.restart mask) s) (by simp)]
      exact congrArg _ (deliver_eq known _ s)
    have port : exec .restartCommand s =
      .next (answered s (if restartAccepted s then .accepted else .notNow) .none (requestRestart s)) := rfl
    refine ⟨fun ok => ?_, fun no => ?_, fun own ok => ?_, fun own no => ?_, fun other => ?_⟩
    · rw [port, if_pos (accepted.mpr ok), requestRestart_of_accepted (accepted.mpr ok)]
      rfl
    · have refuses : restartAccepted s = false := by rw [← Bool.not_eq_true, accepted]; exact no
      rw [port, refuses, requestRestart_of_refused refuses]
      rfl
    · rw [frame, if_pos own, requestRestart_of_accepted (same.trans (accepted.mpr ok))]
    · rw [frame, if_pos own, requestRestart_of_refused (same.trans (by rw [← Bool.not_eq_true, accepted]; exact no))]
    · rw [frame, other, if_neg (by simp)]

end Sys2Proof.Machine
end

