-- ==== Sys2Proof/Proofs/UpdateParts.lean ====
section
/-! SUPPORT. The update in its parts, and what no part of it undoes (log 6). -/

namespace Sys2Proof.Machine

open Sys2Proof.Safety

/-! ### The parts of an update -/

/-- The clock, the start sequence and the lines sampled: the part of an update before its causes. -/
def sampled (inp : UpdateInputs) (s : State) : State :=
  cleanUpdate (readHalt inp (crewUpdate inp.crew (startUpdate inp (stepAging (clockWrap (countUpdate s))))))

/-- The causes of an update, where this is their place in it. -/
def causesAt (here : Bool) (s : State) : State := if here then updateCauses s else s

/-- Zones and demand, where this is their place. -/
def evaluated (zones demand : Bool) (s : State) : State :=
  let s := if zones then zoneUpdate s else s
  if demand then demandUpdate s else s

/-- The clock's decision, zones and demand, and a STATUS: the part of an update between its causes and its profile. -/
def decided (inp : UpdateInputs) (known : Bool) (s : State) : State :=
  statusAt (known && inp.statusPoint == .beforeProfile) (evaluated inp.zonesFirst inp.demandFirst (clockDecide s))

/-- What an update queues, with the field factor and the ages: the part after its last cause. -/
def queued (inp : UpdateInputs) (known : Bool) (s : State) : State :=
  ageEntries (statusAt (known && inp.statusPoint == .last)
    (queueUpdateDemand inp.levers (updateFactor (statusAt (known && inp.statusPoint == .beforeFactor) s))))

theorem beforeMotion_eq (inp : UpdateInputs) (known : Bool) (s : State) :
    beforeMotion inp known s = decided inp known (causesAt inp.causesFirst (sampled inp s)) := rfl

theorem afterMotion_eq (inp : UpdateInputs) (known : Bool) (s : State) :
    afterMotion inp known s =
      operationUpdate inp.left (queued inp known (causesAt (!inp.causesFirst) (evaluated (!inp.zonesFirst) (!inp.demandFirst) s))) := by
  simp only [afterMotion, evaluated, causesAt]
  cases inp.zonesFirst <;> cases inp.demandFirst <;> cases inp.causesFirst <;> rfl

@[simp] theorem evaluated_frame (zones demand : Bool) (s : State) :
    (evaluated zones demand s).cfg = s.cfg ∧ (evaluated zones demand s).cck = s.cck ∧ (evaluated zones demand s).ptb = s.ptb ∧
    (evaluated zones demand s).chan = s.chan ∧ (evaluated zones demand s).mpr = s.mpr ∧ (evaluated zones demand s).svo = s.svo ∧
    (evaluated zones demand s).hom = s.hom ∧ (evaluated zones demand s).stc = s.stc ∧ (evaluated zones demand s).tks = s.tks ∧
    (evaluated zones demand s).tsc = s.tsc ∧ (evaluated zones demand s).lnk = s.lnk ∧ (evaluated zones demand s).cpt = s.cpt ∧
    (evaluated zones demand s).flash = s.flash ∧ (evaluated zones demand s).freeCount = s.freeCount ∧
    (evaluated zones demand s).pending = s.pending := by
  cases zones <;> cases demand <;> simp [evaluated]

@[simp] theorem decided_frame (inp : UpdateInputs) (known : Bool) (s : State) :
    (decided inp known s).cfg = s.cfg ∧ (decided inp known s).ptb = s.ptb ∧ (decided inp known s).chan = s.chan ∧
    (decided inp known s).mpr = s.mpr ∧ (decided inp known s).svo = s.svo ∧ (decided inp known s).hom = s.hom ∧
    (decided inp known s).stc = s.stc ∧ (decided inp known s).tks = s.tks ∧ (decided inp known s).tsc = s.tsc ∧
    (decided inp known s).cpt = s.cpt ∧ (decided inp known s).flash = s.flash ∧
    (decided inp known s).freeCount = s.freeCount ∧ (decided inp known s).pending = s.pending := by
  simp [decided]

@[simp] theorem causesAt_frame (here : Bool) (s : State) :
    (causesAt here s).cfg = s.cfg ∧ (causesAt here s).cck = s.cck ∧ (causesAt here s).chan = s.chan ∧
    (causesAt here s).zmn = s.zmn ∧ (causesAt here s).cpt = s.cpt ∧ (causesAt here s).flash = s.flash ∧
    (causesAt here s).freeCount = s.freeCount ∧ (causesAt here s).pending = s.pending := by
  cases here <;> simp [causesAt]

@[simp] theorem queued_frame (inp : UpdateInputs) (known : Bool) (s : State) :
    (queued inp known s).cfg = s.cfg ∧ (queued inp known s).cck = s.cck ∧ (queued inp known s).dmr = s.dmr ∧
    (queued inp known s).svo = s.svo ∧ (queued inp known s).hom = s.hom ∧ (queued inp known s).zmn = s.zmn ∧
    (queued inp known s).stc = s.stc ∧ (queued inp known s).tks = s.tks ∧ (queued inp known s).tsc = s.tsc ∧
    (queued inp known s).cpt = s.cpt ∧ (queued inp known s).flash = s.flash ∧
    (queued inp known s).freeCount = s.freeCount ∧ (queued inp known s).pending = s.pending := by
  simp [queued]

@[simp] theorem operationUpdate_frame (left : Option (List Byte)) (s : State) :
    (operationUpdate left s).cfg = s.cfg ∧ (operationUpdate left s).cck = s.cck ∧ (operationUpdate left s).ptb = s.ptb ∧
    (operationUpdate left s).chan = s.chan ∧ (operationUpdate left s).dmr = s.dmr ∧ (operationUpdate left s).svo = s.svo ∧
    (operationUpdate left s).hom = s.hom ∧ (operationUpdate left s).zmn = s.zmn ∧ (operationUpdate left s).stc = s.stc ∧
    (operationUpdate left s).freeCount = s.freeCount ∧ (operationUpdate left s).pending = s.pending := by
  simp only [operationUpdate, operationFailed]
  split
  · split <;> simp
  · simp

@[simp] theorem sampled_frame (inp : UpdateInputs) (s : State) :
    (sampled inp s).ptb = s.ptb ∧ (sampled inp s).chan = s.chan ∧ (sampled inp s).dmr = s.dmr ∧ (sampled inp s).mpr = s.mpr ∧
    (sampled inp s).hom = s.hom ∧ (sampled inp s).tks = s.tks ∧ (sampled inp s).tsc = ageOperation s.tsc ∧
    (sampled inp s).lnk = s.lnk ∧ (sampled inp s).cpt = s.cpt ∧ (sampled inp s).pending = s.pending := by
  simp [sampled]

/-! ### What the whole of an update leaves as one part makes it -/

theorem update_cfg (inp : UpdateInputs) (s : State) : (update inp s).cfg = (sampled inp s).cfg := by
  simp [update, toServo, withMotion, beforeMotion_eq, afterMotion_eq]

/-- The clock of an update is wrapped and aged, and then decides (R62, R68, R71). -/
theorem update_cck (inp : UpdateInputs) (s : State) :
    ∃ x : State, x.cck = (stepAging (clockWrap (countUpdate s))).cck ∧ (update inp s).cck = (clockDecide x).cck := by
  refine ⟨causesAt inp.causesFirst (sampled inp s), by simp [sampled], ?_⟩
  simp [update, toServo, withMotion, beforeMotion_eq, afterMotion_eq, decided]

theorem zoneUpdate_filters (s : State) : (zoneUpdate s).zmn.filters = s.zmn.filters := by
  unfold zoneUpdate; split <;> rfl

theorem evaluated_filters (zones demand : Bool) (s : State) : (evaluated zones demand s).zmn.filters = s.zmn.filters := by
  cases zones <;> cases demand <;> simp [evaluated, zoneUpdate_filters]

/-- The release filters of an update are those of its samples (R74). -/
theorem update_filters (inp : UpdateInputs) (s : State) :
    (update inp s).zmn.filters = (crewUpdate inp.crew s).zmn.filters := by
  simp [update, toServo, withMotion, beforeMotion_eq, afterMotion_eq, decided, evaluated_filters, sampled, crewUpdate]

/-- With the zones evaluated before the profile, the update keeps what that evaluation left (R78, log 6). -/
theorem update_memberCap (inp : UpdateInputs) (s : State) :
    (toServo inp s).1.zmn.memberCap = if inp.zonesFirst then (update inp s).zmn.memberCap else s.zmn.memberCap := by
  cases zones : inp.zonesFirst
  · simp [toServo, withMotion, beforeMotion_eq, decided, evaluated, zones, sampled, crewUpdate]
  · simp [update, afterMotion_eq, evaluated, zones]

end Sys2Proof.Machine
end

