-- ==== Sys2Proof/Proofs/Lasting.lean ====
section
/-! SUPPORT. What no part of an update undoes: a hold, a lost peer, a stop, a stale demand (R31, R60, R88, R92). -/

namespace Sys2Proof.Machine

open Sys2Proof.Safety

/-! ### Takes queue commands only -/

@[simp] theorem storeLow_besideFifo (s : State) : (storeLow s).lnk.besideFifo = s.lnk.besideFifo := by
  unfold storeLow; split <;> simp

@[simp] theorem storeReport_besideFifo (r : StoreReport) (s : State) : (storeReport r s).lnk.besideFifo = s.lnk.besideFifo := by
  unfold storeReport; repeat' split
  all_goals simp

@[simp] theorem beginRecording_besideFifo (s : State) : (beginRecording s).lnk.besideFifo = s.lnk.besideFifo := by
  simp [beginRecording]

@[simp] theorem beginClosing_besideFifo (e : Int) (s : State) : (beginClosing e s).lnk.besideFifo = s.lnk.besideFifo := by
  unfold beginClosing; dsimp only; split <;> simp

@[simp] theorem recordMove_besideFifo (m : Int) (s : State) : (recordMove m s).lnk.besideFifo = s.lnk.besideFifo := by
  simp [recordMove]

@[simp] theorem recordingUpdate_besideFifo (r : Result) (s : State) :
    (recordingUpdate r s).lnk.besideFifo = s.lnk.besideFifo := by
  unfold recordingUpdate; dsimp only; repeat' split
  all_goals simp

@[simp] theorem playbackResult_besideFifo (r : Result) (s : State) :
    (playbackResult r s).lnk.besideFifo = s.lnk.besideFifo := by
  unfold playbackResult; dsimp only; repeat' split
  all_goals simp

@[simp] theorem takesUpdate_besideFifo (r : Result) (s : State) : (takesUpdate r s).lnk.besideFifo = s.lnk.besideFifo := by
  unfold takesUpdate; dsimp only; repeat' split
  all_goals simp

@[simp] theorem storeWriteFailed_besideFifo (s : State) : (storeWriteFailed s).lnk.besideFifo = s.lnk.besideFifo := by
  unfold storeWriteFailed; split <;> simp

@[simp] theorem programFailed_besideFifo (p : Program) (s : State) : (programFailed p s).lnk.besideFifo = s.lnk.besideFifo := by
  unfold programFailed; split <;> simp

@[simp] theorem operationUpdate_besideFifo (left : Option (List Byte)) (s : State) :
    (operationUpdate left s).lnk.besideFifo = s.lnk.besideFifo := by
  simp only [operationUpdate, operationFailed]
  split
  · split <;> simp
  · rfl

/-! ### The relation -/

/-- The encoder's raw count and its condition (R18, R19). -/
def Svo.encoder (v : Svo) : Count × Bool × Nat := (v.raw, v.encFault, v.clean)

/-- FOLLOW-ERROR has stopped the axis (R24, R92). -/
structure Halted (s : State) : Prop where
  latch : s.stc.followLatch = true
  drive : s.stc.drive = .stopped
  hold : ∃ h, s.stc.hold = some h ∧ h.kind = .hard
  move : s.mpr.v = 0
  output : s.svo.u = 0
  follow : s.svo.follow = 0

/-- The route is stale and disarmed (R31, R33). -/
structure StaleRoute (s : State) : Prop where
  due : staleDue s = true
  stale : s.dmr.stale = true
  armed : s.dmr.armed = false
  pendingWheel : s.dmr.pendingWheel = 0
  handDemand : s.dmr.handDemand = 0

/-- What an update that goes from s to t does not undo; known: the own number was known when it began. -/
structure Lasting (known : Bool) (s t : State) : Prop where
  status : known = false → t.lnk.status = s.lnk.status
  encoder : t.svo.encoder = s.svo.encoder
  lost : ∀ st, maskNames s.ptb.lost st = true → maskNames t.ptb.lost st = true
  hold : s.stc.hold.isSome = true → t.stc.hold.isSome = true
  left : s.stc.drive ≠ .enabled ∧ s.stc.drive ≠ .waking → t.stc.drive ≠ .enabled ∧ t.stc.drive ≠ .waking
  halted : Halted s → Halted t
  due : staleDue s = true → staleDue t = true
  stale : StaleRoute s → StaleRoute t

namespace Lasting

variable {known : Bool} {s t u : State}

theorem rfl : Lasting known s s := ⟨fun _ => .refl _, .refl _, fun _ => id, id, id, id, id, id⟩

theorem trans (x : Lasting known s t) (y : Lasting known t u) : Lasting known s u :=
  ⟨fun k => (y.status k).trans (x.status k), y.encoder.trans x.encoder, fun st => y.lost st ∘ x.lost st, y.hold ∘ x.hold,
    y.left ∘ x.left, y.halted ∘ x.halted, y.due ∘ x.due, y.stale ∘ x.stale⟩

theorem ite {c : Prop} [Decidable c] (yes : c → Lasting known s t) (no : ¬c → Lasting known s u) :
    Lasting known s (if c then t else u) := by
  split
  · exact yes ‹_›
  · exact no ‹_›

end Lasting

theorem staleDue_congr {s t : State} (cfg : t.cfg = s.cfg) (demands : t.ptb.demands = s.ptb.demands) :
    staleDue t = staleDue s := by
  simp only [staleDue, axisUp, isAxis, cfg, routeStale, demands]

/-- A disarmed route stays so under a disarm. -/
theorem StaleRoute.of_dmr {s t : State} (route : StaleRoute s) (due : staleDue t = staleDue s)
    (dmr : t.dmr = s.dmr ∨ t.dmr = s.dmr.disarm) : StaleRoute t := by
  obtain ⟨was, stale, armed, wheel, hand⟩ := route
  rcases dmr with same | disarmed
  · exact ⟨due.trans was, by rw [same, stale], by rw [same, armed], by rw [same, wheel], by rw [same, hand]⟩
  · exact ⟨due.trans was, by rw [disarmed]; exact stale, by rw [disarmed]; rfl, by rw [disarmed]; rfl, by rw [disarmed]; rfl⟩

/-- A change of none of the parts that the relation reads. -/
theorem Lasting.of_frame {known : Bool} {s t : State}
    (frame : t.cfg = s.cfg ∧ t.ptb = s.ptb ∧ t.dmr = s.dmr ∧ t.svo = s.svo ∧ t.stc = s.stc ∧
      t.lnk.besideFifo = s.lnk.besideFifo ∧ t.mpr.course = s.mpr.course) : Lasting known s t := by
  obtain ⟨cfg, ptb, dmr, svo, stc, lnk, course⟩ := frame
  have due : staleDue t = staleDue s := staleDue_congr cfg (by rw [ptb])
  exact ⟨fun _ => (congrArg Lnk.status lnk :), by rw [svo], by rw [ptb]; exact fun _ => id, by rw [stc]; exact id,
    by rw [stc]; exact id, fun h => ⟨by rw [stc, h.latch], by rw [stc, h.drive], by rw [stc]; exact h.hold,
      (v_of_course course).trans h.move, by rw [svo, h.output], by rw [svo, h.follow]⟩, by rw [due]; exact id,
    fun route => route.of_dmr due (.inl dmr)⟩

/-! ### Holds and reactions -/

@[simp] theorem holdFor_besideSafety (c : Cause) (s : State) : (holdFor c s).lnk.besideSafety = s.lnk.besideSafety := by
  unfold holdFor; split
  · simp
  · split <;> simp

theorem holdFor_of_hard (c : Cause) {s : State} {h : Hold} (hold : s.stc.hold = some h) (kind : h.kind = .hard) :
    holdFor c s = s := by
  simp [holdFor, hold, kind]

theorem holdFor_kept (c : Cause) {s : State} (held : s.stc.hold.isSome = true) : (holdFor c s).stc.hold.isSome = true := by
  unfold holdFor; split
  · simp_all
  · split
    · simp
    · exact held

theorem reactStops_dmr (s : State) : (reactStops s).dmr = s.dmr ∨ (reactStops s).dmr = s.dmr.disarm := by
  by_cases on : s.stc.drive = .enabled
  · cases stop : stopInForce s
    · rw [reactStops_of_free stop, leaveStopped_of_other (by simp [on])]; exact .inl rfl
    · obtain ⟨x, -, dmr, -, -, -, -, left, -⟩ := reactStops_of_enabled on stop
      exact .inr (by rw [left, handOn_dmr, dmr])
  · exact .inl (reactStops_of_other on).1

/-- A reaction never enters ENABLED or WAKING. -/
theorem reactStops_left {s : State} (off : s.stc.drive ≠ .enabled ∧ s.stc.drive ≠ .waking) :
    (reactStops s).stc.drive ≠ .enabled ∧ (reactStops s).stc.drive ≠ .waking := by
  obtain eq | ⟨eq, -⟩ | ⟨-, -, on⟩ | ⟨eq, -⟩ := reactStops_cases s
  · rwa [eq]
  · simp [eq]
  · exact absurd on off.1
  · simp [eq]

theorem reactStops_of_halted {s : State} (halted : Halted s) : reactStops s = s := by
  rw [reactStops_of_stopped halted.drive, leaveStopped_of_stop (stopInForce_of_hard (hardInForce_of_hold halted.hold))]

variable {known : Bool}

theorem reactStops_lasting (s : State) : Lasting known s (reactStops s) := by
  have orders := reactStops_orders s
  have due : staleDue (reactStops s) = staleDue s := staleDue_congr (by simp) (by simp)
  exact ⟨fun _ => (congrArg Lnk.status (reactStops_besideFifo s) :), (congrArg Svo.encoder (reactStops_counts s) :),
    by simp, by rw [show (reactStops s).stc.hold = s.stc.hold from (congrArg Stc.hold orders :)]; exact id, reactStops_left,
    fun h => by rwa [reactStops_of_halted h], by rw [due]; exact id, fun route => route.of_dmr due (reactStops_dmr s)⟩

theorem holdFor_lasting (c : Cause) (s : State) : Lasting known s (holdFor c s) := by
  have due : staleDue (holdFor c s) = staleDue s := staleDue_congr (by simp) (by simp)
  exact ⟨fun _ => (congrArg Lnk.status (holdFor_besideSafety c s) :), by simp, by simp, holdFor_kept c, by simp,
    fun h => by obtain ⟨x, hold, kind⟩ := h.hold; rwa [holdFor_of_hard c hold kind], by rw [due]; exact id,
    fun route => route.of_dmr due (.inl (by simp))⟩

theorem causeArises_lasting (c : Cause) (s : State) : Lasting known s (causeArises c s) :=
  (holdFor_lasting c s).trans (reactStops_lasting _)

theorem raiseCause_lasting (c : Cause) {f : State → State} {s : State} (set : Lasting known s (f s)) :
    Lasting known s (raiseCause c f s) :=
  .ite (fun _ => set) fun _ => set.trans (causeArises_lasting c _)

/-- STC with latches or samples written, drive and hold as they were. -/
theorem stc_lasting {s : State} {x : Stc} (drive : x.drive = s.stc.drive) (hold : x.hold = s.stc.hold)
    (latched : s.stc.followLatch = true → x.followLatch = true) : Lasting known s { s with stc := x } :=
  ⟨fun _ => rfl, rfl, fun _ => id, by rw [hold]; exact id, by rw [drive]; exact id,
    fun h => ⟨latched h.latch, drive.trans h.drive, by rw [hold]; exact h.hold, h.move, h.output, h.follow⟩, id,
    fun route => route.of_dmr rfl (.inl rfl)⟩

theorem raiseOverrun_lasting (s : State) : Lasting known s (raiseOverrun s) := raiseCause_lasting _ (stc_lasting rfl rfl id)

theorem raiseHalt_lasting (s : State) : Lasting known s (raiseHalt s) :=
  .ite (fun _ => raiseCause_lasting _ (stc_lasting rfl rfl id)) fun _ => .rfl

/-- The latch of FOLLOW-ERROR is set and the counter is 0 (R24). -/
def followSet (s : State) : State :=
  { s with stc := { s.stc with followLatch := true }, svo := { s.svo with follow := 0 } }

theorem raiseFollow_eq (s : State) :
    raiseFollow s = if s.stc.followLatch = true then followSet s else causeArises .followError (followSet s) := rfl

theorem raiseFollow_lasting (s : State) : Lasting known s (raiseFollow s) :=
  raiseCause_lasting _ ⟨fun _ => rfl, rfl, fun _ => id, id, id,
    fun h => ⟨rfl, h.drive, h.hold, h.move, h.output, rfl⟩, id, fun route => route.of_dmr rfl (.inl rfl)⟩

theorem maskNames_withStation {m : StationMask} {st x : Station} (named : maskNames m x = true) :
    maskNames (withStation m st) x = true := by
  simp only [maskNames, withStation] at *
  simp [named]

theorem lost_fold (p : Station → Bool) (x : Station) : ∀ (l : List Station) (m : StationMask),
    maskNames m x = true → maskNames (l.foldl (fun m st => if p st then withStation m st else m) m) x = true
  | [], _, named => named
  | st :: l, m, named => by
    refine lost_fold p x l _ ?_
    dsimp only
    split
    · exact maskNames_withStation named
    · exact named

theorem lostUpdate_lasting (s : State) : Lasting known s (lostUpdate s) := by
  have due : staleDue (lostUpdate s) = staleDue s := staleDue_congr rfl rfl
  exact ⟨fun _ => rfl, rfl, fun st => lost_fold (lostNow s) st allStations _, id, id,
    fun h => ⟨h.latch, h.drive, h.hold, h.move, h.output, h.follow⟩, by rw [due]; exact id, fun route => route.of_dmr due (.inl rfl)⟩

theorem updateCauses_lasting (s : State) : Lasting known s (updateCauses s) :=
  (raiseHalt_lasting s).trans (.ite (fun _ => (lostUpdate_lasting _).trans (causeArises_lasting _ _)) fun _ => lostUpdate_lasting _)

theorem causesAt_lasting (here : Bool) (s : State) : Lasting known s (causesAt here s) :=
  .ite (fun _ => updateCauses_lasting s) fun _ => .rfl

theorem holdAgain_kept {s : State} (held : s.stc.hold.isSome = true) : (holdAgain s).stc.hold.isSome = true := by
  unfold holdAgain; split
  · simp
  · exact held

theorem holdAgain_lasting (s : State) : Lasting known s (holdAgain s) := by
  have due : staleDue (holdAgain s) = staleDue s := staleDue_congr (by simp) (by simp)
  refine ⟨fun _ => (congrArg Lnk.status (holdAgain_besideSafety s) :), by simp, by simp, holdAgain_kept, by simp, fun h => ?_,
    by rw [due]; exact id, fun route => route.of_dmr due (.inl (by simp))⟩
  obtain ⟨x, formed, kind⟩ := formHold_of_hard (c := .followError) (mem_localCauses.mpr h.latch) rfl
  have latch : (holdAgain s).stc.followLatch = s.stc.followLatch := (congrArg Stc.followLatch (holdAgain_unheld s) :)
  exact ⟨latch.trans h.latch, by simpa using h.drive, ⟨x, by simp [holdAgain_of_formed formed], kind⟩, by simpa using h.move,
    by simpa using h.output, by simpa using h.follow⟩

theorem settleHold_lasting (before s : State) : Lasting known s (settleHold before s) :=
  .ite (fun _ => (holdAgain_lasting s).trans (reactStops_lasting _)) fun _ => .rfl

theorem resultCauses_lasting (r : Result) (s : State) : Lasting known s (resultCauses r s) := by
  have raised : Lasting known s (if Config.followTrip ≤ s.svo.follow then raiseFollow s else s) :=
    .ite (fun _ => raiseFollow_lasting s) fun _ => .rfl
  exact raised.trans (.ite (fun _ => raiseOverrun_lasting _) fun _ => .rfl)

/-! ### Homing, rest and waking -/

theorem becomeHomed_lasting (s : State) : Lasting known s (becomeHomed s) := by
  rw [becomeHomed_eq]
  have clamped : Lasting known s (clampedHome s) :=
    ⟨fun _ => rfl, rfl, fun _ => id, id, id, fun h => ⟨h.latch, h.drive, h.hold, rfl, h.output, h.follow⟩, id,
      fun route => route.of_dmr rfl (.inl rfl)⟩
  exact .ite (fun _ => clamped.trans (raiseOverrun_lasting _)) fun _ => .of_frame (by simp)

theorem originChange_lasting (o : Count) (s : State) : Lasting known s (originChange o s) :=
  ⟨fun _ => rfl, rfl, fun _ => id, id, id, fun h => ⟨h.latch, h.drive, h.hold, h.move, h.output, h.follow⟩, id,
    fun route => route.of_dmr rfl (.inl rfl)⟩

theorem failHoming_lasting (r : HomeFail) (s : State) : Lasting known s (failHoming r s) := .of_frame (by simp)

theorem stalled_lasting (s : State) : Lasting known s (stalled s) :=
  (originChange_lasting (homeOrigin s) s).trans (.of_frame (by simp [stalled]))

theorem homingUpdate_lasting (r : Result) (s : State) : Lasting known s (homingUpdate r s) := by
  have travel (x : State) : Lasting known x (travelUpdate x) := .ite (fun _ => failHoming_lasting _ x) fun _ => .rfl
  have counted : Lasting known s { s with hom := { s.hom with stall := stallCount s } } := .of_frame (by simp)
  have requested : Lasting known s (requestMode .hold s) := .of_frame (by simp)
  refine .ite (fun _ => ?_) fun _ => .rfl
  split
  · exact .ite (fun _ => .ite (fun _ => stalled_lasting s) fun _ => counted.trans (travel _)) fun _ => travel s
  · exact .ite (fun _ => becomeHomed_lasting s) fun _ => .rfl
  · exact .ite (fun _ => requested.trans (becomeHomed_lasting _)) fun _ => .rfl
  · exact .rfl

theorem enterParked_lasting {s : State} (on : s.stc.drive ≠ .stopped) : Lasting known s (enterParked s) := by
  have due : staleDue (enterParked s) = staleDue s := staleDue_congr (by simp) (by simp)
  refine ⟨by simp, by simp [Svo.encoder], by simp, by simp, by simp, fun h => absurd h.drive on, by rw [due]; exact id,
    fun route => route.of_dmr due ?_⟩
  rw [enterParked_dmr]; split
  · exact .inr rfl
  · exact .inl rfl

theorem endStopping_lasting {s : State} (stopping : s.stc.drive = .stopping) : Lasting known s (endStopping s) := by
  rw [endStopping_eq stopping]
  exact ⟨fun _ => rfl, rfl, fun _ => id, id, fun _ => by dsimp only; split <;> simp, fun h => by simp [h.drive] at stopping, id,
    fun route => route.of_dmr rfl (.inl rfl)⟩

theorem restUpdate_lasting (r : Result) (s : State) : Lasting known s (restUpdate r s) := by
  refine .ite (fun _ => ?_) fun _ => .rfl
  split
  · exact endStopping_lasting ‹_›
  · exact .ite (fun _ => enterParked_lasting (by simp_all)) fun _ => .rfl
  all_goals exact .rfl

theorem wakingUpdate_lasting (s : State) : Lasting known s (wakingUpdate s) := by
  refine .ite (fun waking => ?_) fun _ => .rfl
  have halted {p : Prop} (h : Halted s) : p := by simp [h.drive] at waking
  have counted (n : Nat) : Lasting known s { s with stc := { s.stc with settle := n } } := stc_lasting rfl rfl id
  refine .ite (fun _ => ⟨fun _ => rfl, rfl, fun _ => id, id, fun off => absurd waking off.2, halted, id, fun route => ?_⟩)
    fun _ => counted _
  exact ⟨route.due, route.stale, rfl, route.pendingWheel, rfl⟩

theorem takesUpdate_lasting (r : Result) (s : State) : Lasting known s (takesUpdate r s) := .of_frame (by simp)

theorem takeResult_lasting (r : Result) (s : State) : Lasting known s (takeResult r s) :=
  (resultCauses_lasting r s).trans ((homingUpdate_lasting r _).trans ((restUpdate_lasting r _).trans
    ((wakingUpdate_lasting _).trans (takesUpdate_lasting r _))))

/-! ### Demand, reports and the profile -/

/-- A stale route is disarmed by the demand of the update (R31, R33). -/
theorem demandUpdate_stale {s : State} (due : staleDue s = true) : StaleRoute (demandUpdate s) := by
  have same : staleDue (demandUpdate s) = staleDue s := staleDue_congr (by simp) (by simp)
  cases params : s.cfg.params with
  | none => simp [staleDue, params] at due
  | some b =>
    obtain ⟨up, stale⟩ : axisUp s = true ∧ routeStale s b = true := by simpa [staleDue, params] using due
    refine ⟨same.trans due, ?_, ?_, ?_, ?_⟩ <;> simp [demandUpdate, params, up, stale]

theorem demandUpdate_lasting (s : State) : Lasting known s (demandUpdate s) := by
  have due : staleDue (demandUpdate s) = staleDue s := staleDue_congr (by simp) (by simp)
  exact ⟨by simp, by simp, by simp, by simp, by simp, fun h => ⟨by simp [h.latch], by simp [h.drive], by simpa using h.hold,
    by simp [h.move], by simp [h.output], by simp [h.follow]⟩, by rw [due]; exact id, fun route => demandUpdate_stale route.due⟩

theorem zoneUpdate_lasting (s : State) : Lasting known s (zoneUpdate s) := .of_frame (by simp)

theorem evaluated_lasting (zones demand : Bool) (s : State) : Lasting known s (evaluated zones demand s) := by
  have first : Lasting known s (if zones then zoneUpdate s else s) := .ite (fun _ => zoneUpdate_lasting s) fun _ => .rfl
  exact first.trans (.ite (fun _ => demandUpdate_lasting _) fun _ => .rfl)

theorem evaluated_stale {zones demand : Bool} {s : State} (due : staleDue s = true) (now : demand = true) :
    StaleRoute (evaluated zones demand s) := by
  subst now
  cases zones
  · exact demandUpdate_stale due
  · exact demandUpdate_stale ((staleDue_congr (by simp) (by simp)).trans due)

theorem statusAt_lasting (b : Bool) (s : State) : Lasting known s (statusAt (known && b) s) := by
  have due : staleDue (statusAt (known && b) s) = staleDue s := staleDue_congr (by simp) (by simp)
  exact ⟨fun unknown => by simp [statusAt, unknown], by simp, by simp, by simp, by simp,
    fun h => ⟨by simp [h.latch], by simp [h.drive], by simpa using h.hold, by simp [h.move], by simp [h.output], by simp [h.follow]⟩,
    by rw [due]; exact id, fun route => route.of_dmr due (.inl (by simp))⟩

theorem queueDemand_status (d : DemandItems) (s : State) : (queueDemand d s).lnk.status = s.lnk.status := by
  simp only [queueDemand, Lnk.markRefilled]
  split
  · split <;> rfl
  · rfl

theorem queueUpdateDemand_lasting (levers : Vector Int 4) (s : State) : Lasting known s (queueUpdateDemand levers s) := by
  have due : staleDue (queueUpdateDemand levers s) = staleDue s := staleDue_congr (by simp) (by simp)
  refine ⟨fun _ => ?_, by simp, by simp, by simp, by simp,
    fun h => ⟨by simp [h.latch], by simp [h.drive], by simpa using h.hold, by simp [h.move], by simp [h.output], by simp [h.follow]⟩,
    by rw [due]; exact id, fun route => route.of_dmr due (.inl (by simp))⟩
  unfold queueUpdateDemand; split
  · exact queueDemand_status _ _
  · rfl

theorem decided_lasting (inp : UpdateInputs) (s : State) : Lasting known s (decided inp known s) := by
  have clock : Lasting known s (clockDecide s) := .of_frame (by simp)
  exact clock.trans ((evaluated_lasting _ _ _).trans (statusAt_lasting _ _))

theorem ageEntries_staleDue {s : State} (due : staleDue s = true) : staleDue (ageEntries s) = true := by
  have up : axisUp (ageEntries s) = axisUp s := axisUp_congr (by simp)
  cases params : s.cfg.params with
  | none => simp [staleDue, params] at due
  | some b =>
    simp only [staleDue, params, up, ageEntries_frame, Bool.and_eq_true, routeStale, decide_eq_true_eq] at due ⊢
    refine ⟨due.1, ?_⟩
    have old := due.2
    simp only [ageEntries, Fin.getElem_fin, vmap_getElem, satInc_eq, Config.maxAge, Config.demandStaleAge] at old ⊢
    omega

theorem queued_lasting (inp : UpdateInputs) (s : State) : Lasting known s (queued inp known s) := by
  have factor (x : State) : Lasting known x (updateFactor x) :=
    ⟨by simp, by simp, by simp, by simp, by simp, fun h => ⟨h.latch, h.drive, h.hold, h.move, h.output, h.follow⟩, id,
      fun route => route.of_dmr rfl (.inl rfl)⟩
  have aged (x : State) : Lasting known x (ageEntries x) :=
    ⟨fun _ => rfl, rfl, fun _ => id, id, id, fun h => ⟨h.latch, h.drive, h.hold, h.move, h.output, h.follow⟩,
      ageEntries_staleDue, fun route => ⟨ageEntries_staleDue route.due, route.stale, route.armed, route.pendingWheel, route.handDemand⟩⟩
  exact (statusAt_lasting _ s).trans ((factor _).trans ((queueUpdateDemand_lasting _ _).trans ((statusAt_lasting _ _).trans (aged _))))

theorem operationUpdate_lasting (left : Option (List Byte)) (s : State) : Lasting known s (operationUpdate left s) := by
  obtain ⟨mpr, -⟩ := operationUpdate_kept left s
  have due : staleDue (operationUpdate left s) = staleDue s := staleDue_congr (by simp) (by simp)
  exact ⟨fun _ => (congrArg Lnk.status (operationUpdate_besideFifo left s) :), by simp, by simp, by simp, by simp,
    fun h => ⟨by simp [h.latch], by simp [h.drive], by simpa using h.hold, by rw [mpr]; exact h.move, by simp [h.output],
      by simp [h.follow]⟩, by rw [due]; exact id, fun route => route.of_dmr due (.inl (by simp))⟩

theorem motion_lasting (supplied : Option Int) (s : State) : Lasting known s (motion supplied s).1 := by
  have due : staleDue (motion supplied s).1 = staleDue s := staleDue_congr (by simp) (by simp)
  exact ⟨by simp, by simp, by simp, by simp, by simp,
    fun h => ⟨by simp [h.latch], by simp [h.drive], by simpa using h.hold, by simp [motion, h.drive], by simp [h.output],
      by simp [h.follow]⟩, by rw [due]; exact id, fun route => route.of_dmr due (.inl (by simp))⟩

theorem servo_lasting (s : State) : Lasting known s (servo s) := by
  have due : staleDue (servo s) = staleDue s := staleDue_congr (by simp) (by simp)
  exact ⟨by simp, by simp [Svo.encoder], by simp, by simp, by simp,
    fun h => by rw [servo_of_off (by simp [h.drive])]; exact ⟨h.latch, h.drive, h.hold, h.move, rfl, rfl⟩,
    by rw [due]; exact id, fun route => route.of_dmr due (.inl (by simp))⟩

/-! ### The whole update -/

theorem withMotion_lasting (s : State) : Lasting known s (withMotion s).1 :=
  (motion_lasting _ s).trans (servo_lasting _)

theorem afterMotion_lasting (inp : UpdateInputs) (s : State) : Lasting known s (afterMotion inp known s) := by
  rw [afterMotion_eq]
  exact (evaluated_lasting _ _ s).trans ((causesAt_lasting _ _).trans ((queued_lasting inp _).trans (operationUpdate_lasting _ _)))

theorem shown_lasting (s : State) : Lasting known s (startWork (showDemand s)) := by
  have shown : Lasting known s (showDemand s) :=
    ⟨fun _ => rfl, rfl, fun _ => id, id, id, fun h => ⟨h.latch, h.drive, h.hold, h.move, h.output, h.follow⟩, id,
      fun route => ⟨route.due, route.stale, route.armed, route.pendingWheel, route.handDemand⟩⟩
  exact shown.trans (.of_frame (by simp))

/-- An update from its profile on. -/
theorem afterMotion_update (inp : UpdateInputs) (s : State) :
    Lasting s.cfg.station.isSome (takeResult (toServo inp s).2 (toServo inp s).1) (update inp s) :=
  (afterMotion_lasting inp _).trans ((settleHold_lasting s _).trans (shown_lasting _))

theorem toServo_lasting (inp : UpdateInputs) (s : State) :
    Lasting s.cfg.station.isSome (sampled inp s) (toServo inp s).1 := by
  simp only [toServo, beforeMotion_eq]
  exact (causesAt_lasting _ _).trans ((decided_lasting inp _).trans (withMotion_lasting _))

/-- An update from its sampled lines on. -/
theorem update_lasting (inp : UpdateInputs) (s : State) : Lasting s.cfg.station.isSome (sampled inp s) (update inp s) :=
  (toServo_lasting inp s).trans ((takeResult_lasting _ _).trans (afterMotion_update inp s))

end Sys2Proof.Machine
end

