-- ==== Sys2Proof/Proofs/FollowAndPeers.lean ====
section
/-! SUPPORT. The update that finds a following error or a lost peer (R24, R60, R88, R92). -/

namespace Sys2Proof.Machine

open Sys2Proof.Safety

/-! ### The sampled lines and the part before the result -/

theorem cleanUpdate_stc (s : State) : (cleanUpdate s).stc = s.stc := by
  unfold cleanUpdate; split <;> [split; skip] <;> rfl

theorem startUpdate_stc (inp : UpdateInputs) (s : State) : (startUpdate inp s).stc = s.stc := by
  unfold startUpdate; split <;> simp

theorem sampled_latch (inp : UpdateInputs) (s : State) : (sampled inp s).stc.followLatch = s.stc.followLatch := by
  simp [sampled, readHalt, crewUpdate]

/-- On an axis the update samples the lines only: CFG stays, and no HALT input is read (R87). -/
theorem sampled_up (inp : UpdateInputs) {s : State} (up : axisUp s = true) :
    (sampled inp s).cfg = s.cfg ∧ (sampled inp s).stc = { s.stc with haltInput := false } := by
  have still : axisUp (stepAging (clockWrap (countUpdate s))) = true := (axisUp_congr (by simp)).trans up
  have axis : isControl s = false := by
    have role : s.cfg.role = some .axis := by simp [axisUp, isAxis] at up; exact up.1
    simp [isControl, role]
  have axis' : isControl (crewUpdate inp.crew (stepAging (clockWrap (countUpdate s)))) = isControl s := by
    simp [isControl]
  rw [sampled, startUpdate_up inp still, cleanUpdate_stc, readHalt, axis', axis]
  simp [crewUpdate]

theorem toServo_causes (inp : UpdateInputs) (s : State) :
    (toServo inp s).1.cfg = (causesAt inp.causesFirst (sampled inp s)).cfg ∧
    (toServo inp s).1.ptb = (causesAt inp.causesFirst (sampled inp s)).ptb ∧
    (toServo inp s).1.hom = (causesAt inp.causesFirst (sampled inp s)).hom ∧
    (toServo inp s).1.stc = (causesAt inp.causesFirst (sampled inp s)).stc ∧
    (toServo inp s).1.tks = (causesAt inp.causesFirst (sampled inp s)).tks ∧
    (toServo inp s).1.tsc = (causesAt inp.causesFirst (sampled inp s)).tsc := by
  simp [toServo, withMotion, beforeMotion_eq]

/-! ### FOLLOW-ERROR (R24) -/

theorem causeArises_followLatch (c : Cause) (s : State) : (causeArises c s).stc.followLatch = s.stc.followLatch :=
  (congrArg Stc.followLatch (reactStops_orders (holdFor c s)) :).trans (congrArg Stc.followLatch (holdFor_unheld c s) :)

theorem updateCauses_followLatch (s : State) : (updateCauses s).stc.followLatch = s.stc.followLatch := by
  have halt : (raiseHalt s).stc.followLatch = s.stc.followLatch := by
    unfold raiseHalt raiseCause
    repeat' split
    · rfl
    · exact causeArises_followLatch _ _
    · rfl
  unfold updateCauses raisePeerLost
  dsimp only
  split
  · rw [causeArises_followLatch]; simpa using halt
  · simpa using halt

theorem toServo_followLatch (inp : UpdateInputs) (s : State) : (toServo inp s).1.stc.followLatch = s.stc.followLatch := by
  obtain ⟨-, -, -, stc, -⟩ := toServo_causes inp s
  rw [stc, ← sampled_latch inp s, causesAt]
  split
  · exact updateCauses_followLatch _
  · rfl

/-- Only a drive that is on counts following errors (R24). -/
theorem toServo_on_of_follow {inp : UpdateInputs} {s : State} (errs : 3 ≤ (toServo inp s).1.svo.follow) :
    (toServo inp s).1.stc.drive = .enabled ∨ (toServo inp s).1.stc.drive = .stopping := by
  by_contra off
  rw [not_or] at off
  have none : (toServo inp s).1.svo.follow = 0 := by
    have same : (toServo inp s).1 = servo (motion (suppliedMove (beforeMotion inp s.cfg.station.isSome s))
      (beforeMotion inp s.cfg.station.isSome s)).1 := rfl
    rw [same] at off ⊢
    rw [servo_of_off (by simpa using off)]
  omega

/-- A FOLLOW-ERROR that arises stops the axis at once (R24, R88, R92). -/
theorem raiseFollow_halts {s : State} (clear : s.stc.followLatch = false)
    (on : s.stc.drive = .enabled ∨ s.stc.drive = .stopping) : Halted (raiseFollow s) := by
  have held := holdFor_hard (c := .followError) (s := followSet s) rfl rfl
  have latch := causeArises_followLatch .followError (followSet s)
  have active : driveActive (holdFor .followError (followSet s)).stc.drive = true := by
    rw [holdFor_drive]; rcases on with d | d <;> simp [followSet, d, driveActive]
  have hold := causeArises_hold .followError (followSet s)
  rw [raiseFollow_eq, if_neg (by simp [clear])]
  refine ⟨latch, ?_, by rwa [hold], ?_, ?_, ?_⟩ <;>
    rw [causeArises, reactStops_of_hard (hardInForce_of_hold held) active] <;> simp

theorem resultCauses_eq (r : Result) (s : State) :
    resultCauses r s =
      if r.overrun = true then raiseOverrun (if 3 ≤ s.svo.follow then raiseFollow s else s)
      else if 3 ≤ s.svo.follow then raiseFollow s else s := rfl

theorem resultCauses_calm {r : Result} {s : State} (follows : s.svo.follow < 3) (inside : r.overrun = false) :
    resultCauses r s = s := by
  rw [resultCauses_eq, inside, if_neg (by simp), if_neg (by omega)]

theorem takeResult_halts {r : Result} {s : State} (errs : 3 ≤ s.svo.follow) (clear : s.stc.followLatch = false)
    (on : s.stc.drive = .enabled ∨ s.stc.drive = .stopping) : Halted (takeResult r s) := by
  have halted := raiseFollow_halts clear on
  have both : Halted (resultCauses r s) := by
    rw [resultCauses_eq, if_pos errs]; split
    · exact (raiseOverrun_lasting (known := true) _).halted halted
    · exact halted
  exact ((homingUpdate_lasting (known := true) r _).trans ((restUpdate_lasting r _).trans
    ((wakingUpdate_lasting _).trans (takesUpdate_lasting r _)))).halted both

/-! ### PEER-LOST (R60) -/

theorem maskNames_withStation_self (m : StationMask) (st : Station) : maskNames (withStation m st) st = true := by
  simp only [maskNames, withStation, BitVec.getLsbD_or, Bool.or_eq_true]
  refine .inr ?_
  fin_cases st <;> decide

theorem lost_fold_of_mem {p : Station → Bool} {x : Station} (found : p x = true) : ∀ (l : List Station) (m : StationMask),
    x ∈ l → maskNames (l.foldl (fun m st => if p st then withStation m st else m) m) x = true
  | y :: l, m, listed => by
    rw [List.foldl_cons]
    rcases List.mem_cons.mp listed with rfl | later
    · exact lost_fold p x l _ (by simp only [found, if_true]; exact maskNames_withStation_self m x)
    · exact lost_fold_of_mem found l _ later

theorem mem_allStations {st : Station} (known : st ≠ 0) : st ∈ allStations := by
  fin_cases st <;> simp_all [allStations]

/-- An expected peer that is too old, on an active axis. -/
structure PeerGone (s : State) (st : Station) : Prop where
  axis : s.cfg.role = some .axis
  active : driveActive s.stc.drive = true
  expected : expected s st = true
  known : st ≠ 0
  other : isOwn st s = false
  old : 24 < s.ptb.peers[st].age

theorem PeerGone.of_frame {s t : State} {st : Station} (gone : PeerGone s st) (cfg : t.cfg = s.cfg)
    (peers : t.ptb.peers = s.ptb.peers) (drive : t.stc.drive = s.stc.drive) : PeerGone t st :=
  ⟨by rw [cfg, gone.axis], by rw [drive, gone.active], by simpa only [Machine.expected, cfg] using gone.expected, gone.known,
    by simpa only [isOwn, cfg] using gone.other, by rw [peers]; exact gone.old⟩

theorem lostUpdate_names {s : State} {st : Station} (gone : PeerGone s st) : maskNames (lostUpdate s).ptb.lost st = true := by
  refine lost_fold_of_mem ?_ _ _ (mem_allStations gone.known)
  simpa [lostNow, nodeActive, gone.axis, gone.active, gone.expected, peerEntry, gone.other, Config.lostAge] using gone.old

/-- The update's causes name the lost peer, and a node that did not hold then holds (R60, R88). -/
theorem updateCauses_names {s : State} {st : Station} (gone : PeerGone s st) (input : s.stc.haltInput = false)
    (companion : s.stc.companionHalt = false) (none : s.ptb.lost = 0) :
    maskNames (updateCauses s).ptb.lost st = true ∧ (updateCauses s).stc.hold.isSome = true ∧
      (updateCauses s).stc.drive ≠ .enabled ∧ (updateCauses s).stc.drive ≠ .waking := by
  have named := lostUpdate_names gone
  have halt : raiseHalt s = s := by simp [raiseHalt, causeCondition, input, companion]
  have before : causePresent s .peerLost = false := by simp [causePresent, causeCondition, none]
  have now : causePresent (lostUpdate s) .peerLost = true := by
    simp only [causePresent, causeCondition, bne_iff_ne, ne_eq]
    intro empty
    simp [empty, maskNames] at named
  have arises : updateCauses s = causeArises .peerLost (lostUpdate s) := by
    simp [updateCauses, halt, raisePeerLost, before, now]
  rw [arises]
  exact ⟨(causeArises_lasting (known := true) _ _).lost st named, by rw [causeArises_hold]; exact holdFor_some _ now,
    causeArises_leaves _ now⟩

/-- A calm result on an ENABLED axis that neither homes nor parks is the takes' alone (R16). -/
theorem takeResult_of_enabled {r : Result} {s : State} (on : s.stc.drive = .enabled) (stays : s.stc.parkPending = false)
    (none : s.hom.state ≠ .homing) (follows : s.svo.follow < 3) (inside : r.overrun = false) :
    takeResult r s = takesUpdate r s := by
  have rest : restUpdate r s = s := by simp [restUpdate, on, stays]
  have waking : wakingUpdate s = s := by simp [wakingUpdate, on]
  rw [takeResult, resultCauses_calm follows inside, homingUpdate, if_neg none, rest, waking]

/-- An update from its last cause on. -/
theorem afterCauses_lasting {known : Bool} (inp : UpdateInputs) (before s : State) :
    Lasting known s (startWork (showDemand (settleHold before (operationUpdate inp.left (queued inp known s))))) :=
  (queued_lasting inp s).trans ((operationUpdate_lasting _ _).trans ((settleHold_lasting _ _).trans (shown_lasting _)))

theorem update_names {inp : UpdateInputs} {s : State} {st : Station} (up : axisUp s = true) (gone : PeerGone s st)
    (order : inp.causesFirst = true ∨ s.stc.drive = .enabled ∧ s.stc.parkPending = false ∧ s.hom.state ≠ .homing ∧
      (toServo inp s).1.svo.follow < 3 ∧ (toServo inp s).2.overrun = false)
    (companion : s.stc.companionHalt = false) (none : s.ptb.lost = 0) :
    maskNames (update inp s).ptb.lost st = true ∧ (update inp s).stc.hold.isSome = true ∧
      (update inp s).stc.drive ≠ .enabled ∧ (update inp s).stc.drive ≠ .waking := by
  obtain ⟨cfg, stc⟩ := sampled_up inp up
  have stays : PeerGone (sampled inp s) st := gone.of_frame cfg (by simp) (by simp [stc])
  cases first : inp.causesFirst
  · obtain ⟨on, free, still, follows, inside⟩ := order.resolve_left (by simp [first])
    obtain ⟨cfg', ptb', hom', stc', -⟩ := toServo_causes inp s
    simp only [first, causesAt, Bool.false_eq_true, if_false] at cfg' ptb' hom' stc'
    have taken := takeResult_of_enabled (r := (toServo inp s).2) (s := (toServo inp s).1) (by rw [stc', stc]; exact on)
      (by rw [stc', stc]; exact free) (by rw [hom']; simpa using still) follows inside
    have lasting := afterCauses_lasting (known := s.cfg.station.isSome) inp s
      (updateCauses (evaluated (!inp.zonesFirst) (!inp.demandFirst) (takesUpdate (toServo inp s).2 (toServo inp s).1)))
    have named := updateCauses_names
      (s := evaluated (!inp.zonesFirst) (!inp.demandFirst) (takesUpdate (toServo inp s).2 (toServo inp s).1))
      (stays.of_frame (by simp [cfg']) (by simp [ptb']) (by simp [stc'])) (by simp [stc', stc])
      (by simpa [stc', stc] using companion) (by simpa [ptb'] using none)
    have whole : update inp s = startWork (showDemand (settleHold s (operationUpdate inp.left (queued inp s.cfg.station.isSome
        (updateCauses (evaluated (!inp.zonesFirst) (!inp.demandFirst) (takesUpdate (toServo inp s).2 (toServo inp s).1))))))) := by
      rw [update, afterMotion_eq, taken, causesAt, first]; rfl
    obtain ⟨lost, hold, left⟩ := named
    rw [whole]
    exact ⟨lasting.lost st lost, lasting.hold hold, lasting.left left⟩
  · have named := updateCauses_names stays (by simp [stc]) (by simpa [stc] using companion) (by simpa using none)
    have lasting : Lasting s.cfg.station.isSome (updateCauses (sampled inp s)) (update inp s) := by
      have toServo : Lasting s.cfg.station.isSome (updateCauses (sampled inp s)) (toServo inp s).1 := by
        simp only [Machine.toServo, beforeMotion_eq, causesAt, first, if_true]
        exact (decided_lasting inp _).trans (withMotion_lasting _)
      exact toServo.trans ((takeResult_lasting _ _).trans (afterMotion_update inp s))
    obtain ⟨lost, hold, left⟩ := named
    exact ⟨lasting.lost st lost, lasting.hold hold, lasting.left left⟩

/-- Settles O29: the stop that the following error makes, and the hold that the lost peer makes, outlast the update. -/
theorem followErrorAndPeerLostStopTheAxis : Obligations.FollowErrorAndPeerLostStopTheAxis := by
  unfold Obligations.FollowErrorAndPeerLostStopTheAxis
  refine ⟨fun inp s errs clear on => ?_, fun inp s st up active order companion none known other named old => ?_⟩
  · have halted := (afterMotion_update inp s).halted
      (takeResult_halts errs ((toServo_followLatch inp s).trans clear) (toServo_on_of_follow errs))
    refine ⟨_, (updateWhen_row inp s (followDue_iff inp s)).1 errs, ?_⟩
    obtain ⟨latch, drive, hold, move, output, follow⟩ := halted
    exact ⟨latch, by simp [drive], by simp [drive], brakeEngaged_of_off drive (by simp), move, output, follow, hold⟩
  · have gone : PeerGone s st := ⟨by simp [axisUp, isAxis] at up; exact up.1, by
      rcases active with d | d | d <;> simp [d, driveActive], named, known, other, old⟩
    have found := update_names up gone order companion none
    have changed : (update inp s).ptb.lost ≠ s.ptb.lost := fun same => by
      have := found.1
      simp [same, none, maskNames] at this
    exact ⟨_, (updateWhen_row inp s (peerLostDue_iff inp s)).1 ⟨_, rfl, changed⟩, found⟩

end Sys2Proof.Machine
end

