-- ==== Sys2Proof/Proofs/NamedOutcomes.lean ====
section
/-! SUPPORT. The outcomes of an update that come of its clock, start sequence, samples and demand (R19, R31, R66, R71, R74, R169, R170). -/

namespace Sys2Proof.Machine

open Sys2Proof.Safety

/-! ### The clock (R66, R71) -/

/-- CCK without what its decision writes (R68). -/
def Cck.time (c : Cck) : Cck := { c with pending := none, syncLost := false }

theorem clockDecide_time (s : State) : (clockDecide s).cck.time = s.cck.time := by
  unfold clockDecide; dsimp only; repeat' split
  all_goals rfl

theorem update_time (inp : UpdateInputs) (s : State) :
    (update inp s).cck.time = (stepAging (clockWrap (countUpdate s))).cck.time := by
  obtain ⟨x, before, after⟩ := update_cck inp s
  rw [after, clockDecide_time, before]

theorem stepAging_index (s : State) : (stepAging s).cck.ms = s.cck.ms ∧ (stepAging s).cck.phase = s.cck.phase ∧
    (stepAging s).cck.timeState = s.cck.timeState := by
  unfold stepAging; dsimp only; repeat' split
  all_goals exact ⟨rfl, rfl, rfl⟩

theorem update_own (inp : UpdateInputs) {s : State} (unset : s.cck.timeState = .unset) (none : s.cck.pending = none)
    (last : s.cck.ms = 199) :
    (update inp s).cck.ms = 0 ∧ (update inp s).cck.phase = 0 ∧ (update inp s).cck.timeState = .own := by
  have wrapped : (clockWrap (countUpdate s)).cck = { s.cck with ms := 0, phase := 0, timeState := .own } := by
    simp [clockWrap, unset, none, last, Config.ownIndex]
  obtain ⟨ms, phase, timeState⟩ := stepAging_index (clockWrap (countUpdate s))
  rw [wrapped] at ms phase timeState
  have time := update_time inp s
  exact ⟨(congrArg Cck.ms time :).trans ms, (congrArg Cck.phase time :).trans phase,
    (congrArg Cck.timeState time :).trans timeState⟩

theorem clockWrap_steps (s : State) : (clockWrap (countUpdate s)).cck.timeStepped = s.cck.timeStepped ∧
    (clockWrap (countUpdate s)).cck.stepAge = s.cck.stepAge ∧ (clockWrap (countUpdate s)).cck.stepCount = s.cck.stepCount := by
  unfold clockWrap; split <;> simp

theorem update_stepClear (inp : UpdateInputs) {s : State} (stepped : s.cck.timeStepped = true) (last : s.cck.stepAge = 999) :
    (update inp s).cck.timeStepped = false ∧ (update inp s).cck.stepAge = 1000 ∧
      (update inp s).cck.stepCount = s.cck.stepCount := by
  obtain ⟨steps, age, count⟩ := clockWrap_steps s
  have aged : (stepAging (clockWrap (countUpdate s))).cck =
      { (clockWrap (countUpdate s)).cck with stepAge := 1000, timeStepped := false } := by
    simp [stepAging, steps, age, stepped, last, Config.stepAgeEnd]
  have time := update_time inp s
  rw [aged] at time
  exact ⟨(congrArg Cck.timeStepped time :), (congrArg Cck.stepAge time :), (congrArg Cck.stepCount time :).trans count⟩

/-! ### The start sequence (R169, R170) -/

theorem update_pending (inp : UpdateInputs) (s : State) : (update inp s).pending = s.pending := by
  simp [update, toServo, withMotion, beforeMotion_eq, afterMotion_eq]

theorem update_startUpdate (inp : UpdateInputs) (s : State) :
    (update inp s).cfg = (startUpdate inp (stepAging (clockWrap (countUpdate s)))).cfg := by
  rw [update_cfg]; simp [sampled, crewUpdate, readHalt]

theorem update_straps (inp : UpdateInputs) {s : State} (straps : s.cfg.startState = .straps) :
    (update inp s).cfg = { s.cfg with
      station := some inp.straps, role := some (if inp.roleHigh then .control else .axis)
      startState := if inp.straps = 0 then .configFault else .storeId
      faultReason := if inp.straps = 0 then some .station else s.cfg.faultReason
      failingItem := if inp.straps = 0 then none else s.cfg.failingItem
      resumeIssued := if inp.straps = 0 then s.cfg.resumeIssued else true } := by
  rw [update_startUpdate, startUpdate, if_pos (by simpa using straps), readStraps]
  split <;> simp [configFault, *]

theorem update_storeIdTimeout {inp : UpdateInputs} {s : State} (state : s.cfg.startState = .storeId)
    (unanswered : s.cfg.identIssued = false) (settled : s.tsc.draining = false) (last : s.cfg.storeIdPolls = 999)
    (busy : inp.storeBusy = true) :
    (update inp s).cfg = { s.cfg with
      startState := .configFault, faultReason := some .absent, failingItem := none, storeIdPolls := 1000
      resumeIssued := true } := by
  have drained : (ageOperation s.tsc).draining = false := by
    unfold ageOperation; repeat' split
    all_goals exact settled
  rw [update_startUpdate, startUpdate, if_neg (by simp [state]), pollStore]
  simp [storeIdPolls, state, unanswered, drained, busy, last, Config.storeIdPolls, configFault]

/-! ### The samples (R19, R74) -/

theorem update_crewAbsent {inp : UpdateInputs} {s : State} (i : Fin 4)
    (last : s.zmn.filters[i].clear = 39) (clear : inp.crew.getLsbD i.val = false) :
    (update inp s).zmn.filters[i] = { raw := false, present := false, clear := 40 } := by
  have filter : (update inp s).zmn.filters[i] = filterStep (inp.crew.getLsbD i.val) s.zmn.filters[i] := by
    simp [update_filters, crewUpdate]
  rw [filter, filterStep, clear, last]
  simp [satInc_eq, Config.crewClear]

theorem sampled_svo (inp : UpdateInputs) (s : State) :
    ∃ x : State, x.svo = s.svo ∧ (sampled inp s).svo = (cleanUpdate x).svo ∧ (sampled inp s).stc.hold = x.stc.hold ∧
      x.stc.hold = s.stc.hold :=
  ⟨readHalt inp (crewUpdate inp.crew (startUpdate inp (stepAging (clockWrap (countUpdate s))))), by simp, rfl, by simp [sampled],
    by simp [readHalt]⟩

theorem update_faultEnd {inp : UpdateInputs} {s : State} (fault : s.svo.encFault = true) (last : s.svo.clean = 999) :
    (update inp s).svo.encFault = false ∧ (update inp s).svo.clean = 1000 ∧ (update inp s).svo.raw = s.svo.raw ∧
      (s.stc.hold.isSome = true → (update inp s).stc.hold.isSome = true) := by
  obtain ⟨x, svo, cleaned, hold, same⟩ := sampled_svo inp s
  have lasting := update_lasting inp s
  have ended : (cleanUpdate x).svo = { s.svo with encFault := false, clean := 1000 } := by
    simp [cleanUpdate, svo, fault, last, Config.cleanUpdates]
  have encoder := lasting.encoder
  rw [cleaned, ended] at encoder
  refine ⟨(congrArg (·.2.1) encoder :), (congrArg (·.2.2) encoder :), (congrArg (·.1) encoder :), fun held => lasting.hold ?_⟩
  rw [hold, same]; exact held

/-! ### The demand (R31) -/

/-- A route that is stale when the update begins is stale and disarmed at its end. -/
theorem update_stale (inp : UpdateInputs) {s : State} (up : axisUp s = true) (due : staleDue s = true) :
    StaleRoute (update inp s) := by
  have sampledDue : staleDue (sampled inp s) = true := by
    rw [staleDue_congr (sampled_up inp up).1 (by simp)]; exact due
  have causes := (causesAt_lasting (known := s.cfg.station.isSome) inp.causesFirst (sampled inp s)).due sampledDue
  cases first : inp.demandFirst
  · have clocked : Lasting s.cfg.station.isSome (sampled inp s) (takeResult (toServo inp s).2 (toServo inp s).1) :=
      (toServo_lasting inp s).trans (takeResult_lasting _ _)
    have formed := evaluated_stale (zones := !inp.zonesFirst) (demand := !inp.demandFirst) (clocked.due sampledDue) (by rw [first]; rfl)
    have rest := (causesAt_lasting (known := s.cfg.station.isSome) (!inp.causesFirst)
      (evaluated (!inp.zonesFirst) (!inp.demandFirst) (takeResult (toServo inp s).2 (toServo inp s).1))).trans
      (afterCauses_lasting inp s _)
    rw [update, afterMotion_eq]
    exact rest.stale formed
  · have clocked : staleDue (clockDecide (causesAt inp.causesFirst (sampled inp s))) = true :=
      (staleDue_congr (s := causesAt inp.causesFirst (sampled inp s)) (by simp) (by simp)).trans causes
    have formed := evaluated_stale (zones := inp.zonesFirst) clocked first
    have moved : StaleRoute (toServo inp s).1 := by
      rw [toServo, beforeMotion_eq]
      exact ((statusAt_lasting _ _).trans (withMotion_lasting _)).stale formed
    exact ((takeResult_lasting _ _).trans (afterMotion_update inp s)).stale moved

end Sys2Proof.Machine
end

