-- ==== Sys2Proof/Proofs/CalmUpdate.lean ====
section
/-! SUPPORT. An update of an axis at which no cause arises but by its profile: the order of its parts, without the causes (R60, R87). -/

namespace Sys2Proof.Machine

open Sys2Proof.Safety

/-! ### What no result changes of the stop inputs (R87) -/

/-- The HALT inputs of STC (R87). -/
def Stc.inputs (t : Stc) : Bool × Bool := (t.haltInput, t.companionHalt)

theorem reactStops_inputs (s : State) : (reactStops s).stc.inputs = s.stc.inputs := (congrArg Stc.inputs (reactStops_orders s) :)

theorem causeArises_inputs (c : Cause) (s : State) : (causeArises c s).stc.inputs = s.stc.inputs :=
  (reactStops_inputs _).trans (congrArg Stc.inputs (holdFor_unheld c s) :)

theorem raiseOverrun_inputs (s : State) : (raiseOverrun s).stc.inputs = s.stc.inputs := by
  rw [raiseOverrun_eq]; split
  · rfl
  · exact causeArises_inputs _ _

theorem raiseFollow_inputs (s : State) : (raiseFollow s).stc.inputs = s.stc.inputs := by
  rw [raiseFollow_eq]; split
  · rfl
  · exact causeArises_inputs _ _

theorem resultCauses_inputs (r : Result) (s : State) : (resultCauses r s).stc.inputs = s.stc.inputs := by
  rw [resultCauses_eq]; repeat' split
  · rw [raiseOverrun_inputs, raiseFollow_inputs]
  · exact raiseOverrun_inputs s
  · exact raiseFollow_inputs s
  · rfl

theorem becomeHomed_inputs (s : State) : (becomeHomed s).stc.inputs = s.stc.inputs := by
  rw [becomeHomed_eq]; split
  · exact raiseOverrun_inputs _
  · rfl

theorem homingUpdate_inputs (r : Result) (s : State) : (homingUpdate r s).stc.inputs = s.stc.inputs := by
  unfold homingUpdate; dsimp only; repeat' split
  all_goals simp [becomeHomed_inputs, stalled, travelUpdate, apply_ite, originChange]

theorem restUpdate_inputs (r : Result) (s : State) : (restUpdate r s).stc.inputs = s.stc.inputs := by
  unfold restUpdate; repeat' split
  · rw [endStopping_eq ‹_›]; rfl
  · simp [enterParked_stc, Stc.inputs]
  all_goals rfl

theorem wakingUpdate_inputs (s : State) : (wakingUpdate s).stc.inputs = s.stc.inputs := by
  unfold wakingUpdate; dsimp only; repeat' split
  all_goals rfl

theorem takeResult_inputs (r : Result) (s : State) : (takeResult r s).stc.inputs = s.stc.inputs := by
  simp only [takeResult, takesUpdate_frame, wakingUpdate_inputs, restUpdate_inputs, homingUpdate_inputs, resultCauses_inputs]

@[simp] theorem takeResult_peers (r : Result) (s : State) : (takeResult r s).cfg = s.cfg ∧ (takeResult r s).ptb = s.ptb := by
  simp [takeResult]

/-! ### The parts without the causes -/

theorem causesAt_calm (here : Bool) {s : State} (young : peersYoung s) (input : s.stc.haltInput = false)
    (companion : s.stc.companionHalt = false) : causesAt here s = s := by
  unfold causesAt; split
  · exact updateCauses_calm young input companion
  · rfl

theorem sampled_young (inp : UpdateInputs) {s : State} (calm : causeFree s) : peersYoung (sampled inp s) :=
  peersYoung_of (sampled_up inp calm.1).1 (by simp) calm.2.2

theorem toServo_of_calm (inp : UpdateInputs) {s : State} (calm : causeFree s) :
    toServo inp s = withMotion (decided inp s.cfg.station.isSome (sampled inp s)) := by
  have stc := (sampled_up inp calm.1).2
  rw [toServo, beforeMotion_eq, causesAt_calm _ (sampled_young inp calm) (by simp [stc]) (by simpa [stc] using calm.2.1)]

/-- What the update's result leaves, before its zones, demand and reports. -/
def resulted (inp : UpdateInputs) (s : State) : State := takeResult (toServo inp s).2 (toServo inp s).1

/-- The rest of an update at which no cause arises. -/
def finished (inp : UpdateInputs) (known : Bool) (s : State) : State :=
  operationUpdate inp.left (queued inp known (evaluated (!inp.zonesFirst) (!inp.demandFirst) s))

theorem resulted_inputs (inp : UpdateInputs) {s : State} (calm : causeFree s) :
    peersYoung (resulted inp s) ∧ (resulted inp s).stc.haltInput = false ∧ (resulted inp s).stc.companionHalt = false := by
  obtain ⟨-, -, cfg, stc, -, -, peers, -⟩ := toServo_calm inp calm
  have inputs := takeResult_inputs (toServo inp s).2 (toServo inp s).1
  refine ⟨peersYoung_of (s := s) (by simp [resulted, cfg]) (by simp [resulted, peers]) calm.2.2, ?_, ?_⟩
  · exact (congrArg Prod.fst inputs :).trans (by simp [stc, Stc.inputs])
  · exact (congrArg Prod.snd inputs :).trans (by simpa [stc, Stc.inputs] using calm.2.1)

theorem afterMotion_of_calm (inp : UpdateInputs) {s : State} (calm : causeFree s) (known : Bool) :
    afterMotion inp known (resulted inp s) = finished inp known (resulted inp s) := by
  obtain ⟨young, input, companion⟩ := resulted_inputs inp calm
  rw [afterMotion_eq, causesAt_calm _ (peersYoung_of (s := resulted inp s) (by simp) (by simp) young) (by simpa using input)
    (by simpa using companion), finished]

/-- An update at which no cause arises but by its result: its parts, and the hold of the result (log 6). -/
theorem update_of_calm (inp : UpdateInputs) {s : State} (calm : causeFree s) :
    update inp s = startWork (showDemand (settleHold s (finished inp s.cfg.station.isSome (resulted inp s)))) := by
  rw [← afterMotion_of_calm inp calm]; rfl

theorem finished_kept (inp : UpdateInputs) {s : State} (calm : causeFree s) (known : Bool) :
    KeptAfter (resulted inp s) (finished inp known (resulted inp s)) := by
  obtain ⟨young, input, companion⟩ := resulted_inputs inp calm
  rw [← afterMotion_of_calm inp calm]
  exact afterMotion_calm inp known young input companion

@[simp] theorem queueStatus_besideFifo_linkFault (i : StatusItems) (s : State) :
    (queueStatus i s).lnk.linkFault = s.lnk.linkFault := by
  simp only [queueStatus, Lnk.markRefilled]
  repeat' split
  all_goals rfl

theorem statusAt_linkFault (b : Bool) (s : State) : (statusAt b s).lnk.linkFault = s.lnk.linkFault := by
  unfold statusAt; split
  · simp
  · rfl

theorem queueUpdateDemand_linkFault (levers : Vector Int 4) (s : State) :
    (queueUpdateDemand levers s).lnk.linkFault = s.lnk.linkFault := by
  unfold queueUpdateDemand; split
  · simp only [queueDemand, Lnk.markRefilled]
    repeat' split
    all_goals rfl
  · rfl

theorem finished_linkFault (inp : UpdateInputs) (known : Bool) (s : State) :
    (finished inp known s).lnk.linkFault = s.lnk.linkFault := by
  have operation := operationUpdate_besideFifo inp.left (queued inp known (evaluated (!inp.zonesFirst) (!inp.demandFirst) s))
  have same : (finished inp known s).lnk.linkFault =
      (queued inp known (evaluated (!inp.zonesFirst) (!inp.demandFirst) s)).lnk.linkFault := (congrArg Lnk.linkFault operation :)
  rw [same]
  simp [queued, ageEntries, statusAt_linkFault, queueUpdateDemand_linkFault, updateFactor]

@[simp] theorem finished_lost (inp : UpdateInputs) (known : Bool) (s : State) :
    (finished inp known s).ptb.lost = s.ptb.lost ∧ (finished inp known s).cfg = s.cfg ∧
    (finished inp known s).stc = s.stc ∧ (finished inp known s).svo = s.svo ∧ (finished inp known s).hom = s.hom := by
  simp [finished, queued, ageEntries]

theorem finished_localCauses (inp : UpdateInputs) (known : Bool) (s : State) :
    localCauses (finished inp known s) = localCauses s :=
  localCauses_congr (by simp) (by simp) (by simp) (finished_linkFault inp known s)

/-- A hold that was there, or that names the causes present, is not formed again (R88). -/
theorem update_of_settled (inp : UpdateInputs) {s : State} (calm : causeFree s)
    (hold : (resulted inp s).stc.hold = s.stc.hold ∨ (resulted inp s).stc.hold = formHold (localCauses (resulted inp s))) :
    update inp s = startWork (showDemand (finished inp s.cfg.station.isSome (resulted inp s))) := by
  rw [update_of_calm inp calm, settleHold, if_neg]
  rw [finished_localCauses]
  simp only [finished_lost]
  rintro ⟨free, held, other⟩
  exact hold.elim (fun same => held (same.trans free)) other

theorem update_kept (inp : UpdateInputs) {s : State} (calm : causeFree s)
    (hold : (resulted inp s).stc.hold = s.stc.hold ∨ (resulted inp s).stc.hold = formHold (localCauses (resulted inp s))) :
    KeptAfter (resulted inp s) (update inp s) := by
  rw [update_of_settled inp calm hold]
  exact (finished_kept inp calm s.cfg.station.isSome).trans (by simp [KeptAfter, showDemand])

/-! ### The result of a calm update -/

theorem takesUpdate_of_idle (r : Result) {s : State} (idle : s.tks.job = .idle) : takesUpdate r s = s := by
  simp [takesUpdate, idle]

theorem restUpdate_of_enabled (r : Result) {s : State} (on : s.stc.drive = .enabled) (stays : s.stc.parkPending = false) :
    restUpdate r s = s := by
  simp [restUpdate, on, stays]

theorem wakingUpdate_of_other {s : State} (other : s.stc.drive ≠ .waking) : wakingUpdate s = s := by
  simp [wakingUpdate, other]

/-- The blocks after HOM have nothing to do on an ENABLED axis without a job or a park pending. -/
theorem resulted_of_homing {inp : UpdateInputs} {s h : State} (calm : resultCalm inp s)
    (homed : homingUpdate (toServo inp s).2 (toServo inp s).1 = h) (on : h.stc.drive = .enabled)
    (stays : h.stc.parkPending = false) (idle : h.tks.job = .idle) : resulted inp s = h := by
  rw [resulted, takeResult, resultCauses_calm calm.1 calm.2, homed, restUpdate_of_enabled _ on stays,
    wakingUpdate_of_other (by simp [on]), takesUpdate_of_idle _ idle]

theorem toServo_eq_servo (inp : UpdateInputs) (s : State) :
    ∃ b : State, b = beforeMotion inp s.cfg.station.isSome s ∧ (toServo inp s).1 = servo (motion (suppliedMove b) b).1 ∧
      (toServo inp s).2 = (motion (suppliedMove b) b).2 :=
  ⟨_, rfl, rfl, rfl⟩

theorem measured_toServo (inp : UpdateInputs) {s : State} (calm : causeFree s) : measured (toServo inp s).1 = measured s := by
  obtain ⟨-, -, cfg, -, raw, origin, -⟩ := toServo_calm inp calm
  have control : isControl (toServo inp s).1 = isControl s := by simp only [isControl, cfg]
  simp only [measured, control, raw, origin]

/-- The following error of a calm update (R22). -/
theorem toServo_err (inp : UpdateInputs) {s : State} (calm : causeFree s)
    (on : s.stc.drive = .enabled ∨ s.stc.drive = .stopping) :
    (toServo inp s).1.svo.err = (toServo inp s).1.mpr.p - measured s * 256 := by
  obtain ⟨b, -, servoed, -⟩ := toServo_eq_servo inp s
  have stc := (toServo_calm inp calm).2.2.2.1
  have drive : (motion (suppliedMove b) b).1.stc.drive = s.stc.drive := by
    have same : (toServo inp s).1.stc.drive = s.stc.drive := by rw [stc]
    simpa [servoed] using same
  rw [← measured_toServo inp calm, servoed, servo_of_on (by rwa [drive])]
  rfl

end Sys2Proof.Machine
end

