-- ==== Sys2Proof/Proofs/StallAndWaking.lean ====
section
/-! SUPPORT. The stall, the end of WAKING, and what a homing's update ends in (R14, R47 to R49, R97). -/

namespace Sys2Proof.Machine

open Sys2Proof.Safety

/-! ### The stall (R47) -/

theorem homeMode_hardStop_iff (s : State) : homeMode s = .hardStop ↔ param s (fun b => b.homeMode) = 1 := by
  unfold homeMode
  split
  · next zero => simp [zero]
  · next one => simp [one]
  · next other => simpa using other

/-- The stall counter of a calm update in SEEK (R47). -/
theorem stallCount_toServo (inp : UpdateInputs) {s : State} (calm : causeFree s) (on : s.stc.drive = .enabled) :
    stallCount (toServo inp s).1 =
      if param s (fun b => b.stallThreshold) * 256 < |(toServo inp s).1.mpr.p - measured s * 256| then s.hom.stall + 1 else 0 := by
  obtain ⟨hom, -, cfg, -⟩ := toServo_calm inp calm
  simp only [stallCount, toServo_err inp calm (.inl on), param_congr (s := s) (t := (toServo inp s).1) (by rw [cfg]), hom]

theorem stallDue_iff {inp : UpdateInputs} {s : State} (calm : causeFree s) (result : resultCalm inp s) :
    stallDue inp s = true ↔ s.hom.state = .homing ∧ s.hom.phase = some .seek ∧ param s (fun b => b.homeMode) = 1 ∧
      20 ≤ stallCount (toServo inp s).1 := by
  obtain ⟨hom, -, cfg, -⟩ := toServo_calm inp calm
  have mode : homeMode (toServo inp s).1 = .hardStop ↔ param s (fun b => b.homeMode) = 1 := by
    rw [homeMode_hardStop_iff, param_congr (s := s) (t := (toServo inp s).1) (by rw [cfg])]
  simp [stallDue, resultCauses_calm result.1 result.2, hom, mode, Config.stallTrip, and_assoc]

/-- The stall of a homing axis: the origin is set, the error carried over and the back-off requested (R21, R47). -/
theorem stalled_of_enabled {s : State} (on : s.stc.drive = .enabled) (seeks : s.hom.state = .homing) :
    stalled s = { s with
      svo := { s.svo with origin := homeOrigin s }
      mpr := { s.mpr with p := s.mpr.p + originShift (homeOrigin s) s * 256, mode := .goto_, g := some (backOffTarget s) }
      hom := { s.hom with stall := 0, phase := some .backOff, seekStart := none } } := by
  rw [stalled, requestGoto_of_enabled (by exact on)]
  simp [isHomed, originChange, seeks]

theorem backOffTarget_eq (s : State) :
    backOffTarget s = (param s (fun b => b.homeOffset) + (if param s (fun b => b.homeDirection) = 0 then -1 else 1) *
      param s (fun b => b.backOff)) * 256 := by
  unfold backOffTarget
  split <;> ring

/-! ### HOM's part of an update, by its phase (R46 to R49) -/

theorem homingUpdate_of_seek (r : Result) {s : State} (seeks : s.hom.state = .homing) (seek : s.hom.phase = some .seek) :
    homingUpdate r s =
      if homeMode s = .hardStop then
        if 20 ≤ stallCount s then stalled s else travelUpdate { s with hom := { s.hom with stall := stallCount s } }
      else travelUpdate s := by
  rw [homingUpdate, if_pos seeks, seek]; rfl

theorem homingUpdate_of_decel (r : Result) {s : State} (seeks : s.hom.state = .homing) (decel : s.hom.phase = some .decel) :
    homingUpdate r s = if r.rest then becomeHomed s else s := by
  rw [homingUpdate, if_pos seeks, decel]

theorem homingUpdate_of_backOff (r : Result) {s : State} (seeks : s.hom.state = .homing) (back : s.hom.phase = some .backOff) :
    homingUpdate r s = if r.arrival then becomeHomed (requestMode .hold s) else s := by
  rw [homingUpdate, if_pos seeks, back]

theorem homingUpdate_of_none (r : Result) {s : State} (none : s.hom.state ≠ .homing) : homingUpdate r s = s := if_neg none

/-! ### A quiet update of an ENABLED axis without a job -/

/-- An ENABLED axis without a job at whose update no cause arises. -/
structure Quiet (inp : UpdateInputs) (s : State) : Prop where
  on : s.stc.drive = .enabled
  idle : s.tks.job = .idle
  free : causeFree s
  result : resultCalm inp s
  stays : s.stc.parkPending = false

section
variable {inp : UpdateInputs} {s : State}

theorem Quiet.toServo (quiet : Quiet inp s) :
    (toServo inp s).1.stc.drive = .enabled ∧ (toServo inp s).1.stc.parkPending = false ∧
      (Machine.toServo inp s).1.tks.job = .idle := by
  obtain ⟨-, tks, -, stc, -⟩ := toServo_calm inp quiet.free
  simp [stc, tks, quiet.on, quiet.stays, quiet.idle]

/-- Where HOM raises no cause, the update leaves what HOM leaves. -/
theorem Quiet.kept (quiet : Quiet inp s) {h : State}
    (homed : homingUpdate (Machine.toServo inp s).2 (Machine.toServo inp s).1 = h)
    (stc : h.stc = (Machine.toServo inp s).1.stc) (tks : h.tks = (Machine.toServo inp s).1.tks) : KeptAfter h (update inp s) := by
  obtain ⟨on, stays, idle⟩ := quiet.toServo
  have result := resulted_of_homing quiet.result homed (by rw [stc, on]) (by rw [stc, stays]) (by rw [tks, idle])
  rw [← result]
  refine update_kept inp quiet.free (.inl ?_)
  rw [result, stc, (toServo_calm inp quiet.free).2.2.2.1]

theorem Quiet.stall (quiet : Quiet inp s) (due : stallDue inp s = true) : KeptAfter (stalled (Machine.toServo inp s).1) (update inp s) := by
  obtain ⟨seeks, seek, mode, past⟩ := (stallDue_iff quiet.free quiet.result).mp due
  obtain ⟨hom, -, cfg, -⟩ := toServo_calm inp quiet.free
  have hard : homeMode (Machine.toServo inp s).1 = .hardStop := by
    rw [homeMode_hardStop_iff, param_congr (s := s) (by rw [cfg]), mode]
  refine quiet.kept ?_ ?_ ?_
  · rw [homingUpdate_of_seek _ (by rw [hom, seeks]) (by rw [hom, seek]), if_pos hard, if_pos past]
  · rw [stalled_of_enabled quiet.toServo.1 (by rw [hom, seeks])]
  · rw [stalled_of_enabled quiet.toServo.1 (by rw [hom, seeks])]

/-- The update of the stall: the axis reads home_offset, the error is carried over, the back-off begins (R21, R47). -/
theorem Quiet.stall_update (quiet : Quiet inp s) (due : stallDue inp s = true) :
    let t := update inp s
    t.svo.origin = s.svo.raw - BitVec.ofInt 29 (param s (fun b => b.homeOffset)) ∧ t.svo.raw = s.svo.raw ∧
      t.hom.state = .homing ∧ t.hom.phase = some .backOff ∧ t.hom.stall = 0 ∧ t.hom.seekStart = none ∧
      t.mpr.mode = .goto_ ∧
      t.mpr.g = some ((param s (fun b => b.homeOffset) + (if param s (fun b => b.homeDirection) = 0 then -1 else 1) *
        param s (fun b => b.backOff)) * 256) ∧
      t.mpr.p = (Machine.toServo inp s).1.mpr.p +
        (countDiff s.svo.raw t.svo.origin - countDiff s.svo.raw s.svo.origin) * 256 ∧
      t.mpr.v = (Machine.toServo inp s).1.mpr.v ∧ t.stc.drive = .enabled := by
  obtain ⟨seeks, -⟩ := (stallDue_iff quiet.free quiet.result).mp due
  obtain ⟨hom, -, cfg, -, raw, origin, -⟩ := toServo_calm inp quiet.free
  obtain ⟨mpr, hom', -, stc, svo⟩ := quiet.stall due
  have item (f : Block → Int) : param (Machine.toServo inp s).1 f = param s f := param_congr (by rw [cfg]) f
  have seeks' : (Machine.toServo inp s).1.hom.state = .homing := by rw [hom, seeks]
  rw [stalled_of_enabled quiet.toServo.1 seeks'] at mpr hom' stc svo
  simp only [backOffTarget_eq, homeOrigin, originShift, item, raw, origin] at mpr svo
  dsimp only
  rw [svo, hom', stc, mpr]
  exact ⟨rfl, rfl, seeks', rfl, rfl, rfl, rfl, rfl, rfl, rfl, quiet.toServo.1⟩

end

/-! ### The end of WAKING (R97) -/

theorem withMotion_of_off {s : State} (off : s.stc.drive = .parked ∨ s.stc.drive = .waking ∨ s.stc.drive = .stopped) :
    withMotion s = ({ track s with svo := { s.svo with u := 0, follow := 0 } },
      { rest := true, arrival := false, overrun := false, made := 0, play := .notPlaying }) := by
  have still (supplied : Option Int) : motion supplied s =
      (track s, { rest := true, arrival := false, overrun := false, made := 0, play := .notPlaying }) := by
    rcases off with d | d | d <;> simp [motion, d]
  rw [withMotion, still]
  dsimp only
  rw [servo_of_off (by rcases off with d | d | d <;> simp [d])]
  simp

/-- The limits of a homed axis are in order where its position lies within them. -/
theorem tracked_eq {s : State} (inside : s.hom.state = .homed → travelLo s ≤ s.mpr.p ∧ s.mpr.p ≤ travelHi s) :
    tracked s = if isHomed s then max (travelLo s) (min (travelHi s) (measured s * 256)) else measured s * 256 := by
  unfold tracked
  split
  · next homed =>
    obtain ⟨low, high⟩ := inside (by simpa [isHomed] using homed)
    exact clampInt_eq (low.trans high) _
  · rfl

/-- The settle count at 120, before the end of WAKING acts. -/
def settled (s : State) : State := { s with stc := { s.stc with settle := 120 } }

section
variable {inp : UpdateInputs} {s : State}

theorem resulted_waking (waking : s.stc.drive = .waking) (last : s.stc.settle = 119) (idle : s.tks.job = .idle)
    (none : s.hom.state ≠ .homing) (calm : causeFree s) (result : resultCalm inp s) :
    resulted inp s = endWaking (settled (toServo inp s).1) := by
  obtain ⟨hom, tks, -, stc, -⟩ := toServo_calm inp calm
  have rest : restUpdate (toServo inp s).2 (toServo inp s).1 = (toServo inp s).1 := by
    simp [restUpdate, stc, waking]
  have wakes : wakingUpdate (toServo inp s).1 = endWaking (settled (toServo inp s).1) := by
    simp [wakingUpdate, stc, waking, last, Config.settleEnd, settled]
  rw [resulted, takeResult, resultCauses_calm result.1 result.2, homingUpdate_of_none _ (by rwa [hom]), rest, wakes,
    takesUpdate_of_idle _ (by simp [settled, tks, idle])]

theorem endWaking_eq (s : State) :
    endWaking s = { s with
      stc := { s.stc with drive := .enabled }
      svo := { s.svo with follow := 0 }
      dmr := { s.dmr with armed := false, handDemand := 0 }
      mpr := { (track s).mpr with mode := .hand } } := rfl

theorem update_waking (waking : s.stc.drive = .waking) (last : s.stc.settle = 119) (idle : s.tks.job = .idle)
    (none : s.hom.state ≠ .homing) (calm : causeFree s) (result : resultCalm inp s) :
    KeptAfter (endWaking (settled (toServo inp s).1)) (update inp s) ∧
      (update inp s).dmr = { (finished inp s.cfg.station.isSome (endWaking (settled (toServo inp s).1))).dmr with
        shown := (finished inp s.cfg.station.isSome (endWaking (settled (toServo inp s).1))).dmr.toDmrItems } := by
  have same := resulted_waking waking last idle none calm result
  have hold : (resulted inp s).stc.hold = s.stc.hold := by
    rw [same, endWaking_eq, settled, (toServo_calm inp calm).2.2.2.1]
  refine ⟨same ▸ update_kept inp calm (.inl hold), ?_⟩
  rw [update_of_settled inp calm (.inl hold), same]
  simp [showDemand]

/-- An unarmed route arms on a neutral demand only, and its hand demand stays 0 (R32, R38). -/
theorem demandUpdate_of_unarmed {s : State} (unarmed : s.dmr.armed = false) (zero : s.dmr.handDemand = 0) :
    (demandUpdate s).dmr.handDemand = 0 := by
  have neutral (b : Block) (calm : (routeDemand s b).2 = true) : (routeDemand s b).1 = 0 := by
    unfold routeDemand at *
    split at calm
    · simp at calm
    · simpa using calm
    · simp only [decide_eq_true_eq] at calm
      simp [deadbanded, calm]
  have scaled (b : Block) (calm : (routeDemand s b).2 = true) :
      scaleDemand (rawDemand (routeDemand s b).1 b.gain (b.invert == 1)) (routeFactor s b) = 0 := by
    rw [neutral b calm]
    cases b.invert == 1 <;> simp [rawDemand, satInt_eq, Config.maxDemand, scaleDemand]
  unfold demandUpdate
  split
  · exact zero
  · next b _ =>
    split
    · dsimp only
      split
      · next arms =>
        refine scaled b ?_
        simp only [unarmed, Bool.false_or, Bool.and_eq_true] at arms
        exact arms.2.2
      · rfl
    · exact zero

theorem demandUpdate_stays_unarmed {s : State} {b : Block} (params : s.cfg.params = some b) (unarmed : s.dmr.armed = false)
    (demand : s.dmr.lastKind = none ∨ s.dmr.lastKind = some .wheel ∧ s.dmr.pendingWheel ≠ 0 ∨
      s.dmr.lastKind = some .lever ∧ (b.deadband : Int) < |leverValue s b|) : (demandUpdate s).dmr.armed = false := by
  have never : (s.dmr.lastKind.isSome && (routeDemand s b).2) = false := by
    rcases demand with kind | ⟨kind, sum⟩ | ⟨kind, lever⟩
    · simp [kind]
    · simp [routeDemand, kind, sum]
    · simp [routeDemand, kind, not_le.mpr lever]
  unfold demandUpdate
  rw [params]
  dsimp only
  split
  · simp [unarmed, Bool.and_assoc, never]
  · exact unarmed

theorem toServo_ptb (inp : UpdateInputs) (calm : causeFree s) : (toServo inp s).1.ptb = s.ptb := by
  rw [toServo_of_calm inp calm]; simp [withMotion]

theorem toServo_dmr (calm : causeFree s) (later : inp.demandFirst = false) : (toServo inp s).1.dmr = s.dmr := by
  rw [toServo_of_calm inp calm]
  cases zones : inp.zonesFirst <;> simp [withMotion, decided, evaluated, later, zones]

theorem finished_dmr (inp : UpdateInputs) (known : Bool) (s : State) :
    (finished inp known s).dmr = if inp.demandFirst = true then s.dmr else
      (demandUpdate (if inp.zonesFirst = true then s else zoneUpdate s)).dmr := by
  cases first : inp.demandFirst <;> cases zones : inp.zonesFirst <;> simp [finished, evaluated, first, zones]

theorem leverValue_congr {s t : State} (ptb : t.ptb = s.ptb) (b : Block) : leverValue t b = leverValue s b := by
  simp only [leverValue, ptb]

theorem waking_demand (calm : causeFree s) (x : State) (stays : x = endWaking (settled (toServo inp s).1)) (known : Bool) :
    (finished inp known x).dmr.handDemand = 0 ∧
      (∀ b, s.cfg.params = some b → s.dmr.lastKind = none ∨ s.dmr.lastKind = some .wheel ∧ s.dmr.pendingWheel ≠ 0 ∨
        s.dmr.lastKind = some .lever ∧ (b.deadband : Int) < |leverValue s b| → (finished inp known x).dmr.armed = false) := by
  obtain ⟨-, -, cfg, -⟩ := toServo_calm inp calm
  have dmr : x.dmr = { (toServo inp s).1.dmr with armed := false, handDemand := 0 } := by rw [stays]; rfl
  rw [finished_dmr]
  split
  · exact ⟨by rw [dmr], fun _ _ _ => by rw [dmr]⟩
  · next later =>
    rw [toServo_dmr calm (by simpa using later)] at dmr
    have cfg' : x.cfg = s.cfg := by rw [stays, endWaking_eq, settled, cfg]
    have ptb' : x.ptb = s.ptb := by rw [stays, endWaking_eq, settled, toServo_ptb inp calm]
    have same : (if inp.zonesFirst = true then x else zoneUpdate x).dmr = x.dmr ∧
        (if inp.zonesFirst = true then x else zoneUpdate x).cfg = x.cfg ∧
        (if inp.zonesFirst = true then x else zoneUpdate x).ptb = x.ptb := by split <;> simp
    obtain ⟨sameDmr, sameCfg, samePtb⟩ := same
    refine ⟨demandUpdate_of_unarmed (by rw [sameDmr, dmr]) (by rw [sameDmr, dmr]), fun b params demand => ?_⟩
    refine demandUpdate_stays_unarmed (b := b) (by rw [sameCfg, cfg', params]) (by rw [sameDmr, dmr]) ?_
    rw [sameDmr, dmr, leverValue_congr (samePtb.trans ptb')]
    exact demand

end

end Sys2Proof.Machine
end

