-- ==== Sys2Proof/Proofs/HomedEnd.lean ====
section
/-! SUPPORT. An axis that has become homed, and the OVERRUN that stops it outside its soft limits (R14, R88, R93, R94). -/

namespace Sys2Proof.Machine

open Sys2Proof.Safety

/-! ### OVERRUN raised in a node that does not hold (R88, R93) -/

theorem causePresent_overrunSet (s : State) (c : Cause) :
    causePresent (overrunSet s) c = true ↔ c = .overrun ∨ causePresent s c = true := by
  cases c <;> simp [causePresent, causeCondition, overrunSet]

theorem localCauses_overrunSet {s : State} (none : ∀ c, causePresent s c = false) : localCauses (overrunSet s) = [.overrun] := by
  have present : causePresent (overrunSet s) = (· == Cause.overrun) := by
    funext c
    rw [Bool.eq_iff_iff, causePresent_overrunSet]
    simp [none c]
  rw [localCauses, present]
  decide

theorem stopInForce_eq_false {s : State} (free : stopInForce s = false) :
    s.stc.hold = none ∧ s.stc.holders.toList.any (·.isSome) = false := by
  simp only [stopInForce, Bool.or_eq_false_iff] at free
  exact ⟨by simpa using free.1, free.2⟩

/-- The RAMP hold that OVERRUN alone begins (R88). -/
def overrunHold : Hold := { kind := .ramp, code := some .overrun }

/-- A node that holds for OVERRUN alone. -/
def overrunHeld (s : State) : State := holdFor .overrun (overrunSet s)

theorem overrunHeld_stc {s : State} (free : stopInForce s = false) (none : ∀ c, causePresent s c = false) :
    (overrunHeld s).stc = { s.stc with overrunLatch := true, hold := some overrunHold } := by
  have formed : formHold (localCauses (overrunSet s)) = some overrunHold := by rw [localCauses_overrunSet none]; rfl
  have unheld : (overrunSet s).stc.hold = Option.none := (stopInForce_eq_false free).1
  rw [overrunHeld, holdFor, unheld]
  dsimp only
  rw [holdAgain_of_formed formed]
  simp [overrunSet]

@[simp] theorem overrunHeld_frame (s : State) :
    (overrunHeld s).cfg = s.cfg ∧ (overrunHeld s).mpr = s.mpr ∧ (overrunHeld s).svo = s.svo ∧ (overrunHeld s).hom = s.hom ∧
    (overrunHeld s).tks = s.tks ∧ (overrunHeld s).tsc = s.tsc ∧ (overrunHeld s).ptb = s.ptb := by
  simp [overrunHeld, overrunSet]

theorem overrunHeld_soft {s : State} (free : stopInForce s = false) (none : ∀ c, causePresent s c = false) :
    hardInForce (overrunHeld s) = false ∧ stopInForce (overrunHeld s) = true := by
  have stc := overrunHeld_stc free none
  have holders := (stopInForce_eq_false free).2
  refine ⟨?_, stopInForce_of_hold (by simp [stc])⟩
  rw [hardInForce, stc]
  simp only [overrunHold, Bool.or_eq_false_iff, List.any_eq_false] at holders ⊢
  refine ⟨rfl, fun e listed => ?_⟩
  cases e
  · simp
  · exact absurd rfl (holders _ listed)

/-- OVERRUN stops an axis at rest that did not hold, in the same event (R88, R93, R94). -/
theorem raiseOverrun_of_enabled {s : State} (on : s.stc.drive = .enabled) (rest : s.mpr.v = 0)
    (free : stopInForce s = false) (none : ∀ c, causePresent s c = false) :
    raiseOverrun s = endStopping (stoppingDrive (overrunHeld s)) := by
  have clear : s.stc.overrunLatch = false := none .overrun
  obtain ⟨soft, stop⟩ := overrunHeld_soft free none
  rw [raiseOverrun_eq, if_neg (by simp [clear]), causeArises]
  refine (reactStops_of_ramp soft stop (by rw [overrunHeld_stc free none]; exact on)).trans ?_
  rw [enterStopping_eq, if_pos (by simpa [overrunHeld] using rest)]

/-- An axis at rest that OVERRUN has stopped. -/
structure OverrunStopped (s t : State) : Prop where
  stc : t.stc = { s.stc with
    overrunLatch := true, hold := some overrunHold
    drive := if s.stc.parkPending = true then .parked else .stopped, settle := 0, parkPending := false }
  p : t.mpr.p = tracked s
  v : t.mpr.v = 0
  mode : t.mpr.mode = .hold
  g : t.mpr.g = none
  output : t.svo.u = 0
  causes : localCauses t = [.overrun]

theorem tracked_held (s : State) : tracked (stoppingDrive (overrunHeld s)) = tracked s := by
  rw [tracked_stoppingDrive]
  exact tracked_congr (by simp) (by simp) (by simp [isHomed])

theorem raiseOverrun_stops {s : State} (on : s.stc.drive = .enabled) (rest : s.mpr.v = 0)
    (free : stopInForce s = false) (none : ∀ c, causePresent s c = false) : OverrunStopped s (raiseOverrun s) := by
  have stc := overrunHeld_stc free none
  have stop : stopInForce (stoppingDrive (overrunHeld s)) = true := stopInForce_of_hold (by simp [stc])
  have causes : localCauses (raiseOverrun s) = localCauses (overrunSet s) := by
    rw [raiseOverrun_eq, if_neg (by simpa [causePresent] using none .overrun), causeArises, reactStops_localCauses]
    exact localCauses_congr (congrArg Stc.latches (holdFor_unheld _ _) :) (by simp) (by simp)
      (congrArg Lnk.linkFault (holdFor_besideSafety _ _) :)
  rw [localCauses_overrunSet none] at causes
  have eq := raiseOverrun_of_enabled on rest free none
  rw [endStopping_eq (by simp)] at eq
  refine ⟨?_, ?_, ?_, ?_, ?_, ?_, causes⟩ <;> rw [eq]
  · simp only [stop, and_true, stoppingDrive_stc, stc]
    cases s.stc.parkPending <;> simp
  · exact tracked_held s
  all_goals rfl

/-! ### What an axis keeps that has become homed -/

/-- The axis is HOMED and its counts are those of before; with still, it is in HOLD without a target. -/
structure Homed (still : Prop) (counts : Svo) (s : State) : Prop where
  hom : s.hom = doneHom
  counts : s.svo.counts = counts
  awake : s.stc.drive ≠ .waking
  mode : still → s.mpr.mode = .hold ∧ s.mpr.g = none

section
variable {still : Prop} {counts : Svo} {s : State}

theorem reactStops_still (held : s.mpr.mode = .hold ∧ s.mpr.g = none) :
    (reactStops s).mpr.mode = .hold ∧ (reactStops s).mpr.g = none := by
  obtain eq | ⟨eq, -⟩ | ⟨eq, -⟩ | ⟨eq, -⟩ := reactStops_cases s <;> rw [eq]
  · exact held
  · rw [enterStopped_mpr]; exact ⟨rfl, rfl⟩
  · rw [enterStopping_eq]
    split
    · rw [endStopping_eq (by simp)]; exact ⟨rfl, rfl⟩
    · rw [stoppingDrive_mpr]; exact ⟨rfl, rfl⟩
  · rw [enterParked_mpr]; exact ⟨rfl, rfl⟩

theorem reactStops_awake (awake : s.stc.drive ≠ .waking) : (reactStops s).stc.drive ≠ .waking := by
  obtain eq | ⟨eq, -⟩ | ⟨eq, -⟩ | ⟨eq, -⟩ := reactStops_cases s <;> rw [eq]
  · exact awake
  · simp
  · rw [enterStopping_eq]
    split
    · rw [endStopping_eq (by simp)]; dsimp only; split <;> simp
    · simp
  · simp

theorem Homed.react (homed : Homed still counts s) : Homed still counts (reactStops s) :=
  ⟨by rw [reactStops_hom, if_neg (fun all => by simp [homed.hom, doneHom] at all), homed.hom],
    (reactStops_counts s).trans homed.counts, reactStops_awake homed.awake, fun h => reactStops_still (homed.mode h)⟩

theorem Homed.raiseOverrun (homed : Homed still counts s) : Homed still counts (raiseOverrun s) := by
  rw [raiseOverrun_eq]
  split
  · exact ⟨homed.hom, homed.counts, homed.awake, homed.mode⟩
  · refine Homed.react ⟨?_, ?_, ?_, ?_⟩
    · simpa using homed.hom
    · simpa using homed.counts
    · simpa using homed.awake
    · simpa using homed.mode

theorem Homed.settleHold (before : State) (homed : Homed still counts s) : Homed still counts (settleHold before s) := by
  unfold Machine.settleHold
  split
  · refine Homed.react ⟨?_, ?_, ?_, ?_⟩
    · simpa using homed.hom
    · simpa using homed.counts
    · simpa using homed.awake
    · simpa using homed.mode
  · exact homed

theorem Homed.restUpdate (r : Result) (homed : Homed still counts s) : Homed still counts (restUpdate r s) := by
  unfold Machine.restUpdate
  repeat' split
  · rw [endStopping_eq ‹_›]
    refine ⟨homed.hom, homed.counts, ?_, fun _ => ⟨rfl, rfl⟩⟩
    dsimp only; split <;> simp
  · exact ⟨by simpa using homed.hom, by simpa [Svo.counts] using homed.counts, by simp, fun _ => by simp⟩
  all_goals exact homed

theorem Homed.becomes (awake : s.stc.drive ≠ .waking) :
    Homed (s.mpr.mode = .hold ∧ s.mpr.g = none) s.svo.counts (becomeHomed s) := by
  rw [becomeHomed_eq]
  split
  · exact Homed.raiseOverrun ⟨rfl, rfl, awake, id⟩
  · exact ⟨rfl, rfl, awake, id⟩

theorem Homed.of_kept {t : State} (homed : Homed still counts s) (kept : KeptAfter s t) : Homed still counts t := by
  obtain ⟨mpr, hom, -, stc, svo⟩ := kept
  exact ⟨by rw [hom, homed.hom], by rw [svo, homed.counts], by rw [stc]; exact homed.awake, fun h => by
    rw [mpr]; exact homed.mode h⟩

end

theorem becomeHomed_tks {s : State} (idle : s.tks.job = .idle) : (becomeHomed s).tks.job = .idle := by
  rw [becomeHomed_eq]
  split
  · rw [raiseOverrun_eq]
    split
    · exact idle
    · rw [causeArises, reactStops_tks_of_none (by simp [overrunSet, clampedHome, setLimitFlags, idle, jobAbortable])]
      simpa [overrunSet, clampedHome, setLimitFlags] using idle
  · exact idle

theorem restUpdate_tks (r : Result) (s : State) : (restUpdate r s).tks = s.tks := by
  unfold restUpdate
  repeat' split
  · rw [endStopping_eq ‹_›]
  · simp
  all_goals rfl

section
variable {inp : UpdateInputs} {s h : State}

/-- The update in which HOM becomes homed leaves the axis HOMED on the same counts, whatever stops it. -/
theorem Quiet.homed (quiet : Quiet inp s) (homed : homingUpdate (Machine.toServo inp s).2 (Machine.toServo inp s).1 = becomeHomed h)
    (stc : h.stc = (Machine.toServo inp s).1.stc) (tks : h.tks = (Machine.toServo inp s).1.tks) :
    Homed (h.mpr.mode = .hold ∧ h.mpr.g = none) h.svo.counts (update inp s) := by
  obtain ⟨on, -, idle⟩ := quiet.toServo
  have becomes := Homed.becomes (s := h) (by simp [stc, on])
  have rests := becomes.restUpdate (Machine.toServo inp s).2
  have result : resulted inp s = restUpdate (Machine.toServo inp s).2 (becomeHomed h) := by
    rw [resulted, takeResult, resultCauses_calm quiet.result.1 quiet.result.2, homed, wakingUpdate_of_other rests.awake,
      takesUpdate_of_idle]
    rw [restUpdate_tks]
    exact becomeHomed_tks (by rw [tks, idle])
  rw [update_of_calm inp quiet.free]
  have finished := (result ▸ rests).of_kept (finished_kept inp quiet.free s.cfg.station.isSome)
  have settled := finished.settleHold s
  exact settled.of_kept (by simp [KeptAfter, showDemand])

/-- No cause of the node is new after the drive output but one its profile will raise (R19, R85). -/
theorem toServo_present (inp : UpdateInputs) (calm : causeFree s) (c : Cause)
    (present : causePresent (toServo inp s).1 c = true) : causePresent s c = true := by
  have stc := (toServo_calm inp calm).2.2.2.1
  have ptb := toServo_ptb inp calm
  have link : (toServo inp s).1.lnk.linkFault = s.lnk.linkFault := by
    rw [toServo_of_calm inp calm]; simp [withMotion, decided, statusAt_linkFault]
  have fault : (toServo inp s).1.svo.encFault = true → s.svo.encFault = true := by
    rw [toServo_of_calm inp calm]
    obtain ⟨x, svo, cleaned, -⟩ := sampled_svo inp s
    simp only [withMotion, servo_encFault, motion_frame, decided_frame, cleaned]
    rw [← svo]
    unfold cleanUpdate
    split <;> [split; skip] <;> simp [*]
  cases c <;> simp_all [causePresent, causeCondition]

/-- Within the limits the update only makes the axis HOMED (R46, R48). -/
theorem Quiet.homed_inside (quiet : Quiet inp s) (homed : homingUpdate (Machine.toServo inp s).2 (Machine.toServo inp s).1 = becomeHomed h)
    (stc : h.stc = (Machine.toServo inp s).1.stc) (tks : h.tks = (Machine.toServo inp s).1.tks)
    (low : softLo h ≤ h.mpr.p) (high : h.mpr.p ≤ softHi h) :
    (update inp s).mpr.p = h.mpr.p ∧ (update inp s).stc.drive = .enabled := by
  have inside : becomeHomed h = { h with hom := doneHom } := by
    rw [becomeHomed_eq, if_neg (by omega)]
  obtain ⟨mpr, -, -, stc', -⟩ := quiet.kept (homed.trans inside) stc tks
  exact ⟨by rw [mpr], by rw [stc']; exact (congrArg Stc.drive stc :).trans quiet.toServo.1⟩

/-- Outside the limits OVERRUN stops the axis at the tracked position (R14, R88, R93, R94). -/
theorem Quiet.homed_outside (quiet : Quiet inp s) (homed : homingUpdate (Machine.toServo inp s).2 (Machine.toServo inp s).1 = becomeHomed h)
    (same : h = { (Machine.toServo inp s).1 with mpr := h.mpr }) (safe : stopSafe s)
    (out : h.mpr.p < softLo h ∨ softHi h < h.mpr.p) :
    ∃ x, OverrunStopped (clampedHome h) x ∧ KeptAfter x (update inp s) := by
  obtain ⟨on, -, idle⟩ := quiet.toServo
  have stc : h.stc = { s.stc with haltInput := false } := by
    rw [same]; exact (toServo_calm inp quiet.free).2.2.2.1
  have free : stopInForce s = false := safe.1 (.inr quiet.on)
  have none (c : Cause) : causePresent s c = false := by
    rw [← Bool.not_eq_true]
    intro present
    have held := safe.2.2.2 c present
    simp [(stopInForce_eq_false free).1] at held
  have free' : stopInForce (clampedHome h) = false :=
    (show stopInForce (clampedHome h) = stopInForce s by simp [stopInForce, clampedHome, setLimitFlags, stc]).trans free
  have none' (c : Cause) : causePresent (clampedHome h) c = false := by
    rw [← Bool.not_eq_true]
    intro present
    have before : causePresent (Machine.toServo inp s).1 c = true := by
      rw [← present, same]; cases c <;> rfl
    exact absurd (toServo_present inp quiet.free c before) (by simp [none c])
  have stopped := raiseOverrun_stops (s := clampedHome h) (by rw [show (clampedHome h).stc = h.stc from rfl, stc]; exact quiet.on) rfl free' none'
  have becomes : becomeHomed h = raiseOverrun (clampedHome h) := by rw [becomeHomed_eq, if_pos out]
  have drive : (raiseOverrun (clampedHome h)).stc.drive = .stopped := by
    rw [stopped.stc]
    simp [clampedHome, setLimitFlags, stc, quiet.stays]
  have result : resulted inp s = raiseOverrun (clampedHome h) := by
    rw [resulted, takeResult, resultCauses_calm quiet.result.1 quiet.result.2, homed, becomes]
    have rests : restUpdate (Machine.toServo inp s).2 (raiseOverrun (clampedHome h)) = raiseOverrun (clampedHome h) := by
      simp [restUpdate, drive]
    rw [rests, wakingUpdate_of_other (by simp [drive]), takesUpdate_of_idle]
    rw [← becomes]
    exact becomeHomed_tks (by rw [same]; exact idle)
  refine ⟨_, stopped, result ▸ update_kept inp quiet.free (.inr ?_)⟩
  rw [result, stopped.causes, stopped.stc]
  rfl

end

end Sys2Proof.Machine
end

