-- ==== Sys2Proof/Proofs/HomingUpdates.lean ====
section
/-! SUPPORT. The update of a homing axis by its phase, and the outcomes that an update names (R46 to R49, R97). -/

namespace Sys2Proof.Machine

open Sys2Proof.Safety

theorem tracked_of {s t : State} (cfg : t.cfg = s.cfg) (reads : measured t = measured s) (homed : isHomed t = isHomed s) :
    tracked t = tracked s := by
  simp only [tracked, travelLo_congr cfg homed, travelHi_congr cfg homed, reads, homed]

theorem tracked_toServo (inp : UpdateInputs) {s : State} (calm : causeFree s) : tracked (toServo inp s).1 = tracked s := by
  obtain ⟨hom, -, cfg, -⟩ := toServo_calm inp calm
  exact tracked_of cfg (measured_toServo inp calm) (by simp only [isHomed, hom])

theorem update_raw (inp : UpdateInputs) (s : State) : (update inp s).svo.raw = s.svo.raw := by
  obtain ⟨x, svo, cleaned, -⟩ := sampled_svo inp s
  have encoder := (update_lasting inp s).encoder
  have same : (cleanUpdate x).svo.raw = s.svo.raw := by
    rw [← svo]; unfold cleanUpdate; split <;> [split; skip] <;> rfl
  rw [← same, ← cleaned]
  exact (congrArg (·.1) encoder :)

section
variable {inp : UpdateInputs} {s h : State}

theorem tracked_clampedHome (calm : causeFree s) (same : h = { (toServo inp s).1 with mpr := h.mpr }) (ordered : limitsOrdered s) :
    tracked (clampedHome h) =
      max (param s (fun b => b.lo) * 256) (min (param s (fun b => b.hi) * 256) (measured s * 256)) := by
  obtain ⟨-, -, cfg, -, raw, origin, -⟩ := toServo_calm inp calm
  have cfg' : h.cfg = s.cfg := by rw [same, cfg]
  have bounds : param s (fun b => b.lo) < param s (fun b => b.hi) := by
    have up := calm.1
    simp only [axisUp, isAxis, Bool.and_eq_true, beq_iff_eq] at up
    obtain ⟨b, params, lt⟩ := ordered up.1 (.inr up.2)
    simpa [param, params] using lt
  have measuredH : measured (clampedHome h) = measured s := by
    have unclamped : measured (clampedHome h) = measured h := rfl
    have servoed : measured h = measured (toServo inp s).1 := by rw [same]; rfl
    rw [unclamped, servoed, measured_toServo inp calm]
  have homed : isHomed (clampedHome h) = true := rfl
  have lo : softLo (clampedHome h) = param s (fun b => b.lo) * 256 :=
    congrArg (· * 256) (param_congr (s := s) (t := clampedHome h) (by rw [show (clampedHome h).cfg = h.cfg from rfl, cfg']) _)
  have hi : softHi (clampedHome h) = param s (fun b => b.hi) * 256 :=
    congrArg (· * 256) (param_congr (s := s) (t := clampedHome h) (by rw [show (clampedHome h).cfg = h.cfg from rfl, cfg']) _)
  rw [tracked, homed, if_pos rfl, travelLo_of_homed rfl, travelHi_of_homed rfl, lo, hi, measuredH, clampInt_eq (by omega)]

/-- The update in which a homing is done, by the position that HOM finds (R14, R46, R48). -/
theorem Quiet.ends (quiet : Quiet inp s) (homed : homingUpdate (Machine.toServo inp s).2 (Machine.toServo inp s).1 = becomeHomed h)
    (same : h = { (Machine.toServo inp s).1 with mpr := h.mpr }) :
    let t := update inp s
    let lo := param s (fun b => b.lo) * 256
    let hi := param s (fun b => b.hi) * 256
    t.hom = doneHom ∧ t.svo.origin = s.svo.origin ∧
      (lo ≤ h.mpr.p → h.mpr.p ≤ hi → t.mpr.p = h.mpr.p ∧ t.stc.drive = .enabled) ∧
      (h.mpr.p < lo ∨ hi < h.mpr.p → stopSafe s → limitsOrdered s → s.stc.overrunLatch = false →
        t.stc.overrunLatch = true ∧ t.stc.hold = some { kind := .ramp, code := some .overrun } ∧
        t.stc.drive = .stopped ∧ brakeEngaged t = true ∧ t.mpr.p = max lo (min hi (measured s * 256)) ∧
        t.mpr.v = 0 ∧ t.mpr.mode = .hold ∧ t.mpr.g = none) := by
  obtain ⟨-, -, cfg, stc, -, origin, -⟩ := toServo_calm inp quiet.free
  have lo : softLo h = param s (fun b => b.lo) * 256 :=
    congrArg (· * 256) (param_congr (s := s) (t := h) (by rw [same]; exact congrArg Cfg.params cfg) _)
  have hi : softHi h = param s (fun b => b.hi) * 256 :=
    congrArg (· * 256) (param_congr (s := s) (t := h) (by rw [same]; exact congrArg Cfg.params cfg) _)
  have servoed : h.stc = (Machine.toServo inp s).1.stc := by rw [same]
  have jobs : h.tks = (Machine.toServo inp s).1.tks := by rw [same]
  have whole := quiet.homed homed servoed jobs
  have counts : (update inp s).svo.origin = h.svo.origin := (congrArg Svo.origin whole.counts :)
  refine ⟨whole.hom, counts.trans (by rw [same, origin]), fun low high => ?_, fun out safe ordered _ => ?_⟩
  · exact quiet.homed_inside homed servoed jobs (by rwa [lo]) (by rwa [hi])
  · obtain ⟨x, stopped, mpr, -, -, stc', -⟩ := quiet.homed_outside homed same safe (by rwa [lo, hi])
    have pending : (clampedHome h).stc.parkPending = false := by
      rw [show (clampedHome h).stc = h.stc from rfl, servoed, stc]; exact quiet.stays
    have drive : (update inp s).stc.drive = .stopped := by rw [stc', stopped.stc]; simp [pending]
    refine ⟨by rw [stc', stopped.stc], by rw [stc', stopped.stc]; rfl, drive, brakeEngaged_of_off drive (by simp), ?_, ?_, ?_, ?_⟩
    · rw [mpr]; exact stopped.p.trans (tracked_clampedHome quiet.free same ordered)
    · rw [mpr]; exact stopped.v
    · rw [mpr]; exact stopped.mode
    · rw [mpr]; exact stopped.g

theorem Quiet.toServo_of_homing (quiet : Quiet inp s) (seeks : s.hom.state = .homing) {phase : HomePhase}
    (at_ : s.hom.phase = some phase) :
    (Machine.toServo inp s).1.hom.state = .homing ∧ (Machine.toServo inp s).1.hom.phase = some phase := by
  rw [(toServo_calm inp quiet.free).1]; exact ⟨seeks, at_⟩

/-- An update that HOM leaves alone moves by its profile result. -/
theorem Quiet.moves (quiet : Quiet inp s)
    (same : homingUpdate (Machine.toServo inp s).2 (Machine.toServo inp s).1 = (Machine.toServo inp s).1) :
    (update inp s).hom = s.hom ∧
      (update inp s).mpr = { (Machine.toServo inp s).1.mpr with factor := (update inp s).mpr.factor } ∧
      (update inp s).stc.drive = .enabled := by
  obtain ⟨mpr, hom, -, stc, -⟩ := quiet.kept same rfl rfl
  exact ⟨hom.trans (toServo_calm inp quiet.free).1, mpr, by rw [stc]; exact quiet.toServo.1⟩

theorem travelExceeded_iff {x : Int} (start : s.hom.seekStart = some x) :
    travelExceeded s = true ↔ param s (fun b => b.homeMaxTravel) * 256 < |s.mpr.p - x| := by
  simp [travelExceeded, start]

/-- HOM in SEEK without a stall: the stall counter of a HARD-STOP homing, and the travel test (R47, R49). -/
theorem Quiet.seek_homing (quiet : Quiet inp s) (seeks : s.hom.state = .homing) (seek : s.hom.phase = some .seek)
    (none : stallDue inp s = false) :
    ∃ n, homingUpdate (Machine.toServo inp s).2 (Machine.toServo inp s).1 =
        travelUpdate { (Machine.toServo inp s).1 with hom := { s.hom with stall := n } } ∧
      (param s (fun b => b.homeMode) ≠ 1 → n = s.hom.stall) ∧
      (param s (fun b => b.homeMode) = 1 → n = stallCount (Machine.toServo inp s).1) := by
  obtain ⟨seeks', seek'⟩ := quiet.toServo_of_homing seeks seek
  obtain ⟨hom, -, cfg, -⟩ := toServo_calm inp quiet.free
  have mode : homeMode (Machine.toServo inp s).1 = .hardStop ↔ param s (fun b => b.homeMode) = 1 := by
    rw [homeMode_hardStop_iff, param_congr (s := s) (t := (Machine.toServo inp s).1) (by rw [cfg])]
  rw [homingUpdate_of_seek _ seeks' seek']
  by_cases hard : param s (fun b => b.homeMode) = 1
  · have few : ¬20 ≤ stallCount (Machine.toServo inp s).1 := fun many => by
      rw [(stallDue_iff quiet.free quiet.result).mpr ⟨seeks, seek, hard, many⟩] at none
      cases none
    exact ⟨_, by rw [if_pos (mode.mpr hard), if_neg few, hom], fun other => absurd hard other, fun _ => rfl⟩
  · exact ⟨s.hom.stall, by rw [if_neg (fun at_ => hard (mode.mp at_)), ← hom], fun _ => rfl, fun at_ => absurd at_ hard⟩

/-- The update of a seek that neither stalls nor ends, and of one that has gone too far (R47, R49). -/
theorem Quiet.seek (quiet : Quiet inp s) (seeks : s.hom.state = .homing) (seek : s.hom.phase = some .seek)
    (none : stallDue inp s = false) {x : Int} (start : s.hom.seekStart = some x) :
    let m := Machine.toServo inp s
    let t := update inp s
    let past : Prop := param s (fun b => b.stallThreshold) * 256 < |m.1.mpr.p - measured s * 256|
    (param s (fun b => b.homeMaxTravel) * 256 < |m.1.mpr.p - x| →
      t.hom = failedHom .travel ∧ t.mpr.mode = .hold ∧ t.mpr.v = m.1.mpr.v ∧ t.stc.drive = .enabled) ∧
    (|m.1.mpr.p - x| ≤ param s (fun b => b.homeMaxTravel) * 256 →
      (param s (fun b => b.homeMode) ≠ 1 → t.hom = s.hom) ∧
      (param s (fun b => b.homeMode) = 1 → past → t.hom = { s.hom with stall := s.hom.stall + 1 }) ∧
      (param s (fun b => b.homeMode) = 1 → ¬past → t.hom = { s.hom with stall := 0 }) ∧
      t.mpr = { m.1.mpr with factor := t.mpr.factor } ∧ t.stc.drive = .enabled) := by
  obtain ⟨n, homing, kept, counted⟩ := quiet.seek_homing seeks seek none
  have cfg := (toServo_calm inp quiet.free).2.2.1
  have item : param (Machine.toServo inp s).1 (fun b => b.homeMaxTravel) = param s (fun b => b.homeMaxTravel) :=
    param_congr (by rw [cfg]) _
  have test : travelExceeded { (Machine.toServo inp s).1 with hom := { s.hom with stall := n } } = true ↔
      param s (fun b => b.homeMaxTravel) * 256 < |(Machine.toServo inp s).1.mpr.p - x| := by
    rw [travelExceeded_iff (by exact start), ← item]; rfl
  refine ⟨fun far => ?_, fun near => ?_⟩
  · rw [travelUpdate, if_pos (test.mpr far), failHoming_of_homing (by exact seeks),
      requestMode_of_enabled (by exact quiet.toServo.1)] at homing
    obtain ⟨mpr, hom, -, stc, -⟩ := quiet.kept homing rfl rfl
    exact ⟨hom, by rw [mpr], by rw [mpr], by rw [stc]; exact quiet.toServo.1⟩
  · rw [travelUpdate, if_neg (fun far => absurd (test.mp far) (not_lt.mpr near))] at homing
    obtain ⟨mpr, hom, -, stc, -⟩ := quiet.kept homing rfl rfl
    have count := stallCount_toServo inp quiet.free quiet.on
    refine ⟨fun other => ?_, fun hard past => ?_, fun hard small => ?_, mpr, by rw [stc]; exact quiet.toServo.1⟩
    · rw [hom, kept other]
    · rw [hom, counted hard, count, if_pos past]
    · rw [hom, counted hard, count, if_neg small]

theorem requestMode_mpr {x : State} (on : x.stc.drive = .enabled) :
    requestMode .hold x = { x with mpr := (requestMode .hold x).mpr } ∧ (requestMode .hold x).mpr.p = x.mpr.p ∧
      (requestMode .hold x).mpr.mode = .hold ∧ (requestMode .hold x).mpr.g = none := by
  rw [requestMode_of_enabled on]; exact ⟨rfl, rfl, rfl, rfl⟩

end

/-- Settles O28: the stall and the end of WAKING by what they leave, a homing's other updates by its phase. -/
theorem stallAndWakingEnd : Obligations.StallAndWakingEnd := by
  unfold Obligations.StallAndWakingEnd
  refine ⟨fun inp s due on idle quiet => ?_, fun inp s waking last idle none safe quiet => ?_,
    fun inp s on idle quiet seeks => ?_⟩
  · have calm : Quiet inp s := ⟨on, idle, quiet.1, quiet.2.1, quiet.2.2⟩
    exact ⟨_, (updateWhen_row inp s .rfl).1 due, calm.stall_update due⟩
  · obtain ⟨kept, dmr⟩ := update_waking waking last idle none quiet.1 quiet.2.1
    obtain ⟨mpr, -, -, stc, -⟩ := kept
    obtain ⟨hand, armed⟩ := waking_demand (inp := inp) quiet.1 _ rfl s.cfg.station.isSome
    have drive : (update inp s).stc.drive = .enabled := by rw [stc]; rfl
    have at_ : tracked (settled (toServo inp s).1) = tracked s := tracked_toServo inp quiet.1
    refine ⟨_, (updateWhen_row inp s (wakingEndDue_iff s)).1 ⟨waking, by omega⟩, drive, by rw [stc]; rfl,
      (driveEnable_iff _).mpr (.inl drive), (brakeEngaged_eq_false_iff _).mpr (.inl drive), by rw [mpr]; rfl, by rw [mpr]; rfl,
      by rw [mpr]; rfl, by rw [dmr]; exact hand, fun b params demand => by rw [dmr]; exact armed b params demand, ?_⟩
    rw [← tracked_eq safe.2.2.2, ← at_, mpr]
    rfl
  · have calm : Quiet inp s := ⟨on, idle, quiet.1, quiet.2.1, quiet.2.2⟩
    refine ⟨_, rfl, update_raw inp s, fun decel moving => ?_, fun decel rest => ?_, fun back moving => ?_,
      fun back arrives => ?_, fun seek => ?_, fun x seek start none => calm.seek seeks seek none start⟩
    · obtain ⟨seeks', decel'⟩ := calm.toServo_of_homing seeks decel
      exact calm.moves (by rw [homingUpdate_of_decel _ seeks' decel', if_neg (by simp [moving])])
    · obtain ⟨seeks', decel'⟩ := calm.toServo_of_homing seeks decel
      exact calm.ends (by rw [homingUpdate_of_decel _ seeks' decel', if_pos rest]) rfl
    · obtain ⟨seeks', back'⟩ := calm.toServo_of_homing seeks back
      exact calm.moves (by rw [homingUpdate_of_backOff _ seeks' back', if_neg (by simp [moving])])
    · obtain ⟨seeks', back'⟩ := calm.toServo_of_homing seeks back
      have homed := homingUpdate_of_backOff (toServo inp s).2 seeks' back'
      rw [if_pos arrives] at homed
      obtain ⟨same, p, mode, g⟩ := requestMode_mpr calm.toServo.1
      have ends := calm.ends homed same
      rw [p] at ends
      exact ⟨ends, (calm.homed homed (by simp) (by simp)).mode ⟨mode, g⟩⟩
    · rw [stallDue_iff quiet.1 quiet.2.1, stallCount_toServo inp quiet.1 on]
      refine ⟨fun ⟨_, _, hard, many⟩ => ?_, fun ⟨hard, past, many⟩ => ⟨seeks, seek, hard, by rwa [if_pos past]⟩⟩
      split at many
      · next past => exact ⟨hard, past, many⟩
      · omega

/-- Settles O27: each row by the part of the update that makes its outcome, and what no later part undoes. -/
theorem namedOutcomesOfAnUpdate : Obligations.NamedOutcomesOfAnUpdate := by
  unfold Obligations.NamedOutcomesOfAnUpdate
  refine ⟨fun inp s => ⟨fun unset none last => ?_, fun stepped last => ?_, fun straps => ?_,
      fun state unanswered settled last busy => ?_⟩,
    fun inp s => ⟨fun i present last clear => ?_, fun fault last => ?_, fun b up params old => ?_⟩,
    fun inp s due on idle quiet => ?_, fun inp s waking last idle none quiet => ?_⟩
  · exact ⟨_, (updateWhen_row inp s (ownDue_iff s)).1 ⟨unset, none, by simp [last]⟩, update_own inp unset none last⟩
  · exact ⟨_, (updateWhen_row inp s (stepClearDue_iff s)).1 ⟨stepped, by omega⟩, update_stepClear inp stepped last⟩
  · refine ⟨_, (updateWhen_row inp s beq_iff_eq).1 straps, update_straps inp straps, fun unknown => ?_, update_pending inp s⟩
    exact ((update_lasting inp s).status (by simp [unknown])).trans (by simp)
  · exact ⟨_, (updateWhen_row inp s (storeIdTimeoutDue_iff inp s)).1 ⟨state, unanswered, settled, busy, by omega⟩,
      update_storeIdTimeout state unanswered settled last busy⟩
  · exact ⟨_, (updateWhen_row inp s (crewAbsentDue_iff inp s)).1 ⟨i, present, clear, by omega⟩, update_crewAbsent i last clear⟩
  · exact ⟨_, (updateWhen_row inp s (faultEndDue_iff s)).1 ⟨fault, by omega⟩, update_faultEnd fault last⟩
  · have due : staleDue s = true := (staleDue_iff s).mpr ⟨b, params, up, old⟩
    obtain ⟨-, stale, armed, wheel, hand⟩ := update_stale inp up due
    exact ⟨_, (updateWhen_row inp s (staleDue_iff s)).1 ⟨b, params, up, old⟩, stale, armed, wheel, hand⟩
  · have calm : Quiet inp s := ⟨on, idle, quiet.1, quiet.2.1, quiet.2.2⟩
    obtain ⟨-, -, state, phase, -⟩ := calm.stall_update due
    exact ⟨_, (updateWhen_row inp s .rfl).1 due, state, phase⟩
  · obtain ⟨⟨mpr, -, -, stc, -⟩, -⟩ := update_waking waking last idle none quiet.1 quiet.2.1
    have drive : (update inp s).stc.drive = .enabled := by rw [stc]; rfl
    exact ⟨_, (updateWhen_row inp s (wakingEndDue_iff s)).1 ⟨waking, by omega⟩, drive, by rw [mpr]; rfl,
      (brakeEngaged_eq_false_iff _).mpr (.inl drive)⟩

end Sys2Proof.Machine
end

