-- ==== Sys2Proof/Proofs/Tracking.lean ====
section
/-! SUPPORT. An axis whose drive is off tracks its encoder at every update (R3). -/

namespace Sys2Proof.Machine

open Sys2Proof.Safety

/-- MPR and SVO at rest where tracking puts the axis (R3, R24). -/
structure RestsAt (s t : State) : Prop where
  p : t.mpr.p = tracked s
  v : t.mpr.v = 0
  mode : t.mpr.mode = .hold
  g : t.mpr.g = none
  atLo : t.mpr.atLo = decide (t.mpr.p = travelLo s)
  atHi : t.mpr.atHi = decide (t.mpr.p = travelHi s)
  output : t.svo.u = 0
  follow : t.svo.follow = 0

theorem RestsAt.congr {s t u : State} (rests : RestsAt s t) (mpr : u.mpr = t.mpr) (svo : u.svo = t.svo) : RestsAt s u := by
  obtain ⟨p, v, mode, g, atLo, atHi, output, follow⟩ := rests
  exact ⟨by rw [mpr, p], by rw [mpr, v], by rw [mpr, mode], by rw [mpr, g], by rw [mpr, atLo], by rw [mpr, atHi],
    by rw [svo, output], by rw [svo, follow]⟩

/-- In an update that began in s the drive is still off, with n the settle count of WAKING; where tracks holds, the axis has been
tracked. -/
structure DriveOff (tracks : Prop) (n : Nat) (s t : State) : Prop where
  drive : t.stc.drive ≠ .enabled ∧ t.stc.drive ≠ .stopping
  params : t.cfg.params = s.cfg.params
  role : t.cfg.role = s.cfg.role
  raw : t.svo.raw = s.svo.raw
  origin : t.svo.origin = s.svo.origin
  hom : t.hom = s.hom
  wakes : t.stc.drive = .waking → s.stc.drive = .waking ∧ t.stc.settle = n
  rests : tracks → RestsAt s t

section
variable {tracks : Prop} {n : Nat} {s t u : State}

theorem DriveOff.of_same (off : DriveOff tracks n s t) (cfg : u.cfg = t.cfg) (svo : u.svo = t.svo) (hom : u.hom = t.hom)
    (drive : u.stc.drive = t.stc.drive) (settle : u.stc.settle = t.stc.settle)
    (mpr : u.mpr = { t.mpr with factor := u.mpr.factor }) : DriveOff tracks n s u := by
  refine ⟨by rw [drive]; exact off.drive, by rw [cfg, off.params], by rw [cfg, off.role], by rw [svo, off.raw],
    by rw [svo, off.origin], by rw [hom, off.hom], by rw [drive, settle]; exact off.wakes, fun now => ?_⟩
  obtain ⟨p, v, mode, g, atLo, atHi, output, follow⟩ := off.rests now
  exact ⟨by rw [mpr, ← p], by rw [mpr, ← v], by rw [mpr, ← mode], by rw [mpr, ← g], by rw [mpr]; exact atLo,
    by rw [mpr]; exact atHi, by rw [svo, output], by rw [svo, follow]⟩

theorem DriveOff.of_kept (off : DriveOff tracks n s t) (kept : KeptAfter t u) : DriveOff tracks n s u := by
  obtain ⟨mpr, hom, cfg, stc, svo⟩ := kept
  exact off.of_same cfg svo hom (by rw [stc]) (by rw [stc]) mpr

theorem DriveOff.measures (off : DriveOff tracks n s t) : measured t = measured s := by
  have control : isControl t = isControl s := by simp only [isControl, off.role]
  simp only [measured, control, off.raw, off.origin]

theorem DriveOff.limits (off : DriveOff tracks n s t) : travelLo t = travelLo s ∧ travelHi t = travelHi s := by
  have homed : isHomed t = isHomed s := by simp only [isHomed, off.hom]
  simp only [travelLo, travelHi, homed, param, off.params, and_self]

theorem DriveOff.tracks_to (off : DriveOff tracks n s t) : tracked t = tracked s := by
  have homed : isHomed t = isHomed s := by simp only [isHomed, off.hom]
  obtain ⟨lo, hi⟩ := off.limits
  simp only [tracked, lo, hi, off.measures, homed]

theorem RestsAt.of_track (off : DriveOff tracks n s t) (mpr : u.mpr = (track t).mpr) (output : u.svo.u = 0)
    (follow : u.svo.follow = 0) : RestsAt s u := by
  obtain ⟨lo, hi⟩ := off.limits
  have p : u.mpr.p = tracked s := by rw [mpr, track_p, off.tracks_to]
  refine ⟨p, by rw [mpr]; rfl, by rw [mpr]; rfl, by rw [mpr]; rfl, ?_, ?_, output, follow⟩
  · rw [← lo, mpr]; rfl
  · rw [← hi, mpr]; rfl

/-- A reaction keeps the drive off, and the axis where tracking puts it (R3, R92, R95). -/
theorem DriveOff.react (off : DriveOff tracks n s t) : DriveOff tracks n s (reactStops t) := by
  have other := reactStops_of_other off.drive.1
  have counts := reactStops_counts t
  obtain eq | ⟨eq, -⟩ | ⟨-, -, on⟩ | ⟨eq, -⟩ := reactStops_cases t
  · rwa [eq]
  · refine ⟨by rw [eq]; simp, by simpa using off.params, by simpa using off.role, (congrArg Svo.raw counts :).trans off.raw,
      (congrArg Svo.origin counts :).trans off.origin, other.2.1.trans off.hom, by rw [eq]; simp, fun _ => ?_⟩
    rw [eq]
    exact .of_track off (by simp) (by simp) (by simp)
  · exact absurd on off.drive.1
  · refine ⟨by rw [eq]; simp, by simpa using off.params, by simpa using off.role, (congrArg Svo.raw counts :).trans off.raw,
      (congrArg Svo.origin counts :).trans off.origin, other.2.1.trans off.hom, by rw [eq]; simp, fun now => ?_⟩
    obtain ⟨p, -, -, -, atLo, atHi, -, -⟩ := off.rests now
    rw [eq]
    exact ⟨by simpa using p, by simp, by simp, by simp, by simpa using atLo, by simpa using atHi, by simp, by simp⟩

theorem DriveOff.holds (off : DriveOff tracks n s t) (cfg : u.cfg = t.cfg) (svo : u.svo = t.svo) (hom : u.hom = t.hom)
    (unheld : u.stc.unheld = t.stc.unheld) (mpr : u.mpr = t.mpr) : DriveOff tracks n s u :=
  off.of_same cfg svo hom (congrArg Stc.drive unheld :) (congrArg Stc.settle unheld :) (by rw [mpr])

theorem DriveOff.arises (off : DriveOff tracks n s t) (c : Cause) : DriveOff tracks n s (causeArises c t) :=
  (off.holds (u := holdFor c t) (by simp) (by simp) (by simp) (by simp) (by simp)).react

theorem DriveOff.causes (off : DriveOff tracks n s t) (here : Bool) : DriveOff tracks n s (causesAt here t) := by
  have halt : DriveOff tracks n s (raiseHalt t) := by
    unfold raiseHalt raiseCause
    repeat' split
    · exact off.of_same rfl rfl rfl rfl rfl rfl
    · exact (off.of_same (u := { t with stc := { t.stc with haltLatch := true } }) rfl rfl rfl rfl rfl rfl).arises _
    · exact off
  have lost : DriveOff tracks n s (lostUpdate (raiseHalt t)) := halt.of_same rfl rfl rfl rfl rfl rfl
  unfold causesAt updateCauses raisePeerLost
  dsimp only
  repeat' split
  · exact lost.arises _
  · exact lost
  · exact off

theorem DriveOff.settles (off : DriveOff tracks n s t) (before : State) : DriveOff tracks n s (settleHold before t) := by
  unfold settleHold
  split
  · exact (off.holds (u := holdAgain t) (by simp) (by simp) (by simp) (by simp) (by simp)).react
  · exact off

end

/-! ### The parts of an update of such an axis -/

theorem startUpdate_role (inp : UpdateInputs) {s : State} (known : s.cfg.startState ≠ .straps) :
    (startUpdate inp s).cfg.params = s.cfg.params ∧ (startUpdate inp s).cfg.role = s.cfg.role := by
  rw [startUpdate, if_neg known]
  unfold pollStore finishErase
  dsimp only
  repeat' split
  all_goals exact ⟨rfl, rfl⟩

section
variable {inp : UpdateInputs} {s : State}

theorem sampled_driveOff (known : s.cfg.startState ≠ .straps) (off : s.stc.drive ≠ .enabled ∧ s.stc.drive ≠ .stopping) :
    DriveOff False s.stc.settle s (sampled inp s) := by
  obtain ⟨params, role⟩ := startUpdate_role inp (s := stepAging (clockWrap (countUpdate s))) (by simpa using known)
  obtain ⟨x, svo, cleaned, -⟩ := sampled_svo inp s
  have counts : (cleanUpdate x).svo.raw = x.svo.raw ∧ (cleanUpdate x).svo.origin = x.svo.origin := by
    unfold cleanUpdate; split <;> [split; skip] <;> exact ⟨rfl, rfl⟩
  have cfg : (sampled inp s).cfg = (startUpdate inp (stepAging (clockWrap (countUpdate s)))).cfg := by
    simp [sampled, crewUpdate, readHalt]
  have stc : (sampled inp s).stc = { s.stc with haltInput := (sampled inp s).stc.haltInput } := by
    simp [sampled, readHalt, crewUpdate]
  exact ⟨by rw [stc]; exact off, by rw [cfg, params]; simp, by rw [cfg, role]; simp, by rw [cleaned, counts.1, svo],
    by rw [cleaned, counts.2, svo], by simp, by rw [stc]; exact fun waking => ⟨waking, rfl⟩, False.elim⟩

theorem toServo_driveOff (known : s.cfg.startState ≠ .straps) (off : s.stc.drive ≠ .enabled ∧ s.stc.drive ≠ .stopping) :
    DriveOff True s.stc.settle s (toServo inp s).1 ∧
      (toServo inp s).2 = { rest := true, arrival := false, overrun := false, made := 0, play := .notPlaying } := by
  have caused := (sampled_driveOff (inp := inp) known off).causes inp.causesFirst
  have decides : DriveOff False s.stc.settle s (beforeMotion inp s.cfg.station.isSome s) := by
    rw [beforeMotion_eq]
    exact caused.of_same (by simp) (by simp) (by simp) (by simp) (by simp) (by simp)
  have still : (beforeMotion inp s.cfg.station.isSome s).stc.drive = .parked ∨
      (beforeMotion inp s.cfg.station.isSome s).stc.drive = .waking ∨
      (beforeMotion inp s.cfg.station.isSome s).stc.drive = .stopped := by
    obtain ⟨on, stopping⟩ := decides.drive
    cases drive : (beforeMotion inp s.cfg.station.isSome s).stc.drive <;> simp_all
  rw [toServo, withMotion_of_off still]
  refine ⟨⟨by simpa using decides.drive, by simpa using decides.params, by simpa using decides.role, decides.raw,
    decides.origin, by simpa using decides.hom, by simpa using decides.wakes, fun _ => ?_⟩, rfl⟩
  exact .of_track decides rfl rfl rfl

theorem updateCauses_tks {s : State} (other : s.stc.drive ≠ .enabled) : (updateCauses s).tks = s.tks := by
  have arises (c : Cause) {x : State} (off : x.stc.drive ≠ .enabled) : (causeArises c x).tks = x.tks := by
    simpa [causeArises] using (reactStops_of_other (s := holdFor c x) (by simpa using off)).2.2.1
  have halt : (raiseHalt s).tks = s.tks ∧ (raiseHalt s).stc.drive ≠ .enabled := by
    unfold raiseHalt raiseCause
    repeat' split
    · exact ⟨rfl, other⟩
    · refine ⟨arises _ (by exact other), fun on => ?_⟩
      obtain eq | ⟨eq, -⟩ | ⟨-, -, now⟩ | ⟨eq, -⟩ := reactStops_cases (holdFor .halt { s with stc := { s.stc with haltLatch := true } })
      · rw [causeArises, eq] at on; exact other (by simpa using on)
      · simp [causeArises, eq] at on
      · exact other (by simpa using now)
      · simp [causeArises, eq] at on
    · exact ⟨rfl, other⟩
  unfold updateCauses raisePeerLost
  dsimp only
  split
  · rw [arises _ (by simpa using halt.2)]; simpa using halt.1
  · simpa using halt.1

theorem toServo_tks_of_off (off : s.stc.drive ≠ .enabled) : (toServo inp s).1.tks = s.tks := by
  obtain ⟨-, -, -, -, tks, -⟩ := toServo_causes inp s
  have drive : (sampled inp s).stc.drive = s.stc.drive := by simp [sampled, readHalt, crewUpdate]
  rw [tks, causesAt]
  split
  · rw [updateCauses_tks (by rwa [drive])]; simp
  · simp

theorem takesUpdate_of_none (r : Result) {s : State} (none : jobAbortable s.tks.job = false) : takesUpdate r s = s := by
  unfold takesUpdate
  cases job : s.tks.job <;> simp_all [jobAbortable]

theorem wakingUpdate_of_waking {s : State} (waking : s.stc.drive = .waking) (early : s.stc.settle + 1 < 120) :
    wakingUpdate s = { s with stc := { s.stc with settle := s.stc.settle + 1 } } := by
  have short : ¬Config.settleEnd ≤ s.stc.settle + 1 := not_le.mpr early
  simp only [wakingUpdate, waking, if_true, if_neg short]

theorem restUpdate_of_off (r : Result) {s : State} (off : s.stc.drive ≠ .enabled ∧ s.stc.drive ≠ .stopping) :
    restUpdate r s = s := by
  unfold restUpdate
  cases drive : s.stc.drive <;> simp_all

/-- A result with the drive off counts an update of WAKING and changes nothing else. -/
theorem resulted_driveOff (known : s.cfg.startState ≠ .straps)
    (drive : s.stc.drive = .parked ∨ s.stc.drive = .stopped ∨ s.stc.drive = .waking ∧ s.stc.settle + 1 < 120)
    (none : s.hom.state ≠ .homing) (jobs : jobAbortable s.tks.job = false) :
    DriveOff True (s.stc.settle + 1) s (resulted inp s) := by
  have off : s.stc.drive ≠ .enabled ∧ s.stc.drive ≠ .stopping := by rcases drive with d | d | ⟨d, -⟩ <;> simp [d]
  obtain ⟨servoed, result⟩ := toServo_driveOff (inp := inp) known off
  have tks := toServo_tks_of_off (inp := inp) off.1
  rw [resulted, takeResult, resultCauses_calm (by simp [(servoed.rests trivial).follow]) (by rw [result]),
    homingUpdate_of_none _ (by rw [servoed.hom]; exact none), restUpdate_of_off _ servoed.drive]
  by_cases waking : (toServo inp s).1.stc.drive = .waking
  · obtain ⟨was, settle⟩ := servoed.wakes waking
    have early : s.stc.settle + 1 < 120 := by
      rcases drive with d | d | ⟨-, early⟩
      · simp [d] at was
      · simp [d] at was
      · exact early
    rw [wakingUpdate_of_waking waking (by rwa [settle]), takesUpdate_of_none _ (by simpa [tks] using jobs)]
    exact ⟨servoed.drive, servoed.params, servoed.role, servoed.raw, servoed.origin, servoed.hom,
      fun _ => ⟨was, by rw [← settle]⟩, fun now => (servoed.rests now).congr rfl rfl⟩
  · rw [wakingUpdate_of_other waking, takesUpdate_of_none _ (by simpa [tks] using jobs)]
    exact ⟨servoed.drive, servoed.params, servoed.role, servoed.raw, servoed.origin, servoed.hom,
      fun now => absurd now waking, servoed.rests⟩

/-- With the drive off an update tracks, whatever causes it finds (R3). -/
theorem update_driveOff (known : s.cfg.startState ≠ .straps)
    (drive : s.stc.drive = .parked ∨ s.stc.drive = .stopped ∨ s.stc.drive = .waking ∧ s.stc.settle + 1 < 120)
    (none : s.hom.state ≠ .homing) (jobs : jobAbortable s.tks.job = false) :
    DriveOff True (s.stc.settle + 1) s (update inp s) := by
  have taken := resulted_driveOff (inp := inp) known drive none jobs
  have whole : update inp s = startWork (showDemand (settleHold s (afterMotion inp s.cfg.station.isSome (resulted inp s)))) := rfl
  have evaluates := (taken.of_kept (u := evaluated (!inp.zonesFirst) (!inp.demandFirst) (resulted inp s))
    (by simp [KeptAfter])).causes (!inp.causesFirst)
  have queues := evaluates.of_kept (u := queued inp s.cfg.station.isSome
    (causesAt (!inp.causesFirst) (evaluated (!inp.zonesFirst) (!inp.demandFirst) (resulted inp s))))
    (by simp [KeptAfter, queued, ageEntries, updateFactor])
  rw [whole, afterMotion_eq]
  have settles := (queues.of_kept (operationUpdate_kept inp.left _)).settles s
  exact settles.of_kept (by simp [KeptAfter, showDemand])

end

end Sys2Proof.Machine
end

