-- ==== Sys2Proof/Proofs/ProfileOfUpdate.lean ====
section
/-! SUPPORT. The move of an update at which no cause arises before it, and the end of STOPPING (R5, R6, R94, R98). -/

namespace Sys2Proof.Machine

open Sys2Proof.Safety

/-! ### The profile of an update (R5, R6) -/

/-- The state that the profile of an update with the drive on reads: HAND in place of HOLD and RUNOUT, HOLD in STOPPING (R5, R6). -/
def moveStart (s : State) : State :=
  if s.stc.drive = .stopping then { s with mpr := { s.mpr with mode := .hold, g := none } } else modeToHand s

/-- The mode and the target of that state. -/
def startMode (s : State) : Mode :=
  if s.stc.drive = .stopping then .hold
  else if (s.mpr.mode = .hold ∨ s.mpr.mode = .runout) ∧ s.mpr.v = 0 ∧ (s.tks.job = .idle ∨ s.tks.job = .prepared) ∧
    s.hom.state ≠ .homing then .hand
  else s.mpr.mode

def startTarget (s : State) : Option Int := if s.stc.drive = .stopping then none else s.mpr.g

theorem moveStart_eq {s : State} (on : s.stc.drive = .enabled ∨ s.stc.drive = .stopping) :
    moveStart s = { s with mpr := { s.mpr with mode := startMode s, g := startTarget s } } := by
  rcases on with enabled | stopping
  · have other : s.stc.drive ≠ .stopping := by simp [enabled]
    have mode : startMode s = if (s.mpr.mode = .hold ∨ s.mpr.mode = .runout) ∧ s.mpr.v = 0 ∧
        (s.tks.job = .idle ∨ s.tks.job = .prepared) ∧ s.hom.state ≠ .homing then .hand else s.mpr.mode := if_neg other
    have target : startTarget s = s.mpr.g := if_neg other
    rw [moveStart, if_neg other, modeToHand, mode, target]
    by_cases hand : s.mpr.v = 0 ∧ (s.tks.job = .idle ∨ s.tks.job = .prepared) ∧ s.hom.state ≠ .homing ∧
        (s.mpr.mode = .hold ∨ s.mpr.mode = .runout)
    · obtain ⟨still, job, unhomed, held⟩ := hand
      rw [if_pos ⟨enabled, still, job, unhomed, held⟩, if_pos ⟨held, still, job, unhomed⟩]
    · rw [if_neg (fun all => hand all.2), if_neg (fun ⟨held, still, job, unhomed⟩ => hand ⟨still, job, unhomed, held⟩)]
  · simp only [moveStart, startMode, startTarget, if_pos stopping]

/-- With the drive on an update makes a profile update or a playback step. -/
theorem motion_of_on (supplied : Option Int) {s : State} (on : s.stc.drive = .enabled ∨ s.stc.drive = .stopping) :
    motion supplied s = if startMode s = .playback then playbackUpdate supplied (moveStart s) else profileUpdate (moveStart s) := by
  have mode : (moveStart s).mpr.mode = startMode s := by rw [moveStart_eq on]
  rcases on with enabled | stopping
  · have other : s.stc.drive ≠ .stopping := by simp [enabled]
    have start : moveStart s = modeToHand s := if_neg other
    rw [start] at mode ⊢
    rw [← mode]
    simp only [motion, enabled, moveInMode]
  · have start : moveStart s = { s with mpr := { s.mpr with mode := .hold, g := none } } := if_pos stopping
    have hold : startMode s = .hold := if_pos stopping
    simp only [motion, stopping, start, hold]
    rfl

theorem profileUpdate_flags (s : State) :
    (profileUpdate s).1.mpr.atLo = decide ((profileUpdate s).1.mpr.p = travelLo s) ∧
      (profileUpdate s).1.mpr.atHi = decide ((profileUpdate s).1.mpr.p = travelHi s) := ⟨rfl, rfl⟩

theorem profileUpdate_overrun {s : State} (passed : (profileUpdate s).2.overrun = true) :
    (profileUpdate s).1.mpr.v = 0 ∧ (profileUpdate s).2.rest = true := by
  have still := profile_overrun_v passed
  exact ⟨still, by simpa [profileUpdate] using still⟩

theorem playbackUpdate_flags (supplied : Option Int) (s : State) :
    (playbackUpdate supplied s).1.mpr.atLo = decide ((playbackUpdate supplied s).1.mpr.p = travelLo s) ∧
      (playbackUpdate supplied s).1.mpr.atHi = decide ((playbackUpdate supplied s).1.mpr.p = travelHi s) := by
  unfold playbackUpdate
  dsimp only
  repeat' split
  all_goals exact ⟨rfl, rfl⟩

theorem playbackUpdate_overrun {supplied : Option Int} {s : State} (passed : (playbackUpdate supplied s).2.overrun = true) :
    (playbackUpdate supplied s).1.mpr.v = 0 ∧ (playbackUpdate supplied s).2.rest = true := by
  unfold playbackUpdate at *
  dsimp only at *
  split at passed
  · exact profileUpdate_overrun passed
  · split at passed
    · cases passed
    · next unplayable => simpa only [if_neg unplayable] using profileUpdate_overrun passed

section
variable {inp : UpdateInputs} {s : State}

theorem moveStart_limits {b : State} (on : b.stc.drive = .enabled ∨ b.stc.drive = .stopping) :
    travelLo (moveStart b) = travelLo b ∧ travelHi (moveStart b) = travelHi b := by
  rw [moveStart_eq on]; exact ⟨rfl, rfl⟩

theorem motion_flags (supplied : Option Int) {b : State} (on : b.stc.drive = .enabled ∨ b.stc.drive = .stopping) :
    (motion supplied b).1.mpr.atLo = decide ((motion supplied b).1.mpr.p = travelLo b) ∧
      (motion supplied b).1.mpr.atHi = decide ((motion supplied b).1.mpr.p = travelHi b) := by
  obtain ⟨lo, hi⟩ := moveStart_limits on
  rw [motion_of_on supplied on, ← lo, ← hi]
  split
  · exact playbackUpdate_flags supplied _
  · exact profileUpdate_flags _

theorem motion_overrun {supplied : Option Int} {b : State} (on : b.stc.drive = .enabled ∨ b.stc.drive = .stopping)
    (passed : (motion supplied b).2.overrun = true) : (motion supplied b).1.mpr.v = 0 ∧ (motion supplied b).2.rest = true := by
  rw [motion_of_on supplied on] at *
  split at passed
  · next play => rw [if_pos play]; exact playbackUpdate_overrun passed
  · next other => rw [if_neg other]; exact profileUpdate_overrun passed

/-- The state before the profile of a calm update, as far as its profile reads it. -/
theorem beforeMotion_reads (inp : UpdateInputs) (calm : causeFree s) {b : State} (eq : b = beforeMotion inp s.cfg.station.isSome s) :
    b.mpr = s.mpr ∧ b.hom = s.hom ∧ b.tks = s.tks ∧ b.cfg = s.cfg ∧ b.stc = { s.stc with haltInput := false } := by
  obtain ⟨mpr, hom, tks, cfg, stc, -⟩ := beforeMotion_calm inp s.cfg.station.isSome calm
  rw [← eq] at mpr hom tks cfg stc
  exact ⟨mpr, hom, tks, cfg, stc⟩

theorem startMode_congr {b : State} (mpr : b.mpr = s.mpr) (hom : b.hom = s.hom) (tks : b.tks = s.tks)
    (drive : b.stc.drive = s.stc.drive) : startMode b = startMode s ∧ startTarget b = startTarget s := by
  simp only [startMode, startTarget, mpr, hom, tks, drive, and_self]

/-- The flags and the overrun of a calm update's move (R11, R13). -/
theorem toServo_move (calm : causeFree s) (on : s.stc.drive = .enabled ∨ s.stc.drive = .stopping) :
    (toServo inp s).1.mpr.atLo = decide ((toServo inp s).1.mpr.p = travelLo s) ∧
      (toServo inp s).1.mpr.atHi = decide ((toServo inp s).1.mpr.p = travelHi s) ∧
      ((toServo inp s).2.overrun = true → (toServo inp s).1.mpr.v = 0 ∧ (toServo inp s).2.rest = true) := by
  obtain ⟨b, eq, servoed, result⟩ := toServo_eq_servo inp s
  obtain ⟨-, hom, -, cfg, stc⟩ := beforeMotion_reads inp calm eq
  have homed : isHomed b = isHomed s := by simp only [isHomed, hom]
  have onB : b.stc.drive = .enabled ∨ b.stc.drive = .stopping := by rw [stc]; exact on
  obtain ⟨atLo, atHi⟩ := motion_flags (suppliedMove b) onB
  rw [travelLo_congr cfg homed] at atLo
  rw [travelHi_congr cfg homed] at atHi
  have mpr : (toServo inp s).1.mpr = (motion (suppliedMove b) b).1.mpr := by rw [servoed]; simp
  rw [mpr, result]
  exact ⟨atLo, atHi, motion_overrun onB⟩

/-- The inputs of the profile of a calm update with the drive on (R6 to R8). -/
def updateProfile (m s : State) : ProfileIn :=
  { p := s.mpr.p, v := s.mpr.v
    d0 :=
      match startMode s with
      | .hold | .runout | .playback => 0
      | .hand => m.dmr.handDemand
      | .goto_ => ((startTarget s).map fun x => Int.sign (x - s.mpr.p) * param s (fun b => b.vGoto)).getD 0
      | .homing => if param s (fun b => b.homeDirection) = 0 then param s (fun b => b.vHome) else -param s (fun b => b.vHome)
    cap := if isHomed s then min (param s (fun b => b.vMax)) m.zmn.memberCap
      else min (min (param s (fun b => b.vMax)) m.zmn.memberCap) (param s (fun b => b.vHome))
    aEff := if s.stc.drive = .stopping then param s (fun b => b.aStop) else param s (fun b => b.aMax)
    aMax := param s (fun b => b.aMax), lo := travelLo s, hi := travelHi s, homed := isHomed s
    g := if startMode s = .goto_ then startTarget s else none }

theorem profileInputs_of {y m : State} (mpr : y.mpr = { s.mpr with mode := startMode s, g := startTarget s })
    (hom : y.hom = s.hom) (cfg : y.cfg = s.cfg) (drive : y.stc.drive = s.stc.drive) (dmr : y.dmr = m.dmr) (zmn : y.zmn = m.zmn) :
    profileInputs y y.mpr.mode = updateProfile m s := by
  have homed : isHomed y = isHomed s := by simp only [isHomed, hom]
  have item (f : Block → Int) : param y f = param s f := param_congr (by rw [cfg]) f
  have demand : sourceDemand y (startMode s) = (updateProfile m s).d0 := by
    simp only [sourceDemand, updateProfile, item, mpr, dmr]
    cases startMode s <;> cases startTarget s <;> rfl
  have mode : y.mpr.mode = startMode s := by rw [mpr]
  rw [mode]
  simp only [profileInputs, speedCap, aEffective, demand, travelLo_congr cfg homed, travelHi_congr cfg homed, homed, item, drive,
    mpr, zmn]
  rfl

/-- The profile update of a calm update in any mode but PLAYBACK (R6 to R13, R16, R22). -/
theorem toServo_profile (calm : causeFree s) (on : s.stc.drive = .enabled ∨ s.stc.drive = .stopping)
    (other : startMode s ≠ .playback) :
    let m := toServo inp s
    let o := profile (updateProfile m.1 s)
    m.1.mpr = { s.mpr with
      p := o.p, v := o.v, mode := startMode s, g := startTarget s, atLo := decide (o.p = travelLo s), atHi := decide (o.p = travelHi s) } ∧
    m.2 = { rest := decide (o.v = 0), arrival := o.arrival, overrun := o.overrun, made := o.made, play := .notPlaying } := by
  obtain ⟨b, eq, servoed, result⟩ := toServo_eq_servo inp s
  obtain ⟨mpr, hom, tks, cfg, stc⟩ := beforeMotion_reads inp calm eq
  have drive : b.stc.drive = s.stc.drive := by rw [stc]
  have onB : b.stc.drive = .enabled ∨ b.stc.drive = .stopping := by rwa [drive]
  obtain ⟨mode, target⟩ := startMode_congr mpr hom tks drive
  obtain ⟨lo, hi⟩ := moveStart_limits onB
  have homed : isHomed b = isHomed s := by simp only [isHomed, hom]
  have dmr : (toServo inp s).1.dmr = b.dmr := by rw [servoed]; simp
  have zmn : (toServo inp s).1.zmn = b.zmn := by rw [servoed]; simp
  have moved : (toServo inp s).1.mpr = (profileUpdate (moveStart b)).1.mpr := by
    rw [servoed, motion_of_on _ onB, mode, if_neg other]; simp
  have told : (toServo inp s).2 = (profileUpdate (moveStart b)).2 := by
    rw [result, motion_of_on _ onB, mode, if_neg other]
  have start : (moveStart b).mpr = { s.mpr with mode := startMode s, g := startTarget s } := by
    rw [moveStart_eq onB, mpr, mode, target]
  have inputs : profileInputs (moveStart b) (moveStart b).mpr.mode = updateProfile (toServo inp s).1 s := by
    refine profileInputs_of start ?_ ?_ ?_ ?_ ?_ <;> rw [moveStart_eq onB]
    · exact hom
    · exact cfg
    · exact drive
    · exact dmr.symm
    · exact zmn.symm
  have form (y : State) : (profileUpdate y).1.mpr = { y.mpr with
      p := (profile (profileInputs y y.mpr.mode)).p, v := (profile (profileInputs y y.mpr.mode)).v
      atLo := decide ((profile (profileInputs y y.mpr.mode)).p = travelLo y)
      atHi := decide ((profile (profileInputs y y.mpr.mode)).p = travelHi y) } := rfl
  have report (y : State) : (profileUpdate y).2 =
      { rest := decide ((profile (profileInputs y y.mpr.mode)).v = 0), arrival := (profile (profileInputs y y.mpr.mode)).arrival
        overrun := (profile (profileInputs y y.mpr.mode)).overrun, made := (profile (profileInputs y y.mpr.mode)).made
        play := .notPlaying } := rfl
  dsimp only
  refine ⟨?_, ?_⟩
  · rw [moved, form, inputs, start, lo, hi, travelLo_congr cfg homed, travelHi_congr cfg homed]
  · rw [told, report, inputs]

end

end Sys2Proof.Machine
end

