-- ==== Sys2Proof/Proofs/UpdateMoves.lean ====
section
/-! SUPPORT. What an update of an axis leaves: the tracked position, the profile's move, or the end of STOPPING (R3 to R6, R94, R98). -/

namespace Sys2Proof.Machine

open Sys2Proof.Safety

/-! ### A take's update that moves nothing (R110, R113, R115, R122) -/

theorem storeLow_mpr (s : State) : (storeLow s).mpr = s.mpr := by unfold storeLow; split <;> simp

theorem storeReport_mpr (r : StoreReport) {s : State} (records : s.tks.job = .recording) : (storeReport r s).mpr = s.mpr := by
  unfold storeReport
  split
  · exact abortOwn_mpr _ _ (by simp [records])
  · split
    · exact storeLow_mpr s
    · rfl

theorem beginRecording_mpr (s : State) : (beginRecording s).mpr = s.mpr := storeReport_mpr _ rfl

theorem beginClosing_mpr (e : Int) {s : State} (records : s.tks.job = .recording) : (beginClosing e s).mpr = s.mpr := by
  unfold beginClosing
  dsimp only
  split
  · exact abortOwn_mpr _ _ (by simp [records])
  · rfl

theorem recordMove_mpr (made : Int) {s : State} (records : s.tks.job = .recording) : (recordMove made s).mpr = s.mpr :=
  storeReport_mpr _ records

theorem recordingUpdate_mpr (r : Result) {s : State} (records : s.tks.job = .recording) : (recordingUpdate r s).mpr = s.mpr := by
  unfold recordingUpdate
  dsimp only
  repeat' split
  · exact beginClosing_mpr _ records
  · next both => rw [beginClosing_mpr _ both.2, recordMove_mpr _ records]
  · exact recordMove_mpr _ records
  · exact recordMove_mpr _ records

/-- Only a playback, its roll point and the arrival of a CUE write the mode (R110, R114, R121). -/
theorem takesUpdate_mpr {r : Result} {s : State} (still : s.tks.job ≠ .running) (cue : s.tks.job = .cueing → r.arrival = false)
    (roll : s.tks.job = .cued → s.tks.rollTime = none) : (takesUpdate r s).mpr = s.mpr := by
  unfold takesUpdate
  cases job : s.tks.job with
  | idle | closing => rfl
  | prepared =>
    dsimp only
    split
    · exact beginRecording_mpr s
    · rfl
  | cueing => simp [cue job]
  | cued => simp [atRollPoint, roll job]
  | recording => exact recordingUpdate_mpr r job
  | running => exact absurd job still
  | runout =>
    dsimp only
    split
    · simp [jobToIdle]
    · rfl

theorem takesUpdate_of_waiting (r : Result) {s : State}
    (waits : s.tks.job = .idle ∨ s.tks.job = .prepared ∧ s.tks.rollTime = none) : takesUpdate r s = s := by
  rcases waits with idle | ⟨prepared, none⟩
  · exact takesUpdate_of_idle r idle
  · simp [takesUpdate, prepared, atRollPoint, none]

/-- The end of a late operation ends a RECORDING or a CLOSING only (R127, R135, R137). -/
theorem operationUpdate_job (left : Option (List Byte)) {s : State} (other : s.tks.job ≠ .recording ∧ s.tks.job ≠ .closing) :
    (operationUpdate left s).tks.job = s.tks.job := by
  have failed (x : State) (same : x.tks = s.tks) : (storeWriteFailed x).tks.job = s.tks.job := by
    rw [← same] at other ⊢
    unfold storeWriteFailed
    cases job : x.tks.job <;> simp_all
  unfold operationUpdate operationFailed
  split
  · dsimp only
    split
    · simp only [unitIdle_frame]
      unfold programFailed
      split
      · exact failed _ rfl
      · exact failed _ rfl
      · exact failed _ rfl
      · unfold lockEnds
        dsimp only
        split <;> rfl
      all_goals rfl
    · simp
    all_goals rfl
  · rfl

section
variable {inp : UpdateInputs} {s : State}

/-! ### An ENABLED axis at whose update nothing stops it -/

theorem resulted_of_quiet (on : s.stc.drive = .enabled) (none : s.hom.state ≠ .homing) (quiet : updateQuiet inp s) :
    resulted inp s = takesUpdate (toServo inp s).2 (toServo inp s).1 := by
  obtain ⟨calm, result, stays⟩ := quiet
  obtain ⟨hom, -, -, stc, -⟩ := toServo_calm inp calm
  exact takeResult_of_enabled (by rw [stc]; exact on) (by rw [stc]; exact stays) (by rwa [hom]) result.1 result.2

theorem resulted_hold (on : s.stc.drive = .enabled) (none : s.hom.state ≠ .homing) (quiet : updateQuiet inp s) :
    (resulted inp s).stc.hold = s.stc.hold := by
  simp [resulted_of_quiet on none quiet, (toServo_calm inp quiet.1).2.2.2.1]

/-- The move of a quiet update stands, whatever a take but a playback does (R5, R6). -/
theorem update_moves_quietly (on : s.stc.drive = .enabled) (none : s.hom.state ≠ .homing) (quiet : updateQuiet inp s)
    (still : s.tks.job ≠ .running) (cue : s.tks.job = .cueing → (toServo inp s).2.arrival = false)
    (roll : s.tks.job = .cued → s.tks.rollTime = Option.none) :
    (update inp s).mpr = { (toServo inp s).1.mpr with factor := (update inp s).mpr.factor } ∧
      (update inp s).stc.drive = .enabled ∧ brakeEngaged (update inp s) = false ∧ (update inp s).hom = s.hom := by
  obtain ⟨hom, tks, -, stc, -⟩ := toServo_calm inp quiet.1
  obtain ⟨mpr, hom', -, stc', -⟩ := update_kept inp quiet.1 (.inl (resulted_hold on none quiet))
  rw [resulted_of_quiet on none quiet] at mpr hom' stc'
  simp only [takesUpdate_frame] at hom' stc'
  rw [takesUpdate_mpr (by rwa [tks]) (by rwa [tks]) (by rwa [tks])] at mpr
  have drive : (update inp s).stc.drive = .enabled := by rw [stc', stc]; exact on
  exact ⟨mpr, drive, (brakeEngaged_eq_false_iff _).mpr (.inl drive), hom'.trans hom⟩

theorem update_waits (on : s.stc.drive = .enabled) (none : s.hom.state ≠ .homing) (quiet : updateQuiet inp s)
    (waits : s.tks.job = .idle ∨ s.tks.job = .prepared ∧ s.tks.rollTime = Option.none) :
    (update inp s).tks.job = s.tks.job ∧ (inp.demandFirst = true → (update inp s).dmr.handDemand = (toServo inp s).1.dmr.handDemand) := by
  obtain ⟨-, tks, -⟩ := toServo_calm inp quiet.1
  have result : resulted inp s = (toServo inp s).1 := by
    rw [resulted_of_quiet on none quiet, takesUpdate_of_waiting _ (by rwa [tks])]
  rw [update_of_settled inp quiet.1 (.inl (resulted_hold on none quiet)), result]
  have job : (finished inp s.cfg.station.isSome (toServo inp s).1).tks.job = s.tks.job := by
    have same : (queued inp s.cfg.station.isSome (evaluated (!inp.zonesFirst) (!inp.demandFirst) (toServo inp s).1)).tks = s.tks := by
      simp [tks]
    rw [finished, operationUpdate_job, same]
    rw [same]
    rcases waits with idle | ⟨prepared, -⟩ <;> simp [*]
  refine ⟨by simpa [showDemand] using job, fun first => ?_⟩
  simp [showDemand, finished_dmr, first]

theorem startMode_hand (on : s.stc.drive = .enabled)
    (mode : s.mpr.mode = .hand ∨ (s.mpr.mode = .hold ∨ s.mpr.mode = .runout) ∧ s.mpr.v = 0)
    (job : s.tks.job = .idle ∨ s.tks.job = .prepared) (none : s.hom.state ≠ .homing) :
    startMode s = .hand ∧ startTarget s = s.mpr.g := by
  have other : s.stc.drive ≠ .stopping := by simp [on]
  refine ⟨?_, if_neg other⟩
  rw [startMode, if_neg other]
  rcases mode with hand | ⟨held, rest⟩
  · rw [hand, ite_self]
  · rw [if_pos ⟨held, rest, job, none⟩]

/-! ### A drive that ends STOPPING, or parks (R94, R98) -/

theorem resulted_of_rests (calm : causeFree s) (result : resultCalm inp s) (none : s.hom.state ≠ .homing)
    (jobs : jobAbortable s.tks.job = false) (on : s.stc.drive = .stopping ∨ s.stc.drive = .enabled ∧ s.stc.parkPending = true) :
    resulted inp s = restUpdate (toServo inp s).2 (toServo inp s).1 := by
  obtain ⟨hom, tks, -, stc, -⟩ := toServo_calm inp calm
  have awake : (restUpdate (toServo inp s).2 (toServo inp s).1).stc.drive ≠ .waking := by
    unfold restUpdate
    repeat' split
    · rw [endStopping_eq ‹_›]; dsimp only; split <;> simp
    · simp
    all_goals rcases on with d | ⟨d, -⟩ <;> simp [stc, d]
  rw [resulted, takeResult, resultCauses_calm result.1 result.2, homingUpdate_of_none _ (by rwa [hom]), wakingUpdate_of_other awake,
    takesUpdate_of_none _ (by rwa [restUpdate_tks, tks])]

/-- A move that is not at rest goes on (R94, R98). -/
theorem update_ramps (calm : causeFree s) (result : resultCalm inp s) (none : s.hom.state ≠ .homing)
    (jobs : jobAbortable s.tks.job = false) (on : s.stc.drive = .stopping ∨ s.stc.drive = .enabled ∧ s.stc.parkPending = true)
    (moving : (toServo inp s).2.rest = false) : KeptAfter (toServo inp s).1 (update inp s) := by
  have same : resulted inp s = (toServo inp s).1 := by
    rw [resulted_of_rests calm result none jobs on, restUpdate, if_neg (by simp [moving])]
  rw [← same]
  exact update_kept inp calm (.inl (by rw [same, (toServo_calm inp calm).2.2.2.1]))

/-- The end of STOPPING, and a park, as the result at rest leaves them (R94, R98). -/
structure Ended (s t : State) (p : Int) : Prop where
  stc : t.stc = { s.stc with
    haltInput := false
    drive := if s.stc.parkPending = false ∧ stopInForce s = true then .stopped else .parked, settle := 0, parkPending := false }
  hom : t.hom = s.hom
  output : t.svo.u = 0
  follow : t.svo.follow = 0
  p : t.mpr.p = p
  v : t.mpr.v = 0
  mode : t.mpr.mode = .hold
  g : t.mpr.g = none
  atLo : t.mpr.atLo = decide (t.mpr.p = travelLo s)
  atHi : t.mpr.atHi = decide (t.mpr.p = travelHi s)

theorem Ended.of_kept {t u : State} {p : Int} (ended : Ended s t p) (kept : KeptAfter t u) : Ended s u p := by
  obtain ⟨mpr, hom, -, stc, svo⟩ := kept
  exact ⟨by rw [stc, ended.stc], by rw [hom, ended.hom], by rw [svo, ended.output], by rw [svo, ended.follow],
    by rw [mpr]; exact ended.p, by rw [mpr]; exact ended.v, by rw [mpr]; exact ended.mode, by rw [mpr]; exact ended.g,
    by rw [mpr]; exact ended.atLo, by rw [mpr]; exact ended.atHi⟩

theorem toServo_limits (calm : causeFree s) : travelLo (toServo inp s).1 = travelLo s ∧ travelHi (toServo inp s).1 = travelHi s := by
  obtain ⟨hom, -, cfg, -⟩ := toServo_calm inp calm
  have homed : isHomed (toServo inp s).1 = isHomed s := by simp only [isHomed, hom]
  exact ⟨travelLo_congr cfg homed, travelHi_congr cfg homed⟩

theorem stopInForce_toServo (calm : causeFree s) : stopInForce (toServo inp s).1 = stopInForce s := by
  simp only [stopInForce, (toServo_calm inp calm).2.2.2.1]

theorem endStopping_ended (calm : causeFree s) (stopping : s.stc.drive = .stopping) :
    Ended s (endStopping (toServo inp s).1) (tracked s) := by
  obtain ⟨hom, -, -, stc, -⟩ := toServo_calm inp calm
  obtain ⟨lo, hi⟩ := toServo_limits (inp := inp) calm
  rw [endStopping_eq (by rw [stc]; exact stopping)]
  refine ⟨by rw [stopInForce_toServo calm, stc], hom, rfl, rfl, (track_p _).trans (tracked_toServo inp calm), rfl, rfl, rfl, ?_, ?_⟩
  · rw [← lo]; rfl
  · rw [← hi]; rfl

theorem enterParked_ended (calm : causeFree s) (on : s.stc.drive = .enabled) (pending : s.stc.parkPending = true) :
    Ended s (enterParked (toServo inp s).1) (toServo inp s).1.mpr.p := by
  obtain ⟨hom, -, -, stc, -⟩ := toServo_calm inp calm
  obtain ⟨atLo, atHi, -⟩ := toServo_move (inp := inp) calm (.inl on)
  exact ⟨by rw [enterParked_stc, stc]; simp [pending], by simp [hom], by simp, by simp, by simp, by simp, by simp, by simp,
    by simpa using atLo, by simpa using atHi⟩

/-- At rest STOPPING ends and a pending park is made (R94, R98). -/
theorem update_ends (calm : causeFree s) (result : resultCalm inp s) (none : s.hom.state ≠ .homing)
    (jobs : jobAbortable s.tks.job = false) (on : s.stc.drive = .stopping ∨ s.stc.drive = .enabled ∧ s.stc.parkPending = true)
    (rest : (toServo inp s).2.rest = true) :
    Ended s (update inp s) (if s.stc.drive = .stopping then tracked s else (toServo inp s).1.mpr.p) := by
  obtain ⟨-, -, -, stc, -⟩ := toServo_calm inp calm
  have ended : Ended s (resulted inp s) (if s.stc.drive = .stopping then tracked s else (toServo inp s).1.mpr.p) := by
    rw [resulted_of_rests calm result none jobs on, restUpdate, if_pos rest, stc]
    rcases on with stopping | ⟨enabled, pending⟩
    · simp only [stopping, if_true]
      exact endStopping_ended calm stopping
    · simp only [enabled, pending, if_true, reduceCtorEq, if_false]
      exact enterParked_ended calm enabled pending
  exact ended.of_kept (update_kept inp calm (.inl (by rw [ended.stc])))

/-! ### OVERRUN of the move (R11, R14, R94) -/

/-- What the OVERRUN of a move ends in. -/
structure Overran (s t : State) : Prop where
  latch : t.stc.overrunLatch = true
  drive : t.stc.drive = if s.stc.parkPending = true then .parked else .stopped
  hold : t.stc.hold = some (s.stc.hold.getD overrunHold)
  output : t.svo.u = 0
  v : t.mpr.v = 0
  mode : t.mpr.mode = .hold
  g : t.mpr.g = none
  p : t.mpr.p = tracked s

theorem Overran.of_kept {t u : State} (ran : Overran s t) (kept : KeptAfter t u) : Overran s u := by
  obtain ⟨mpr, -, -, stc, svo⟩ := kept
  exact ⟨by rw [stc, ran.latch], by rw [stc, ran.drive], by rw [stc, ran.hold], by rw [svo, ran.output], by rw [mpr]; exact ran.v,
    by rw [mpr]; exact ran.mode, by rw [mpr]; exact ran.g, by rw [mpr]; exact ran.p⟩

/-- A node that does not hold has no cause present (R88). -/
theorem stopSafe_none (safe : stopSafe s) (unheld : s.stc.hold = none) (c : Cause) : causePresent s c = false := by
  rw [← Bool.not_eq_true]
  intro present
  have held := safe.2.2.2 c present
  simp [unheld] at held

theorem toServo_none (calm : causeFree s) (none : ∀ c, causePresent s c = false) (c : Cause) :
    causePresent (toServo inp s).1 c = false := by
  rw [← Bool.not_eq_true]
  intro present
  exact absurd (toServo_present inp calm c present) (by simp [none c])

theorem resultCauses_overrun {r : Result} (follows : s.svo.follow < 3) (passed : r.overrun = true) :
    resultCauses r s = raiseOverrun s := by
  rw [resultCauses_eq, if_pos passed, if_neg (by omega)]

/-- OVERRUN stops an ENABLED axis in the update of the move (R93, R94). -/
theorem update_overran_enabled (calm : causeFree s) (safe : stopSafe s) (on : s.stc.drive = .enabled)
    (follows : (toServo inp s).1.svo.follow < 3) (passed : (toServo inp s).2.overrun = true) : Overran s (update inp s) := by
  obtain ⟨-, -, -, stc, -⟩ := toServo_calm inp calm
  have free : stopInForce s = false := safe.1 (.inr on)
  have unheld := (stopInForce_eq_false free).1
  have none := toServo_none (inp := inp) calm (stopSafe_none safe unheld)
  have still := ((toServo_move (inp := inp) calm (.inl on)).2.2 passed).1
  have onM : (toServo inp s).1.stc.drive = .enabled := by rw [stc]; exact on
  have freeM : stopInForce (toServo inp s).1 = false := (stopInForce_toServo calm).trans free
  have stopped := raiseOverrun_stops onM still freeM none
  have drive : (raiseOverrun (toServo inp s).1).stc.drive = if s.stc.parkPending = true then .parked else .stopped := by
    rw [stopped.stc, stc]
  have homing : (raiseOverrun (toServo inp s).1).hom.state ≠ .homing := by
    have stop : stopInForce (overrunHeld (toServo inp s).1) = true := (overrunHeld_soft freeM none).2
    rw [raiseOverrun_eq, if_neg (by simpa [causePresent] using none .overrun), causeArises_hom]
    split
    · simp [failedHom]
    · next other => exact fun seeks => other ⟨onM, stop, seeks⟩
  have jobs : jobAbortable (raiseOverrun (toServo inp s).1).tks.job = false := by
    have stop : stopInForce (overrunHeld (toServo inp s).1) = true := (overrunHeld_soft freeM none).2
    have react : (raiseOverrun (toServo inp s).1).tks = (reactStops (overrunHeld (toServo inp s).1)).tks := by
      rw [raiseOverrun_eq, if_neg (by simpa [causePresent] using none .overrun)]; rfl
    rw [react]
    cases held : jobAbortable (overrunHeld (toServo inp s).1).tks.job
    · rw [reactStops_tks_of_none held, held]
    · rw [(reactStops_tks_of_abortable (by rw [overrunHeld_stc freeM none]; exact onM) stop held).1]; rfl
  have off : (raiseOverrun (toServo inp s).1).stc.drive ≠ .enabled ∧ (raiseOverrun (toServo inp s).1).stc.drive ≠ .stopping ∧
      (raiseOverrun (toServo inp s).1).stc.drive ≠ .waking := by
    rw [drive]; split <;> simp
  have result : resulted inp s = raiseOverrun (toServo inp s).1 := by
    rw [resulted, takeResult, resultCauses_overrun follows passed, homingUpdate_of_none _ homing,
      restUpdate_of_off _ ⟨off.1, off.2.1⟩, wakingUpdate_of_other off.2.2, takesUpdate_of_none _ jobs]
  have ran : Overran s (raiseOverrun (toServo inp s).1) :=
    ⟨by rw [stopped.stc], drive, by rw [stopped.stc, unheld]; rfl, stopped.output, stopped.v, stopped.mode, stopped.g,
      stopped.p.trans (tracked_toServo inp calm)⟩
  refine ran.of_kept (result ▸ update_kept inp calm (.inr ?_))
  rw [result, stopped.causes, stopped.stc]
  rfl

/-- A hold for OVERRUN in STOPPING: the hold there was, or the one that OVERRUN begins; it never makes a RAMP hold HARD (R88). -/
theorem overrunHeld_hold (none : s.stc.hold = none → ∀ c, causePresent s c = false) :
    (overrunHeld s).stc.hold = some (s.stc.hold.getD overrunHold) := by
  cases hold : s.stc.hold with
  | none =>
    have formed : formHold (localCauses (overrunSet s)) = some overrunHold := by rw [localCauses_overrunSet (none hold)]; rfl
    have unheld : (overrunSet s).stc.hold = Option.none := hold
    rw [overrunHeld, holdFor, unheld]
    dsimp only
    rw [holdAgain_of_formed formed]
    simp
  | some h =>
    have held : (overrunSet s).stc.hold = some h := hold
    rw [overrunHeld, holdFor, held]
    dsimp only
    rw [if_neg (by simp [causeKind]), held]
    rfl

theorem hardInForce_overrunHeld (soft : hardInForce s = false) (none : s.stc.hold = none → ∀ c, causePresent s c = false) :
    hardInForce (overrunHeld s) = false := by
  have holders : (overrunHeld s).stc.holders = s.stc.holders := (congrArg Stc.holders (holdFor_unheld .overrun (overrunSet s)) :)
  simp only [hardInForce, overrunHeld_hold none, holders, Bool.or_eq_false_iff] at soft ⊢
  refine ⟨?_, soft.2⟩
  cases hold : s.stc.hold with
  | none => rfl
  | some h => simpa [hold] using soft.1

/-- OVERRUN in STOPPING ends it in the same update (R88, R94). -/
theorem update_overran_stopping (calm : causeFree s) (safe : stopSafe s) (stopping : s.stc.drive = .stopping)
    (none : s.hom.state ≠ .homing) (jobs : jobAbortable s.tks.job = false) (clear : s.stc.overrunLatch = false)
    (follows : (toServo inp s).1.svo.follow < 3) (passed : (toServo inp s).2.overrun = true) : Overran s (update inp s) := by
  obtain ⟨hom, tks, cfg, stc, -⟩ := toServo_calm inp calm
  have rest := ((toServo_move (inp := inp) calm (.inr stopping)).2.2 passed).2
  have causes (unheld : (toServo inp s).1.stc.hold = Option.none) : ∀ c, causePresent (toServo inp s).1 c = false :=
    toServo_none calm (stopSafe_none safe (by rwa [stc] at unheld))
  have soft : hardInForce (toServo inp s).1 = false := by
    simpa only [hardInForce, stc] using safe.2.1 stopping
  have hold := overrunHeld_hold causes
  have drive : (overrunHeld (toServo inp s).1).stc.drive = .stopping := by
    rw [overrunHeld, holdFor_drive]; simp [stc, stopping]
  have raised : raiseOverrun (toServo inp s).1 = overrunHeld (toServo inp s).1 := by
    rw [raiseOverrun_eq, if_neg (by simp [stc, clear])]
    exact reactStops_of_stopping (hardInForce_overrunHeld soft causes) drive
  have unheld := holdFor_unheld .overrun (overrunSet (toServo inp s).1)
  have latch : (overrunHeld (toServo inp s).1).stc.overrunLatch = true := (congrArg Stc.overrunLatch unheld :)
  have pending : (overrunHeld (toServo inp s).1).stc.parkPending = s.stc.parkPending :=
    (congrArg Stc.parkPending unheld :).trans (by simp [overrunSet, stc, Stc.unheld])
  have stop : stopInForce (overrunHeld (toServo inp s).1) = true := stopInForce_of_hold (by simp [hold])
  have at_ : tracked (overrunHeld (toServo inp s).1) = tracked s :=
    (tracked_congr (by simp) (by simp) (by simp [isHomed])).trans (tracked_toServo inp calm)
  have result : resulted inp s = endStopping (overrunHeld (toServo inp s).1) := by
    have rests : restUpdate (toServo inp s).2 (overrunHeld (toServo inp s).1) = endStopping (overrunHeld (toServo inp s).1) := by
      simp [restUpdate, rest, drive]
    have awake : (endStopping (overrunHeld (toServo inp s).1)).stc.drive ≠ .waking := by
      rw [endStopping_eq drive]; dsimp only; split <;> simp
    rw [resulted, takeResult, resultCauses_overrun follows passed, raised, homingUpdate_of_none _ (by simpa [hom] using none), rests,
      wakingUpdate_of_other awake, takesUpdate_of_none]
    rw [endStopping_eq drive]
    simpa [tks] using jobs
  have ran : Overran s (resulted inp s) := by
    rw [result, endStopping_eq drive]
    refine ⟨latch, ?_, ?_, rfl, rfl, rfl, rfl, (track_p _).trans at_⟩
    · simp only [pending, stop, and_true]
      cases s.stc.parkPending <;> rfl
    · rw [hold, stc]
  refine ran.of_kept (update_kept inp calm ?_)
  cases was : s.stc.hold with
  | some h => exact .inl (by rw [ran.hold, was]; rfl)
  | none =>
    right
    have set : localCauses (overrunHeld (toServo inp s).1) = localCauses (overrunSet (toServo inp s).1) :=
      localCauses_congr (congrArg Stc.latches unheld :) (by simp [overrunHeld]) (by simp [overrunHeld])
        (congrArg Lnk.linkFault (holdFor_besideSafety .overrun (overrunSet (toServo inp s).1)) :)
    have ends : localCauses (resulted inp s) = localCauses (overrunHeld (toServo inp s).1) := by
      rw [result, endStopping_eq drive]
      exact localCauses_congr rfl rfl rfl rfl
    rw [ends, set, localCauses_overrunSet (causes (by rw [stc, was])), ran.hold, was]
    rfl

end

/-- Settles O25: tracking, the profile's move, and the end of STOPPING, each by what the result leaves and no later part undoes. -/
theorem updateTracksOrMoves : Obligations.UpdateTracksOrMoves := by
  unfold Obligations.UpdateTracksOrMoves
  refine ⟨fun inp s drive known none jobs safe => ?_, fun inp s on mode waits none quiet => ?_, fun inp s calm on => ?_,
    fun inp s on none quiet still cue roll => ?_, fun inp s calm result safe none jobs on => ?_,
    fun inp s calm stops safe on follows passed clear => ?_⟩
  · have off := update_driveOff (inp := inp) known drive none jobs
    obtain ⟨p, v, held, g, atLo, atHi, output, follow⟩ := off.rests trivial
    exact ⟨_, rfl, fun _ waking => (off.wakes waking).2, p.trans (tracked_eq safe.2.2.2), v, held, g, output, follow, atLo, atHi,
      (lines_of_off off.drive).2, off.hom⟩
  · have job : s.tks.job = .idle ∨ s.tks.job = .prepared := waits.imp_right (·.1)
    obtain ⟨hand, target⟩ := startMode_hand on mode job none
    obtain ⟨mpr, drive, brake, hom⟩ := update_moves_quietly on none quiet
      (by rcases job with j | j <;> simp [j]) (by rcases job with j | j <;> simp [j]) (by rcases job with j | j <;> simp [j])
    obtain ⟨same, demand⟩ := update_waits on none quiet waits
    obtain ⟨moved, -⟩ := toServo_profile (inp := inp) quiet.1 (.inl on) (by simp [hand])
    have inputs : updateProfile (toServo inp s).1 s =
        { p := s.mpr.p, v := s.mpr.v
          d0 := if inp.demandFirst then (update inp s).dmr.handDemand else s.dmr.handDemand
          cap := if isHomed s then
              min (param s (fun b => b.vMax)) ((if inp.zonesFirst then (update inp s).zmn.memberCap else s.zmn.memberCap : Nat) : Int)
            else min (min (param s (fun b => b.vMax))
              ((if inp.zonesFirst then (update inp s).zmn.memberCap else s.zmn.memberCap : Nat) : Int)) (param s (fun b => b.vHome))
          aEff := param s (fun b => b.aMax), aMax := param s (fun b => b.aMax)
          lo := travelLo s, hi := travelHi s, homed := isHomed s, g := Option.none } := by
      have formed : (toServo inp s).1.dmr.handDemand =
          if inp.demandFirst then (update inp s).dmr.handDemand else s.dmr.handDemand := by
        split
        · next first => exact (demand first).symm
        · next later => rw [toServo_dmr quiet.1 (by simpa using later)]
      simp only [updateProfile, hand, formed, update_memberCap, on, reduceCtorEq, if_false]
    rw [inputs] at moved
    refine ⟨_, rfl, ?_⟩
    dsimp only
    rw [mpr, moved]
    exact ⟨rfl, rfl, hand, target, rfl, rfl, drive, brake, hom, same⟩
  · exact ⟨_, rfl, update_memberCap inp s, toServo_dmr calm, fun other =>
      have moved := toServo_profile (inp := inp) calm on other
      ⟨moved.1, (toServo_err inp calm on).trans (by rw [moved.1]; rfl), moved.2⟩⟩
  · exact ⟨_, rfl, update_moves_quietly on none quiet still cue roll⟩
  · cases rest : (toServo inp s).2.rest
    · obtain ⟨mpr, hom, -, stc, -⟩ := update_ramps calm result none jobs on rest
      obtain ⟨homM, -, -, stcM, -⟩ := toServo_calm inp calm
      have same : (update inp s).stc = { s.stc with haltInput := false } := stc.trans stcM
      refine ⟨_, rfl, by rw [same], by rw [same], hom.trans homM, fun _ => ⟨by rw [same], by rw [same], ?_, mpr⟩,
        fun at_ => absurd (rest.symm.trans at_) (by simp)⟩
      exact (brakeEngaged_eq_false_iff _).mpr (by rw [same]; exact on.symm.imp (·.1) id)
    · have ended := update_ends calm result none jobs on rest
      have drive : (update inp s).stc.drive = if s.stc.parkPending = false ∧ stopInForce s = true then .stopped else .parked := by
        rw [ended.stc]
      refine ⟨_, rfl, by rw [ended.stc], by rw [ended.stc], ended.hom, fun moving => absurd (rest.symm.trans moving) (by simp), fun _ => ?_⟩
      have p := ended.p
      rw [tracked_eq safe.2.2.2] at p
      exact ⟨drive, by rw [ended.stc], by rw [ended.stc], brakeEngaged_of_off drive (by split <;> simp), ended.output, ended.follow, p,
        ended.v, ended.mode, ended.g, ended.atLo, ended.atHi⟩
  · have ran : Overran s (update inp s) := by
      rcases on with enabled | ⟨stopping, none, jobs⟩
      · exact update_overran_enabled calm stops enabled follows passed
      · exact update_overran_stopping calm stops stopping none jobs clear follows passed
    exact ⟨_, rfl, ran.latch, ran.drive, ran.hold, brakeEngaged_of_off ran.drive (by split <;> simp), ran.output, ran.v, ran.mode,
      ran.g, ran.p.trans (tracked_eq safe.2.2.2)⟩

end Sys2Proof.Machine
end

