-- ==== Sys2Proof/Proofs/TakeStore.lean ====
section
/-! SUPPORT. The take store while a take is recorded: its recording, its pool and its page buffer (R115, R129 to R139). -/

namespace Sys2Proof.Machine

open Sys2Proof.Safety

/-! ### The recording and the pool under a change of the recording (R129, R130) -/

theorem findSome_recording (f : Recording → Recording) (l : List DirEntry) :
    (l.map fun e => { e with recording := e.recording.map f }).findSome? (fun e => e.recording.map fun r => (e, r)) =
      (l.findSome? fun e => e.recording.map fun r => (e, r)).map fun x => ({ x.1 with recording := some (f x.2) }, f x.2) := by
  induction l with
  | nil => rfl
  | cons e l ih =>
    rw [List.map_cons, List.findSome?_cons, List.findSome?_cons, ih]
    cases e.recording <;> rfl

/-- A change of the recording changes it where it stands. -/
theorem recordingOf_mapRecording (f : Recording → Recording) (t : Tsc) :
    (t.mapRecording f).recordingOf = t.recordingOf.map fun x => ({ x.1 with recording := some (f x.2) }, f x.2) :=
  findSome_recording f t.directory

/-- The sectors that the segment lists name (R129). -/
def Tsc.sectors (t : Tsc) : List Nat := t.directory.flatMap fun e => e.segments.map (·.sector)

theorem sectors_mapRecording {f : Recording → Recording}
    (same : ∀ r, (f r).segments.map (·.sector) = r.segments.map (·.sector)) (t : Tsc) : (t.mapRecording f).sectors = t.sectors := by
  have entry (e : DirEntry) : (DirEntry.segments { e with recording := e.recording.map f }).map (·.sector) =
      e.segments.map (·.sector) := by
    simp only [DirEntry.segments, List.map_append]
    cases e.recording <;> simp [same]
  simp only [Tsc.sectors, Tsc.mapRecording, List.flatMap_map]
  exact congrArg (List.flatMap · t.directory) (funext entry)

/-- The parts of TSC, the segment lists apart, that say which sectors are ERASED (R129). -/
def Tsc.pool (t : Tsc) : Nat × List Nat × List Nat × List Nat × List ScanNote :=
  (t.scanNext, t.eraseQueue, t.bad, t.sectors, t.scanNotes)

theorem inUse_eq (t : Tsc) : t.inUse = t.sectors ++ t.scanNotes.map (·.sector) := rfl

theorem erased_congr {t u : Tsc} (pool : u.pool = t.pool) : u.erased = t.erased := by
  simp only [Tsc.pool, Prod.mk.injEq] at pool
  simp only [Tsc.erased, inUse_eq, pool]

theorem isErased_congr {t u : Tsc} (pool : u.pool = t.pool) (c : Nat) : u.isErased c = t.isErased c := by
  simp only [Tsc.pool, Prod.mk.injEq] at pool
  simp only [Tsc.isErased, inUse_eq, pool]

theorem findErased_congr {t u : Tsc} (pool : u.pool = t.pool) : ∀ n c, u.findErased n c = t.findErased n c
  | 0, _ => rfl
  | n + 1, c => by rw [Tsc.findErased, Tsc.findErased, isErased_congr pool, findErased_congr pool n]

theorem pool_mapRecording {f : Recording → Recording}
    (same : ∀ r, (f r).segments.map (·.sector) = r.segments.map (·.sector)) (t : Tsc) : (t.mapRecording f).pool = t.pool := by
  simp only [Tsc.pool, sectors_mapRecording same]
  rfl

/-! ### What starting the next work leaves of the store (R139) -/

/-- TSC without its unit, its reads, its close-and-lock list and its directory: what starting work leaves alone. -/
def Tsc.queues (t : Tsc) : Tsc :=
  { t with unit := .idle, reads := [], opAge := 0, suspendAge := 0, reported := false, directory := [], closeList := [] }

/-- A recording without the flags of its sectors. -/
def Recording.outline (r : Recording) : StationMask × Int × Int × Nat × List (Nat × Nat) :=
  (r.mask, r.startPos, r.initialMove, r.count, r.segments.map fun g => (g.sector, g.seq))

/-- The take number and the outline of the recording. -/
def Tsc.outline (t : Tsc) : Option (Byte × StationMask × Int × Int × Nat × List (Nat × Nat)) :=
  t.recordingOf.map fun x => (x.1.number, x.2.outline)

/-- What starting work keeps of the store. -/
structure Stored (t u : Tsc) : Prop where
  queues : u.queues = t.queues
  outline : u.outline = t.outline
  pool : u.pool = t.pool

theorem Stored.rfl {t : Tsc} : Stored t t := ⟨Eq.refl _, Eq.refl _, Eq.refl _⟩

theorem Stored.of_unit {t u : Tsc} (queues : u.queues = t.queues) (directory : u.directory = t.directory) : Stored t u := by
  have scanNext : u.scanNext = t.scanNext := (congrArg Tsc.scanNext queues :)
  have eraseQueue : u.eraseQueue = t.eraseQueue := (congrArg Tsc.eraseQueue queues :)
  have bad : u.bad = t.bad := (congrArg Tsc.bad queues :)
  have scanNotes : u.scanNotes = t.scanNotes := (congrArg Tsc.scanNotes queues :)
  exact ⟨queues, by simp only [Tsc.outline, Tsc.recordingOf, directory], by
    simp only [Tsc.pool, Tsc.sectors, scanNext, eraseQueue, bad, scanNotes, directory]⟩

/-- A sector marked as programmed. -/
def markSector (sector : Nat) (r : Recording) : Recording :=
  { r with segments := r.segments.map fun g => if g.sector = sector then { g with programmed := true } else g }

theorem markSector_outline (sector : Nat) (r : Recording) : (markSector sector r).outline = r.outline := by
  have entry : ((fun g : Segment => (g.sector, g.seq)) ∘ fun g => if g.sector = sector then { g with programmed := true } else g) =
      fun g => (g.sector, g.seq) := by
    funext g; simp only [Function.comp]; split <;> rfl
  simp only [markSector, Recording.outline, List.map_map, entry]

theorem markSector_sectors (sector : Nat) (r : Recording) :
    (markSector sector r).segments.map (·.sector) = r.segments.map (·.sector) := by
  have outline := markSector_outline sector r
  simp only [Recording.outline, Prod.mk.injEq] at outline
  simpa [List.map_map, Function.comp_def] using congrArg (List.map Prod.fst) outline.2.2.2.2

theorem startProgram_stored (p : Program) (t : Tsc) : Stored t (startProgram p t) := by
  have eq : t.markProgrammed (p.address / Config.sectorBytes) = t.mapRecording (markSector (p.address / Config.sectorBytes)) := by
    rw [Tsc.markProgrammed]; rfl
  have marked : Stored t (t.markProgrammed (p.address / Config.sectorBytes)) := by
    rw [eq]
    refine ⟨by rfl, ?_, pool_mapRecording (markSector_sectors _) t⟩
    rw [Tsc.outline, recordingOf_mapRecording, Option.map_map]
    simp only [Function.comp_def, markSector_outline]
    rfl
  have issued := Stored.of_unit (t := t.markProgrammed (p.address / Config.sectorBytes)) (u := startProgram p t) (by rfl) (by rfl)
  exact ⟨issued.queues.trans marked.queues, issued.outline.trans marked.outline, issued.pool.trans marked.pool⟩

theorem startWork_stored (s : State) : Stored s.tsc (startWork s).tsc := by
  unfold startWork
  repeat' split
  · exact .of_unit (by rfl) (by rfl)
  · exact startProgram_stored _ _
  · exact .of_unit (by rfl) (by rfl)
  · exact startProgram_stored _ _
  · exact .of_unit (by rfl) (by rfl)
  · exact .of_unit (by rfl) (by rfl)
  all_goals exact .rfl

/-! ### A delta accepted (R133, R134) -/

/-- The recording with one delta more. -/
def counted (r : Recording) : Recording := { r with count := r.count + 1 }

theorem counted_outline (r : Recording) :
    (counted r).outline = (r.mask, r.startPos, r.initialMove, r.count + 1, r.segments.map fun g => (g.sector, g.seq)) := rfl

/-- The store with one delta more. -/
def accepted (d : Int) (t : Tsc) : Tsc := Tsc.mapRecording counted { t with pageBuffer := t.pageBuffer ++ [d] }

section
variable {t : Tsc} {e : DirEntry} {r : Recording}

theorem accepted_recordingOf (d : Int) (records : t.recordingOf = some (e, r)) :
    (accepted d t).recordingOf = some ({ e with recording := some (counted r) }, counted r) := by
  have same : Tsc.recordingOf { t with pageBuffer := t.pageBuffer ++ [d] } = t.recordingOf := rfl
  rw [accepted, recordingOf_mapRecording, same, records]
  rfl

theorem accepted_pool (d : Int) (t : Tsc) : (accepted d t).pool = t.pool :=
  pool_mapRecording (f := counted) (fun _ => rfl) { t with pageBuffer := t.pageBuffer ++ [d] }

theorem acceptDelta_within (d : Int) (records : t.recordingOf = some (e, r)) (short : t.pageBuffer.length + 1 < 127)
    (inside : ¬(0 < r.count ∧ r.count % 1905 = 0)) : acceptDelta d t = (accepted d t, StoreReport.quiet) := by
  have small : ¬(accepted d t).pageBuffer.length = Config.pageDeltas := by
    show ¬(t.pageBuffer ++ [d]).length = 127
    simp only [List.length_append, List.length_singleton]
    omega
  simp only [acceptDelta, records]
  rw [if_neg (show ¬(0 < r.count ∧ r.count % Config.segmentDeltas = 0) from inside)]
  simp only [StoreReport.quiet, Bool.false_eq_true, if_false]
  exact if_neg small

/-- The write-queue entry of a full page (R134). -/
def pageEntry (r : Recording) (deltas : List Int) : WriteEntry :=
  { sector := (sectorOf r.segments (pageOf r.count).seq).getD 0, seq := (pageOf r.count).seq, page := (pageOf r.count).page
    deltas := deltas
    steps := (if (pageOf r.count).page = 1 then [.header] else []) ++ [.page] ++
      (if (pageOf r.count).page = 15 then [.segClose] else []) }

theorem acceptDelta_page (d : Int) (records : t.recordingOf = some (e, r)) (full : t.pageBuffer.length = 126)
    (inside : ¬(0 < r.count ∧ r.count % 1905 = 0)) :
    acceptDelta d t =
      if t.writeQueue.length < 6 then
        ({ accepted d t with
            pageBuffer := [], writeQueue := t.writeQueue ++ [pageEntry r (t.pageBuffer ++ [d])] },
          { overrun := false, low := decide (t.erased ≤ 1) })
      else ({ accepted d t with pageBuffer := [] }, { overrun := true, low := false }) := by
  have whole : (accepted d t).pageBuffer.length = Config.pageDeltas := by
    show (t.pageBuffer ++ [d]).length = 127
    simp [full]
  have formed : formPage r.count (accepted d t) =
      if t.writeQueue.length < 6 then
        ({ accepted d t with
            pageBuffer := [], writeQueue := t.writeQueue ++ [pageEntry r (t.pageBuffer ++ [d])] },
          { overrun := false, low := decide (t.erased ≤ 1) })
      else ({ accepted d t with pageBuffer := [] }, { overrun := true, low := false }) := by
    have erased : (accepted d t).erased = t.erased := erased_congr (accepted_pool d t)
    have steps : pageSteps (pageOf r.count).page (accepted d t).pageBuffer.length =
        (if (pageOf r.count).page = 1 then [.header] else []) ++ [.page] ++
          (if (pageOf r.count).page = 15 then [.segClose] else []) := by
      rw [pageSteps, whole]; simp
    rw [formPage, accepted_recordingOf d records]
    dsimp only
    rw [steps, erased]
    rfl
  simp only [acceptDelta, records]
  rw [if_neg (show ¬(0 < r.count ∧ r.count % Config.segmentDeltas = 0) from inside)]
  simp only [StoreReport.quiet, Bool.false_eq_true, if_false]
  refine (if_pos whole).trans ?_
  rw [show formPage r.count (Tsc.mapRecording (fun r => { r with count := r.count + 1 }) { t with pageBuffer := t.pageBuffer ++ [d] }) = _ from formed]
  split <;> rfl

/-- The recording with a segment more. -/
def extended (sector seq : Nat) (r : Recording) : Recording :=
  { r with segments := r.segments ++ [{ sector := sector, seq := seq, programmed := false, retire := false }] }

/-- The store with a sector taken for the recording (R133). -/
def allotted (sector seq : Nat) (t : Tsc) : Tsc := Tsc.mapRecording (extended sector seq) { t with cursor := nextSector sector }

theorem allocate_none {seq : Nat} (none : t.findErased 4095 t.cursor = none) :
    allocate seq t = (t, { overrun := true, low := false }) := by
  have none' : t.findErased Config.lastSector t.cursor = Option.none := none
  rw [allocate, none']

theorem allocate_some {seq sector : Nat} (found : t.findErased 4095 t.cursor = some sector) :
    allocate seq t = (allotted sector seq t, { overrun := false, low := decide ((allotted sector seq t).erased = 1) }) := by
  have found' : t.findErased Config.lastSector t.cursor = some sector := found
  rw [allocate, found']
  rfl

theorem allotted_recordingOf (sector seq : Nat) (records : t.recordingOf = some (e, r)) :
    (allotted sector seq t).recordingOf =
      some ({ e with recording := some (extended sector seq r) }, extended sector seq r) := by
  have same : Tsc.recordingOf { t with cursor := nextSector sector } = t.recordingOf := rfl
  rw [allotted, recordingOf_mapRecording, same, records]
  rfl

theorem acceptDelta_noSector (d : Int) (records : t.recordingOf = some (e, r)) (some_ : 0 < r.count) (turns : r.count % 1905 = 0)
    (none : t.findErased 4095 t.cursor = none) : acceptDelta d t = (t, { overrun := true, low := false }) := by
  simp only [acceptDelta, records]
  rw [if_pos (show 0 < r.count ∧ r.count % Config.segmentDeltas = 0 from ⟨some_, turns⟩), allocate_none none]
  rfl

theorem acceptDelta_sector (d : Int) {sector : Nat} (records : t.recordingOf = some (e, r)) (some_ : 0 < r.count)
    (turns : r.count % 1905 = 0) (short : t.pageBuffer.length + 1 < 127) (found : t.findErased 4095 t.cursor = some sector) :
    acceptDelta d t = (accepted d (allotted sector (r.count / 1905) t),
      { overrun := false, low := decide ((allotted sector (r.count / 1905) t).erased = 1) }) := by
  have small : ¬(accepted d (allotted sector (r.count / 1905) t)).pageBuffer.length = Config.pageDeltas := by
    show ¬(t.pageBuffer ++ [d]).length = 127
    simp only [List.length_append, List.length_singleton]
    omega
  simp only [acceptDelta, records]
  rw [if_pos (show 0 < r.count ∧ r.count % Config.segmentDeltas = 0 from ⟨some_, turns⟩), allocate_some found]
  simp only [Bool.false_eq_true, if_false]
  exact if_neg small

end

end Sys2Proof.Machine
end

