-- ==== Sys2Proof/Proofs/StoreOperations.lean ====
section
/-! SUPPORT. A take's update on the store: what it leaves of the operation in flight, and how a recording opens, closes and ends (R107, R113, R115, R118, R131, R136, R138). -/

namespace Sys2Proof.Machine

open Sys2Proof.Safety

/-! ### The operation in flight (R127) -/

/-- The counts of the operation in flight, and whether it is reported (R127). -/
def Tsc.ages (t : Tsc) : Nat × Nat × Bool := (t.opAge, t.suspendAge, t.reported)

theorem operationLate_congr {t u : Tsc} (ages : u.ages = t.ages) : operationLate u = operationLate t := by
  simp only [Tsc.ages, Prod.mk.injEq] at ages
  simp only [operationLate, ages]

theorem allocate_ages (seq : Nat) (t : Tsc) : (allocate seq t).1.ages = t.ages := by
  unfold allocate; split <;> rfl

theorem formPage_ages (i : Nat) (t : Tsc) : (formPage i t).1.ages = t.ages := by
  unfold formPage; dsimp only; repeat' split
  all_goals rfl

theorem acceptDelta_ages (d : Int) (t : Tsc) : (acceptDelta d t).1.ages = t.ages := by
  have allots (seq : Nat) (c : Prop) [Decidable c] :
      (if c then allocate seq t else (t, StoreReport.quiet)).1.ages = t.ages := by
    split
    · exact allocate_ages seq t
    · rfl
  unfold acceptDelta
  split
  · rfl
  · next r _ =>
    have first := allots (r.count / Config.segmentDeltas) (0 < r.count ∧ r.count % Config.segmentDeltas = 0)
    generalize (if 0 < r.count ∧ r.count % Config.segmentDeltas = 0 then allocate (r.count / Config.segmentDeltas) t
      else (t, StoreReport.quiet)) = x at *
    dsimp only
    split
    · exact first
    · split
      · exact (formPage_ages _ _).trans first
      · exact first

theorem openRecording_ages (n : Byte) (mask : StationMask) (p v : Int) (t : Tsc) : (openRecording n mask p v t).1.ages = t.ages := by
  unfold openRecording; dsimp only; split
  · exact allocate_ages 0 _
  · split
    · exact allocate_ages 0 _
    · rfl

/-- The partial page that a take close queues (R136). -/
def lastPage (c : TakeClose) (t : Tsc) : Tsc × StoreReport :=
  if t.pageBuffer.isEmpty then (t, StoreReport.quiet) else formPage (c.length - 1) t

theorem requestClose_eq (c : TakeClose) (t : Tsc) :
    requestClose c t =
      ({ (lastPage c t).1 with
          closing := some c
          closeList := (lastPage c t).1.closeList ++
            (if c.length % Config.segmentDeltas = 0 then [.takeClose] else [.segClose, .takeClose]) },
        (lastPage c t).2) := rfl

theorem requestClose_ages (c : TakeClose) (t : Tsc) : (requestClose c t).1.ages = t.ages := by
  have page : (lastPage c t).1.ages = t.ages := by
    unfold lastPage
    split
    · rfl
    · exact formPage_ages _ _
  exact page

theorem storeReport_ages (r : StoreReport) {s : State} (records : s.tks.job = .recording) :
    (storeReport r s).tsc.ages = s.tsc.ages := by
  unfold storeReport
  split
  · simp [abortOwn, endJob, records, jobToIdle]; rfl
  · split
    · unfold storeLow; split <;> simp
    · rfl

/-- One recorded update, before the store's report is taken (R115, R116). -/
def recorded (made : Int) (t : Tsc) (s : State) : State :=
  { s with
    tks := { s.tks with
      prevMove := some made
      marks := s.tks.marks.map fun m =>
        if m.index = s.tks.k + 1 ∧ m.at_ = none then { m with at_ := some (s.mpr.p, made) } else m
      k := s.tks.k + 1 }
    tsc := t }

theorem recordMove_eq (made : Int) (s : State) :
    recordMove made s =
      storeReport (acceptDelta (made - s.tks.prevMove.getD 0) s.tsc).2
        (recorded made (acceptDelta (made - s.tks.prevMove.getD 0) s.tsc).1 s) := rfl

theorem recordMove_ages (made : Int) {s : State} (records : s.tks.job = .recording) :
    (recordMove made s).tsc.ages = s.tsc.ages :=
  (storeReport_ages _ (s := recorded made (acceptDelta (made - s.tks.prevMove.getD 0) s.tsc).1 s) records).trans
    (acceptDelta_ages _ _)

theorem beginClosing_ages (e : Int) {s : State} (records : s.tks.job = .recording) : (beginClosing e s).tsc.ages = s.tsc.ages := by
  unfold beginClosing
  dsimp only
  split
  · simp [abortOwn, endJob, records, jobToIdle]; rfl
  · exact requestClose_ages _ _

theorem recordingUpdate_ages (r : Result) {s : State} (records : s.tks.job = .recording) :
    (recordingUpdate r s).tsc.ages = s.tsc.ages := by
  unfold recordingUpdate
  dsimp only
  repeat' split
  · exact beginClosing_ages _ records
  · next both => exact (beginClosing_ages _ both.2).trans (recordMove_ages _ records)
  · exact recordMove_ages _ records
  · exact recordMove_ages _ records

/-- Only a playback can tell an erase to suspend (R141). -/
theorem takesUpdate_ages (r : Result) {s : State} (other : s.tks.job ≠ .running) : (takesUpdate r s).tsc.ages = s.tsc.ages := by
  unfold takesUpdate
  cases job : s.tks.job with
  | idle | closing => rfl
  | prepared =>
    dsimp only
    split
    · exact (storeReport_ages _ rfl).trans (openRecording_ages _ _ _ _ _)
    · rfl
  | cueing => dsimp only; split <;> simp
  | cued => dsimp only; split <;> simp [beginPlayback]
  | recording => exact recordingUpdate_ages r job
  | running => exact absurd job other
  | runout => dsimp only; split <;> rfl

/-! ### A take's update in the update of the node -/

/-- What an update whose result is x keeps of it, for a take. -/
structure TakesOf (x t : State) : Prop where
  mpr : t.mpr = { x.mpr with factor := t.mpr.factor }
  tks : t.tks = x.tks
  fifo : t.lnk.fifo = x.lnk.fifo
  store : Stored x.tsc t.tsc

theorem statusAt_fifo (b : Bool) (s : State) : (statusAt b s).lnk.fifo = s.lnk.fifo := by
  unfold statusAt; split
  · simp only [queueStatus, Lnk.markRefilled]; repeat' split
    all_goals rfl
  · rfl

theorem queueUpdateDemand_fifo (levers : Vector Int 4) (s : State) : (queueUpdateDemand levers s).lnk.fifo = s.lnk.fifo := by
  unfold queueUpdateDemand; split
  · simp only [queueDemand, Lnk.markRefilled]; repeat' split
    all_goals rfl
  · rfl

theorem queued_fifo (inp : UpdateInputs) (known : Bool) (s : State) : (queued inp known s).lnk.fifo = s.lnk.fifo := by
  simp [queued, ageEntries, statusAt_fifo, queueUpdateDemand_fifo, updateFactor]

section
variable {inp : UpdateInputs} {s : State}

/-- The jobs and the store as an update's result finds them (R127). -/
theorem toServo_takes (inp : UpdateInputs) (calm : causeFree s) :
    (toServo inp s).1.tks = s.tks ∧ (toServo inp s).1.tsc = ageOperation s.tsc ∧ (toServo inp s).1.lnk.fifo = s.lnk.fifo := by
  rw [toServo_of_calm inp calm]
  simp [withMotion, decided, statusAt_fifo]

/-- A quiet update keeps what its take has made, where no operation in flight runs out of its updates. -/
theorem update_takes (on : s.stc.drive = .enabled) (none : s.hom.state ≠ .homing) (quiet : updateQuiet inp s)
    (other : s.tks.job ≠ .running) (timely : operationLate (ageOperation s.tsc) = false) :
    TakesOf (takesUpdate (toServo inp s).2 (toServo inp s).1) (update inp s) := by
  obtain ⟨tks, tsc, -⟩ := toServo_takes inp quiet.1
  have result := resulted_of_quiet on none quiet
  have hold := resulted_hold on none quiet
  have kept := update_kept inp quiet.1 (.inl hold)
  have ages := takesUpdate_ages (toServo inp s).2 (s := (toServo inp s).1) (by rwa [tks])
  have intime : operationLate (takesUpdate (toServo inp s).2 (toServo inp s).1).tsc = false := by
    rw [operationLate_congr ages, tsc, timely]
  have ends : finished inp s.cfg.station.isSome (resulted inp s) =
      queued inp s.cfg.station.isSome (evaluated (!inp.zonesFirst) (!inp.demandFirst) (resulted inp s)) := by
    rw [finished, operationUpdate, if_neg (by simp [result, intime])]
  have whole := update_of_settled inp quiet.1 (.inl hold)
  rw [ends] at whole
  rw [← result]
  refine ⟨kept.1, by rw [whole]; simp [showDemand], by rw [whole]; simp [showDemand, queued_fifo], ?_⟩
  rw [whole]
  have started := startWork_stored
    (showDemand (queued inp s.cfg.station.isSome (evaluated (!inp.zonesFirst) (!inp.demandFirst) (resulted inp s))))
  simpa [showDemand] using started

theorem clockDecide_ms (s : State) : (clockDecide s).cck.ms = s.cck.ms := (congrArg Cck.ms (clockDecide_time s) :)

/-- The index of the update just made, on a node whose time is set (R62). -/
theorem toServo_ms (calm : causeFree s) (known : s.cck.timeState ≠ .unset) : (toServo inp s).1.cck.ms = s.cck.ms + 1 := by
  have wrapped : (clockWrap (countUpdate s)).cck.ms = s.cck.ms + 1 := by
    rw [clockWrap, if_neg (fun all => known all.1)]; rfl
  have index := (stepAging_index (clockWrap (countUpdate s))).1.trans wrapped
  rw [toServo_of_calm inp calm]
  simpa [withMotion, decided, clockDecide_ms, sampled, readHalt, crewUpdate] using index

theorem playbackUpdate_made (supplied : Option Int) (s : State) :
    (playbackUpdate supplied s).2.made = (playbackUpdate supplied s).1.mpr.p - s.mpr.p := by
  unfold playbackUpdate
  dsimp only
  repeat' split
  · rfl
  · simp [setLimitFlags]
  · rfl

/-- What an update's move made is the change of the position (R16). -/
theorem toServo_made (calm : causeFree s) (on : s.stc.drive = .enabled ∨ s.stc.drive = .stopping) :
    (toServo inp s).2.made = (toServo inp s).1.mpr.p - s.mpr.p := by
  obtain ⟨b, eq, servoed, result⟩ := toServo_eq_servo inp s
  obtain ⟨mpr, -, -, -, stc⟩ := beforeMotion_reads inp calm eq
  have onB : b.stc.drive = .enabled ∨ b.stc.drive = .stopping := by rw [stc]; exact on
  have p : (moveStart b).mpr.p = s.mpr.p := by rw [moveStart_eq onB, mpr]
  have moved : (toServo inp s).1.mpr = (motion (suppliedMove b) b).1.mpr := by rw [servoed]; simp
  rw [moved, result, motion_of_on _ onB, ← p]
  split
  · exact playbackUpdate_made _ _
  · rfl

end

/-! ### What a report of the store does to a recording (R107, R115, R117, R138) -/

theorem discardRecording_recordingOf (t : Tsc) : (discardRecording t).recordingOf = none := by
  rw [Tsc.recordingOf, List.findSome?_eq_none_iff]
  intro e listed
  simp only [discardRecording, List.mem_filter, List.mem_map] at listed
  obtain ⟨⟨x, -, rfl⟩, -⟩ := listed
  rfl

theorem fifoRoom_iff (s : State) : fifoRoom s = true ↔ s.lnk.fifo.length < 4 := decide_eq_true_iff

/-- A recording ended by the node itself: its store is dropped, and ABORT is queued where the FIFO has room (R107, R138). -/
theorem abortOwn_recording (r : Reason) {s : State} (records : s.tks.job = .recording) :
    (abortOwn r s).tks.job = .idle ∧ (abortOwn r s).tks.outcome = .aborted (reasonCode r) (ownByte s) ∧
      (abortOwn r s).tsc = releaseReadAhead (discardRecording s.tsc) ∧
      (s.lnk.fifo.length < 4 →
        (abortOwn r s).lnk.fifo = s.lnk.fifo ++ [.take (.abort s.tks.jobTake (reasonCode r) (ownByte s))]) := by
  have ended : (endJob (.aborted (reasonCode r) (ownByte s)) s).tsc = releaseReadAhead (discardRecording s.tsc) := by
    simp [endJob, records, jobToIdle]
  refine ⟨abortOwn_job r s, abortOwn_outcome r s, ?_, fun room => ?_⟩
  · simpa [abortOwn] using ended
  · have lnk : (endJob (.aborted (reasonCode r) (ownByte s)) s).lnk = s.lnk := by simp
    have own : ownByte (endJob (.aborted (reasonCode r) (ownByte s)) s) = ownByte s := ownByte_congr (by simp)
    have free : fifoRoom (endJob (.aborted (reasonCode r) (ownByte s)) s) = true := by
      rw [fifoRoom_iff, lnk]; exact room
    rw [abortOwn, broadcastAbort, if_pos free, queueCommand_lnk, if_pos free, lnk, own]

/-- The store-low CUT is queued once, where the FIFO has room (R117). -/
theorem storeLow_sends {s : State} (records : s.tks.job = .recording) (unsent : s.tks.storeLowSent = false)
    (room : s.lnk.fifo.length < 4) :
    storeLow s = { s with
      lnk := { s.lnk with fifo := s.lnk.fifo ++ [.take (.cut s.tks.jobTake (low16 (s.cck.ms + 20)))] }
      tks := { s.tks with storeLowSent := true } } := by
  have free : fifoRoom s = true := (fifoRoom_iff s).mpr room
  rw [storeLow, if_pos ⟨records, unsent, free⟩, queueCommand, if_pos free]

theorem storeLow_none {s : State} (none : ¬(s.tks.storeLowSent = false ∧ s.lnk.fifo.length < 4)) : storeLow s = s :=
  if_neg fun ⟨_, unsent, free⟩ => none ⟨unsent, (fifoRoom_iff s).mp free⟩

theorem storeLow_eq (s : State) :
    (storeLow s).tks = { s.tks with storeLowSent := (storeLow s).tks.storeLowSent } ∧ (storeLow s).tsc = s.tsc ∧
      (storeLow s).mpr = s.mpr := by
  unfold storeLow; split <;> simp

theorem storeReport_overrun (low : Bool) (s : State) : storeReport { overrun := true, low := low } s = abortOwn .recordOverrun s := rfl

theorem storeReport_low (low : Bool) (s : State) :
    storeReport { overrun := false, low := low } s = if low = true then storeLow s else s := rfl

/-! ### The take close (R118, R136) -/

theorem requestClose_of_room (c : TakeClose) {t : Tsc} (room : t.writeQueue.length < 6) :
    (requestClose c t).2.overrun = false ∧ (requestClose c t).1.pageBuffer = [] ∧ (requestClose c t).1.closing = some c := by
  have formed : (formPage (c.length - 1) t).2.overrun = false ∧ (formPage (c.length - 1) t).1.pageBuffer = [] := by
    unfold formPage
    split
    · exact ⟨rfl, rfl⟩
    · rw [if_pos (show t.writeQueue.length < Config.writePlaces from room)]
      exact ⟨rfl, rfl⟩
  have page : (lastPage c t).2.overrun = false ∧ (lastPage c t).1.pageBuffer = [] := by
    unfold lastPage
    split
    · next empty => exact ⟨rfl, by simpa using empty⟩
    · exact formed
  exact ⟨page.1, page.2, rfl⟩

theorem beginClosing_of_room (endPos : Int) {s : State} (room : s.tsc.writeQueue.length < 6) :
    (beginClosing endPos s).tks = { dropPendingMarks s.tks with job := .closing, cutTime := none, prevMove := none } ∧
      (beginClosing endPos s).tsc.pageBuffer = [] ∧
      (beginClosing endPos s).tsc.closing.map (fun x => (x.length, x.endPos)) = some (s.tks.k, endPos) := by
  unfold beginClosing
  dsimp only
  obtain ⟨taken, buffer, closing⟩ := requestClose_of_room
    { length := s.tks.k, endPos := endPos
      marks := s.tks.marks.filterMap fun m =>
        m.at_.map fun x => ({ index := m.index, position := x.1, move := x.2 } : TakeMark) } room
  rw [if_neg (by simp [taken])]
  exact ⟨rfl, buffer, by rw [closing]; rfl⟩

/-! ### The opening of a recording (R113, R131, R133) -/

theorem recording_none {t : Tsc} (none : t.recordingOf = none) : ∀ e ∈ t.directory, e.recording = Option.none := by
  intro e listed
  have found := List.findSome?_eq_none_iff.mp none e listed
  simpa using found

/-- An entry of take n given the recording r. -/
def givenRecording (n : Byte) (r : Recording) (e : DirEntry) : DirEntry :=
  if e.number = n then { e with recording := some r } else e

/-- The entries of a directory after n is given the recording r (R130, R131). -/
def givenEntries (n : Byte) (r : Recording) (l : List DirEntry) : List DirEntry :=
  (l.map (givenRecording n r)).filter fun e => e.stored.isSome || e.recording.isSome

section
variable {n : Byte} {r : Recording}

/-- The entry as it stays in the directory, if it does (R130). -/
def givenEntry (n : Byte) (r : Recording) (e : DirEntry) : List DirEntry := givenEntries n r [e]

theorem givenEntries_cons (e : DirEntry) (l : List DirEntry) : givenEntries n r (e :: l) = givenEntry n r e ++ givenEntries n r l := by
  simp only [givenEntry, givenEntries, List.map_cons, List.map_nil, List.filter_cons, List.filter_nil]
  split <;> rfl

theorem givenEntry_own {e : DirEntry} (own : e.number = n) : givenEntry n r e = [{ e with recording := some r }] := by
  simp [givenEntry, givenEntries, givenRecording, own]

theorem givenEntry_other {e : DirEntry} (other : e.number ≠ n) (free : e.recording = none) :
    givenEntry n r e = if e.stored.isSome then [e] else [] := by
  cases stored : e.stored <;> simp [givenEntry, givenEntries, givenRecording, other, stored, free]

/-- A new recording names no sector, and an entry without parts names none. -/
theorem givenEntry_sectors (empty : r.segments = []) {e : DirEntry} (free : e.recording = none) :
    (givenEntry n r e).flatMap (fun e => e.segments.map (·.sector)) = e.segments.map (·.sector) := by
  by_cases own : e.number = n
  · simp [givenEntry_own own, DirEntry.segments, empty, free]
  · rw [givenEntry_other own free]
    cases stored : e.stored <;> simp [DirEntry.segments, stored, free]

theorem givenEntries_sectors (empty : r.segments = []) : ∀ {l : List DirEntry}, (∀ e ∈ l, e.recording = none) →
    (givenEntries n r l).flatMap (fun e => e.segments.map (·.sector)) = l.flatMap fun e => e.segments.map (·.sector)
  | [], _ => rfl
  | e :: l, free => by
    rw [givenEntries_cons, List.flatMap_append, givenEntry_sectors empty (free e (by simp)), List.flatMap_cons,
      givenEntries_sectors empty fun x listed => free x (by simp [listed])]

theorem givenEntries_find : ∀ {l : List DirEntry}, (∀ e ∈ l, e.recording = none) → (l.find? fun e => e.number == n) ≠ none →
    ∃ e, (givenEntries n r l).findSome? (fun e => e.recording.map fun r => (e, r)) = some (e, r) ∧ e.number = n
  | [], _, found => absurd rfl found
  | e :: l, free, found => by
    have unrecorded := free e (by simp)
    rw [givenEntries_cons, List.findSome?_append]
    by_cases own : e.number = n
    · exact ⟨{ e with recording := some r }, by simp [givenEntry_own own], own⟩
    · have later : (l.find? fun e => e.number == n) ≠ Option.none := by
        rwa [List.find?_cons_of_neg (by simpa using own)] at found
      obtain ⟨x, at_, number⟩ := givenEntries_find (fun x listed => free x (by simp [listed])) later
      refine ⟨x, ?_, number⟩
      have before : (givenEntry n r e).findSome? (fun e => e.recording.map fun r => (e, r)) = Option.none := by
        rw [givenEntry_other own unrecorded]
        split <;> simp [unrecorded]
      rw [before, at_]
      rfl

end

/-- The recording that is opened (R131). -/
def newRecording (n : Byte) (mask : StationMask) (p v : Int) (t : Tsc) : Recording :=
  { generation := t.nextGeneration n, mask := mask, startPos := p, initialMove := v, count := 0, segments := [] }

/-- The store with the new recording entered, before its first sector. -/
def entered (n : Byte) (mask : StationMask) (p v : Int) (t : Tsc) : Tsc :=
  { t with
    generations := t.generations.set (generationPlace n) (some (t.nextGeneration n)), pageBuffer := []
    directory :=
      if t.entry n = none then t.directory ++ [{ number := n, stored := none, recording := some (newRecording n mask p v t) }]
      else givenEntries n (newRecording n mask p v t) t.directory }

section
variable {n : Byte} {mask : StationMask} {p v : Int} {t : Tsc}

theorem openRecording_eq (room : t.directory.length < 32 ∨ t.entry n ≠ none) :
    openRecording n mask p v t = allocate 0 (entered n mask p v t) := by
  have same : Tsc.entry { t with
      generations := t.generations.set (generationPlace n) (some (t.nextGeneration n)), pageBuffer := [] } n = t.entry n := rfl
  unfold openRecording
  dsimp only
  rw [same]
  cases entry : t.entry n with
  | some e =>
    dsimp only
    congr 1
    simp only [entered, entry, reduceCtorEq, if_false]
    rfl
  | none =>
    dsimp only
    rw [if_pos (show t.directory.length < Config.directoryPlaces from room.resolve_right (by simp [entry]))]
    congr 1
    simp only [entered, entry, if_true]
    rfl

theorem openRecording_full (full : ¬(t.directory.length < 32 ∨ t.entry n ≠ none)) :
    (openRecording n mask p v t).2 = { overrun := true, low := false } := by
  rw [not_or, not_not] at full
  have same : Tsc.entry { t with
      generations := t.generations.set (generationPlace n) (some (t.nextGeneration n)), pageBuffer := [] } n = none := full.2
  unfold openRecording
  dsimp only
  rw [same]
  dsimp only
  rw [if_neg (show ¬t.directory.length < Config.directoryPlaces from full.1)]

theorem entered_pool (none : t.recordingOf = none) : (entered n mask p v t).pool = t.pool := by
  have sectors : (entered n mask p v t).sectors = t.sectors := by
    unfold Tsc.sectors entered
    dsimp only
    split
    · simp [DirEntry.segments, newRecording]
    · exact givenEntries_sectors rfl (recording_none none)
  simp only [Tsc.pool, sectors]
  rfl

theorem entered_recordingOf (none : t.recordingOf = none) :
    ∃ e, (entered n mask p v t).recordingOf = some (e, newRecording n mask p v t) ∧ e.number = n := by
  unfold Tsc.recordingOf entered
  dsimp only
  split
  · refine ⟨{ number := n, stored := Option.none, recording := some (newRecording n mask p v t) }, ?_, rfl⟩
    rw [List.findSome?_append, show List.findSome? _ t.directory = Option.none from none]
    rfl
  · next entry => exact givenEntries_find (recording_none none) entry

/-- With no sector ERASED no recording opens (R133). -/
theorem openRecording_none (none : t.recordingOf = none) (spent : t.findErased 4095 t.cursor = Option.none) :
    (openRecording n mask p v t).2 = { overrun := true, low := false } := by
  by_cases room : t.directory.length < 32 ∨ t.entry n ≠ Option.none
  · have found : (entered n mask p v t).findErased 4095 (entered n mask p v t).cursor = Option.none :=
      (findErased_congr (entered_pool none) _ _).trans spent
    rw [openRecording_eq room, allocate_none found]
  · exact openRecording_full room

/-- The recording that opens, with its first sector (R131, R133). -/
theorem openRecording_some (none : t.recordingOf = none) (left : t.findErased 4095 t.cursor ≠ Option.none)
    (room : t.directory.length < 32 ∨ t.entry n ≠ Option.none) :
    ∃ low, (openRecording n mask p v t).2 = { overrun := false, low := low } ∧
      (openRecording n mask p v t).1.recordingOf.map (fun x => (x.1.number, x.2.mask, x.2.startPos, x.2.initialMove, x.2.count)) =
        some (n, mask, p, v, 0) := by
  obtain ⟨sector, found⟩ := Option.ne_none_iff_exists'.mp left
  have found' : (entered n mask p v t).findErased 4095 (entered n mask p v t).cursor = some sector :=
    (findErased_congr (entered_pool none) _ _).trans found
  obtain ⟨e, records, number⟩ := entered_recordingOf (n := n) (mask := mask) (p := p) (v := v) none
  rw [openRecording_eq room, allocate_some found']
  refine ⟨_, rfl, ?_⟩
  rw [allotted_recordingOf sector 0 records]
  simp [number, extended, newRecording]

end

end Sys2Proof.Machine
end

