-- ==== Sys2Proof/Proofs/PlaybackMove.lean ====
section
/-! SUPPORT. One update of a take: a playback's move, and the recorded move on the store (R110, R113 to R122, R133, R134). -/

namespace Sys2Proof.Machine

open Sys2Proof.Safety

/-! ### A playback's move (R15, R120, R121) -/

/-- The end of a late operation writes no job that is neither IDLE nor on the recording store (R127). -/
theorem operationUpdate_tks (left : Option (List Byte)) {s : State}
    (other : s.tks.job ≠ .idle ∧ s.tks.job ≠ .recording ∧ s.tks.job ≠ .closing) : (operationUpdate left s).tks = s.tks := by
  have failed (x : State) (same : x.tks = s.tks) : (storeWriteFailed x).tks = s.tks := by
    rw [← same] at other ⊢
    unfold storeWriteFailed
    cases job : x.tks.job <;> simp_all
  unfold operationUpdate operationFailed
  split
  · dsimp only
    split
    · simp only [unitIdle_frame]
      unfold programFailed
      split
      · exact failed _ rfl
      · exact failed _ rfl
      · exact failed _ rfl
      · unfold lockEnds
        dsimp only
        rw [if_neg other.1]
      all_goals rfl
    · simp
    all_goals rfl
  · rfl

section
variable {inp : UpdateInputs} {s : State}

theorem startMode_playback (on : s.stc.drive = .enabled) (play : s.mpr.mode = .playback) : startMode s = .playback := by
  rw [startMode, if_neg (by simp [on]), if_neg (by simp [play]), play]

/-- The delta at hand in RUNNING is the move that TKS supplies (R120). -/
theorem suppliedMove_toServo (calm : causeFree s) (runs : s.tks.job = .running) {d : Int} (hand : s.tsc.deltaAt s.tks.k = some d)
    {b : State} (eq : b = beforeMotion inp s.cfg.station.isSome s) : suppliedMove b = some (d + s.tks.playMove.getD 0) := by
  obtain ⟨-, -, tks, -⟩ := beforeMotion_reads inp calm eq
  have tsc : b.tsc = ageOperation s.tsc := by
    have same : (toServo inp s).1.tsc = b.tsc := by rw [toServo, ← eq]; simp [withMotion]
    rw [← same, (toServo_takes inp calm).2.1]
  have delta : b.tsc.deltaAt s.tks.k = some d := by
    rw [tsc, ageOperation_counts]; exact hand
  rw [suppliedMove, tks, if_pos runs, delta]
  rfl

theorem speedCap_before (calm : causeFree s) (later : inp.zonesFirst = false) {b : State}
    (eq : b = beforeMotion inp s.cfg.station.isSome s) : speedCap b = speedCap s := by
  obtain ⟨-, hom, -, cfg, -⟩ := beforeMotion_reads inp calm eq
  have zmn : b.zmn.memberCap = s.zmn.memberCap := by
    have same : (toServo inp s).1.zmn = b.zmn := by rw [toServo, ← eq]; simp [withMotion]
    rw [← same, update_memberCap, if_neg (by simp [later])]
  have homed : isHomed b = isHomed s := by simp only [isHomed, hom]
  have item (f : Block → Int) : param b f = param s f := param_congr (by rw [cfg]) f
  simp only [speedCap, homed, item, zmn]

/-- The recorded move that passes its checks is made exactly (R15). -/
theorem toServo_played (calm : causeFree s) (on : s.stc.drive = .enabled) (play : s.mpr.mode = .playback)
    (runs : s.tks.job = .running) (later : inp.zonesFirst = false) {d : Int} (hand : s.tsc.deltaAt s.tks.k = some d)
    (speed : |d + s.tks.playMove.getD 0| ≤ speedCap s)
    (change : |d + s.tks.playMove.getD 0 - s.mpr.v| ≤ 2 * param s (fun b => b.aMax))
    (low : travelLo s ≤ s.mpr.p + (d + s.tks.playMove.getD 0)) (high : s.mpr.p + (d + s.tks.playMove.getD 0) ≤ travelHi s) :
    let m := toServo inp s
    m.1.mpr.p = s.mpr.p + (d + s.tks.playMove.getD 0) ∧ m.1.mpr.v = d + s.tks.playMove.getD 0 ∧ m.1.mpr.mode = .playback ∧
      m.2.play = .played (d + s.tks.playMove.getD 0) := by
  obtain ⟨b, eq, servoed, result⟩ := toServo_eq_servo inp s
  obtain ⟨mpr, hom, tks, cfg, stc⟩ := beforeMotion_reads inp calm eq
  have onB : b.stc.drive = .enabled ∨ b.stc.drive = .stopping := by rw [stc]; exact .inl on
  have mode : startMode b = .playback := by
    rw [(startMode_congr mpr hom tks (by rw [stc])).1, startMode_playback on play]
  obtain ⟨lo, hi⟩ := moveStart_limits onB
  have homed : isHomed b = isHomed s := by simp only [isHomed, hom]
  have start := moveStart_eq onB
  have cap : speedCap (moveStart b) = speedCap s := by
    have same : speedCap (moveStart b) = speedCap b := by rw [start]; rfl
    rw [same, speedCap_before calm later eq]
  have accel : param (moveStart b) (fun b => b.aMax) = param s (fun b => b.aMax) := param_congr (by rw [start]; exact congrArg Cfg.params cfg) _
  have at_ : (moveStart b).mpr.p = s.mpr.p ∧ (moveStart b).mpr.v = s.mpr.v := by rw [start, mpr]; exact ⟨rfl, rfl⟩
  have passes : playable (d + s.tks.playMove.getD 0) (moveStart b).mpr.v (moveStart b).mpr.p (speedCap (moveStart b))
      (param (moveStart b) (fun b => b.aMax)) (travelLo (moveStart b)) (travelHi (moveStart b)) = true := by
    rw [playable_iff, cap, accel, at_.1, at_.2, lo, hi, travelLo_congr cfg homed, travelHi_congr cfg homed]
    exact ⟨speed, change, low, high⟩
  have moved : motion (suppliedMove b) b = playbackUpdate (some (d + s.tks.playMove.getD 0)) (moveStart b) := by
    rw [motion_of_on _ onB, if_pos mode, suppliedMove_toServo calm runs hand eq]
  have mprM : (toServo inp s).1.mpr = (motion (suppliedMove b) b).1.mpr := by rw [servoed]; simp
  dsimp only
  rw [mprM, result, moved, playbackUpdate]
  dsimp only
  rw [if_pos passes]
  refine ⟨by simp [setLimitFlags, at_.1], rfl, ?_, rfl⟩
  rw [start, ← mode]
  rfl

/-- A playback after its move: k and the move go on, and at the end index or the cut point the job is RUNOUT (R120, R121). -/
def played (m : Int) (s : State) : State :=
  { s with
    tks := { s.tks with k := s.tks.k + 1, playMove := some m }
    tsc := tookDelta (playedSegments s) (s.tks.endIndex.getD 0) (s.tks.k) s.tsc }

theorem playbackResult_played {r : Result} {m : Int} (play : r.play = .played m) (s : State) :
    playbackResult r s =
      if s.tks.k + 1 = s.tks.endIndex.getD 0 then beginRunout (played m s) else playbackCut (played m s) := by
  rw [playbackResult, play]; rfl

theorem beginRunout_of_enabled {s : State} (on : s.stc.drive = .enabled) :
    beginRunout s = { s with
      tks := { s.tks with job := .runout, cutTime := none }, mpr := { s.mpr with mode := .runout, g := none } } := by
  rw [beginRunout, requestMode_of_enabled (by exact on)]

theorem playbackCut_none {s : State} (none : s.tks.cutTime = none) : playbackCut s = s := by
  simp [playbackCut, cutDistance, none]

theorem playbackCut_reached {s : State} {c : Ms16} (cut : s.tks.cutTime = some c) (reached : diff16 c (low16 s.cck.ms) ≤ 1) :
    playbackCut s = beginRunout s := by
  have due : diff16 c (low16 s.cck.ms) - 1 ≤ 0 := by omega
  simp [playbackCut, cutDistance, cut, due]

/-- What the update of a playback leaves of its result: no end of an operation writes its job. -/
theorem update_runs (on : s.stc.drive = .enabled) (none : s.hom.state ≠ .homing) (quiet : updateQuiet inp s)
    {x : State} (taken : takesUpdate (toServo inp s).2 (toServo inp s).1 = x)
    (plays : x.tks.job ≠ .idle ∧ x.tks.job ≠ .recording ∧ x.tks.job ≠ .closing) :
    (update inp s).mpr = { x.mpr with factor := (update inp s).mpr.factor } ∧ (update inp s).tks = x.tks := by
  have result := (resulted_of_quiet on none quiet).trans taken
  have hold := resulted_hold on none quiet
  refine ⟨result ▸ (update_kept inp quiet.1 (.inl hold)).1, ?_⟩
  rw [update_of_settled inp quiet.1 (.inl hold), result]
  have ends : (finished inp s.cfg.station.isSome x).tks = x.tks := by
    rw [finished, operationUpdate_tks _ (by simpa using plays)]
    simp
  simpa [showDemand] using ends

end

end Sys2Proof.Machine
end

