-- ==== Sys2Proof/Proofs/RecordedMove.lean ====
section
/-! SUPPORT. The update of a recording, and the take's update as the node's update leaves it (R113 to R118, R133, R134). -/

namespace Sys2Proof.Machine

open Sys2Proof.Safety

/-! ### A recorded move and the store's report (R115, R117) -/

/-- A recorded move after a report without an overrun. -/
def told (low : Bool) (s : State) : State := if low = true then storeLow s else s

theorem told_eq (low : Bool) (s : State) :
    (told low s).tks = { s.tks with storeLowSent := (told low s).tks.storeLowSent } ∧ (told low s).tsc = s.tsc := by
  unfold told; split
  · exact ⟨(storeLow_eq s).1, (storeLow_eq s).2.1⟩
  · exact ⟨rfl, rfl⟩

theorem told_sends {low : Bool} {s : State} (shortage : low = true) (records : s.tks.job = .recording)
    (unsent : s.tks.storeLowSent = false) (room : s.lnk.fifo.length < 4) :
    (told low s).lnk.fifo = s.lnk.fifo ++ [.take (.cut s.tks.jobTake (low16 (s.cck.ms + 20)))] ∧
      (told low s).tks.storeLowSent = true := by
  rw [told, if_pos shortage, storeLow_sends records unsent room]
  exact ⟨rfl, rfl⟩

theorem told_quiet {low : Bool} {s : State}
    (none : low = false ∨ ¬(s.tks.storeLowSent = false ∧ s.lnk.fifo.length < 4)) : told low s = s := by
  rw [told]
  split
  · next shortage => exact storeLow_none (none.resolve_left (by simp [shortage]))
  · rfl

theorem recordMove_told {made : Int} {s : State} {t : Tsc} {low : Bool}
    (taken : acceptDelta (made - s.tks.prevMove.getD 0) s.tsc = (t, { overrun := false, low := low })) :
    recordMove made s = told low (recorded made t s) := by
  rw [recordMove_eq, taken]; rfl

theorem recordMove_quiet {made : Int} {s : State} {t : Tsc}
    (taken : acceptDelta (made - s.tks.prevMove.getD 0) s.tsc = (t, StoreReport.quiet)) : recordMove made s = recorded made t s := by
  rw [recordMove_eq, taken]; rfl

theorem recordMove_overrun {made : Int} {s : State} {t : Tsc}
    (taken : acceptDelta (made - s.tks.prevMove.getD 0) s.tsc = (t, { overrun := true, low := false })) :
    recordMove made s = abortOwn .recordOverrun (recorded made t s) := by
  rw [recordMove_eq, taken]; rfl

/-- A recording that the store has ended: aborted with RECORD-OVERRUN, its store dropped (R107, R115, R138). -/
structure Overflowed (s t : State) : Prop where
  job : t.tks.job = .idle
  outcome : t.tks.outcome = .aborted (reasonCode .recordOverrun) (ownByte s)
  recording : t.tsc.recordingOf = none
  buffer : t.tsc.pageBuffer = []
  queue : t.tsc.writeQueue = []
  fifo : s.lnk.fifo.length < 4 →
    t.lnk.fifo = s.lnk.fifo ++ [.take (.abort s.tks.jobTake (reasonCode .recordOverrun) (ownByte s))]

theorem abortOwn_overflowed {s x : State} (records : x.tks.job = .recording) (cfg : x.cfg = s.cfg) (fifo : x.lnk.fifo = s.lnk.fifo)
    (take : x.tks.jobTake = s.tks.jobTake) : Overflowed s (abortOwn .recordOverrun x) := by
  obtain ⟨job, outcome, tsc, abort⟩ := abortOwn_recording .recordOverrun records
  have own : ownByte x = ownByte s := ownByte_congr cfg
  refine ⟨job, by rw [outcome, own], ?_, by rw [tsc]; rfl, by rw [tsc]; rfl, fun room => ?_⟩
  · rw [tsc]; exact discardRecording_recordingOf _
  · rw [abort (by rwa [fifo]), fifo, take, own]

theorem recordingOf_of_outline {t : Tsc} (empty : t.outline = none) : t.recordingOf = none := by
  simpa [Tsc.outline] using empty

theorem Overflowed.of_takes {s x t : State} (ended : Overflowed s x) (takes : TakesOf x t) : Overflowed s t := by
  obtain ⟨-, tks, fifo, queues, outline, -⟩ := takes
  have none : t.tsc.outline = Option.none := by rw [outline, Tsc.outline, ended.recording]; rfl
  exact ⟨by rw [tks, ended.job], by rw [tks, ended.outcome], recordingOf_of_outline none,
    (congrArg Tsc.pageBuffer queues :).trans ended.buffer, (congrArg Tsc.writeQueue queues :).trans ended.queue,
    fun room => by rw [fifo, ended.fifo room]⟩

/-! ### The store that an update's result finds (R127) -/

/-- The ageing of the operation in flight changes nothing else of the store. -/
structure Aged (t a : Tsc) : Prop where
  queues : a.queues = t.queues
  directory : a.directory = t.directory

theorem ageOperation_aged (t : Tsc) : Aged t (ageOperation t) := by
  rw [ageOperation_counts]; exact ⟨rfl, rfl⟩

section
variable {t a : Tsc}

theorem Aged.buffer (aged : Aged t a) : a.pageBuffer = t.pageBuffer := (congrArg Tsc.pageBuffer aged.queues :)
theorem Aged.queue (aged : Aged t a) : a.writeQueue = t.writeQueue := (congrArg Tsc.writeQueue aged.queues :)
theorem Aged.cursor (aged : Aged t a) : a.cursor = t.cursor := (congrArg Tsc.cursor aged.queues :)
theorem Aged.stored (aged : Aged t a) : Stored t a := .of_unit aged.queues aged.directory
theorem Aged.erased (aged : Aged t a) : a.erased = t.erased := erased_congr aged.stored.pool

theorem Aged.recording (aged : Aged t a) : a.recordingOf = t.recordingOf := by
  simp only [Tsc.recordingOf, aged.directory]

theorem Aged.entry (aged : Aged t a) (n : Byte) : a.entry n = t.entry n := by
  simp only [Tsc.entry, aged.directory]

theorem Aged.found (aged : Aged t a) : a.findErased 4095 a.cursor = t.findErased 4095 t.cursor := by
  rw [aged.cursor, findErased_congr aged.stored.pool]

end

/-! ### The outline of a recording, read from the store after the update -/

theorem count_of_outline (t : Tsc) : t.recordingOf.map (fun x => x.2.count) = t.outline.map fun o => o.2.2.2.2.1 := by
  rw [Tsc.outline, Option.map_map]; rfl

theorem segments_of_outline (t : Tsc) :
    t.recordingOf.map (fun x => (x.2.count, x.2.segments.map fun g => (g.sector, g.seq))) =
      t.outline.map fun o => (o.2.2.2.2.1, o.2.2.2.2.2) := by
  rw [Tsc.outline, Option.map_map]; rfl

theorem opening_of_outline (t : Tsc) :
    t.recordingOf.map (fun x => (x.1.number, x.2.mask, x.2.startPos, x.2.initialMove, x.2.count)) =
      t.outline.map fun o => (o.1, o.2.1, o.2.2.1, o.2.2.2.1, o.2.2.2.2.1) := by
  rw [Tsc.outline, Option.map_map]; rfl

/-! ### The update of a recording -/

section
variable {inp : UpdateInputs} {s : State}

/-- A recording on an ENABLED homed axis at whose update nothing stops it and no operation in flight runs out of time. -/
structure Records (inp : UpdateInputs) (s : State) (e : DirEntry) (r : Recording) : Prop where
  on : s.stc.drive = .enabled
  job : s.tks.job = .recording
  homed : s.hom.state = .homed
  quiet : updateQuiet inp s
  records : s.tsc.recordingOf = some (e, r)
  timely : operationLate (ageOperation s.tsc) = false

variable {e : DirEntry} {r : Recording}

theorem Records.found (rec : Records inp s e r) :
    (toServo inp s).1.tks = s.tks ∧ Aged s.tsc (toServo inp s).1.tsc ∧ (toServo inp s).1.lnk.fifo = s.lnk.fifo ∧
      (toServo inp s).1.cfg = s.cfg := by
  obtain ⟨tks, tsc, fifo⟩ := toServo_takes inp rec.quiet.1
  exact ⟨tks, by rw [tsc]; exact ageOperation_aged _, fifo, (toServo_calm inp rec.quiet.1).2.2.1⟩

theorem Records.takes (rec : Records inp s e r) : TakesOf (recordingUpdate (toServo inp s).2 (toServo inp s).1) (update inp s) := by
  have other : s.tks.job ≠ .running := by simp [rec.job]
  have taken := update_takes rec.on (by simp [rec.homed]) rec.quiet other rec.timely
  rwa [takesUpdate, rec.found.1, rec.job] at taken

/-- The move that is recorded is the change of the position (R16, R115). -/
theorem Records.made (rec : Records inp s e r) : (toServo inp s).2.made = (update inp s).mpr.p - s.mpr.p := by
  have mpr := rec.takes.mpr
  rw [recordingUpdate_mpr _ (by rw [rec.found.1, rec.job])] at mpr
  rw [toServo_made rec.quiet.1 (.inl rec.on), mpr]

/-- The difference of the recorded move from the move before (R115). -/
def recordedDelta (inp : UpdateInputs) (s : State) : Int := (update inp s).mpr.p - s.mpr.p - s.tks.prevMove.getD 0

theorem Records.accepts (rec : Records inp s e r) :
    acceptDelta ((toServo inp s).2.made - (toServo inp s).1.tks.prevMove.getD 0) (toServo inp s).1.tsc =
      acceptDelta (recordedDelta inp s) (toServo inp s).1.tsc := by
  rw [rec.made, rec.found.1, recordedDelta]

/-- Without a cut time the update records its move (R115). -/
theorem Records.moves (rec : Records inp s e r) (uncut : s.tks.cutTime = none) :
    TakesOf (recordMove (toServo inp s).2.made (toServo inp s).1) (update inp s) := by
  have takes := rec.takes
  have none : cutDistance (toServo inp s).1 = Option.none := by rw [cutDistance, rec.found.1, uncut]; rfl
  rwa [recordingUpdate, none] at takes

/-- A move recorded inside a page and a segment (R134). -/
theorem Records.within (rec : Records inp s e r) (short : s.tsc.pageBuffer.length + 1 < 127)
    (inside : ¬(0 < r.count ∧ r.count % 1905 = 0)) :
    recordMove (toServo inp s).2.made (toServo inp s).1 =
      recorded (toServo inp s).2.made (accepted (recordedDelta inp s) (toServo inp s).1.tsc) (toServo inp s).1 := by
  obtain ⟨-, aged, -⟩ := rec.found
  refine recordMove_quiet (rec.accepts.trans ?_)
  exact acceptDelta_within _ (aged.recording.trans rec.records) (by rwa [aged.buffer]) inside

theorem accepted_outline (d : Int) {t : Tsc} (records : t.recordingOf = some (e, r)) :
    (accepted d t).outline = some (e.number, (counted r).outline) := by
  rw [Tsc.outline, accepted_recordingOf d records]; rfl

theorem Records.update_within (rec : Records inp s e r) (uncut : s.tks.cutTime = none)
    (short : s.tsc.pageBuffer.length + 1 < 127) (inside : ¬(0 < r.count ∧ r.count % 1905 = 0)) :
    let t := update inp s
    t.tks.job = .recording ∧ t.tks.k = s.tks.k + 1 ∧ t.tks.prevMove = some (t.mpr.p - s.mpr.p) ∧
      t.tsc.pageBuffer = s.tsc.pageBuffer ++ [t.mpr.p - s.mpr.p - s.tks.prevMove.getD 0] ∧
      t.tsc.recordingOf.map (fun x => x.2.count) = some (r.count + 1) ∧ t.tsc.writeQueue = s.tsc.writeQueue := by
  obtain ⟨tks, aged, -⟩ := rec.found
  obtain ⟨-, tksT, -, queues, outline, -⟩ := rec.moves uncut
  rw [rec.within short inside] at tksT queues outline
  have buffer : (update inp s).tsc.pageBuffer = (toServo inp s).1.tsc.pageBuffer ++ [recordedDelta inp s] :=
    (congrArg Tsc.pageBuffer queues :)
  have queue : (update inp s).tsc.writeQueue = (toServo inp s).1.tsc.writeQueue := (congrArg Tsc.writeQueue queues :)
  dsimp only
  rw [tksT, buffer, queue, aged.buffer, aged.queue, count_of_outline, outline]
  refine ⟨by rw [← rec.job, ← tks]; rfl, by rw [← tks]; rfl, congrArg some rec.made, rfl, ?_, rfl⟩
  rw [show (recorded (toServo inp s).2.made (accepted (recordedDelta inp s) (toServo inp s).1.tsc) (toServo inp s).1).tsc =
    accepted (recordedDelta inp s) (toServo inp s).1.tsc from rfl, accepted_outline _ (aged.recording.trans rec.records)]
  rfl

/-! ### The cut point (R118) -/

theorem Records.cut (rec : Records inp s e r) (known : s.cck.timeState ≠ .unset) {c : Ms16} (cut : s.tks.cutTime = some c) :
    cutDistance (toServo inp s).1 = some ((c - (s.cck.ms + 1).setWidth 16).toInt - 1) := by
  rw [cutDistance, rec.found.1, cut, toServo_ms rec.quiet.1 known]
  rfl

/-- A cut time still ahead leaves the recording going (R118). -/
theorem Records.update_goes (rec : Records inp s e r) (known : s.cck.timeState ≠ .unset) {c : Ms16}
    (cut : s.tks.cutTime = some c) (short : s.tsc.pageBuffer.length + 1 < 127) (inside : ¬(0 < r.count ∧ r.count % 1905 = 0))
    (ahead : 0 < (c - (s.cck.ms + 1).setWidth 16).toInt - 1) :
    (update inp s).tks.job = .recording ∧ (update inp s).tks.k = s.tks.k + 1 ∧ (update inp s).tks.cutTime = some c := by
  have tks := rec.found.1
  have tksT := rec.takes.tks
  rw [recordingUpdate, rec.cut known cut] at tksT
  dsimp only at tksT
  rw [if_neg (by omega), if_neg (fun both => by omega), rec.within short inside] at tksT
  rw [tksT]
  exact ⟨by rw [← rec.job, ← tks]; rfl, by rw [← tks]; rfl, by rw [← cut, ← tks]; rfl⟩

/-- What the closing of a recording leaves (R118, R136). -/
structure Closing (length : Nat) (endPos : Int) (t : State) : Prop where
  job : t.tks.job = .closing
  cutTime : t.tks.cutTime = none
  prevMove : t.tks.prevMove = none
  buffer : t.tsc.pageBuffer = []
  k : t.tks.k = length
  closing : t.tsc.closing.map (fun x => (x.length, x.endPos)) = some (length, endPos)

theorem beginClosing_closing (endPos : Int) {x : State} (room : x.tsc.writeQueue.length < 6) :
    Closing x.tks.k endPos (beginClosing endPos x) := by
  obtain ⟨tks, buffer, closing⟩ := beginClosing_of_room endPos room
  exact ⟨by rw [tks], by rw [tks], by rw [tks], buffer, by rw [tks]; rfl, closing⟩

theorem Closing.of_takes {k : Nat} {endPos : Int} {x t : State} (closes : Closing k endPos x) (takes : TakesOf x t) :
    Closing k endPos t := by
  obtain ⟨-, tks, -, queues, -⟩ := takes
  exact ⟨by rw [tks, closes.job], by rw [tks, closes.cutTime], by rw [tks, closes.prevMove],
    (congrArg Tsc.pageBuffer queues :).trans closes.buffer, by rw [tks, closes.k],
    (congrArg (fun u : Tsc => u.closing.map fun x => (x.length, x.endPos)) queues :).trans closes.closing⟩

/-- At the cut point the move is recorded and the recording closes (R118). -/
theorem Records.update_cut (rec : Records inp s e r) (known : s.cck.timeState ≠ .unset) {c : Ms16}
    (cut : s.tks.cutTime = some c) (short : s.tsc.pageBuffer.length + 1 < 127) (inside : ¬(0 < r.count ∧ r.count % 1905 = 0))
    (room : s.tsc.writeQueue.length < 4) (now : (c - (s.cck.ms + 1).setWidth 16).toInt - 1 = 0) :
    Closing (s.tks.k + 1) (update inp s).mpr.p (update inp s) := by
  obtain ⟨tks, aged, -⟩ := rec.found
  have takes := rec.takes
  have p : (update inp s).mpr.p = (toServo inp s).1.mpr.p := by
    rw [takes.mpr, recordingUpdate_mpr _ (by rw [tks, rec.job])]
  rw [recordingUpdate, rec.cut known cut] at takes
  dsimp only at takes
  have job : (recorded (toServo inp s).2.made (accepted (recordedDelta inp s) (toServo inp s).1.tsc) (toServo inp s).1).tks.job =
      .recording := by rw [← rec.job, ← tks]; rfl
  rw [if_neg (by omega), rec.within short inside, if_pos ⟨now, job⟩] at takes
  have queue : (toServo inp s).1.tsc.writeQueue.length < 6 := by rw [aged.queue]; omega
  have closes := beginClosing_closing (toServo inp s).1.mpr.p
    (x := recorded (toServo inp s).2.made (accepted (recordedDelta inp s) (toServo inp s).1.tsc) (toServo inp s).1) queue
  have k : (recorded (toServo inp s).2.made (accepted (recordedDelta inp s) (toServo inp s).1.tsc) (toServo inp s).1).tks.k =
      s.tks.k + 1 := by rw [← tks]; rfl
  rw [k] at closes
  rw [p]
  exact closes.of_takes takes

/-- A cut time already reached closes the recording without the move (R118). -/
theorem Records.update_late (rec : Records inp s e r) (known : s.cck.timeState ≠ .unset) {c : Ms16}
    (cut : s.tks.cutTime = some c) (room : s.tsc.writeQueue.length < 4)
    (past : (c - (s.cck.ms + 1).setWidth 16).toInt - 1 < 0) : Closing s.tks.k s.mpr.p (update inp s) := by
  obtain ⟨tks, aged, -⟩ := rec.found
  have takes := rec.takes
  have before : (toServo inp s).1.mpr.p - (toServo inp s).2.made = s.mpr.p := by
    rw [toServo_made rec.quiet.1 (.inl rec.on)]; omega
  rw [recordingUpdate, rec.cut known cut] at takes
  dsimp only at takes
  rw [if_pos past, before] at takes
  have closes := beginClosing_closing s.mpr.p (x := (toServo inp s).1) (by rw [aged.queue]; omega)
  rw [tks] at closes
  exact closes.of_takes takes

/-! ### A page or a segment ends (R115, R117, R133, R134) -/

/-- A move that the store takes with a report: the CUT of a store that runs low is queued once (R117). -/
theorem Records.told (rec : Records inp s e r) (uncut : s.tks.cutTime = none) (known : s.cck.timeState ≠ .unset) {u : Tsc}
    {low : Bool} (taken : acceptDelta (recordedDelta inp s) (toServo inp s).1.tsc = (u, { overrun := false, low := low })) :
    let t := update inp s
    t.tks.job = .recording ∧ t.tks.k = s.tks.k + 1 ∧ Stored u t.tsc ∧
      (low = true → s.tks.storeLowSent = false ∧ s.lnk.fifo.length < 4 →
        t.lnk.fifo = s.lnk.fifo ++ [.take (.cut s.tks.jobTake ((s.cck.ms + 21).setWidth 16))] ∧ t.tks.storeLowSent = true) ∧
      (low = false ∨ ¬(s.tks.storeLowSent = false ∧ s.lnk.fifo.length < 4) →
        t.lnk.fifo = s.lnk.fifo ∧ t.tks.storeLowSent = s.tks.storeLowSent) := by
  obtain ⟨tks, -, fifo, -⟩ := rec.found
  have takes := rec.moves uncut
  rw [recordMove_told (rec.accepts.trans taken)] at takes
  obtain ⟨-, tksT, fifoT, store⟩ := takes
  obtain ⟨sent, tsc⟩ := told_eq low (recorded (toServo inp s).2.made u (toServo inp s).1)
  have job : (recorded (toServo inp s).2.made u (toServo inp s).1).tks.job = .recording := by rw [← rec.job, ← tks]; rfl
  have before : (recorded (toServo inp s).2.made u (toServo inp s).1).tks.storeLowSent = s.tks.storeLowSent := by
    rw [← tks]; rfl
  have line : (recorded (toServo inp s).2.made u (toServo inp s).1).lnk.fifo = s.lnk.fifo := fifo
  have take : (recorded (toServo inp s).2.made u (toServo inp s).1).tks.jobTake = s.tks.jobTake := by rw [← tks]; rfl
  have index : (recorded (toServo inp s).2.made u (toServo inp s).1).cck.ms + 20 = s.cck.ms + 21 := by
    rw [show (recorded (toServo inp s).2.made u (toServo inp s).1).cck.ms = s.cck.ms + 1 from toServo_ms rec.quiet.1 known,
      BitVec.add_assoc]
    rfl
  rw [tsc] at store
  refine ⟨by rw [tksT, sent]; exact job, by rw [tksT, sent, ← tks]; rfl, store, fun shortage free => ?_, fun none => ?_⟩
  · obtain ⟨queued, told⟩ := told_sends shortage job (before.trans free.1) (by rw [line]; exact free.2)
    rw [fifoT, tksT, queued, told, line, take, index]
    exact ⟨rfl, rfl⟩
  · rw [fifoT, tksT, told_quiet (by rwa [before, line])]
    exact ⟨line, before⟩

/-- A move that the store cannot take ends the recording (R115, R133). -/
theorem Records.overflows (rec : Records inp s e r) (uncut : s.tks.cutTime = none) {u : Tsc}
    (taken : acceptDelta (recordedDelta inp s) (toServo inp s).1.tsc = (u, { overrun := true, low := false })) :
    Overflowed s (update inp s) := by
  obtain ⟨tks, -, fifo, cfg⟩ := rec.found
  have takes := rec.moves uncut
  rw [recordMove_overrun (rec.accepts.trans taken)] at takes
  have ended : Overflowed s (abortOwn .recordOverrun (recorded (toServo inp s).2.made u (toServo inp s).1)) :=
    abortOwn_overflowed (by rw [← rec.job, ← tks]; rfl) cfg fifo (by rw [← tks]; rfl)
  exact ended.of_takes takes

end

end Sys2Proof.Machine
end

