-- ==== Sys2Proof/Proofs/TakeUpdates.lean ====
section
/-! SUPPORT. The roll points, the ends of a CUE and of a RUNOUT, and the updates of a take together (R110 to R122). -/

namespace Sys2Proof.Machine

open Sys2Proof.Safety

section
variable {inp : UpdateInputs} {s : State}

/-! ### The roll point (R113, R114) -/

/-- The roll point is the update before the roll time's (R113). -/
theorem atRollPoint_toServo (calm : causeFree s) (known : s.cck.timeState ≠ .unset) {roll : Ms16} (at_ : s.tks.rollTime = some roll) :
    atRollPoint (toServo inp s).1 = true ↔ roll = (s.cck.ms + 2).setWidth 16 := by
  have next : ((s.cck.ms + 2).setWidth 16 : Ms16) = (s.cck.ms + 1).setWidth 16 + 1 := by
    bv_omega
  rw [atRollPoint, (toServo_takes inp calm).1, at_]
  simp only [low16, toServo_ms calm known, beq_iff_eq, next]
  exact ⟨fun same => by rw [same]; exact (BitVec.sub_add_cancel roll 1).symm, fun same => by rw [same]; exact (BitVec.add_sub_cancel _ 1).symm⟩

theorem toServo_enabled (calm : causeFree s) (on : s.stc.drive = .enabled) : (toServo inp s).1.stc.drive = .enabled := by
  rw [(toServo_calm inp calm).2.2.2.1]; exact on

theorem index_after (m : Ms) : m + 1 + 1 = m + 2 := by rw [BitVec.add_assoc]; rfl

/-- A job that waits for another roll point goes on waiting. -/
theorem takesUpdate_waits (r : Result) {x : State} (none : atRollPoint x = false) (waits : x.tks.job = .prepared ∨ x.tks.job = .cued) :
    takesUpdate r x = x := by
  rcases waits with job | job <;> simp [takesUpdate, job, none]

/-- The roll point of a playback (R114). -/
theorem takesUpdate_plays (r : Result) {x : State} (rolls : atRollPoint x = true) (cued : x.tks.job = .cued)
    (on : x.stc.drive = .enabled) :
    takesUpdate r x = { x with
      tks := { x.tks with
        job := .running, t0 := some (x.cck.ms + 1 - BitVec.ofNat 32 (x.tks.inIndex.getD 0)), rollTime := none }
      mpr := { x.mpr with mode := .playback, g := none } } := by
  rw [takesUpdate, cued]
  dsimp only
  rw [if_pos rolls, beginPlayback, requestMode_of_enabled (by exact on)]

/-- The recording that opens at its roll point, before the store's report is taken (R113). -/
def opened (x : State) : State :=
  { x with
    tks := { x.tks with
      job := .recording, t0 := some (x.cck.ms + 1), k := 0, prevMove := some x.mpr.v, marks := [], marksFull := false
      markLate := false, storeLowSent := false, rollTime := none, cutTime := none }
    tsc := (openRecording x.tks.jobTake (x.tks.mask.getD 0) x.mpr.p x.mpr.v x.tsc).1 }

theorem takesUpdate_opens (r : Result) {x : State} (rolls : atRollPoint x = true) (prepared : x.tks.job = .prepared) :
    takesUpdate r x = storeReport (openRecording x.tks.jobTake (x.tks.mask.getD 0) x.mpr.p x.mpr.v x.tsc).2 (opened x) := by
  rw [takesUpdate, prepared]
  dsimp only
  rw [if_pos rolls]
  rfl

/-- Without a sector the recording does not open (R113, R133). -/
theorem update_opens_none (calm : causeFree s) (takes : TakesOf (takesUpdate (toServo inp s).2 (toServo inp s).1) (update inp s))
    (rolls : atRollPoint (toServo inp s).1 = true) (prepared : s.tks.job = .prepared) (free : s.tsc.recordingOf = none)
    (spent : s.tsc.findErased 4095 s.tsc.cursor = none) :
    (update inp s).tks.job = .idle ∧ (update inp s).tks.outcome = .aborted (reasonCode .recordOverrun) (ownByte s) := by
  obtain ⟨tks, tsc, -⟩ := toServo_takes inp calm
  have aged : Aged s.tsc (toServo inp s).1.tsc := by rw [tsc]; exact ageOperation_aged _
  have report := openRecording_none (n := (toServo inp s).1.tks.jobTake) (mask := (toServo inp s).1.tks.mask.getD 0)
    (p := (toServo inp s).1.mpr.p) (v := (toServo inp s).1.mpr.v) (aged.recording.trans free) (aged.found.trans spent)
  have tksT := takes.tks
  rw [takesUpdate_opens _ rolls (by rw [tks, prepared]), report, storeReport_overrun] at tksT
  have own : ownByte (opened (toServo inp s).1) = ownByte s := ownByte_congr (toServo_calm inp calm).2.2.1
  rw [tksT, abortOwn_job, abortOwn_outcome, own]
  exact ⟨rfl, rfl⟩

/-- The recording that opens (R113, R131). -/
theorem update_opens (calm : causeFree s) (known : s.cck.timeState ≠ .unset)
    (takes : TakesOf (takesUpdate (toServo inp s).2 (toServo inp s).1) (update inp s))
    (rolls : atRollPoint (toServo inp s).1 = true) (prepared : s.tks.job = .prepared) (free : s.tsc.recordingOf = none)
    (left : s.tsc.findErased 4095 s.tsc.cursor ≠ none) (room : s.tsc.directory.length < 32 ∨ s.tsc.entry s.tks.jobTake ≠ none) :
    let t := update inp s
    t.tks.job = .recording ∧ t.tks.t0 = some (s.cck.ms + 2) ∧ t.tks.k = 0 ∧ t.tks.prevMove = some t.mpr.v ∧
      t.tks.marks = [] ∧ t.tks.marksFull = false ∧ t.tks.markLate = false ∧ t.tks.rollTime = none ∧ t.tks.cutTime = none ∧
      t.tsc.recordingOf.map (fun x => (x.1.number, x.2.mask, x.2.startPos, x.2.initialMove, x.2.count)) =
        some (s.tks.jobTake, s.tks.mask.getD 0, t.mpr.p, t.mpr.v, 0) := by
  obtain ⟨tks, tsc, -⟩ := toServo_takes inp calm
  have aged : Aged s.tsc (toServo inp s).1.tsc := by rw [tsc]; exact ageOperation_aged _
  obtain ⟨low, report, outline⟩ := openRecording_some (n := s.tks.jobTake) (mask := s.tks.mask.getD 0)
    (p := (toServo inp s).1.mpr.p) (v := (toServo inp s).1.mpr.v) (t := (toServo inp s).1.tsc) (aged.recording.trans free)
    (by rwa [aged.found]) (by rwa [aged.directory, aged.entry])
  have tells : takesUpdate (toServo inp s).2 (toServo inp s).1 = told low (opened (toServo inp s).1) := by
    rw [takesUpdate_opens _ rolls (by rw [tks, prepared]), tks, report]
    rfl
  rw [tells] at takes
  obtain ⟨mpr, tksT, -, store⟩ := takes
  obtain ⟨sent, tscX⟩ := told_eq low (opened (toServo inp s).1)
  have mprX : (told low (opened (toServo inp s).1)).mpr = (toServo inp s).1.mpr := by
    unfold told
    split
    · exact storeLow_mpr _
    · rfl
  rw [mprX] at mpr
  have v : (update inp s).mpr.v = (toServo inp s).1.mpr.v := by rw [mpr]
  have p : (update inp s).mpr.p = (toServo inp s).1.mpr.p := by rw [mpr]
  have index : (toServo inp s).1.cck.ms + 1 = s.cck.ms + 2 := by rw [toServo_ms calm known, index_after]
  have directory : (opened (toServo inp s).1).tsc =
      (openRecording s.tks.jobTake (s.tks.mask.getD 0) (toServo inp s).1.mpr.p (toServo inp s).1.mpr.v (toServo inp s).1.tsc).1 := by
    rw [← tks]; rfl
  dsimp only
  rw [tksT, sent, v, p, opening_of_outline, store.outline, ← opening_of_outline, tscX, directory, outline]
  exact ⟨rfl, congrArg some index, rfl, rfl, rfl, rfl, rfl, rfl, rfl, rfl⟩

/-! ### The ends of a CUE and of a RUNOUT (R110, R122) -/

theorem takesUpdate_arrives {r : Result} {x : State} (cueing : x.tks.job = .cueing) (arrives : r.arrival = true)
    (on : x.stc.drive = .enabled) :
    takesUpdate r x = { x with tks := { x.tks with job := .cued }, mpr := { x.mpr with mode := .hold, g := none } } := by
  rw [takesUpdate, cueing]
  dsimp only
  rw [if_pos arrives, requestMode_of_enabled (by exact on)]

theorem takesUpdate_cueing {r : Result} {x : State} (cueing : x.tks.job = .cueing) (moving : r.arrival = false) :
    takesUpdate r x = x := by
  simp [takesUpdate, cueing, moving]

theorem takesUpdate_completes {r : Result} {x : State} (runout : x.tks.job = .runout) (rest : r.rest = true) :
    (takesUpdate r x).tks.job = .idle ∧ (takesUpdate r x).tks.outcome = .completed ∧ (takesUpdate r x).tks.mask = none := by
  rw [takesUpdate, runout]
  dsimp only
  rw [if_pos rest]
  exact ⟨rfl, rfl, rfl⟩

theorem takesUpdate_runout {r : Result} {x : State} (runout : x.tks.job = .runout) (moving : r.rest = false) :
    takesUpdate r x = x := by
  simp [takesUpdate, runout, moving]

/-! ### A playback's update -/

theorem takesUpdate_running (r : Result) {x : State} (runs : x.tks.job = .running) : takesUpdate r x = playbackResult r x := by
  rw [takesUpdate, runs]

/-- A playback that goes to RUNOUT in its update (R121). -/
theorem update_runsOut (on : s.stc.drive = .enabled) (none : s.hom.state ≠ .homing) (quiet : updateQuiet inp s) {m : Int}
    (taken : takesUpdate (toServo inp s).2 (toServo inp s).1 = beginRunout (played m (toServo inp s).1))
    (p : (toServo inp s).1.mpr.p = s.mpr.p + m) (v : (toServo inp s).1.mpr.v = m) :
    (update inp s).mpr.p = s.mpr.p + m ∧ (update inp s).mpr.v = m ∧ (update inp s).mpr.mode = .runout ∧
      (update inp s).tks = { s.tks with k := s.tks.k + 1, playMove := some m, job := .runout, cutTime := Option.none } := by
  have enabled : (played m (toServo inp s).1).stc.drive = .enabled := toServo_enabled quiet.1 on
  rw [beginRunout_of_enabled enabled] at taken
  obtain ⟨mpr, tks⟩ := update_runs on none quiet taken (by simp)
  rw [mpr, tks, ← (toServo_takes inp quiet.1).1]
  exact ⟨p, v, rfl, rfl⟩

end

/-- The store entry of a full page, as a recording forms it (R134). -/
theorem Records.page {inp : UpdateInputs} {s : State} {e : DirEntry} {r : Recording} (rec : Records inp s e r)
    (full : s.tsc.pageBuffer.length = 126) (inside : ¬(0 < r.count ∧ r.count % 1905 = 0)) :
    acceptDelta (recordedDelta inp s) (toServo inp s).1.tsc =
      if s.tsc.writeQueue.length < 6 then
        ({ accepted (recordedDelta inp s) (toServo inp s).1.tsc with
            pageBuffer := [], writeQueue := s.tsc.writeQueue ++ [pageEntry r (s.tsc.pageBuffer ++ [recordedDelta inp s])] },
          { overrun := false, low := decide (s.tsc.erased ≤ 1) })
      else ({ accepted (recordedDelta inp s) (toServo inp s).1.tsc with pageBuffer := [] }, { overrun := true, low := false }) := by
  obtain ⟨-, aged, -⟩ := rec.found
  rw [acceptDelta_page _ (aged.recording.trans rec.records) (by rwa [aged.buffer]) inside, aged.queue, aged.buffer, aged.erased]

/-- Settles O26: the take's part of the update by its job, and what the rest of the update keeps of it. -/
theorem updateReplaysAndRecords : Obligations.UpdateReplaysAndRecords := by
  unfold Obligations.UpdateReplaysAndRecords
  refine ⟨fun inp s d on play runs homed quiet later uncut hand => ?_,
    fun inp s e r on job homed quiet uncut records timely short inside => ?_,
    fun inp s e r c on job homed quiet known cut records timely short inside room => ?_,
    fun inp s roll on homed quiet known at_ timely => ?_, fun inp s on homed quiet timely => ?_,
    fun inp s d c on play runs homed quiet later known cut near hand => ?_,
    fun inp s e r on job homed quiet known uncut records timely => ?_⟩
  · intro m speed change low high
    have none : s.hom.state ≠ .homing := by simp [homed]
    obtain ⟨tks, -⟩ := toServo_takes inp quiet.1
    obtain ⟨p, v, mode, result⟩ := toServo_played quiet.1 on play runs later hand speed change low high
    have taken := (takesUpdate_running (toServo inp s).2 (by rw [tks, runs])).trans (playbackResult_played result _)
    refine ⟨_, rfl, ?_⟩
    by_cases ends : s.tks.k + 1 = s.tks.endIndex.getD 0
    · rw [if_pos (by rw [tks]; exact ends)] at taken
      obtain ⟨pT, vT, modeT, tksT⟩ := update_runsOut on none quiet taken p v
      exact ⟨pT, vT, by rw [tksT], by rw [tksT], fun goes => absurd ends goes, fun _ => ⟨by rw [tksT], modeT⟩⟩
    · rw [if_neg (by rw [tks]; exact ends), playbackCut_none (s := played (d + s.tks.playMove.getD 0) (toServo inp s).1)
        (show (toServo inp s).1.tks.cutTime = Option.none by rw [tks, uncut])] at taken
      obtain ⟨mpr, tksT⟩ := update_runs on none quiet taken (by simp [played, tks, runs])
      have tksP : (played (d + s.tks.playMove.getD 0) (toServo inp s).1).tks =
          { s.tks with k := s.tks.k + 1, playMove := some (d + s.tks.playMove.getD 0) } := by rw [← tks]; rfl
      rw [tksP] at tksT
      exact ⟨by rw [mpr]; exact p, by rw [mpr]; exact v, by rw [tksT], by rw [tksT],
        fun _ => ⟨by rw [tksT]; exact runs, by rw [mpr]; exact mode⟩, fun at_ => absurd at_ ends⟩
  · have live : Records inp s e r := ⟨on, job, homed, quiet, records, timely⟩
    exact ⟨_, rfl, live.update_within uncut short inside⟩
  · have live : Records inp s e r := ⟨on, job, homed, quiet, records, timely⟩
    refine ⟨_, rfl, live.update_goes known cut short inside, fun reached => ?_, fun now => ?_, fun past => ?_⟩
    · rcases lt_or_eq_of_le reached with past | now
      · have closes := live.update_late known cut room past
        exact ⟨closes.job, closes.cutTime, closes.prevMove, closes.buffer⟩
      · have closes := live.update_cut known cut short inside room now
        exact ⟨closes.job, closes.cutTime, closes.prevMove, closes.buffer⟩
    · have closes := live.update_cut known cut short inside room now
      exact ⟨closes.k, closes.closing⟩
    · have closes := live.update_late known cut room past
      exact ⟨closes.k, closes.closing⟩
  · have none : s.hom.state ≠ .homing := by simp [homed]
    obtain ⟨tks, -⟩ := toServo_takes inp quiet.1
    have rolls := atRollPoint_toServo (inp := inp) quiet.1 known at_
    have takes (other : s.tks.job ≠ .running) := update_takes (inp := inp) on none quiet other timely
    refine ⟨_, rfl, fun other waits => ?_, fun now => ⟨fun cued => ?_, fun prepared free => ⟨fun spent => ?_, fun left room => ?_⟩⟩⟩
    · have still : s.tks.job ≠ .running := by rcases waits with j | j <;> simp [j]
      have keeps := (takes still).tks
      rwa [takesUpdate_waits _ (by simpa using fun at_ => other (rolls.mp at_)) (by rwa [tks]), tks] at keeps
    · have taken := takes (by simp [cued])
      rw [takesUpdate_plays _ (rolls.mpr now) (by rw [tks, cued]) (toServo_enabled quiet.1 on)] at taken
      obtain ⟨mpr, tksT, -⟩ := taken
      refine ⟨?_, by rw [mpr]⟩
      rw [tksT, tks, toServo_ms quiet.1 known, index_after]
    · exact update_opens_none quiet.1 (takes (by simp [prepared])) (rolls.mpr now) prepared free spent
    · exact update_opens quiet.1 known (takes (by simp [prepared])) (rolls.mpr now) prepared free left room
  · have none : s.hom.state ≠ .homing := by simp [homed]
    obtain ⟨tks, -⟩ := toServo_takes inp quiet.1
    have takes (other : s.tks.job ≠ .running) := update_takes (inp := inp) on none quiet other timely
    refine ⟨_, rfl, fun cueing arrives => ?_, fun cueing moving => ?_, fun runout rest => ?_, fun runout moving => ?_⟩
    · have taken := takes (by simp [cueing])
      rw [takesUpdate_arrives (by rw [tks, cueing]) arrives (toServo_enabled quiet.1 on)] at taken
      obtain ⟨mpr, tksT, -⟩ := taken
      exact ⟨by rw [tksT, tks], by rw [mpr], by rw [mpr], by rw [mpr]⟩
    · have taken := takes (by simp [cueing])
      rw [takesUpdate_cueing (by rw [tks, cueing]) moving] at taken
      exact ⟨by rw [taken.tks, tks], by rw [taken.mpr]⟩
    · rw [(takes (by simp [runout])).tks]
      exact takesUpdate_completes (by rw [tks, runout]) rest
    · have taken := takes (by simp [runout])
      rw [takesUpdate_runout (by rw [tks, runout]) moving] at taken
      rw [taken.tks, tks]
  · intro m speed change low high
    have none : s.hom.state ≠ .homing := by simp [homed]
    obtain ⟨tks, -⟩ := toServo_takes inp quiet.1
    obtain ⟨p, v, mode, result⟩ := toServo_played quiet.1 on play runs later hand speed change low high
    have taken := (takesUpdate_running (toServo inp s).2 (by rw [tks, runs])).trans (playbackResult_played result _)
    have reached : diff16 c (low16 (toServo inp s).1.cck.ms) ≤ 1 := by rw [toServo_ms quiet.1 known]; exact near
    rw [playbackCut_reached (s := played (d + s.tks.playMove.getD 0) (toServo inp s).1) (c := c)
      (show (toServo inp s).1.tks.cutTime = some c by rw [tks, cut]) reached, ite_self] at taken
    obtain ⟨pT, vT, modeT, tksT⟩ := update_runsOut on none quiet taken p v
    exact ⟨_, rfl, pT, vT, by rw [tksT], by rw [tksT], modeT, by rw [tksT]⟩
  · have live : Records inp s e r := ⟨on, job, homed, quiet, records, timely⟩
    have aged := live.found.2.1
    refine ⟨_, rfl, ?_⟩
    intro delta overrun low cut quietly
    have overflow {u : Tsc} (taken : acceptDelta (recordedDelta inp s) (toServo inp s).1.tsc = (u, { overrun := true, low := false })) :
        overrun := by
      obtain ⟨idle, outcome, none, buffer, queue, fifo⟩ := live.overflows uncut taken
      exact ⟨idle, outcome, none, buffer, queue, fifo⟩
    refine ⟨fun full inside => ?_, fun short some_ turns => ⟨fun spent => ?_, fun c found => ?_⟩⟩
    · intro w page
      have formed := live.page full inside
      refine ⟨fun many => overflow (formed.trans (if_neg (by omega))), fun few => ?_⟩
      rw [if_pos few] at formed
      obtain ⟨jobT, k, store, sends, stays⟩ := live.told uncut known formed
      exact ⟨jobT, k, (congrArg Tsc.pageBuffer store.queues :), (congrArg Tsc.writeQueue store.queues :),
        fun few_ => sends (by simpa using few_), fun many => stays (many.imp_left (by simp))⟩
    · exact overflow (acceptDelta_noSector _ (aged.recording.trans live.records) some_ turns (aged.found.trans spent))
    · have accepts := acceptDelta_sector (recordedDelta inp s) (aged.recording.trans live.records) some_ turns (by rwa [aged.buffer])
        (aged.found.trans found)
      obtain ⟨jobT, k, store, sends, stays⟩ := live.told uncut known accepts
      have erased : (update inp s).tsc.erased = (allotted c (r.count / 1905) (toServo inp s).1.tsc).erased :=
        erased_congr (store.pool.trans (accepted_pool _ _))
      have outline := accepted_outline (recordedDelta inp s) (allotted_recordingOf c (r.count / 1905) (aged.recording.trans live.records))
      refine ⟨jobT, k, ?_, ?_, ?_, fun last => sends (by simpa [erased] using last), fun more => stays (more.imp_left (by simp [erased]))⟩
      · rw [← aged.buffer]; exact (congrArg Tsc.pageBuffer store.queues :)
      · exact (congrArg Tsc.cursor store.queues :)
      · rw [segments_of_outline, store.outline, outline]
        simp [counted, Recording.outline, extended]

end Sys2Proof.Machine
end

