-- ==== Sys2Proof/Proofs/HandDemand.lean ====
section
/-! SUPPORT. The hand demand that an update forms of its route's channel (R30 to R33, R37, R38). -/

namespace Sys2Proof.Machine

/-- Whether the route is armed once an update has formed its demand (R32, R33). -/
def armsAt (s : State) (b : Block) : Bool :=
  s.mpr.mode == .hand && !routeStale s b &&
    (s.dmr.armed || (s.stc.drive == .enabled && s.dmr.lastKind.isSome && (routeDemand s b).2))

/-- The raw demand of an update (R30). -/
def rawAt (s : State) (b : Block) : Int := rawDemand (routeDemand s b).1 b.gain (b.invert == 1)

/-- An update of an axis that has reached PARKED forms every item of its demand but the kind (R30 to R33, R37, R38). -/
theorem demandUpdate_of_up {s : State} {b : Block} (up : axisUp s = true) (params : s.cfg.params = some b) :
    demandUpdate s = { s with dmr := { s.dmr with
      armed := armsAt s b
      pendingWheel :=
        if routeStale s b || !(s.mpr.mode == .hand) || s.dmr.lastKind == some .wheel then 0 else s.dmr.pendingWheel
      rawDemand := rawAt s b
      factor := routeFactor s b
      handDemand := if armsAt s b then scaleDemand (rawAt s b) (routeFactor s b) else 0
      stale := routeStale s b } } := by
  simp [demandUpdate, params, up, armsAt, rawAt]

theorem routeStale_iff (s : State) (b : Block) :
    routeStale s b = true ↔ 5 < s.ptb.demands[stationOf b.source].age := by
  exact decide_eq_true_iff

theorem routeDemand_of_none {s : State} (b : Block) (kind : s.dmr.lastKind = none) : routeDemand s b = (0, false) := by
  simp [routeDemand, kind]

theorem routeDemand_of_wheel {s : State} (b : Block) (kind : s.dmr.lastKind = some .wheel) :
    routeDemand s b = (s.dmr.pendingWheel, decide (s.dmr.pendingWheel = 0)) := by
  simp [routeDemand, kind]

theorem routeDemand_of_lever {s : State} (b : Block) (kind : s.dmr.lastKind = some .lever) :
    routeDemand s b = (deadbanded b.deadband (leverValue s b), decide (|leverValue s b| ≤ (b.deadband : Int))) := by
  simp [routeDemand, kind]

/-- A demand is neutral with a wheel at rest or a lever within the deadband (R32). -/
theorem routeDemand_neutral (s : State) (b : Block) :
    s.dmr.lastKind.isSome = true ∧ (routeDemand s b).2 = true ↔
      s.dmr.lastKind = some .wheel ∧ s.dmr.pendingWheel = 0 ∨
        s.dmr.lastKind = some .lever ∧ |leverValue s b| ≤ (b.deadband : Int) := by
  cases kind : s.dmr.lastKind with
  | none => simp
  | some k =>
    cases k with
    | wheel => simp [routeDemand_of_wheel b kind]
    | lever => simp [routeDemand_of_lever b kind]

theorem armsAt_iff (s : State) (b : Block) :
    armsAt s b = true ↔ s.mpr.mode = .hand ∧ routeStale s b = false ∧
      (s.dmr.armed = true ∨ s.stc.drive = .enabled ∧
        (s.dmr.lastKind = some .wheel ∧ s.dmr.pendingWheel = 0 ∨
          s.dmr.lastKind = some .lever ∧ |leverValue s b| ≤ (b.deadband : Int))) := by
  rw [← routeDemand_neutral]
  simp [armsAt, and_assoc]

/-- The product of value and gain, saturated and then inverted (R30). -/
theorem rawDemand_eq (value gain : Int) (invert : Nat) :
    rawDemand value gain (invert == 1) =
      (if invert = 1 then -1 else 1) * max (-8388607) (min 8388607 (value * gain)) := by
  simp only [rawDemand, Config.maxDemand, satInt_eq (show (0 : Int) ≤ 8388607 by decide), beq_iff_eq]
  split <;> omega

theorem rawAt_of_none {s : State} (b : Block) (kind : s.dmr.lastKind = none) : rawAt s b = 0 := by
  simp [rawAt, rawDemand_eq, routeDemand_of_none b kind]

theorem routeFactor_of_uncoupled (s : State) {b : Block} (none : b.coupling = 0) : routeFactor s b = 4096 := by
  simp [routeFactor, none]

/-- A coupling source that is stale or has not been heard leaves the least factor (R37). -/
theorem routeFactor_of_unheard {s : State} {b : Block} (coupled : b.coupling ≠ 0)
    (unheard : 12 < (peerEntry s (stationOf b.coupling)).age ∨ (peerEntry s (stationOf b.coupling)).items = none) :
    routeFactor s b = b.fMin := by
  rcases unheard with old | none
  · simp [routeFactor, coupled, usedFactor, peerFresh, isFresh, Config.freshAge, Nat.not_le.mpr old]
  · simp [routeFactor, coupled, usedFactor, none]

theorem routeFactor_of_heard {s : State} {b : Block} {i : StatusItems} (coupled : b.coupling ≠ 0)
    (fresh : (peerEntry s (stationOf b.coupling)).age ≤ 12) (items : (peerEntry s (stationOf b.coupling)).items = some i) :
    routeFactor s b = if 1 ≤ i.factor.toNat ∧ i.factor.toNat ≤ 4096 then max i.factor.toNat b.fMin else b.fMin := by
  simp [routeFactor, coupled, usedFactor, peerFresh, isFresh, Config.freshAge, fresh, items]

end Sys2Proof.Machine
end

