-- ==== Sys2Proof/Proofs/FieldFactor.lean ====
section
/-! SUPPORT. The lens table, and the field factor that an update leaves (R34, R35). -/

namespace Sys2Proof.Machine

/-! ### The lens table (R34, R35) -/

/-- Below the first point of a table stands its factor. -/
theorem lensFactor_below {z : Int} {x : LensPoint} {xs : List LensPoint} (below : z < x.pos) :
    lensFactor z (x :: xs) = x.factor := by
  cases xs with
  | nil => rfl
  | cons y rest => simp [lensFactor, below]

/-- From the second point on, the first one plays no part. -/
theorem lensFactor_past {z : Int} {x y : LensPoint} {rest : List LensPoint} (rising : x.pos < y.pos) (past : y.pos ≤ z) :
    lensFactor z (x :: y :: rest) = lensFactor z (y :: rest) := by
  rw [lensFactor, if_neg (by omega), if_neg (by omega)]

/-- From the last point on stands its factor. -/
theorem lensFactor_last {z : Int} {x : LensPoint} (past : x.pos ≤ z) :
    ∀ {xs : List LensPoint}, xs.Pairwise (fun x y => x.pos < y.pos) → xs.getLast? = some x → lensFactor z xs = x.factor
  | [y], _, last => by
    obtain rfl : y = x := by simpa using last
    rfl
  | w :: y :: rest, sorted, last => by
    obtain ⟨first, sorted'⟩ := List.pairwise_cons.mp sorted
    have last' : (y :: rest).getLast? = some x := by simpa using last
    have reached : y.pos ≤ x.pos := by
      rcases List.mem_cons.mp (List.mem_of_getLast? last') with rfl | later
      · exact le_rfl
      · exact ((List.pairwise_cons.mp sorted').1 x later).le
    rw [lensFactor_past (first y (by simp)) (reached.trans past), lensFactor_last past sorted' last']

/-- Between two neighbouring points the factor is interpolated. -/
theorem lensFactor_between {z : Int} {x y : LensPoint} (low : x.pos ≤ z) (high : z < y.pos) :
    ∀ {xs : List LensPoint} {i : Nat}, xs.Pairwise (fun x y => x.pos < y.pos) → xs[i]? = some x → xs[i + 1]? = some y →
      lensFactor z xs = x.factor + ((z - x.pos) * ((y.factor : Int) - x.factor)).tdiv (y.pos - x.pos)
  | a :: c :: rest, 0, _, first, second => by
    obtain rfl : a = x := by simpa using first
    obtain rfl : c = y := by simpa using second
    rw [lensFactor, if_neg (by omega), if_pos high]
  | a :: c :: rest, i + 1, sorted, first, second => by
    obtain ⟨before, sorted'⟩ := List.pairwise_cons.mp sorted
    have here : (c :: rest)[i]? = some x := by simpa using first
    have next : (c :: rest)[i + 1]? = some y := by simpa using second
    have reached : c.pos ≤ x.pos := by
      rcases List.mem_cons.mp (List.mem_of_getElem? here) with rfl | later
      · exact le_rfl
      · exact ((List.pairwise_cons.mp sorted').1 x later).le
    rw [lensFactor_past (before c (by simp)) (reached.trans low), lensFactor_between low high sorted' here next]
  | [_], 0, _, _, second => by simp at second
  | [_], i + 1, _, first, _ => by simp at first
  | [], _, _, first, _ => by simp at first

/-- An interpolated factor lies at or above 0, as both factors do. -/
theorem interpolation_nonneg {z : Int} {x y : LensPoint} (low : x.pos ≤ z) (high : z < y.pos) :
    0 ≤ (x.factor : Int) + ((z - x.pos) * ((y.factor : Int) - x.factor)).tdiv (y.pos - x.pos) := by
  have width : 0 < y.pos - x.pos := by omega
  rcases le_total x.factor y.factor with up | down
  · have rises : 0 ≤ (z - x.pos) * ((y.factor : Int) - x.factor) := mul_nonneg (by omega) (by omega)
    have := Int.tdiv_nonneg rises width.le
    omega
  · have falls : (z - x.pos) * ((x.factor : Int) - y.factor) ≤ x.factor * (y.pos - x.pos) := by nlinarith
    have drop : ((z - x.pos) * ((x.factor : Int) - y.factor)).tdiv (y.pos - x.pos) ≤ x.factor := by
      rw [Int.tdiv_eq_ediv_of_nonneg (mul_nonneg (by omega) (by omega))]
      exact Int.ediv_le_of_le_mul width falls
    have turned : (z - x.pos) * ((y.factor : Int) - x.factor) = -((z - x.pos) * ((x.factor : Int) - y.factor)) := by ring
    rw [turned, Int.neg_tdiv]
    omega

/-! ### The factor that an update leaves -/

theorem fieldFactor_congr {s t : State} (cfg : t.cfg = s.cfg) (hom : t.hom = s.hom) (p : t.mpr.p = s.mpr.p) :
    fieldFactor t = fieldFactor s := by
  have axis : isAxis t = isAxis s := by rw [isAxis, isAxis, cfg]
  have kind : ownKind t = ownKind s := by rw [ownKind, ownKind, axis, cfg]
  have zoom : isZoom t = isZoom s := by rw [isZoom, isZoom, axisUp_congr cfg, kind]
  have homed : isHomed t = isHomed s := by rw [isHomed, isHomed, hom]
  have place : position t = position s := by rw [position, position, p]
  rw [fieldFactor, fieldFactor, zoom, homed, place, cfg]

/-- Elsewhere than on a homed ZOOM node that has reached PARKED there is no field factor (R35). -/
theorem fieldFactor_of_other {s : State}
    (other : axisUp s = false ∨ s.hom.state ≠ .homed ∨ ∀ b, s.cfg.params = some b → b.axisKind ≠ 9) : fieldFactor s = 0 := by
  have none : (isZoom s && isHomed s) = false := by
    rcases other with down | unhomed | kind
    · simp [isZoom, down]
    · simp [isHomed, unhomed]
    · have other (b : Block) (params : s.cfg.params = some b) : axisKindOf b.axisKind ≠ some .zoom := by
        have := kind b params
        unfold axisKindOf
        split <;> simp_all
      cases params : s.cfg.params with
      | none => simp [isZoom, ownKind, params]
      | some b => simp [isZoom, ownKind, params, other b params]
  simp [fieldFactor, none]

theorem fieldFactor_of_zoom {s : State} {b : Block} (up : axisUp s = true) (homed : s.hom.state = .homed)
    (params : s.cfg.params = some b) (kind : b.axisKind = 9) : fieldFactor s = (lensFactor (s.mpr.p / 256) b.lens).toNat := by
  have axis : isAxis s = true := by simp_all [axisUp]
  simp [fieldFactor, isZoom, ownKind, isHomed, up, axis, homed, params, kind, axisKindOf, position]

/-- An event in which no hold begins leaves the hold as it is (R88). -/
theorem settleHold_of_unbegun {before s : State}
    (unbegun : before.stc.hold ≠ none ∨ (settleHold before s).stc.hold = none) : settleHold before s = s := by
  by_cases begins : before.stc.hold = none ∧ s.stc.hold ≠ none ∧ s.stc.hold ≠ formHold (localCauses s)
  · obtain ⟨none, held, -⟩ := begins
    have stays : (settleHold before s).stc.hold.isSome = true :=
      (settleHold_lasting (known := true) before s).hold (Option.isSome_iff_ne_none.mpr held)
    rcases unbegun with was | gone
    · exact absurd none was
    · simp [gone] at stays
  · rw [settleHold, if_neg begins]

theorem queued_p (inp : UpdateInputs) (known : Bool) (s : State) : (queued inp known s).mpr.p = s.mpr.p := by
  simp [queued, updateFactor]

theorem queued_factor (inp : UpdateInputs) (known : Bool) (s : State) :
    (queued inp known s).mpr.factor = fieldFactor s := by
  have here := fieldFactor_congr (s := s) (t := statusAt (known && inp.statusPoint == .beforeFactor) s) (by simp) (by simp) (by simp)
  rw [← here]
  simp [queued, updateFactor]

/-- An operation that runs out of its updates ends no move (R127, R135). -/
theorem operationUpdate_mpr (left : Option (List Byte)) (s : State) : (operationUpdate left s).mpr = s.mpr := by
  simp only [operationUpdate, operationFailed]
  split
  · split <;> simp
  · rfl

/-- The part of an update after its result leaves the field factor of the state it leaves. -/
theorem afterMotion_factor (inp : UpdateInputs) (known : Bool) (s : State) :
    (afterMotion inp known s).mpr.factor = fieldFactor (afterMotion inp known s) := by
  rw [afterMotion_eq]
  generalize causesAt _ _ = x
  have left : fieldFactor (operationUpdate inp.left (queued inp known x)) = fieldFactor x :=
    fieldFactor_congr (by simp) (by simp) (by rw [operationUpdate_mpr, queued_p])
  rw [left, operationUpdate_mpr, queued_factor]

/-- An update in which no hold begins leaves the field factor of the position it leaves. -/
theorem update_factor {inp : UpdateInputs} {s : State} (unbegun : s.stc.hold ≠ none ∨ (update inp s).stc.hold = none) :
    (update inp s).mpr.factor = fieldFactor (update inp s) := by
  have settled := settleHold_of_unbegun (before := s)
    (s := afterMotion inp s.cfg.station.isSome (takeResult (toServo inp s).2 (toServo inp s).1)) (by simpa [update] using unbegun)
  have same : fieldFactor (update inp s) =
      fieldFactor (afterMotion inp s.cfg.station.isSome (takeResult (toServo inp s).2 (toServo inp s).1)) :=
    fieldFactor_congr (by simp [update]) (by simp [update, settled]) (by simp [update, settled])
  rw [same, ← afterMotion_factor]
  simp [update, settled]

/-- Settles O18: the demand item by item, and the factor by the place of the position in the lens table. -/
theorem handDemandOfAnUpdate : Obligations.HandDemandOfAnUpdate := by
  unfold Obligations.HandDemandOfAnUpdate
  refine ⟨fun s b up params => ?_, fun inp s => ⟨_, rfl, fun unbegun => ?_⟩⟩
  · refine ⟨_, rfl, ?_⟩
    rw [demandUpdate_of_up up params]
    dsimp only
    have raw := rawDemand_eq (routeDemand s b).1 b.gain b.invert
    refine ⟨rfl, rfl, routeStale_iff s b, fun stale => ?_, armsAt_iff s b, fun other => by simp [other], fun unarmed => by simp [unarmed],
      fun armed => by simp [armed, scaleDemand], rawAt_of_none b, fun kind => ⟨by simp [kind], ?_⟩, fun kind => ?_,
      routeFactor_of_uncoupled s, fun coupled => ⟨routeFactor_of_unheard coupled, fun i => routeFactor_of_heard coupled⟩⟩
    · have unarmed : armsAt s b = false := by simp [armsAt, stale]
      simp [unarmed, stale]
    · rw [rawAt, raw, routeDemand_of_wheel b kind]
    · rw [rawAt, raw, routeDemand_of_lever b kind]; rfl
  · have factor := update_factor unbegun
    refine ⟨fun other => factor.trans (fieldFactor_of_other other), fun b up homed params kind sorted => ?_⟩
    rw [factor, fieldFactor_of_zoom up homed params kind]
    refine ⟨fun x head below => ?_, fun x last past => ?_, fun i x y here next low high => ?_⟩
    · obtain ⟨xs, lens⟩ := List.head?_eq_some_iff.mp head
      simp [lens, lensFactor_below below]
    · simp [lensFactor_last past sorted last]
    · rw [lensFactor_between low high sorted here next, Int.toNat_of_nonneg (interpolation_nonneg low high)]

end Sys2Proof.Machine
end

