-- ==== Sys2Proof/Proofs/ControlLines.lean ====
section
/-! SUPPORT. The buttons and the wheels of a control station (R25, R102, R116). -/

namespace Sys2Proof.Machine

/-- A frame for which the command FIFO has a place joins its tail (R156). -/
theorem queueCommand_of_room {s : State} (b : Body) (room : s.lnk.fifo.length < 4) :
    queueCommand b s = { s with lnk := { s.lnk with fifo := s.lnk.fifo ++ [b] } } := by
  rw [queueCommand, if_pos ((fifoRoom_iff s).mpr room)]

/-- A full command FIFO takes none (R156). -/
theorem queueCommand_of_full {s : State} (b : Body) (full : 4 ≤ s.lnk.fifo.length) : queueCommand b s = s := by
  rw [queueCommand, if_neg (by rw [fifoRoom_iff]; omega)]

/-- The masks of WAKE and PARK are the block's expected peers (R102). -/
theorem buttonBody_of_params {s : State} {p : Block} (params : s.cfg.params = some p) :
    buttonBody .wake s = .wake p.expected ∧ buttonBody .park s = .park p.expected := by
  simp [buttonBody, params]

theorem pressButton_of_up {s : State} (b : Button) (up : controlUp s = true) (room : s.lnk.fifo.length < 4) :
    pressButton b s = { s with lnk := { s.lnk with fifo := s.lnk.fifo ++ [buttonBody b s] } } := by
  rw [pressButton, if_pos up, queueCommand_of_room _ room]

theorem pressButton_of_dropped {s : State} (b : Button) (dropped : controlUp s = false ∨ 4 ≤ s.lnk.fifo.length) :
    pressButton b s = s := by
  rcases dropped with down | full
  · simp [pressButton, down]
  · rw [pressButton, queueCommand_of_full _ full, ite_self]

theorem turnWheel_of_axis {s : State} (ch : Fin 4) (q : QuadStep) (axis : isAxis s = true) : turnWheel ch q s = s := by
  rw [turnWheel, if_pos axis]

theorem turnWheel_of_other {s : State} (ch : Fin 4) (q : QuadStep) (other : isAxis s = false) :
    turnWheel ch q s = { s with chan := { s.chan with wheels := s.chan.wheels.set ch (wheelStep q s.chan.wheels[ch]) } } := by
  simp [turnWheel, other]

theorem wheelStep_plus (a : Int) : wheelStep .plus a = max (-32767) (min 32767 (a + 1)) := satInt_eq (by decide) _
theorem wheelStep_minus (a : Int) : wheelStep .minus a = max (-32767) (min 32767 (a - 1)) := satInt_eq (by decide) _

/-- An illegal transition counts nothing (R25). -/
theorem turnWheel_illegal (s : State) (ch : Fin 4) : turnWheel ch .illegal s = s := by
  by_cases axis : isAxis s = true
  · exact turnWheel_of_axis ch _ axis
  · simp [turnWheel_of_other ch .illegal (by simpa using axis), wheelStep]

/-- Settles O41, by the role and the room in the command FIFO. -/
theorem buttonsAndWheels : Obligations.ButtonsAndWheels := by
  unfold Obligations.ButtonsAndWheels
  refine fun s => ⟨
    fun b up room => ⟨buttonBody b s, congrArg Host.Outcome.next (pressButton_of_up b up room), ?_, ?_, fun p params => ?_⟩,
    fun b dropped => congrArg Host.Outcome.next (pressButton_of_dropped b dropped),
    fun ch q axis => congrArg Host.Outcome.next (turnWheel_of_axis ch q axis),
    fun ch other => ⟨congrArg Host.Outcome.next ?_, congrArg Host.Outcome.next ?_,
      congrArg Host.Outcome.next (turnWheel_illegal s ch)⟩⟩
  · rintro rfl; rfl
  · rintro rfl; rfl
  · obtain ⟨wake, park⟩ := buttonBody_of_params params
    exact ⟨fun pressed => pressed ▸ wake, fun pressed => pressed ▸ park⟩
  · rw [turnWheel_of_other ch _ other, wheelStep_plus]
  · rw [turnWheel_of_other ch _ other, wheelStep_minus]

end Sys2Proof.Machine
end

