-- ==== Sys2Proof/Proofs/PortTransactions.lean ====
section
/-! SUPPORT. The transactions of the companion port that copy or do nothing, and the status they show (R39, R71, R178, R180, R181). -/

namespace Sys2Proof.Machine

/-! ### The status byte (R178) -/

theorem interruptLine_iff (s : State) : interruptLine s = true ↔ s.cpt.rxQueue ≠ [] := by
  simp [interruptLine]

theorem shownStatus_of_began {s : State} (began : s.cpt.began = true) : shownStatus s = s.cpt.status := by
  rw [shownStatus, if_pos began]

theorem shownStatus_of_fresh {s : State} (fresh : s.cpt.began = false) : shownStatus s = some (portStatus s) := by
  simp [shownStatus, fresh]

/-! ### RECEIVE (R180) -/

theorem natBytes_length (n : Nat) : ∀ k, (natBytes n k).length = k
  | 0 => rfl
  | k + 1 => congrArg Nat.succ (natBytes_length n k)

/-- An entry's header, own flag and time take 7 bytes ahead of its payload (R180). -/
theorem rxEntry_bytes_length (e : RxEntry) : e.bytes.length = 7 + e.payload.length := by
  simp only [RxEntry.bytes, List.length_append, natBytes_length]

theorem portReceive_of_empty {s : State} (empty : s.cpt.rxQueue = []) : portReceive s = refused .empty s := by
  simp [portReceive, empty]

theorem portReceive_of_entry {s : State} {e : RxEntry} {rest : List RxEntry} (queue : s.cpt.rxQueue = e :: rest) :
    portReceive s = { s with cpt := { s.cpt with
      status := shownStatus s, began := false, answer := some .accepted, response := .entry e.bytes, copying := true } } := by
  simp [portReceive, queue, answered]

/-! ### SNAPSHOT (R181) -/

/-- The section numbers and indices of the table of R181. -/
def inSnapshotTable (sec i : Nat) : Prop :=
  (sec = 0 ∨ sec = 2 ∨ sec = 3 ∨ sec = 4 ∨ sec = 6) ∧ i = 0 ∨ sec = 1 ∧ 1 ≤ i ∧ i ≤ 15 ∨ sec = 5 ∧ i ≤ 31

/-- A section and index of the table have a copy, and no others (R181). -/
theorem snapshotCopy_isSome_iff (sec i : Nat) (s : State) : (snapshotCopy sec i s).isSome = true ↔ inSnapshotTable sec i := by
  unfold snapshotCopy inSnapshotTable
  split
  case h_2 => split <;> simp [*]
  case h_6 => split <;> simp [*]
  case h_8 =>
    refine iff_of_false (by simp) ?_
    rintro (⟨rfl | rfl | rfl | rfl | rfl, rfl⟩ | ⟨rfl, -⟩ | ⟨rfl, -⟩) <;> simp_all
  all_goals simp

theorem portSnapshot_of_copy {sec i : Byte} {s : State} {c : SnapshotCopy} (copy : snapshotCopy sec.toNat i.toNat s = some c) :
    portSnapshot sec i s =
      answered s .accepted (.snapshot (Config.snapshotLength s.freeCount) c) { s with freeCount := s.freeCount + 1 } := by
  rw [portSnapshot, copy]

theorem portSnapshot_of_none {sec i : Byte} {s : State} (none : snapshotCopy sec.toNat i.toNat s = none) :
    portSnapshot sec i s = refused .bad s := by
  rw [portSnapshot, none]

theorem mem_allStations_iff (st : Station) : st ∈ allStations ↔ st ≠ 0 :=
  ⟨fun mem zero => absurd (zero ▸ mem) (by decide), mem_allStations⟩

/-! ### Short transactions and bytes of no command (R178) -/

/-- The bytes that name a command are those of the table of R178. -/
theorem portCommandOf_isNone_iff (c : Byte) :
    (portCommandOf c).isNone = true ↔ c ∉ ([0x10, 0x20, 0x21, 0x30, 0x31, 0x40, 0x50, 0x51, 0x60] : List Byte) := by
  change _ ↔ c ∉ [PortCommand.send, .halt, .unhalt, .receive, .filter, .snapshot, .configWrite, .format, .restart].map PortCommand.byte
  simp only [portCommandOf, Option.isNone_iff_eq_none, List.find?_eq_none, List.mem_map, beq_iff_eq, not_exists, not_and]

theorem badByte_of_unnamed {c : Byte} (s : State) (unnamed : (portCommandOf c).isNone = true) : badByte c s = refused .bad s := by
  rw [badByte, if_pos unnamed]

theorem badByte_of_named {c : Byte} (s : State) (named : (portCommandOf c).isNone = false) : badByte c s = commandByte s := by
  simp [badByte, named]

/-- Settles O58, transaction by transaction. -/
theorem receiveSnapshotAndBadTransactions : Obligations.ReceiveSnapshotAndBadTransactions := by
  unfold Obligations.ReceiveSnapshotAndBadTransactions
  intro s port
  refine ⟨interruptLine_iff s, rfl, shownStatus_of_fresh, shownStatus_of_began,
    fun empty => congrArg Host.Outcome.next (portReceive_of_empty empty),
    fun e rest queue => ⟨rxEntry_bytes_length e, congrArg Host.Outcome.next (portReceive_of_entry queue)⟩,
    fun copying => congrArg Host.Outcome.next (if_pos copying), rfl, fun x => ?_,
    fun sec i => ⟨fun inside => ?_, fun outside => congrArg Host.Outcome.next ?_⟩,
    fun few => congrArg Host.Outcome.next ?_, fun full => congrArg Host.Outcome.next ?_,
    fun c => ⟨fun unnamed => congrArg Host.Outcome.next ?_, fun named => congrArg Host.Outcome.next ?_⟩⟩
  · rw [mem_storedOffsets, mem_allStations_iff]
  · obtain ⟨c, copy⟩ := Option.isSome_iff_exists.mp ((snapshotCopy_isSome_iff sec.toNat i.toNat s).mpr inside)
    exact ⟨_, c, copy, congrArg Host.Outcome.next (portSnapshot_of_copy copy)⟩
  · exact portSnapshot_of_none (by simpa using mt (snapshotCopy_isSome_iff sec.toNat i.toNat s).mp outside)
  · rw [portShort, satInc_eq, min_eq_right (by omega)]
  · rw [portShort, satInc_eq, full]; simp [← full]
  · exact badByte_of_unnamed s ((portCommandOf_isNone_iff c).mpr unnamed)
  · refine badByte_of_named s ?_
    simpa only [Bool.not_eq_true] using mt (portCommandOf_isNone_iff c).mp (not_not_intro named)

end Sys2Proof.Machine
end

