-- ==== Sys2Proof/Proofs/FramesRecorded.lean ====
section
/-! SUPPORT. The frames that PTB records: DEMAND with its channel, STATUS with clock and holder set (R29, R55 to R67, R90). -/

namespace Sys2Proof.Machine

open Sys2Proof.Safety

theorem isOwn_congr {s t : State} (st : Station) (cfg : t.cfg = s.cfg) : isOwn st t = isOwn st s := by rw [isOwn, isOwn, cfg]
theorem isControl_congr {s t : State} (cfg : t.cfg = s.cfg) : isControl t = isControl s := by rw [isControl, isControl, cfg]
theorem received_ptb (st : Station) (b : Body) (s : State) : (received st b s).ptb = s.ptb := by simp

/-! ### DEMAND (R29, R57) -/

/-- A DEMAND kept whole in its station's entry at age 0 (R57). -/
def demandRecorded (st : Station) (d : DemandItems) (s : State) : State :=
  { s with ptb := { s.ptb with demands := s.ptb.demands.set st { items := some d, age := 0 } } }

/-- The station of the header keeps a DEMAND where it is another's, or the own one's as of a control station (R57). -/
theorem recordDemand_of_kept {st : Station} {s : State} (d : DemandItems) (kept : isOwn st s = false ∨ isControl s = true) :
    recordDemand st d s = takeDemand st d (demandRecorded st d s) := by
  rw [recordDemand, if_neg (by rcases kept with other | control <;> simp [*])]
  rfl

theorem recordDemand_of_own {st : Station} {s : State} (d : DemandItems) (own : isOwn st s = true) (other : isControl s = false) :
    recordDemand st d s = s := by
  simp [recordDemand, own, other]

/-- A DEMAND of another station than the route's source goes no further than PTB (R29). -/
theorem takeDemand_of_other {st : Station} {s : State} (d : DemandItems)
    (other : ∀ b, s.cfg.params = some b → axisUp s = false ∨ b.source ≠ st.val) : takeDemand st d s = s := by
  cases params : s.cfg.params with
  | none => simp [takeDemand, params]
  | some b => rcases other b params with down | source <;> simp [takeDemand, *]

/-- DMR takes a channel of a DEMAND: its kind, then its value (R29). -/
def Dmr.takeChannel (d : DemandItems) (ch : Fin 4) (x : Dmr) : Dmr :=
  (x.takeKind d.kinds[ch]).takeValue d.kinds[ch] (d.values[ch]).toInt

theorem takeDemand_of_source {st : Station} {s : State} {b : Block} (d : DemandItems) (params : s.cfg.params = some b)
    (up : axisUp s = true) (source : b.source = st.val) :
    takeDemand st d s = { s with dmr := s.dmr.takeChannel d (Fin.ofNat 4 b.channel) } := by
  simp [takeDemand, params, up, source, Dmr.takeChannel]

/-- A WHEEL value adds to the sum, saturating; a LEVER value leaves DMR as it is (R29). -/
theorem takeValue_eq (kind : ChannelKind) (x : Int) (d : Dmr) :
    d.takeValue kind x = { d with
      pendingWheel := if kind = .wheel then max (-32767) (min 32767 (d.pendingWheel + x)) else d.pendingWheel } := by
  cases kind with
  | wheel => simp [Dmr.takeValue, Config.maxWheel, satInt_eq]
  | lever => rfl

/-- A channel of the kind last taken, or the first taken, leaves the arming as it is (R29). -/
theorem takeChannel_of_same {d : DemandItems} {ch : Fin 4} {x : Dmr}
    (same : x.lastKind = none ∨ x.lastKind = some d.kinds[ch]) :
    x.takeChannel d ch = { x with
      lastKind := some d.kinds[ch]
      pendingWheel :=
        if d.kinds[ch] = .wheel then max (-32767) (min 32767 (x.pendingWheel + (d.values[ch]).toInt)) else x.pendingWheel } := by
  have kept : x.takeKind d.kinds[ch] = { x with lastKind := some d.kinds[ch] } := by
    rcases same with none | same
    · rw [Dmr.takeKind, none]
    · simp only [Dmr.takeKind, same, if_true]
  rw [Dmr.takeChannel, kept, takeValue_eq]

/-- A channel of another kind than the last disarms the route (R29, R33). -/
theorem takeChannel_of_changed {d : DemandItems} {ch : Fin 4} {x : Dmr} (known : x.lastKind ≠ none)
    (changed : x.lastKind ≠ some d.kinds[ch]) :
    x.takeChannel d ch = { x with
      lastKind := some d.kinds[ch]
      armed := false
      handDemand := 0
      pendingWheel := if d.kinds[ch] = .wheel then max (-32767) (min 32767 (d.values[ch]).toInt) else 0 } := by
  have disarmed : x.takeKind d.kinds[ch] = { x.disarm with lastKind := some d.kinds[ch] } := by
    obtain ⟨k, last⟩ := Option.ne_none_iff_exists'.mp known
    have other : k ≠ d.kinds[ch] := fun same => changed (by rw [last, same])
    simp only [Dmr.takeKind, last, other, if_false]
  rw [Dmr.takeChannel, disarmed, takeValue_eq]
  simp only [Dmr.disarm, zero_add]

/-- A received DEMAND that is kept: PTB has it whole, and DMR is asked to take its channel (R29, R57). -/
theorem deliver_demand_of_kept {st : Station} {s : State} (d : DemandItems) (known : st ≠ 0)
    (kept : isOwn st s = false ∨ isControl s = true) :
    deliver st (.demand d) s = startWork (takeDemand st d (demandRecorded st d (received st (.demand d) s))) := by
  have recorded := recordDemand_of_kept (st := st) (s := received st (.demand d) s) d
    (by rwa [isOwn_congr st (s := s) (by simp), isControl_congr (s := s) (by simp)])
  rw [← recorded]
  exact deliver_eq known _ s

/-- A DEMAND in the own name of a node that sends none is recorded nowhere (R57). -/
theorem deliver_demand_of_own {st : Station} {s : State} (d : DemandItems) (known : st ≠ 0) (own : isOwn st s = true)
    (other : isControl s = false) : deliver st (.demand d) s = startWork (received st (.demand d) s) := by
  have ignored := recordDemand_of_own (st := st) (s := received st (.demand d) s) d
    (by rwa [isOwn_congr st (s := s) (by simp)]) (by rwa [isControl_congr (s := s) (by simp)])
  exact (deliver_eq known _ s).trans (congrArg startWork ignored)

theorem demandRecorded_received (st : Station) (d : DemandItems) (b : Body) (s : State) :
    demandRecorded st d (received st b s) = { received st b s with ptb := (demandRecorded st d s).ptb } := by
  rw [demandRecorded, received_ptb, demandRecorded]

/-- A kept DEMAND that no route takes is recorded, and that is all (R57). -/
theorem deliver_demand_elsewhere {st : Station} {s : State} (d : DemandItems) (known : st ≠ 0)
    (kept : isOwn st s = false ∨ isControl s = true)
    (elsewhere : ∀ b, s.cfg.params = some b → axisUp s = false ∨ b.source ≠ st.val) :
    deliver st (.demand d) s =
      startWork { received st (.demand d) s with ptb := (demandRecorded st d s).ptb } := by
  rw [deliver_demand_of_kept d known kept, demandRecorded_received, takeDemand_of_other]
  simpa [axisUp, isAxis] using elsewhere

/-- A kept DEMAND of the route's source is recorded, and DMR takes the route's channel (R29, R57). -/
theorem deliver_demand_of_source {st : Station} {s : State} {b : Block} (d : DemandItems) (known : st ≠ 0)
    (kept : isOwn st s = false ∨ isControl s = true) (params : s.cfg.params = some b) (up : axisUp s = true)
    (source : b.source = st.val) :
    deliver st (.demand d) s = startWork { received st (.demand d) s with
      ptb := (demandRecorded st d s).ptb
      dmr := s.dmr.takeChannel d (Fin.ofNat 4 b.channel) } := by
  rw [deliver_demand_of_kept d known kept, demandRecorded_received,
    takeDemand_of_source d (b := b) (by simpa using params) (by simpa [axisUp, isAxis] using up) source]
  simp

/-! ### STATUS (R55, R60, R64, R66, R67, R90) -/

theorem countDuplicate_eq (s : State) :
    countDuplicate s = { s with ptb := { s.ptb with duplicates := min 255 (s.ptb.duplicates + 1) } } := by
  rw [countDuplicate, satInc_eq]

/-- What CCK decides of an offset it hears: a valid one is adopted in UNSET, and makes OWN AGREED (R66, R67). -/
theorem clockHears_eq (offset : Int) (valid : Bool) (s : State) :
    clockHears offset valid s = { s with cck :=
      if valid = true ∧ s.cck.timeState = .unset ∧ s.cck.pending = none then { s.cck with pending := some (.adopt offset) }
      else if valid = true ∧ s.cck.timeState = .own then { s.cck with timeState := .agreed }
      else s.cck } := by
  cases valid with
  | false => simp [clockHears]
  | true =>
    cases state : s.cck.timeState with
    | unset => cases pending : s.cck.pending <;> simp [clockHears, state, pending]
    | own => simp [clockHears, state]
    | agreed => simp [clockHears, state]

theorem setHolder_of_other {st : Station} {s : State} (h : Option Hold) (known : st ≠ 0) (other : isOwn st s = false) :
    setHolder st h s = reactStops { s with stc := { s.stc with holders := s.stc.holders.set st h } } := by
  simp [setHolder, known, other]

/-- A frame of station 0 goes no further than PTB and the receive queue (R164). -/
theorem deliver_zero (b : Body) (s : State) : deliver 0 b s = startWork (handZero false b (received 0 b s)) := by
  simp [deliver, handFrame, received]

/-- A STATUS of station 0 is recorded nowhere; a node of station 0 counts it (R55, R164). -/
theorem deliver_status_zero (i : StatusItems) (s : State) :
    deliver 0 (.status i) s = startWork { received 0 (.status i) s with
      ptb := { s.ptb with
        duplicates := if s.cfg.station = some 0 then min 255 (s.ptb.duplicates + 1) else s.ptb.duplicates } } := by
  refine (deliver_zero _ s).trans (congrArg startWork ?_)
  have own : isOwn 0 (received 0 (.status i) s) = (s.cfg.station == some 0) := isOwn_congr 0 (s := s) (by simp)
  rw [handZero, own, countDuplicate_eq, ← received_ptb 0 (.status i) s]
  by_cases zero : s.cfg.station = some 0
  · simp [zero]
  · rw [if_neg zero, if_neg (by simp [zero])]

/-- A STATUS in the own name is counted (R55). -/
theorem deliver_status_of_own {st : Station} {s : State} (i : StatusItems) (known : st ≠ 0) (own : isOwn st s = true) :
    deliver st (.status i) s = startWork { received st (.status i) s with
      ptb := { s.ptb with duplicates := min 255 (s.ptb.duplicates + 1) } } := by
  have own' : isOwn st (received st (.status i) s) = true := (isOwn_congr st (by simp)).trans own
  have counted : receiveStatus false st i (capturedTime s) (received st (.status i) s) = countDuplicate (received st (.status i) s) := by
    simp [receiveStatus, own']
  rw [countDuplicate_eq, received_ptb] at counted
  exact (deliver_eq known _ s).trans (congrArg startWork counted)

/-- PTB, CCK and STC as a STATUS of another station is recorded, before the drive follows (R55, R60, R64, R66, R67, R90). -/
def statusHeard (st : Station) (i : StatusItems) (s : State) : State :=
  let offset := offsetOf i.stamp (capturedTime s)
  let valid := i.timeState != .unset
  { received st (.status i) s with
    ptb := { s.ptb with
      peers := s.ptb.peers.set st { items := some i, age := 0, offset := offset, offsetValid := valid }
      lost := withoutStation s.ptb.lost st }
    cck :=
      if valid = true ∧ s.cck.timeState = .unset ∧ s.cck.pending = none then { s.cck with pending := some (.adopt offset) }
      else if valid = true ∧ s.cck.timeState = .own then { s.cck with timeState := .agreed }
      else s.cck
    stc := { s.stc with holders := s.stc.holders.set st i.hold } }

/-- A STATUS of another station is recorded, and the drive follows its holding items (R55, R90, R92). -/
theorem deliver_status_of_other {st : Station} {s : State} (i : StatusItems) (known : st ≠ 0) (other : isOwn st s = false) :
    deliver st (.status i) s = startWork (reactStops (statusHeard st i s)) := by
  let r := received st (.status i) s
  let recorded := recordStatus st i (capturedTime s) r
  have other' : isOwn st r = false := (isOwn_congr st (by simp [r])).trans other
  have heard : receiveStatus false st i (capturedTime s) r =
      setHolder st i.hold (clockHears (offsetOf i.stamp (capturedTime s)) (i.timeState != .unset) recorded) := by
    simp [receiveStatus, other', recorded]
  refine (deliver_eq known _ s).trans (congrArg startWork (heard.trans ?_))
  rw [setHolder_of_other _ known ((isOwn_congr st (by simp [recorded])).trans other'), clockHears_eq,
    show recorded.cck = s.cck by simp [recorded, r]]
  simp only [recorded, recordStatus, show r.ptb = s.ptb by simp [r], show r.stc = s.stc by simp [r]]
  rfl

/-- Settles O46, frame by frame. -/
theorem demandAndStatusFramesAreRecorded : Obligations.DemandAndStatusFramesAreRecorded := by
  unfold Obligations.DemandAndStatusFramesAreRecorded
  refine ⟨fun st d s b known other params => ⟨fun elsewhere => congrArg Host.Outcome.next ?_, fun up source => ?_⟩,
    fun st d s known => ⟨fun own axis => congrArg Host.Outcome.next (deliver_demand_of_own d known own axis),
      fun own control => congrArg Host.Outcome.next ?_, fun other none => congrArg Host.Outcome.next ?_⟩,
    fun st i s known => ⟨fun own => congrArg Host.Outcome.next (deliver_status_of_own i known own),
      congrArg Host.Outcome.next (deliver_status_zero i s),
      fun other => congrArg Host.Outcome.next (deliver_status_of_other i known other)⟩⟩
  · refine deliver_demand_elsewhere d known (.inl other) fun b' params' => ?_
    obtain rfl : b = b' := by simpa [params] using params'
    exact elsewhere
  · have delivered := deliver_demand_of_source d known (.inl other) params up source
    have dmr : (deliver st (.demand d) s).dmr = s.dmr.takeChannel d (Fin.ofNat 4 b.channel) := by rw [delivered]; simp
    refine ⟨_, congrArg Host.Outcome.next rfl, by rw [dmr]; exact delivered, ?_⟩
    rw [dmr]
    refine ⟨?_, fun same => ?_, fun before changed => ?_⟩
    · rw [Dmr.takeChannel, takeValue_eq]; rfl
    · rw [takeChannel_of_same same]
      exact ⟨rfl, rfl, fun wheel => if_pos wheel, fun lever => if_neg (by rw [lever]; decide)⟩
    · rw [takeChannel_of_changed before changed]
      exact ⟨rfl, rfl, fun wheel => if_pos wheel, fun lever => if_neg (by rw [lever]; decide)⟩
  · have down : axisUp s = false := by simp_all [axisUp, isAxis, isControl]
    exact deliver_demand_elsewhere d known (.inr control) fun _ _ => .inl down
  · exact deliver_demand_elsewhere d known (.inl other) (by simp [none])

end Sys2Proof.Machine
end

