-- ==== Sys2Proof/Proofs/Completions.lean ====
section
/-! SUPPORT. The end of a transmission, and the place of a held ABORT (R26, R89, R107, R156, R160, R161). -/

namespace Sys2Proof.Machine

/-- Work that is started changes nothing but TSC (R139). -/
theorem startWork_eq (s : State) : startWork s = { s with tsc := (startWork s).tsc } := by
  unfold startWork
  repeat' split
  all_goals rfl

/-- A frame that joins the receive queue changes nothing but CPT (R180). -/
theorem joinQueue_eq (f : Frame) (own : Bool) (c : CraneTime) (s : State) :
    joinQueue f own c s = { s with cpt := (joinQueue f own c s).cpt } := by
  unfold joinQueue
  repeat' split
  all_goals rfl

/-! ### What the own blocks make of an own frame (R160) -/

theorem setHolder_of_own {st : Station} {s : State} (h : Option Hold) (own : isOwn st s = true) : setHolder st h s = s :=
  if_pos (.inl own)

theorem handFrame_of_known {f : Frame} (own : Bool) (c : CraneTime) (s : State) (known : f.station ≠ 0) :
    handFrame own f c s = handBlocks own f c (joinQueue f own c s) :=
  if_neg known

/-- An own STOP, RELEASE or STATUS joins the receive queue and changes nothing more (R89, R160). -/
theorem handFrame_of_quiet {f : Frame} {s : State} (c : CraneTime) (own : isOwn f.station s = true)
    (quiet : (∃ k e, f.body = .stop k e) ∨ f.body = .release ∨ ∃ i, f.body = .status i) :
    handFrame true f c s = joinQueue f true c s := by
  have own' : isOwn f.station (joinQueue f true c s) = true := (isOwn_congr _ (by simp)).trans own
  by_cases zero : f.station = 0
  · rw [handFrame, if_pos zero]
    rcases quiet with ⟨k, e, body⟩ | body | ⟨i, body⟩ <;> simp [handZero, body]
  · rw [handFrame_of_known true c s zero]
    rcases quiet with ⟨k, e, body⟩ | body | ⟨i, body⟩
    · simp only [handBlocks, body, setHolder_of_own _ own']
    · simp only [handBlocks, body, setHolder_of_own _ own']
    · simp only [handBlocks, body, receiveStatus, if_true]

/-- A HOME changes nothing on a node that is no axis (R42). -/
theorem handFrame_of_home {f : Frame} {m : StationMask} {s : State} (own : Bool) (c : CraneTime) (body : f.body = .home m)
    (other : isAxis s = false) : handFrame own f c s = joinQueue f own c s := by
  have down : axisUp (joinQueue f own c s) = false := (axisUp_congr (s := s) (by simp)).trans (by simp [axisUp, other])
  by_cases zero : f.station = 0
  · rw [handFrame, if_pos zero]; simp [handZero, body]
  · rw [handFrame_of_known own c s zero]
    simp only [handBlocks, body, takeHome_of_none (.inl down)]

/-- An own DEMAND of a control station is recorded in its own entry (R57). -/
theorem handFrame_of_demand {f : Frame} {d : DemandItems} {s : State} (own : Bool) (c : CraneTime) (body : f.body = .demand d)
    (known : f.station ≠ 0) (control : isControl s = true) :
    handFrame own f c s = demandRecorded f.station d (joinQueue f own c s) := by
  have control' : isControl (joinQueue f own c s) = true := (isControl_congr (by simp)).trans control
  have down : axisUp (demandRecorded f.station d (joinQueue f own c s)) = false := by
    rw [axisUp_congr (s := s) (by simp [demandRecorded])]
    simp_all [axisUp, isAxis, isControl]
  rw [handFrame_of_known own c s known]
  simp only [handBlocks, body]
  rw [recordDemand_of_kept d (.inr control'), takeDemand_of_other d fun _ _ => .inl down]

theorem reduceSent_of_other {b : Body} (s : State) (other : ∀ d, b ≠ .demand d) : reduceSent b s = s := by
  cases b with
  | demand d => exact absurd rfl (other d)
  | _ => rfl

theorem reduceWheels_getElem (d : DemandItems) (s : State) (ch : Fin 4) :
    (reduceWheels d s).chan.wheels[ch] =
      if d.kinds[ch] = .wheel then s.chan.wheels[ch] - (d.values[ch]).toInt else s.chan.wheels[ch] := by
  simp only [reduceWheels, Fin.getElem_fin, Vector.getElem_ofFn]
  cases d.kinds[ch] <;> rfl

theorem reduceNewer_getElem (d e : DemandItems) (ch : Fin 4) :
    (reduceNewer d e).values[ch] =
      if d.kinds[ch] = .wheel then BitVec.ofInt 16 ((e.values[ch]).toInt - (d.values[ch]).toInt) else e.values[ch] := by
  simp only [reduceNewer, Fin.getElem_fin, Vector.getElem_ofFn]
  cases d.kinds[ch] <;> rfl

/-! ### The slot of a sent frame (R156, R160) -/

theorem clearSlot_safety {x : Tx} (l : Lnk) (slot : x.slot = .safety) :
    clearSlot x l = { l with safety := if x.refilled then l.safety else none } := by
  cases refilled : x.refilled <;> simp [clearSlot, slot, refilled]

theorem clearSlot_status {x : Tx} (l : Lnk) (slot : x.slot = .status) :
    clearSlot x l = { l with status := if x.refilled then l.status else none } := by
  cases refilled : x.refilled <;> simp [clearSlot, slot, refilled]

theorem clearSlot_command {x : Tx} (l : Lnk) (slot : x.slot = .command) :
    clearSlot x l = { l with fifo := l.fifo.tail } := by
  simp [clearSlot, slot]

theorem clearSlot_demand {x : Tx} {d : DemandItems} (l : Lnk) (slot : x.slot = .demand) (body : x.frame.body = .demand d) :
    clearSlot x l = { l with demand := if x.refilled then l.demand.map (reduceNewer d) else none } := by
  cases refilled : x.refilled <;> simp [clearSlot, slot, body, refilled]

/-! ### A held ABORT (R107) -/

theorem placeHeld_of_none {s : State} (none : s.tks.held = none) : placeHeld s = s := by
  simp [placeHeld, none]

theorem placeHeld_of_room {s : State} {h : HeldAbort} (held : s.tks.held = some h) (room : s.lnk.fifo.length < 4) :
    placeHeld s = { s with
      tks := { s.tks with held := none }
      lnk := { s.lnk with fifo := s.lnk.fifo ++ [.take (.abort h.n h.reason h.origin)] } } := by
  simp [placeHeld, held, (fifoRoom_iff s).mpr room, queueCommand_of_room _ room]

/-- The place that the completing head leaves is a held ABORT's (R107). -/
theorem placeHeld_of_head {s : State} {h : HeldAbort} {b : Body} {rest : List Body} (held : s.tks.held = some h)
    (fifo : s.lnk.fifo = b :: rest) (few : rest.length < 4) :
    placeHeld { s with lnk := { completeLink s.lnk with fifo := s.lnk.fifo.tail } } = { s with
      tks := { s.tks with held := none }
      lnk := { completeLink s.lnk with fifo := rest ++ [.take (.abort h.n h.reason h.origin)] } } := by
  rw [fifo]
  exact placeHeld_of_room (by exact held) (by exact few)

/-! ### The completion (R160, R161) -/

section
variable {s : State} {x : Tx}

/-- A transmission that a RESTART cut off is handed to no block (R156). -/
theorem completeAttempt_of_orphan (sent : s.lnk.tx = some x) (orphan : x.orphan = true) :
    completeAttempt s = { s with lnk := completeLink s.lnk } := by
  simp [completeAttempt, sent, orphan]

/-- The frame leaves its slot, a held ABORT takes its place, the wheels are reduced, and the own blocks act (log 51). -/
theorem completeAttempt_of_own (sent : s.lnk.tx = some x) (own : x.orphan = false) :
    completeAttempt s = startWork (handFrame true x.frame x.start
      (reduceSent x.frame.body (placeHeld { s with lnk := clearSlot x (completeLink s.lnk) }))) := by
  simp [completeAttempt, sent, own]

/-- The completion of a frame that the own blocks only queue (R89, R160). -/
theorem completeAttempt_of_quiet (sent : s.lnk.tx = some x) (own : x.orphan = false) (none : s.tks.held = none)
    (mine : isOwn x.frame.station s = true)
    (quiet : (∃ k e, x.frame.body = .stop k e) ∨ x.frame.body = .release ∨ ∃ i, x.frame.body = .status i) :
    completeAttempt s = startWork (joinQueue x.frame true x.start { s with lnk := clearSlot x (completeLink s.lnk) }) := by
  have other (d : DemandItems) : x.frame.body ≠ .demand d := by
    rcases quiet with ⟨k, e, body⟩ | body | ⟨i, body⟩ <;> simp [body]
  rw [completeAttempt_of_own sent own, placeHeld_of_none (by exact none), reduceSent_of_other _ other,
    handFrame_of_quiet x.start (by exact mine) quiet]

/-- The completion of the FIFO's head: a held ABORT has its place before the own blocks act (R160, log 51). -/
theorem completeAttempt_of_head (sent : s.lnk.tx = some x) (own : x.orphan = false) (slot : x.slot = .command)
    (other : ∀ d, x.frame.body ≠ .demand d) :
    completeAttempt s = startWork (handFrame true x.frame x.start
      (placeHeld { s with lnk := { completeLink s.lnk with fifo := s.lnk.fifo.tail } })) := by
  rw [completeAttempt_of_own sent own, reduceSent_of_other _ other, clearSlot_command _ slot]
  rfl

/-- The completion of a DEMAND: the wheels are reduced by what it carried, and the own entry holds it (R26, R57). -/
theorem completeAttempt_of_demand {d : DemandItems} (sent : s.lnk.tx = some x) (own : x.orphan = false) (none : s.tks.held = none)
    (body : x.frame.body = .demand d) (known : x.frame.station ≠ 0) (control : isControl s = true) :
    completeAttempt s = startWork (demandRecorded x.frame.station d (joinQueue x.frame true x.start
      (reduceWheels d { s with lnk := clearSlot x (completeLink s.lnk) }))) := by
  rw [completeAttempt_of_own sent own, placeHeld_of_none (by exact none), body]
  exact congrArg startWork (handFrame_of_demand true x.start body known control)

/-! ### The place of a held ABORT (R107, log 51) -/

theorem placeAbort_of_room {h : HeldAbort} (held : s.tks.held = some h) (room : s.lnk.fifo.length < 4) :
    placeAbort s = placeHeld s := by
  simp [placeAbort, held, (fifoRoom_iff s).mpr room]

/-- With no place free, a held ABORT waits for the completion of the head (R107). -/
theorem placeAbort_of_full {h : HeldAbort} (held : s.tks.held = some h) (full : 4 ≤ s.lnk.fifo.length)
    (sent : s.lnk.tx = some x) (slot : x.slot = .command) : placeAbort s = completeAttempt s := by
  have none : fifoRoom s = false := by rw [← Bool.not_eq_true, fifoRoom_iff]; omega
  simp [placeAbort, held, none, sent, slot]

end

/-- Settles O44, by the slot of the completed frame and by the room for a held ABORT. -/
theorem completionsClearTheirSlots : Obligations.CompletionsClearTheirSlots := by
  unfold Obligations.CompletionsClearTheirSlots
  refine ⟨fun s x n sent station mine none => ⟨fun orphan => congrArg Host.Outcome.next (completeAttempt_of_orphan sent orphan),
    fun own => ?_⟩, fun s h held => ⟨fun room => ?_, fun x b rest m fifo full sent slot own body other => ?_,
      fun x b rest n fifo full sent slot own station known mine other c named => ?_⟩⟩
  · have mine' : isOwn x.frame.station s = true := by simp [isOwn, station, mine]
    have quiet := completeAttempt_of_quiet sent own none mine'
    refine ⟨fun k c slot body => congrArg Host.Outcome.next ((quiet (.inl ⟨k, c, body⟩)).trans ?_),
      fun slot body => congrArg Host.Outcome.next ((quiet (.inr (.inl body))).trans ?_),
      fun i slot body => congrArg Host.Outcome.next ((quiet (.inr (.inr ⟨i, body⟩))).trans ?_),
      fun slot known other => congrArg Host.Outcome.next ?_, fun d slot body control known => ?_⟩
    · rw [clearSlot_safety _ slot]; rfl
    · rw [clearSlot_safety _ slot]; rfl
    · rw [clearSlot_status _ slot]; rfl
    · rw [completeAttempt_of_head sent own slot other, placeHeld_of_none (by exact none),
        handFrame_of_known true x.start _ (mine ▸ known)]
      rfl
    · have completes := completeAttempt_of_demand sent own none body (mine ▸ known) control
      rw [clearSlot_demand _ slot body] at completes
      refine ⟨_, congrArg Host.Outcome.next completes, ?_, fun ch => ?_, ?_, fun first => ?_, fun e refilled newer => ?_⟩
      · rw [startWork_eq, joinQueue_eq]
        rfl
      · simp only [startWork_frame, demandRecorded, joinQueue_frame]
        exact reduceWheels_getElem d _ ch
      · simp [demandRecorded, mine]
      · simp [demandRecorded, first]
      · refine ⟨reduceNewer d e, ?_, rfl, rfl, fun ch => reduceNewer_getElem d e ch⟩
        simp [demandRecorded, refilled, completeLink, Lnk.frameEnd, newer]
  · exact congrArg Host.Outcome.next ((placeAbort_of_room held room).trans (placeHeld_of_room held room))
  · have completes := (placeAbort_of_full held (by simp [fifo, full]) sent slot).trans
      (completeAttempt_of_head sent own slot (by simp [body]))
    rw [placeHeld_of_head held fifo (by omega), handFrame_of_home true x.start body (by exact other)] at completes
    refine ⟨_, congrArg Host.Outcome.next completes, by simp, by simp [completeLink], by simp, ?_⟩
    rw [startWork_eq, joinQueue_eq]
  · have completes := completeAttempt_of_head sent own slot other
    rw [placeHeld_of_head held fifo (by omega), handFrame_of_known true x.start _ (mine ▸ known)] at completes
    have places := (placeAbort_of_full held (by simp [fifo, full]) sent slot).trans completes
    simp only [List.mem_cons, List.not_mem_nil, or_false] at named
    rcases named with rfl | rfl
    · exact congrArg Host.Outcome.next places
    · exact congrArg Host.Outcome.next completes

end Sys2Proof.Machine
end

