-- ==== Sys2Proof/Proofs/IdleTick.lean ====
section
/-! SUPPORT. One microsecond on an empty queue: the phase, and two bit times of a line in no frame (R62, R153; logs 3 and 21). -/

namespace Sys2Proof.Machine

/-- A bit time at the level the line was last read, the own error flag over it (R153, R159). -/
theorem bitTime_level (l : Lnk) :
    l.bitTime l.level =
      if l.level = true ∧ l.errorFlag = 0 then { l with
        dominantRun := 0, recessiveRun := min 12 (l.recessiveRun + 1)
        pauseCount := if l.faultPause then min 256 (l.pauseCount + 1) else l.pauseCount }
      else { l with
        errorFlag := l.errorFlag - 1, recessiveRun := 0, pauseCount := 0
        dominantRun := if l.dominantRun < 65 then min 64 (l.dominantRun + 1) else l.dominantRun } := by
  simp only [Lnk.bitTime, Bool.and_eq_true, beq_iff_eq]
  rfl

@[simp] theorem bitTime_keeps_level (l : Lnk) (b : Bool) : (l.bitTime b).level = b := by
  unfold Lnk.bitTime; split <;> rfl

theorem free_iff (l : Lnk) : l.free = true ↔ l.tx = none ∧ l.receiving = false := by
  simp [Lnk.free]

theorem tickLine_of_frame {l : Lnk} (busy : ¬(l.tx = none ∧ l.receiving = false)) : tickLine l = l :=
  if_neg (mt (free_iff l).mp busy)

/-- In no frame the second bit time is at the level of the first (R153). -/
theorem tickLine_of_free {l : Lnk} (free : l.tx = none ∧ l.receiving = false) :
    tickLine l = (l.bitTime l.level).bitTime (l.bitTime l.level).level := by
  rw [tickLine, if_pos ((free_iff l).mpr free), bitTime_keeps_level]

/-- Settles O2, by whether the node is in a frame. -/
theorem idleStepTicks : Obligations.IdleStepTicks := by
  unfold Obligations.IdleStepTicks
  intro s empty
  have ticks : step s = .next (tick s) := by simp only [step, empty]
  rw [ticks, tick]
  by_cases free : s.lnk.tx = none ∧ s.lnk.receiving = false
  · rw [tickLine_of_free free, bitTime_level, bitTime_level]
    simp only [if_pos free]
    rfl
  · rw [tickLine_of_frame free]
    simp only [if_neg free]
    rfl

end Sys2Proof.Machine
end

