-- ==== Sys2Proof/Proofs/SpentSuspension.lean ====
section
/-! SUPPORT. An update that fails an erase standing suspended: the refutation of O24. -/

namespace Sys2Proof.Machine

open Sys2Proof.Safety

/-- A node whose erase of sector 1 stands suspended with its 1,000 updates spent and not reported ended. -/
def spentSuspension : State :=
  { State.reset with tsc := { Tsc.start 1 0 with unit := .suspended 1 none, opAge := 1000 } }

/-- A quiet update at which the memory is found with a byte 0 at the start of what the operation in flight covered. -/
def spoiledInputs : UpdateInputs := { quietInputs with left := some [0] }

/-- The failed operation is the suspended erase, and it leaves its byte in the sector's first place (R127, log 9). -/
theorem spentSuspension_byte : memRead (update spoiledInputs spentSuspension).flash 4096 = 0 := by decide

/-- Refutes O24: an operation that has run out of its updates may also be an erase in SUSPENDED, for whose sector the statement,
which names erases in flight and programs, makes no exception. -/
theorem not_updateFrame : ¬Obligations.UpdateFrame := by
  unfold Obligations.UpdateFrame
  intro frame
  obtain ⟨t, taken, -, -, -, -, -, -, -, -, bytes⟩ := frame spoiledInputs spentSuspension
  cases taken
  have outside (_ : operationLate (ageOperation spentSuspension.tsc) = true) :
      (∀ c u, spentSuspension.tsc.unit = .erasing c u → 4096 < c * 4096 ∨ c * 4096 + 4096 ≤ 4096) ∧
      ∀ p, spentSuspension.tsc.unit = .programming p → 4096 < p.address ∨ p.address + p.data.length ≤ 4096 :=
    ⟨fun _ _ erases => (by cases erases), fun _ programs => (by cases programs)⟩
  have kept := bytes (by unfold memoryForm; decide) 4096 (fun _ held => (by cases held)) outside
  rw [spentSuspension_byte] at kept
  exact absurd kept (by decide)

end Sys2Proof.Machine
end

