-- ==== Sys2Proof/Proofs/ReceiveQueue.lean ====
section
/-! SUPPORT. The receive queue of the companion port, and the frames that go no further (R55, R164, R180, R183). -/

namespace Sys2Proof.Machine

open Sys2Proof.Safety

section
variable {f : Frame} {s : State}

theorem joinQueue_of_unwanted (own : Bool) (c : CraneTime) (unwanted : s.cpt.filter.getLsbD f.body.place = false) :
    joinQueue f own c s = s := by
  simp [joinQueue, filterTakes, unwanted]

theorem joinQueue_of_room (own : Bool) (c : CraneTime) (wanted : s.cpt.filter.getLsbD f.body.place = true)
    (room : s.cpt.rxQueue.length < 32) :
    joinQueue f own c s = { s with cpt := { s.cpt with rxQueue := s.cpt.rxQueue ++ [entryOf f own c] } } := by
  simp [joinQueue, filterTakes, wanted, Config.rxPlaces, room]

theorem joinQueue_of_full (own : Bool) (c : CraneTime) (wanted : s.cpt.filter.getLsbD f.body.place = true)
    (full : 32 ≤ s.cpt.rxQueue.length) :
    joinQueue f own c s = { s with cpt := { s.cpt with overflow := min 65535 (s.cpt.overflow + 1) } } := by
  simp [joinQueue, filterTakes, wanted, Config.rxPlaces, not_lt.mpr full, satInc_eq]

end

/-- PTB acts on a frame of station 0 only where it is a STATUS received by a node of station 0 (R55, R164). -/
theorem handZero_of_unmoved {own : Bool} {b : Body} {s : State}
    (unmoved : (∀ i, b ≠ .status i) ∨ own = true ∨ s.cfg.station ≠ some 0) : handZero own b s = s := by
  unfold handZero
  split
  · next i =>
    refine if_neg ?_
    rcases unmoved with other | own | station
    · exact absurd rfl (other i)
    · simp [own]
    · simp [isOwn, station]
  · rfl

theorem handFrame_zero (own : Bool) (b : Body) (c : CraneTime) (s : State) :
    handFrame own { station := 0, body := b } c s = handZero own b (joinQueue { station := 0, body := b } own c s) := rfl

theorem handFrame_zero_of_unmoved {own : Bool} {b : Body} (c : CraneTime) {s : State}
    (unmoved : (∀ i, b ≠ .status i) ∨ own = true ∨ s.cfg.station ≠ some 0) :
    handFrame own { station := 0, body := b } c s = joinQueue { station := 0, body := b } own c s := by
  rw [handFrame_zero, handZero_of_unmoved (by simpa using unmoved)]

/-- A STATUS received in the name of station 0 is counted by a node of station 0 (R55). -/
theorem handFrame_zero_of_status (i : StatusItems) (c : CraneTime) {s : State} (zero : s.cfg.station = some 0) :
    handFrame false { station := 0, body := .status i } c s =
      { joinQueue { station := 0, body := .status i } false c s with ptb := { s.ptb with
        duplicates := min 255 (s.ptb.duplicates + 1) } } := by
  have own : isOwn 0 (joinQueue { station := 0, body := .status i } false c s) = true := by simp [isOwn, zero]
  simp [handFrame_zero, handZero, own, countDuplicate_eq]

theorem deliver_zero_of_unmoved {b : Body} {s : State} (unmoved : (∀ i, b ≠ .status i) ∨ s.cfg.station ≠ some 0) :
    deliver 0 b s = startWork (received 0 b s) := by
  rw [deliver_zero, handZero_of_unmoved]
  rcases unmoved with other | station
  · exact .inl other
  · exact .inr (.inr (by simpa using station))

/-- A TAKE of no named subkind reaches the receive queue, and TKS ignores it (R183, log 30). -/
theorem deliver_unnamed (st : Station) (excess : Fin 249) (n : Byte) (rest : Vector Byte 4) (s : State) :
    deliver st (.take (.unnamed excess n rest)) s = startWork (received st (.take (.unnamed excess n rest)) s) := by
  by_cases zero : st = 0
  · subst zero
    exact deliver_zero_of_unmoved (.inl fun _ => by simp)
  · exact deliver_eq zero _ s

/-- Settles O45: the queue by filter and room, station 0 by what PTB does, and the TAKE of no named subkind. -/
theorem framesJoinTheReceiveQueue : Obligations.FramesJoinTheReceiveQueue := by
  unfold Obligations.FramesJoinTheReceiveQueue
  refine ⟨fun st b s own c => ⟨fun unwanted => joinQueue_of_unwanted own c unwanted,
      fun wanted room => joinQueue_of_room own c wanted room, fun wanted full => joinQueue_of_full own c wanted full,
      handFrame_zero_of_unmoved c, fun i status zero => ?_, rfl⟩,
    fun st b s => ⟨rfl, deliver_zero_of_unmoved⟩,
    fun st n x s => ⟨rfl, rfl, congrArg Host.Outcome.next (deliver_unnamed st x.excess n x.rest s)⟩⟩
  subst status
  exact handFrame_zero_of_status i c zero

end Sys2Proof.Machine
end

