-- ==== Sys2Proof/Proofs/CraneClock.lean ====
section
/-! SUPPORT. The crane clock: the lower median and what an update decides of it, and a correction at phase 500 (R65 to R69). -/

namespace Sys2Proof.Machine

open Sys2Proof.Safety

/-! ### The lower median (R68) -/

theorem sortAsc_perm : ∀ xs, List.Perm (sortAsc xs) xs
  | [] => .nil
  | x :: xs => (insertAsc_perm x (sortAsc xs)).trans ((sortAsc_perm xs).cons x)

theorem sortAsc_sorted : ∀ xs : List Int, (sortAsc xs).Pairwise (· ≤ ·)
  | [] => .nil
  | x :: xs => insertAsc_sorted x _ (sortAsc_sorted xs)

/-- A set that is not empty holds its lower median. -/
theorem lowerMedian_place {xs : List Int} (some_ : 0 < xs.length) : (sortAsc xs)[(xs.length - 1) / 2]? = some (lowerMedian xs) := by
  have inside : (xs.length - 1) / 2 < (sortAsc xs).length := by rw [(sortAsc_perm xs).length_eq]; omega
  simp [lowerMedian, List.getElem?_eq_getElem inside]

theorem offsetSet_length_pos (s : State) : 0 < (offsetSet s).length := by simp [offsetSet]

/-! ### The decision of an update (R68, R69) -/

theorem slewOf_eq (t : Int) : slewOf t = max (-2) (min 2 t) := clampInt_eq (by decide) t

theorem clockDecide_of_none {s : State} (none : s.cck.timeState = .unset ∨ (offsetSet s).length = 1) : clockDecide s = s := by
  rcases none with unset | alone
  · simp [clockDecide, unset]
  · simp [clockDecide, alone]

theorem clockDecide_of_near {s : State} (set : s.cck.timeState ≠ .unset) (peers : (offsetSet s).length ≠ 1)
    (near : |lowerMedian (offsetSet s)| ≤ 500) :
    clockDecide s = { s with cck := { s.cck with
      pending := some (.slew (max (-2) (min 2 (lowerMedian (offsetSet s))))), syncLost := false } } := by
  simp [clockDecide, set, peers, near, slewOf_eq]

theorem clockDecide_of_far {s : State} (set : s.cck.timeState ≠ .unset) (peers : (offsetSet s).length ≠ 1)
    (far : 500 < |lowerMedian (offsetSet s)|) :
    clockDecide s = { s with cck := { s.cck with pending := some (.step (lowerMedian (offsetSet s))) } } := by
  simp [clockDecide, set, peers, not_le.mpr far]

/-- Settles O21: no decision, a slew or a step, by the lower median's place and size. -/
theorem clockDecisionAtAnUpdate : Obligations.ClockDecisionAtAnUpdate := by
  unfold Obligations.ClockDecisionAtAnUpdate
  exact ⟨fun xs => ⟨sortAsc_perm xs, sortAsc_sorted xs⟩, fun s =>
    ⟨clockDecide_of_none, clockDecide_of_near, clockDecide_of_far, lowerMedian_place (offsetSet_length_pos s)⟩⟩

/-! ### A correction (R65, R66, R69, R124) -/

/-- The microseconds that index and phase name together, over all 2^32 indices. -/
theorem move_total (t : CraneTime) (c : Int) :
    ((t.move c).ms.toNat : Int) * 1000 + (t.move c).phase = ((t.ms.toNat : Int) * 1000 + t.phase + c) % 4294967296000 := by
  simp only [CraneTime.move, BitVec.toNat_ofNat]
  omega

theorem move_phase_lt (t : CraneTime) (c : Int) : (t.move c).phase < 1000 := by
  simp only [CraneTime.move]
  omega

/-- The state with no correction waiting, its time moved by c from phase 500. -/
def movedTime (c : Int) (s : State) : State := moveTime c { s with cck := { s.cck with pending := none } }

/-- The clock as a step leaves it: TIME-STEPPED from now on, one step more, in step with the rig (R69). -/
def Cck.stepped (k : Cck) : Cck :=
  { k with timeStepped := true, stepAge := 0, stepCount := k.stepCount + 1, syncLost := false }

/-- The state after a step that no take withholds. -/
def steppedTime (c : Int) (s : State) : State := { movedTime c s with cck := (movedTime c s).cck.stepped }

section
variable {c : Int} {s : State}

theorem applyCorrection_of_none (none : s.cck.pending = none) : applyCorrection s = s := by
  simp [applyCorrection, none]

theorem applyCorrection_of_slew (slew : s.cck.pending = some (.slew c)) : applyCorrection s = movedTime c s := by
  simp only [applyCorrection, slew, movedTime]

theorem applyCorrection_of_adopt (adopt : s.cck.pending = some (.adopt c)) :
    applyCorrection s = { movedTime c s with cck := { (movedTime c s).cck with timeState := .agreed } } := by
  simp only [applyCorrection, adopt, movedTime]

/-- A step with no take running, and no ROLL that its time would upset (R69). -/
theorem applyCorrection_of_step (step : s.cck.pending = some (.step c)) (rests : jobRunning s = false)
    (unrolled : s.tks.rollTime = none ∨ (s.tks.job ≠ .prepared ∧ s.tks.job ≠ .cued)) :
    applyCorrection s = startWork (steppedTime c s) := by
  have unrolled' : (s.tks.rollTime.isSome && (s.tks.job == .prepared || s.tks.job == .cued)) = false := by
    rcases unrolled with none | ⟨prepared, cued⟩
    · simp [none]
    · simp [prepared, cued]
  have rests' : jobRunning { s with cck := { s.cck with pending := none } } = false := rests
  simp only [applyCorrection, step, applyStep, rests', moveTime_frame, unrolled']
  rfl

/-- A step while a take runs is withheld: a slew, SYNC-LOST, and the take aborted (R69, R124). -/
theorem applyCorrection_of_withheld (step : s.cck.pending = some (.step c)) (runs : jobRunning s = true) :
    applyCorrection s = startWork (abortRunning .sync
      { movedTime (slewOf c) s with cck := { (movedTime (slewOf c) s).cck with syncLost := true } }) := by
  have runs' : jobRunning { s with cck := { s.cck with pending := none } } = true := runs
  simp only [applyCorrection, step, applyStep, runs']
  rfl

/-- A step ends a job whose ROLL has been taken (R69, R124). -/
theorem applyCorrection_of_rolled (step : s.cck.pending = some (.step c)) (rolled : s.tks.rollTime.isSome = true)
    (waits : s.tks.job = .prepared ∨ s.tks.job = .cued) :
    applyCorrection s = startWork (abortOwn .sync (steppedTime c s)) := by
  have rests : jobRunning { s with cck := { s.cck with pending := none } } = false := by
    rcases waits with job | job <;> simp [jobRunning, job]
  have waits' : (s.tks.job == .prepared || s.tks.job == .cued) = true := by
    rcases waits with job | job <;> simp [job]
  simp only [applyCorrection, step, applyStep, rests, moveTime_frame, rolled, waits']
  rfl

end

@[simp] theorem broadcastAbort_rollTime (n : Byte) (r : Reason) (s : State) :
    (broadcastAbort n r s).tks.rollTime = s.tks.rollTime := by
  unfold broadcastAbort; split
  · simp
  · split <;> rfl

@[simp] theorem abortOwn_rollTime (r : Reason) (s : State) : (abortOwn r s).tks.rollTime = none := by
  rw [abortOwn, broadcastAbort_rollTime]; rfl

/-- Settles O31, by the correction that waits and what a step finds the take job at. -/
theorem correctionIsApplied : Obligations.CorrectionIsApplied := by
  unfold Obligations.CorrectionIsApplied
  refine ⟨fun t c _ => ⟨move_phase_lt t c, ?_⟩, fun s => ⟨fun none => congrArg Host.Outcome.next (applyCorrection_of_none none),
    fun c slew => congrArg Host.Outcome.next (applyCorrection_of_slew slew),
    fun c adopt => congrArg Host.Outcome.next (applyCorrection_of_adopt adopt),
    fun c step rests unrolled => congrArg Host.Outcome.next (applyCorrection_of_step step rests unrolled),
    fun c step runs => ⟨_, congrArg Host.Outcome.next (applyCorrection_of_withheld step runs), ?_⟩,
    fun c step rolled waits => ⟨_, congrArg Host.Outcome.next (applyCorrection_of_rolled step rolled waits), ?_⟩⟩⟩
  · rw [move_total]
    omega
  · rw [← slewOf_eq]
    obtain ⟨job, outcome⟩ := abortRunning_tks .sync
      (s := { movedTime (slewOf c) s with cck := { (movedTime (slewOf c) s).cck with syncLost := true } }) runs
    simp only [startWork_frame, abortRunning_frame, job, outcome]
    exact ⟨trivial, rfl, rfl, trivial, rfl, rfl⟩
  · simp only [startWork_frame, abortOwn_frame, abortOwn_job, abortOwn_rollTime, abortOwn_outcome]
    exact ⟨rfl, trivial, trivial, rfl⟩

end Sys2Proof.Machine
end

