-- ==== Sys2Proof/Proofs/AgreedTime.lean ====
section
/-! SUPPORT. The agreed time: what makes it so, that no command but START ends it, and how updates keep it to the rig's (R66, R67). -/

namespace Sys2Proof.Machine

open Sys2Proof.Safety

/-! ### Commands that leave the clock alone -/

@[simp] theorem requestRestart_cck (s : State) : (requestRestart s).cck = s.cck := by
  unfold requestRestart; split
  · simp [restartPart]
  · rfl

theorem clockHears_agreed {offset : Int} {valid : Bool} {s : State} (agreed : s.cck.timeState = .agreed) :
    clockHears offset valid s = s := by
  simp [clockHears, agreed]

theorem receiveStatus_agreed {own : Bool} {st : Station} {i : StatusItems} {c : CraneTime} {s : State}
    (agreed : s.cck.timeState = .agreed) : (receiveStatus own st i c s).cck = s.cck := by
  unfold receiveStatus
  split
  · rfl
  · split
    · simp
    · rw [clockHears_agreed (by simpa using agreed)]; simp

theorem handBlocks_agreed {own : Bool} {f : Frame} {c : CraneTime} {s : State} (agreed : s.cck.timeState = .agreed) :
    (handBlocks own f c s).cck = s.cck := by
  unfold handBlocks
  split
  case h_3 => split <;> simp
  case h_7 => split <;> simp
  case h_11 => exact receiveStatus_agreed agreed
  all_goals simp

theorem handFrame_agreed {own : Bool} {f : Frame} {c : CraneTime} {s : State} (agreed : s.cck.timeState = .agreed) :
    (handFrame own f c s).cck = s.cck := by
  simp only [handFrame]
  split
  · simp
  · rw [handBlocks_agreed (by simpa using agreed)]; simp

theorem deliver_agreed {st : Station} {b : Body} {s : State} (agreed : s.cck.timeState = .agreed) :
    (deliver st b s).cck = s.cck := by
  simp only [deliver, startWork_frame]
  exact handFrame_agreed agreed

theorem completeAttempt_agreed {s : State} (agreed : s.cck.timeState = .agreed) : (completeAttempt s).cck = s.cck := by
  unfold completeAttempt
  split
  · rfl
  · split
    · rfl
    · simp only [startWork_frame]
      rw [handFrame_agreed (by simpa using agreed)]; simp

theorem placeAbort_agreed {s : State} (agreed : s.cck.timeState = .agreed) : (placeAbort s).cck = s.cck := by
  unfold placeAbort
  repeat' split
  all_goals simp [completeAttempt_agreed agreed]

/-- No transaction of the companion port touches the clock (R178). -/
@[simp] theorem port_cck (s : State) :
    (∀ kind payload, (portSend kind payload s).cck = s.cck) ∧ (portHalt s).cck = s.cck ∧ (portUnhalt s).cck = s.cck ∧
    (portReceive s).cck = s.cck ∧ (portCopyEnd s).cck = s.cck ∧ (∀ kinds, (portFilter kinds s).cck = s.cck) ∧
    (∀ sec index, (portSnapshot sec index s).cck = s.cck) ∧ (∀ block, (portConfigWrite block s).cck = s.cck) ∧
    (portFormat s).cck = s.cck ∧ (portRestart s).cck = s.cck := by
  refine ⟨fun kind payload => ?_, ?_, ?_, ?_, ?_, fun kinds => ?_, fun sec index => ?_, fun block => ?_, ?_, ?_⟩
  · unfold portSend; repeat' split
    all_goals simp
  · unfold portHalt; split <;> simp
  · unfold portUnhalt; split <;> simp
  · unfold portReceive; split <;> simp
  · unfold portCopyEnd; split <;> rfl
  · unfold portFilter; repeat' split
    all_goals simp
  · unfold portSnapshot; split <;> simp
  · unfold portConfigWrite; repeat' split
    all_goals simp
  · unfold portFormat; repeat' split
    all_goals simp
  · simp [portRestart]

@[simp] theorem programEnded_cck (seen : Option (List Byte)) (reportOnly : Bool) (s : State) :
    (programEnded seen reportOnly s).cck = s.cck := by
  unfold programEnded
  repeat' split
  all_goals simp

@[simp] theorem eraseEnded_cck (seen : Option (List Byte)) (reportOnly : Bool) (s : State) :
    (eraseEnded seen reportOnly s).cck = s.cck := by
  unfold eraseEnded
  repeat' split
  all_goals simp

/-! ### Commands that move the clock -/

theorem moveTime_timeState (c : Int) (s : State) : (moveTime c s).cck.timeState = s.cck.timeState := rfl

theorem applyStep_timeState (c : Int) (s : State) : (applyStep c s).cck.timeState = s.cck.timeState := by
  unfold applyStep
  dsimp only
  repeat' split
  all_goals simp [moveTime_timeState]

/-- A correction leaves an agreed time agreed: adoption makes it so, and slew and step only move it (R66, R69). -/
theorem applyCorrection_agreed {s : State} (agreed : s.cck.timeState = .agreed) :
    (applyCorrection s).cck.timeState = .agreed := by
  unfold applyCorrection
  split
  · exact agreed
  · rfl
  · exact agreed
  · simp only [startWork_frame]
    exact (applyStep_timeState _ _).trans agreed

theorem clockWrap_of_set {s : State} (set : s.cck.timeState ≠ .unset) :
    (clockWrap s).cck = { s.cck with ms := s.cck.ms + 1, phase := 0 } := by
  simp [clockWrap, set]

/-- An update of a node that has its time only counts on before it decides (R62, R66). -/
theorem update_index_of_set (inp : UpdateInputs) {s : State} (set : s.cck.timeState ≠ .unset) :
    (update inp s).cck.ms = s.cck.ms + 1 ∧ (update inp s).cck.phase = 0 ∧
      (update inp s).cck.timeState = s.cck.timeState := by
  obtain ⟨ms, phase, timeState⟩ := stepAging_index (clockWrap (countUpdate s))
  rw [clockWrap_of_set (by exact set)] at ms phase timeState
  have time := update_time inp s
  exact ⟨(congrArg Cck.ms time :).trans ms, (congrArg Cck.phase time :).trans phase,
    (congrArg Cck.timeState time :).trans timeState⟩

theorem update_agreed {inp : UpdateInputs} {s : State} (agreed : s.cck.timeState = .agreed) :
    (update inp s).cck.timeState = .agreed :=
  (update_index_of_set inp (by simp [agreed])).2.2.trans agreed

theorem updateWhen_agreed {due : Bool} {inp : UpdateInputs} {s : State} (agreed : s.cck.timeState = .agreed) :
    (updateWhen due inp s).cck.timeState = .agreed := by
  unfold updateWhen; split
  · exact update_agreed agreed
  · exact agreed

/-! ### Every command -/

theorem exec_agreed (c : Instr) (s t : State) (taken : exec c s = .next t) (agreed : s.cck.timeState = .agreed)
    (running : ∀ chainOpen memory, c ≠ .start chainOpen memory) : t.cck.timeState = .agreed := by
  cases c <;> cases taken
  case start chainOpen memory => exact absurd rfl (running chainOpen memory)
  case update => exact update_agreed agreed
  case correctionApply => exact applyCorrection_agreed agreed
  case timeOwn | timeSteppedClear | strapsRead | storeIdTimeout | encoderFaultEnd | stall | crewAbsent | followError |
      demandStale | peerLost | wakingEnd | flashTimeout => exact updateWhen_agreed agreed
  case restartFrame | stopFrame | releaseFrame | resume | wake | park | home | demandFrame | statusFrame | takePrepare |
      takeCue | takeRoll | takeCut | takeAbort | takeDelete | takeLock | mark =>
    rw [deliver_agreed agreed]; exact agreed
  case transmitComplete => rw [completeAttempt_agreed agreed]; exact agreed
  case heldAbortPlace => rw [placeAbort_agreed agreed]; exact agreed
  case chainClose => exact agreed
  all_goals simp [agreed]

/-! ### The decisions toward the rig's time (R67, R68) -/

theorem causesAt_peers (here : Bool) (s : State) : (causesAt here s).ptb.peers = s.ptb.peers := by
  have lost : (lostUpdate (raiseHalt s)).ptb.peers = s.ptb.peers := by simp [lostUpdate]
  unfold causesAt updateCauses raisePeerLost
  dsimp only
  repeat' split
  all_goals simp [lost]

theorem startUpdate_station (inp : UpdateInputs) {s : State} (known : s.cfg.startState ≠ .straps) :
    (startUpdate inp s).cfg.station = s.cfg.station := by
  rw [startUpdate, if_neg known]
  unfold pollStore finishErase
  dsimp only
  repeat' split
  all_goals rfl

theorem sampled_station (inp : UpdateInputs) {s : State} (known : s.cfg.startState ≠ .straps) :
    (sampled inp s).cfg.station = s.cfg.station := by
  have started : (sampled inp s).cfg = (startUpdate inp (stepAging (clockWrap (countUpdate s)))).cfg := by
    simp [sampled]
  rw [started, startUpdate_station inp (by simpa using known)]
  simp

theorem offsetSet_congr {s t : State} (station : t.cfg.station = s.cfg.station) (peers : t.ptb.peers = s.ptb.peers) :
    offsetSet t = offsetSet s := by
  have own (st : Station) : isOwn st t = isOwn st s := by rw [isOwn, isOwn, station]
  unfold offsetSet
  simp only [own, peers]

/-- The state on which the clock of an update decides (log 6). -/
def clocked (inp : UpdateInputs) (s : State) : State := causesAt inp.causesFirst (sampled inp s)

theorem clocked_cck (inp : UpdateInputs) (s : State) : (clocked inp s).cck = (stepAging (clockWrap (countUpdate s))).cck := by
  simp [clocked, sampled]

theorem update_cck_eq (inp : UpdateInputs) (s : State) : (update inp s).cck = (clockDecide (clocked inp s)).cck := by
  simp [update, toServo, withMotion, beforeMotion_eq, afterMotion_eq, decided, clocked]

theorem clocked_offsetSet (inp : UpdateInputs) {s : State} (known : s.cfg.startState ≠ .straps) :
    offsetSet (clocked inp s) = offsetSet s :=
  offsetSet_congr (by simp [clocked, sampled_station inp known]) (by simp [clocked, causesAt_peers])

/-- The age and the phase do not touch a correction that waits. -/
theorem clocked_pending (inp : UpdateInputs) (s : State) : (clocked inp s).cck.pending = s.cck.pending := by
  have wrapped : (clockWrap (countUpdate s)).cck.pending = s.cck.pending := by
    unfold clockWrap; split <;> rfl
  rw [clocked_cck, ← wrapped]
  unfold stepAging
  dsimp only
  repeat' split
  all_goals rfl

theorem clocked_timeState_of_set (inp : UpdateInputs) {s : State} (set : s.cck.timeState ≠ .unset) :
    (clocked inp s).cck.timeState ≠ .unset := by
  rw [clocked_cck, (stepAging_index _).2.2, clockWrap_of_set (by exact set)]
  exact set

/-- A peer that the node hears: another station with a fresh entry (R59, R68). -/
def hears (s : State) (st : Station) : Prop := st ≠ 0 ∧ isOwn st s = false ∧ s.ptb.peers[st].age ≤ 12

/-- A node that hears no peer is alone in the set of offsets (R67, R68). -/
theorem offsetSet_of_alone {s : State} (alone : ∀ st, ¬hears s st) : (offsetSet s).length = 1 := by
  have none (st : Station) (mem : st ∈ allStations) :
      (if isOwn st s then none
        else if isFresh s.ptb.peers[st].age && s.ptb.peers[st].offsetValid then some s.ptb.peers[st].offset else none) = none := by
    split
    · rfl
    · next other =>
      have stale : isFresh s.ptb.peers[st].age = false := by
        rw [isFresh, decide_eq_false_iff_not]
        exact fun young => alone st ⟨(mem_allStations_iff st).mp mem, by simpa using other, young⟩
      rw [stale]; rfl
  simp only [offsetSet, List.length_cons, List.filterMap_eq_nil_iff.mpr none, List.length_nil]

/-- A peer that is heard with a valid offset has it in the set (R68). -/
theorem offsetSet_of_heard {s : State} {st : Station} (heard : hears s st) (valid : s.ptb.peers[st].offsetValid = true) :
    (offsetSet s).length ≠ 1 := by
  obtain ⟨known, other, young⟩ := heard
  have fresh : isFresh s.ptb.peers[st].age = true := decide_eq_true young
  have mem : s.ptb.peers[st].offset ∈ (offsetSet s).tail :=
    List.mem_filterMap.mpr ⟨st, mem_allStations known, by simp only [other, fresh, valid]; rfl⟩
  intro one
  have empty : (offsetSet s).tail.length = 0 := by rw [List.length_tail, one]
  rw [List.length_eq_zero_iff.mp empty] at mem
  cases mem

/-- With no peer heard an update decides nothing (R67). -/
theorem update_pending_of_alone (inp : UpdateInputs) {s : State} (known : s.cfg.startState ≠ .straps)
    (alone : ∀ st, ¬hears s st) : (update inp s).cck.pending = s.cck.pending := by
  rw [update_cck_eq, clockDecide_of_none (.inr (by rw [clocked_offsetSet inp known, offsetSet_of_alone alone])), clocked_pending]

/-- With a peer heard an update decides a slew or a step of the lower median (R68, R69). -/
theorem update_pending_of_heard (inp : UpdateInputs) {s : State} (set : s.cck.timeState ≠ .unset)
    (known : s.cfg.startState ≠ .straps) {st : Station} (heard : hears s st) (valid : s.ptb.peers[st].offsetValid = true) :
    (update inp s).cck.pending = some
      (if |lowerMedian (offsetSet s)| ≤ 500 then .slew (max (-2) (min 2 (lowerMedian (offsetSet s))))
        else .step (lowerMedian (offsetSet s))) := by
  have set' := clocked_timeState_of_set inp set
  have offsets := clocked_offsetSet inp known
  have peers : (offsetSet (clocked inp s)).length ≠ 1 := by rw [offsets]; exact offsetSet_of_heard heard valid
  rw [update_cck_eq]
  split
  · next near => rw [clockDecide_of_near set' peers (by rw [offsets]; exact near), offsets]
  · next far => rw [clockDecide_of_far set' peers (by rw [offsets]; exact not_le.mp far), offsets]

/-! ### The agreed time -/

/-- A valid offset makes an OWN time AGREED, and nothing else of the clock changes (R67). -/
theorem deliver_status_cck {st : Station} {i : StatusItems} {s : State} (known : st ≠ 0) (other : isOwn st s = false)
    (own : s.cck.timeState = .own) (valid : i.timeState ≠ .unset) :
    (deliver st (.status i) s).cck = { s.cck with timeState := .agreed } := by
  rw [deliver_status_of_other i known other]
  simp [statusHeard, own, valid]

/-- Settles O60: the frame that agrees the time, the commands that keep it, and the updates that move it. -/
theorem agreedTimeStaysAgreed : Obligations.AgreedTimeStaysAgreed := by
  unfold Obligations.AgreedTimeStaysAgreed
  refine ⟨fun st i s known other own valid => ⟨_, rfl, deliver_status_cck known other own valid⟩,
    fun c s t running agreed taken => exec_agreed c s t taken agreed running, fun inp s agreed known => ⟨_, rfl, ?_⟩⟩
  have set : s.cck.timeState ≠ .unset := by rw [agreed]; decide
  obtain ⟨ms, phase, -⟩ := update_index_of_set inp set
  exact ⟨ms, phase, update_pending_of_alone inp known, fun st => update_pending_of_heard inp set known⟩

end Sys2Proof.Machine
end

