-- ==== Sys2Proof/Proofs/ReportedItems.lean ====
section
/-! SUPPORT. What the stops, the motion and the take of an update leave alone of what its STATUS and DEMAND report (R27, R31, R35, R36, R127). -/

namespace Sys2Proof.Machine

open Sys2Proof.Safety

/-! ### The operation in flight (R127) -/

theorem endJob_ages (o : TakeOutcome) (s : State) : (endJob o s).tsc.ages = s.tsc.ages := by
  simp only [endJob, jobToIdle]
  cases s.tks.job <;> simp <;> rfl

theorem abortOwn_ages (r : Reason) (s : State) : (abortOwn r s).tsc.ages = s.tsc.ages := by
  simp [abortOwn, endJob_ages]

theorem handOn_ages (f : HomeFail) (r : Reason) (s : State) : (handOn f r s).tsc.ages = s.tsc.ages := by
  have handed : (disarm (failHoming f s)).tsc = s.tsc := by simp
  unfold handOn handedToTakes
  split
  · rw [abortOwn_ages, handed]
  · rw [handed]

theorem reactStops_ages (s : State) : (reactStops s).tsc.ages = s.tsc.ages := by
  by_cases on : s.stc.drive = .enabled
  · cases stop : stopInForce s
    · rw [reactStops_of_free stop, leaveStopped_of_other (by simp [on])]
    · obtain ⟨x, -, -, -, -, tsc, -, -, -, -, left, -⟩ := reactStops_of_enabled on stop
      rw [left, handOn_ages, tsc]
  · rw [(reactStops_of_other on).2.2.2.1]

/-- A read that tells an erase to suspend sets the suspend's count back, so that no operation runs late by it (R127, R141). -/
theorem requestRead_late (j : ReadJob) {t : Tsc} (late : operationLate (requestRead j t) = true) : operationLate t = true := by
  unfold requestRead at late
  dsimp only at late
  split at late
  · split at late
    · exact late
    · have zero : ¬Config.flashUpdates ≤ 0 := by decide
      simp only [operationLate, decide_eq_false zero, Bool.or_false] at late ⊢
      simp only [Bool.and_eq_true] at late
      simp [late]
  · exact late

theorem fetchInto_late {segs : List Segment} {endIndex : Nat} {i : Fin 4} {t : Tsc}
    (late : operationLate (fetchInto segs endIndex i t) = true) : operationLate t = true := by
  unfold fetchInto at late
  split at late
  · exact late
  · split at late
    · exact (requestRead_late _ late :)
    · exact late

theorem tookDelta_late {segs : List Segment} {endIndex k : Nat} {t : Tsc}
    (late : operationLate (tookDelta segs endIndex k t) = true) : operationLate t = true := by
  unfold tookDelta at late
  split at late
  · split at late
    · exact (fetchInto_late late :)
    · exact late
  · exact late

@[simp] theorem playbackCut_tsc (s : State) : (playbackCut s).tsc = s.tsc := by
  unfold playbackCut
  repeat' split
  all_goals simp [beginRunout]

theorem playbackResult_late {r : Result} {s : State} (late : operationLate (playbackResult r s).tsc = true) :
    operationLate s.tsc = true := by
  unfold playbackResult at late
  split at late
  · rwa [operationLate_congr (abortOwn_ages _ s)] at late
  · rwa [operationLate_congr (abortOwn_ages _ s)] at late
  · simpa using late
  · dsimp only at late
    split at late
    · exact tookDelta_late (by simpa [beginRunout] using late)
    · exact tookDelta_late (by simpa using late)

/-- A take's update makes no operation late (R127). -/
theorem takesUpdate_late {r : Result} {s : State} (late : operationLate (takesUpdate r s).tsc = true) :
    operationLate s.tsc = true := by
  by_cases runs : s.tks.job = .running
  · rw [takesUpdate_running r runs] at late
    exact playbackResult_late late
  · rwa [operationLate_congr (takesUpdate_ages r runs)] at late

/-! ### The relation -/

/-- What a part of an update that goes from s to t leaves alone; demanded: the part may form the hand demand. -/
structure KeptAside (demanded : Bool) (s t : State) : Prop where
  wakeRefused : t.stc.wakeRefused = s.stc.wakeRefused
  factor : t.mpr.factor = s.mpr.factor
  stale : demanded = false → t.dmr.stale = s.dmr.stale
  status : t.lnk.status = s.lnk.status
  demand : t.lnk.demand = s.lnk.demand
  late : operationLate t.tsc = true → operationLate s.tsc = true

namespace KeptAside

variable {demanded : Bool} {s t u : State}

theorem rfl : KeptAside demanded s s := ⟨.refl _, .refl _, fun _ => .refl _, .refl _, .refl _, id⟩

theorem trans (x : KeptAside demanded s t) (y : KeptAside demanded t u) : KeptAside demanded s u :=
  ⟨y.wakeRefused.trans x.wakeRefused, y.factor.trans x.factor, fun none => (y.stale none).trans (x.stale none),
    y.status.trans x.status, y.demand.trans x.demand, x.late ∘ y.late⟩

theorem ite {c : Prop} [Decidable c] (yes : c → KeptAside demanded s t) (no : ¬c → KeptAside demanded s u) :
    KeptAside demanded s (if c then t else u) := by
  split
  · exact yes ‹_›
  · exact no ‹_›

theorem of_frame (wakeRefused : t.stc.wakeRefused = s.stc.wakeRefused) (factor : t.mpr.factor = s.mpr.factor)
    (stale : t.dmr.stale = s.dmr.stale) (lnk : t.lnk.besideFifo = s.lnk.besideFifo) (ages : t.tsc.ages = s.tsc.ages) :
    KeptAside demanded s t :=
  ⟨wakeRefused, factor, fun _ => stale, (congrArg Lnk.status lnk :), (congrArg Lnk.demand lnk :),
    by rw [operationLate_congr ages]; exact id⟩

end KeptAside

variable {demanded : Bool}

/-! ### Stops and causes -/

theorem factor_of_course {a b : Mpr} (same : a.course = b.course) : a.factor = b.factor := (congrArg Mpr.factor same :)

theorem reactStops_factor (s : State) : (reactStops s).mpr.factor = s.mpr.factor := by
  obtain eq | ⟨eq, -⟩ | ⟨eq, -⟩ | ⟨eq, -⟩ := reactStops_cases s <;> rw [eq]
  · rw [enterStopped_mpr]; rfl
  · rw [enterStopping_eq]; split
    · rw [endStopping_eq (by simp)]
      change (stoppingDrive s).mpr.factor = _
      rw [stoppingDrive_mpr]
    · rw [stoppingDrive_mpr]
  · rw [enterParked_mpr]

theorem reactStops_aside (s : State) : KeptAside demanded s (reactStops s) := by
  have stale : (reactStops s).dmr.stale = s.dmr.stale := by
    rcases reactStops_dmr s with same | disarmed
    · rw [same]
    · rw [disarmed]; rfl
  exact .of_frame (congrArg Stc.wakeRefused (reactStops_orders s) :) (reactStops_factor s) stale (reactStops_besideFifo s)
    (reactStops_ages s)

/-- A hold that is formed writes STC's hold and the safety slot only (R88). -/
theorem holds_aside {s t : State} (mpr : t.mpr = s.mpr) (dmr : t.dmr = s.dmr) (tsc : t.tsc = s.tsc)
    (unheld : t.stc.unheld = s.stc.unheld) (link : t.lnk.besideSafety = s.lnk.besideSafety) : KeptAside demanded s t :=
  ⟨(congrArg Stc.wakeRefused unheld :), by rw [mpr], fun _ => by rw [dmr], (congrArg Lnk.status link :),
    (congrArg Lnk.demand link :), by rw [tsc]; exact id⟩

theorem holdAgain_aside (s : State) : KeptAside demanded s (holdAgain s) :=
  holds_aside (by simp) (by simp) (by simp) (holdAgain_unheld s) (holdAgain_besideSafety s)

theorem holdFor_aside (c : Cause) (s : State) : KeptAside demanded s (holdFor c s) :=
  holds_aside (by simp) (by simp) (by simp) (holdFor_unheld c s) (holdFor_besideSafety c s)

theorem causeArises_aside (c : Cause) (s : State) : KeptAside demanded s (causeArises c s) :=
  (holdFor_aside c s).trans (reactStops_aside _)

theorem raiseCause_aside (c : Cause) {f : State → State} {s : State} (set : KeptAside demanded s (f s)) :
    KeptAside demanded s (raiseCause c f s) :=
  .ite (fun _ => set) fun _ => set.trans (causeArises_aside c _)

theorem raiseOverrun_aside (s : State) : KeptAside demanded s (raiseOverrun s) :=
  raiseCause_aside _ (.of_frame rfl rfl rfl rfl rfl)

theorem raiseFollow_aside (s : State) : KeptAside demanded s (raiseFollow s) :=
  raiseCause_aside _ (.of_frame rfl rfl rfl rfl rfl)

theorem updateCauses_aside (s : State) : KeptAside demanded s (updateCauses s) := by
  have halt : KeptAside demanded s (raiseHalt s) :=
    .ite (fun _ => raiseCause_aside _ (.of_frame rfl rfl rfl rfl rfl)) fun _ => .rfl
  have lost : KeptAside demanded s (lostUpdate (raiseHalt s)) := halt.trans (.of_frame rfl rfl rfl rfl rfl)
  exact .ite (fun _ => lost.trans (causeArises_aside _ _)) fun _ => lost

theorem causesAt_aside (here : Bool) (s : State) : KeptAside demanded s (causesAt here s) :=
  .ite (fun _ => updateCauses_aside s) fun _ => .rfl

theorem settleHold_aside (before s : State) : KeptAside demanded s (settleHold before s) :=
  .ite (fun _ => (holdAgain_aside s).trans (reactStops_aside _)) fun _ => .rfl

/-! ### The profile and what takes its result -/

theorem motion_factor (supplied : Option Int) (s : State) : (motion supplied s).1.mpr.factor = s.mpr.factor := by
  have hand : (modeToHand s).mpr.factor = s.mpr.factor := by unfold modeToHand; split <;> rfl
  unfold motion
  split
  · unfold moveInMode
    split
    · unfold playbackUpdate
      dsimp only
      repeat' split
      all_goals exact hand
    · exact hand
  all_goals rfl

theorem withMotion_aside (s : State) : KeptAside demanded s (withMotion s).1 := by
  refine .of_frame ?_ ?_ ?_ ?_ ?_
  · simp [withMotion]
  · simp [withMotion, motion_factor]
  all_goals simp [withMotion]

theorem becomeHomed_aside (s : State) : KeptAside demanded s (becomeHomed s) := by
  rw [becomeHomed_eq]
  have clamped : KeptAside demanded s (clampedHome s) := .of_frame rfl rfl rfl rfl rfl
  exact .ite (fun _ => clamped.trans (raiseOverrun_aside _)) fun _ => .of_frame rfl rfl rfl rfl rfl

theorem stalled_aside (s : State) : KeptAside demanded s (stalled s) := by
  refine .of_frame ?_ (factor_of_course (b := (originChange (homeOrigin s) s).mpr) ?_) ?_ ?_ ?_ <;> simp [stalled]

theorem homingUpdate_aside (r : Result) (s : State) : KeptAside demanded s (homingUpdate r s) := by
  have fails (x : State) : KeptAside demanded x (failHoming .travel x) :=
    .of_frame (by simp) (factor_of_course (by simp)) (by simp) (by simp) (by simp)
  have travel (x : State) : KeptAside demanded x (travelUpdate x) := .ite (fun _ => fails x) fun _ => .rfl
  have counted : KeptAside demanded s { s with hom := { s.hom with stall := stallCount s } } := .of_frame rfl rfl rfl rfl rfl
  have requested : KeptAside demanded s (requestMode .hold s) :=
    .of_frame (by simp) (factor_of_course (by simp)) (by simp) (by simp) (by simp)
  refine .ite (fun _ => ?_) fun _ => .rfl
  split
  · exact .ite (fun _ => .ite (fun _ => stalled_aside s) fun _ => counted.trans (travel _)) fun _ => travel s
  · exact .ite (fun _ => becomeHomed_aside s) fun _ => .rfl
  · exact .ite (fun _ => requested.trans (becomeHomed_aside _)) fun _ => .rfl
  · exact .rfl

theorem enterParked_aside (s : State) : KeptAside demanded s (enterParked s) := by
  have stale : (enterParked s).dmr.stale = s.dmr.stale := by rw [enterParked_dmr]; split <;> rfl
  exact .of_frame (by simp) (by simp) stale (by simp) (by simp)

theorem restUpdate_aside (r : Result) (s : State) : KeptAside demanded s (restUpdate r s) := by
  refine .ite (fun _ => ?_) fun _ => .rfl
  split
  · rw [endStopping_eq ‹_›]; exact .of_frame rfl rfl rfl rfl rfl
  · exact .ite (fun _ => enterParked_aside s) fun _ => .rfl
  all_goals exact .rfl

theorem wakingUpdate_aside (s : State) : KeptAside demanded s (wakingUpdate s) := by
  have settles (n : Nat) : KeptAside demanded s { s with stc := { s.stc with settle := n } } := .of_frame rfl rfl rfl rfl rfl
  exact .ite (fun _ => .ite (fun _ => .of_frame rfl rfl rfl rfl rfl) fun _ => settles _) fun _ => .rfl

theorem takesUpdate_aside (r : Result) (s : State) : KeptAside demanded s (takesUpdate r s) := by
  have link := takesUpdate_besideFifo r s
  exact ⟨by simp, factor_of_course (takesUpdate_course r s), fun _ => by simp, (congrArg Lnk.status link :),
    (congrArg Lnk.demand link :), takesUpdate_late⟩

theorem takeResult_aside (r : Result) (s : State) : KeptAside demanded s (takeResult r s) := by
  have causes : KeptAside demanded s (resultCauses r s) := by
    have follow : KeptAside demanded s (if Config.followTrip ≤ s.svo.follow then raiseFollow s else s) :=
      .ite (fun _ => raiseFollow_aside s) fun _ => .rfl
    exact follow.trans (.ite (fun _ => raiseOverrun_aside _) fun _ => .rfl)
  exact causes.trans ((homingUpdate_aside r _).trans ((restUpdate_aside r _).trans
    ((wakingUpdate_aside _).trans (takesUpdate_aside r _))))

/-! ### Samples, zones and demand -/

theorem sampled_aside (inp : UpdateInputs) (s : State) :
    KeptAside demanded { s with tsc := ageOperation s.tsc } (sampled inp s) := by
  refine .of_frame ?_ ?_ ?_ ?_ ?_ <;> simp [sampled, readHalt]

theorem clockDecide_aside (s : State) : KeptAside demanded s (clockDecide s) :=
  .of_frame (by simp) (by simp) (by simp) (by simp) (by simp)

theorem evaluated_stale_of_later {zones demand : Bool} (s : State) (later : demand = false) :
    (evaluated zones demand s).dmr = s.dmr := by
  subst later
  cases zones <;> simp [evaluated]

theorem evaluated_zmn_of_later {zones demand : Bool} (s : State) (later : zones = false) :
    (evaluated zones demand s).zmn = s.zmn := by
  subst later
  cases demand <;> simp [evaluated]

theorem evaluated_aside (zones demand : Bool) (s : State) : KeptAside demand s (evaluated zones demand s) :=
  ⟨by simp, by simp, fun later => by rw [evaluated_stale_of_later s later], by simp, by simp, by simp⟩

end Sys2Proof.Machine
end

