-- ==== Sys2Proof/Proofs/UpdateSamples.lean ====
section
/-! SUPPORT. An update's clock, its ages and filters, and the DEMAND it queues (R25, R27, R58, R66, R71, R74). -/

namespace Sys2Proof.Machine

open Sys2Proof.Safety

/-! ### The clock (R62, R66, R71) -/

/-- The update of which R66 makes the node's own time. -/
def ownsTime (s : State) : Prop := s.cck.timeState = .unset ∧ s.cck.pending = none ∧ (s.cck.ms + 1).toNat = 200

theorem clockWrap_of_owns {s : State} (owns : ownsTime s) :
    (clockWrap s).cck = { s.cck with ms := 0, phase := 0, timeState := .own } := by
  unfold clockWrap
  rw [if_pos (by exact owns)]

theorem clockWrap_of_counts {s : State} (counts : ¬ownsTime s) :
    (clockWrap s).cck = { s.cck with ms := s.cck.ms + 1, phase := 0 } := by
  unfold clockWrap
  rw [if_neg (by exact counts)]

theorem stepAging_of_unstepped {s : State} (unstepped : s.cck.timeStepped = false) : stepAging s = s := by
  simp [stepAging, unstepped]

theorem stepAging_of_young {s : State} (stepped : s.cck.timeStepped = true) (young : s.cck.stepAge + 1 < 1000) :
    (stepAging s).cck = { s.cck with stepAge := s.cck.stepAge + 1 } := by
  have below : ¬Config.stepAgeEnd ≤ s.cck.stepAge + 1 := Nat.not_le.mpr young
  simp [stepAging, stepped, below]

theorem stepAging_of_old {s : State} (stepped : s.cck.timeStepped = true) (old : 1000 ≤ s.cck.stepAge + 1) :
    (stepAging s).cck = { s.cck with stepAge := 1000, timeStepped := false } := by
  have reached : Config.stepAgeEnd ≤ s.cck.stepAge + 1 := old
  simp only [stepAging, stepped, if_true, reached]
  rfl

/-- The index, the phase and the time state of an update are those of the wrap (R62, R66). -/
theorem update_index (inp : UpdateInputs) (s : State) :
    (update inp s).cck.ms = (clockWrap (countUpdate s)).cck.ms ∧ (update inp s).cck.phase = (clockWrap (countUpdate s)).cck.phase ∧
      (update inp s).cck.timeState = (clockWrap (countUpdate s)).cck.timeState := by
  obtain ⟨ms, phase, timeState⟩ := stepAging_index (clockWrap (countUpdate s))
  have time := update_time inp s
  exact ⟨(congrArg Cck.ms time :).trans ms, (congrArg Cck.phase time :).trans phase,
    (congrArg Cck.timeState time :).trans timeState⟩

theorem update_phase (inp : UpdateInputs) (s : State) : (update inp s).cck.phase = 0 := by
  rw [(update_index inp s).2.1]
  by_cases owns : ownsTime (countUpdate s)
  · rw [clockWrap_of_owns owns]
  · rw [clockWrap_of_counts owns]

theorem update_of_owns (inp : UpdateInputs) {s : State} (owns : ownsTime s) :
    (update inp s).cck.ms = 0 ∧ (update inp s).cck.timeState = .own := by
  obtain ⟨ms, -, timeState⟩ := update_index inp s
  rw [clockWrap_of_owns (by exact owns)] at ms timeState
  exact ⟨ms, timeState⟩

theorem update_of_counts (inp : UpdateInputs) {s : State} (counts : ¬ownsTime s) :
    (update inp s).cck.ms = s.cck.ms + 1 ∧ (update inp s).cck.timeState = s.cck.timeState := by
  obtain ⟨ms, -, timeState⟩ := update_index inp s
  rw [clockWrap_of_counts (by exact counts)] at ms timeState
  exact ⟨ms, timeState⟩

/-- TIME-STEPPED and its age at an update, from those of the age's step (R71). -/
theorem update_steps (inp : UpdateInputs) (s : State) :
    (update inp s).cck.timeStepped = (stepAging (clockWrap (countUpdate s))).cck.timeStepped ∧
      (update inp s).cck.stepAge = (stepAging (clockWrap (countUpdate s))).cck.stepAge ∧
      (update inp s).cck.stepCount = (stepAging (clockWrap (countUpdate s))).cck.stepCount := by
  have time := update_time inp s
  exact ⟨(congrArg Cck.timeStepped time :), (congrArg Cck.stepAge time :), (congrArg Cck.stepCount time :)⟩

theorem update_stepCount (inp : UpdateInputs) (s : State) : (update inp s).cck.stepCount = s.cck.stepCount := by
  have aged (x : State) : (stepAging x).cck.stepCount = x.cck.stepCount := by
    unfold stepAging; dsimp only; repeat' split
    all_goals rfl
  rw [(update_steps inp s).2.2, aged, (clockWrap_steps s).2.2]

theorem update_of_unstepped (inp : UpdateInputs) {s : State} (unstepped : s.cck.timeStepped = false) :
    (update inp s).cck.timeStepped = false ∧ (update inp s).cck.stepAge = s.cck.stepAge := by
  obtain ⟨flag, age, -⟩ := clockWrap_steps s
  obtain ⟨stepped, stepAge, -⟩ := update_steps inp s
  rw [stepAging_of_unstepped (flag.trans unstepped)] at stepped stepAge
  exact ⟨stepped.trans (flag.trans unstepped), stepAge.trans age⟩

theorem update_of_young (inp : UpdateInputs) {s : State} (on : s.cck.timeStepped = true) (young : s.cck.stepAge + 1 < 1000) :
    (update inp s).cck.timeStepped = true ∧ (update inp s).cck.stepAge = s.cck.stepAge + 1 := by
  obtain ⟨flag, age, -⟩ := clockWrap_steps s
  obtain ⟨stepped, stepAge, -⟩ := update_steps inp s
  rw [stepAging_of_young (flag.trans on) (by rw [age]; exact young)] at stepped stepAge
  exact ⟨stepped.trans (flag.trans on), stepAge.trans (by rw [age])⟩

theorem update_of_old (inp : UpdateInputs) {s : State} (on : s.cck.timeStepped = true) (old : 1000 ≤ s.cck.stepAge + 1) :
    (update inp s).cck.timeStepped = false ∧ (update inp s).cck.stepAge = 1000 := by
  obtain ⟨flag, age, -⟩ := clockWrap_steps s
  obtain ⟨stepped, stepAge, -⟩ := update_steps inp s
  rw [stepAging_of_old (flag.trans on) (by rw [age]; exact old)] at stepped stepAge
  exact ⟨stepped, stepAge⟩

/-! ### Ages and filters (R58, R74) -/

theorem causesAt_demands (here : Bool) (s : State) : (causesAt here s).ptb.demands = s.ptb.demands := by
  have lost : (lostUpdate (raiseHalt s)).ptb.demands = s.ptb.demands := by simp [lostUpdate]
  unfold causesAt updateCauses raisePeerLost
  dsimp only
  repeat' split
  all_goals simp [lost]

/-- Nothing of an update but its ages writes what peers have reported. -/
theorem update_entries (inp : UpdateInputs) (s : State) :
    (update inp s).ptb.peers = (ageEntries s).ptb.peers ∧ (update inp s).ptb.demands = (ageEntries s).ptb.demands := by
  simp [update, toServo, withMotion, beforeMotion_eq, afterMotion_eq, decided, queued, ageEntries, causesAt_peers, causesAt_demands]

theorem update_peer (inp : UpdateInputs) (s : State) (st : Station) :
    (update inp s).ptb.peers[st] = { s.ptb.peers[st] with age := min 255 (s.ptb.peers[st].age + 1) } := by
  rw [(update_entries inp s).1]
  simp [ageEntries, vmap_getElem, satInc_eq, Config.maxAge]

theorem update_demandEntry (inp : UpdateInputs) (s : State) (st : Station) :
    (update inp s).ptb.demands[st] = { s.ptb.demands[st] with age := min 255 (s.ptb.demands[st].age + 1) } := by
  rw [(update_entries inp s).2]
  simp [ageEntries, vmap_getElem, satInc_eq, Config.maxAge]

theorem filterStep_of_clear (f : CrewFilter) (more : f.clear + 1 < 40) :
    filterStep false f = { raw := false, present := f.present, clear := f.clear + 1 } := by
  have count : min 40 (f.clear + 1) = f.clear + 1 := Nat.min_eq_right more.le
  simp [filterStep, satInc_eq, Config.crewClear, count, more]

theorem filterStep_of_full (f : CrewFilter) (last : 40 ≤ f.clear + 1) :
    filterStep false f = { raw := false, present := false, clear := 40 } := by
  have count : min 40 (f.clear + 1) = 40 := Nat.min_eq_left last
  simp [filterStep, satInc_eq, Config.crewClear, count]

theorem update_filter (inp : UpdateInputs) (s : State) (i : Fin 4) :
    (update inp s).zmn.filters[i] = filterStep (inp.crew.getLsbD i.val) s.zmn.filters[i] := by
  simp [update_filters, crewUpdate]

/-! ### What CFG's part leaves of a node past STRAPS (R169, R170) -/

theorem startUpdate_run (inp : UpdateInputs) {s : State} (known : s.cfg.startState ≠ .straps) :
    (startUpdate inp s).cfg.startState = .run ↔ s.cfg.startState = .run := by
  rw [startUpdate, if_neg known]
  by_cases polls : storeIdPolls s = true
  · have storeId : s.cfg.startState = .storeId := by simp_all [storeIdPolls]
    unfold pollStore finishErase
    dsimp only
    repeat' split
    all_goals simp [storeId, configFault]
  · simp [pollStore, polls]

theorem sampled_cfg (inp : UpdateInputs) (s : State) :
    (sampled inp s).cfg = (startUpdate inp (stepAging (clockWrap (countUpdate s)))).cfg := by
  simp [sampled]

theorem sampled_identity (inp : UpdateInputs) {s : State} (known : s.cfg.startState ≠ .straps) :
    (sampled inp s).cfg.params = s.cfg.params ∧ (sampled inp s).cfg.role = s.cfg.role := by
  rw [sampled_cfg]
  simpa using startUpdate_role inp (s := stepAging (clockWrap (countUpdate s))) (by simpa using known)

theorem sampled_controlUp (inp : UpdateInputs) {s : State} (known : s.cfg.startState ≠ .straps) :
    controlUp (sampled inp s) = controlUp s := by
  have run : (sampled inp s).cfg.startState = .run ↔ s.cfg.startState = .run := by
    rw [sampled_cfg]
    simpa using startUpdate_run inp (s := stepAging (clockWrap (countUpdate s))) (by simpa using known)
  rw [Bool.eq_iff_iff]
  simp [controlUp, isControl, (sampled_identity inp known).2, run]

theorem known_of_controlUp {s : State} (up : controlUp s = true) : s.cfg.startState ≠ .straps := by
  intro straps
  simp [controlUp, straps] at up

/-! ### The DEMAND of a CONTROL node (R25, R27) -/

/-- What the causes, zones and demand of an update have left, before it forms its field factor and its DEMAND. -/
def settledState (inp : UpdateInputs) (s : State) : State :=
  causesAt (!inp.causesFirst) (evaluated (!inp.zonesFirst) (!inp.demandFirst) (resulted inp s))

/-- An update from that state on. -/
theorem update_eq (inp : UpdateInputs) (s : State) :
    update inp s = startWork (showDemand (settleHold s
      (operationUpdate inp.left (queued inp s.cfg.station.isSome (settledState inp s))))) := by
  rw [settledState, ← afterMotion_eq]
  rfl

theorem statusAt_status (here : Bool) (s : State) :
    (statusAt here s).lnk.status = if here = true ∧ statusDue s = true then some (ownItems s) else s.lnk.status := by
  unfold statusAt
  by_cases due : (here && statusDue s) = true
  · rw [if_pos due, if_pos (by simpa using due)]; rfl
  · rw [if_neg due, if_neg (by simpa using due)]

theorem queueStatus_demand (i : StatusItems) (s : State) : (queueStatus i s).lnk.demand = s.lnk.demand := by
  simp only [queueStatus, Lnk.markRefilled]
  repeat' split
  all_goals rfl

theorem statusAt_demand (here : Bool) (s : State) : (statusAt here s).lnk.demand = s.lnk.demand := by
  unfold statusAt; split
  · exact queueStatus_demand _ s
  · rfl

/-- The state that a STATUS before the profile reports. -/
def openedState (inp : UpdateInputs) (s : State) : State :=
  evaluated inp.zonesFirst inp.demandFirst (clockDecide (clocked inp s))

theorem toServo_eq (inp : UpdateInputs) (s : State) :
    toServo inp s = withMotion (statusAt (s.cfg.station.isSome && inp.statusPoint == .beforeProfile) (openedState inp s)) := rfl

theorem openedState_aside (inp : UpdateInputs) (s : State) :
    KeptAside inp.demandFirst { s with tsc := ageOperation s.tsc } (openedState inp s) :=
  (sampled_aside inp s).trans ((causesAt_aside _ _).trans ((clockDecide_aside _).trans (evaluated_aside _ _ _)))

theorem settledState_aside (inp : UpdateInputs) (s : State) :
    KeptAside (!inp.demandFirst) (statusAt (s.cfg.station.isSome && inp.statusPoint == .beforeProfile) (openedState inp s))
      (settledState inp s) := by
  unfold settledState resulted
  rw [toServo_eq]
  exact (withMotion_aside _).trans ((takeResult_aside _ _).trans ((evaluated_aside _ _ _).trans (causesAt_aside _ _)))

theorem settledState_demand (inp : UpdateInputs) (s : State) : (settledState inp s).lnk.demand = s.lnk.demand := by
  rw [(settledState_aside inp s).demand, statusAt_demand, (openedState_aside inp s).demand]

theorem settledState_cfg (inp : UpdateInputs) (s : State) : (settledState inp s).cfg = (sampled inp s).cfg := by
  simp [settledState, resulted, toServo, withMotion, beforeMotion_eq]

theorem settledState_chan (inp : UpdateInputs) (s : State) : (settledState inp s).chan = s.chan := by
  simp [settledState, resulted, toServo, withMotion, beforeMotion_eq]

theorem controlUp_congr {s t : State} (cfg : t.cfg = s.cfg) : controlUp t = controlUp s := by
  simp only [controlUp, isControl, cfg]

/-- What an update queues in its two slots is what stands there at its end. -/
theorem update_slots (inp : UpdateInputs) (s : State) :
    (update inp s).lnk.status = (queued inp s.cfg.station.isSome (settledState inp s)).lnk.status ∧
      (update inp s).lnk.demand = (queued inp s.cfg.station.isSome (settledState inp s)).lnk.demand := by
  generalize made : queued inp s.cfg.station.isSome (settledState inp s) = x
  have held : KeptAside false (operationUpdate inp.left x) (settleHold s (operationUpdate inp.left x)) := settleHold_aside s _
  have link : (update inp s).lnk = (settleHold s (operationUpdate inp.left x)).lnk := by
    rw [update_eq, made]; simp
  have beside := operationUpdate_besideFifo inp.left x
  rw [link]
  exact ⟨held.status.trans (congrArg Lnk.status beside :), held.demand.trans (congrArg Lnk.demand beside :)⟩

theorem queued_demand (inp : UpdateInputs) (known : Bool) (s : State) :
    ∃ x : State, x.cfg = s.cfg ∧ x.chan = s.chan ∧ x.lnk.demand = s.lnk.demand ∧
      (queued inp known s).lnk.demand = (queueUpdateDemand inp.levers x).lnk.demand ∧
      (queued inp known s).chan = (queueUpdateDemand inp.levers x).chan := by
  refine ⟨updateFactor (statusAt (known && inp.statusPoint == .beforeFactor) s), by simp, by simp, ?_, ?_, by simp [queued]⟩
  · simp [statusAt_demand]
  · simp [queued, statusAt_demand]

theorem queueUpdateDemand_of_up (levers : Vector Int 4) {s : State} (up : controlUp s = true) :
    queueUpdateDemand levers s =
      queueDemand (demandItems levers s) { s with chan := { s.chan with seq := s.chan.seq + 1 } } := by
  simp only [queueUpdateDemand, up, if_true]
  rfl

theorem queueUpdateDemand_of_down (levers : Vector Int 4) {s : State} (down : controlUp s = false) :
    queueUpdateDemand levers s = s := by simp [queueUpdateDemand, down]

/-- The state that forms the DEMAND of an update. -/
theorem update_demandFrom (inp : UpdateInputs) (s : State) :
    ∃ x : State, x.cfg = (sampled inp s).cfg ∧ x.chan = s.chan ∧ x.lnk.demand = s.lnk.demand ∧
      (update inp s).lnk.demand = (queueUpdateDemand inp.levers x).lnk.demand ∧
      (update inp s).chan = (queueUpdateDemand inp.levers x).chan := by
  obtain ⟨x, cfg, chan, demand, slot, count⟩ := queued_demand inp s.cfg.station.isSome (settledState inp s)
  refine ⟨x, cfg.trans (settledState_cfg inp s), chan.trans (settledState_chan inp s),
    demand.trans (settledState_demand inp s), (update_slots inp s).2.trans slot, ?_⟩
  rw [← count, update_eq]
  simp

theorem queueUpdateDemand_wheels (levers : Vector Int 4) (s : State) : (queueUpdateDemand levers s).chan.wheels = s.chan.wheels := by
  unfold queueUpdateDemand; split
  · simp
  · rfl

theorem update_wheels (inp : UpdateInputs) (s : State) : (update inp s).chan.wheels = s.chan.wheels := by
  obtain ⟨x, -, chan, -, -, after⟩ := update_demandFrom inp s
  rw [after, queueUpdateDemand_wheels, chan]

theorem update_of_controlDown (inp : UpdateInputs) {s : State} (down : controlUp s = false)
    (known : s.cfg.startState ≠ .straps) :
    (update inp s).chan.seq = s.chan.seq ∧ (update inp s).lnk.demand = s.lnk.demand := by
  obtain ⟨x, cfg, chan, demand, slot, after⟩ := update_demandFrom inp s
  have off : controlUp x = false := (controlUp_congr cfg).trans ((sampled_controlUp inp known).trans down)
  rw [slot, after, queueUpdateDemand_of_down _ off]
  exact ⟨congrArg Chan.seq chan, demand⟩

theorem channelKind_congr {s t : State} (params : t.cfg.params = s.cfg.params) (ch : Fin 4) :
    channelKind t ch = channelKind s ch := by
  simp only [channelKind, params]

theorem demandItems_value (levers : Vector Int 4) (s : State) (ch : Fin 4) :
    (channelKind s ch = .wheel → (demandItems levers s).values[ch] = BitVec.ofInt 16 s.chan.wheels[ch]) ∧
      (channelKind s ch = .lever →
        (demandItems levers s).values[ch] = BitVec.ofInt 16 (max (-2048) (min 2047 levers[ch]))) := by
  have lever := clampInt_eq (a := -2048) (b := 2047) (by decide) levers[ch]
  constructor <;> intro kind <;> simp [demandItems, kind, clampLever]
  exact congrArg _ lever

theorem update_of_controlUp (inp : UpdateInputs) {s : State} (up : controlUp s = true) :
    (update inp s).chan.seq = s.chan.seq + 1 ∧
      ∃ d, (update inp s).lnk.demand = some d ∧ d.seq = s.chan.seq + 1 ∧
        ∀ ch : Fin 4, d.kinds[ch] = channelKind s ch ∧
          (channelKind s ch = .wheel → d.values[ch] = BitVec.ofInt 16 s.chan.wheels[ch]) ∧
          (channelKind s ch = .lever → d.values[ch] = BitVec.ofInt 16 (max (-2048) (min 2047 inp.levers[ch]))) := by
  have known := known_of_controlUp up
  obtain ⟨x, cfg, chan, -, slot, after⟩ := update_demandFrom inp s
  have on : controlUp x = true := (controlUp_congr cfg).trans ((sampled_controlUp inp known).trans up)
  have kind (ch : Fin 4) : channelKind x ch = channelKind s ch :=
    channelKind_congr ((congrArg Cfg.params cfg).trans (sampled_identity inp known).1) ch
  rw [slot, after, queueUpdateDemand_of_up _ on]
  refine ⟨by simp [chan], _, rfl, by simp [demandItems, chan], fun ch => ⟨by simp [demandItems, kind], ?_⟩⟩
  rw [← kind ch, ← chan]
  exact demandItems_value inp.levers x ch

end Sys2Proof.Machine
end

