-- ==== Sys2Proof/Proofs/UpdateReports.lean ====
section
/-! SUPPORT. The STATUS of an update: which state it reports, and what of it the update leaves as reported (R36, R165). -/

namespace Sys2Proof.Machine

open Sys2Proof.Safety

/-! ### The state that is reported -/

/-- What queues last of an update: its DEMAND, after the STATUS before the field factor. -/
def lastState (inp : UpdateInputs) (s : State) : State :=
  queueUpdateDemand inp.levers
    (updateFactor (statusAt (s.cfg.station.isSome && inp.statusPoint == .beforeFactor) (settledState inp s)))

/-- The state that the STATUS of an update reports (R36, log 6). -/
def reportedState (inp : UpdateInputs) (s : State) : State :=
  match inp.statusPoint with
  | .beforeProfile => openedState inp s
  | .beforeFactor => settledState inp s
  | .last => lastState inp s

theorem reportedState_first {inp : UpdateInputs} (point : inp.statusPoint = .beforeProfile) (s : State) :
    reportedState inp s = openedState inp s := by rw [reportedState, point]

theorem reportedState_middle {inp : UpdateInputs} (point : inp.statusPoint = .beforeFactor) (s : State) :
    reportedState inp s = settledState inp s := by rw [reportedState, point]

theorem reportedState_last {inp : UpdateInputs} (point : inp.statusPoint = .last) (s : State) :
    reportedState inp s = lastState inp s := by rw [reportedState, point]

theorem queued_eq (inp : UpdateInputs) (s : State) : queued inp s.cfg.station.isSome (settledState inp s) =
    ageEntries (statusAt (s.cfg.station.isSome && inp.statusPoint == .last) (lastState inp s)) := rfl

theorem queueUpdateDemand_status (levers : Vector Int 4) (s : State) : (queueUpdateDemand levers s).lnk.status = s.lnk.status := by
  unfold queueUpdateDemand; split
  · exact queueDemand_status _ _
  · rfl

/-- The slot of STATUS through the three places where one may be queued. -/
theorem update_statusThrough (inp : UpdateInputs) (s : State) :
    (update inp s).lnk.status =
        (statusAt (s.cfg.station.isSome && inp.statusPoint == .last) (lastState inp s)).lnk.status ∧
      (lastState inp s).lnk.status =
        (statusAt (s.cfg.station.isSome && inp.statusPoint == .beforeFactor) (settledState inp s)).lnk.status ∧
      (settledState inp s).lnk.status =
        (statusAt (s.cfg.station.isSome && inp.statusPoint == .beforeProfile) (openedState inp s)).lnk.status ∧
      (openedState inp s).lnk.status = s.lnk.status := by
  refine ⟨?_, ?_, (settledState_aside inp s).status, (openedState_aside inp s).status⟩
  · rw [(update_slots inp s).1, queued_eq]; rfl
  · rw [lastState, queueUpdateDemand_status]; rfl

theorem update_status (inp : UpdateInputs) {s : State} (known : s.cfg.station.isSome = true) :
    (update inp s).lnk.status =
      if statusDue (reportedState inp s) = true then some (ownItems (reportedState inp s)) else s.lnk.status := by
  obtain ⟨last, middle, first, before⟩ := update_statusThrough inp s
  simp only [statusAt_status, known, Bool.true_and, beq_iff_eq] at last middle first
  cases point : inp.statusPoint <;> simp [point] at last middle first
  · rw [reportedState_first point, last, middle, first, before]
  · rw [reportedState_middle point, last, middle, first, before]
  · rw [reportedState_last point, last, middle, first, before]

theorem update_status_of_unknown (inp : UpdateInputs) {s : State} (unknown : s.cfg.station = none) :
    (update inp s).lnk.status = s.lnk.status := by
  obtain ⟨last, middle, first, before⟩ := update_statusThrough inp s
  simp [statusAt_status, unknown] at last middle first
  rw [last, middle, first, before]

/-! ### What all the states of an update that may be reported agree in -/

theorem openedState_frame (inp : UpdateInputs) (s : State) :
    (openedState inp s).cfg = (sampled inp s).cfg ∧ (openedState inp s).cck = (update inp s).cck ∧
      (openedState inp s).zmn.filters = (update inp s).zmn.filters := by
  refine ⟨by simp [openedState, clocked], by simp [openedState, update_cck_eq], ?_⟩
  simp [openedState, clocked, evaluated_filters, update_filters, sampled, crewUpdate]

theorem settledState_frame (inp : UpdateInputs) (s : State) :
    (settledState inp s).cfg = (sampled inp s).cfg ∧ (settledState inp s).cck = (update inp s).cck ∧
      (settledState inp s).zmn = (update inp s).zmn := by
  refine ⟨settledState_cfg inp s, ?_, ?_⟩ <;> simp [update_eq]

theorem lastState_frame (inp : UpdateInputs) (s : State) :
    (lastState inp s).cfg = (sampled inp s).cfg ∧ (lastState inp s).cck = (update inp s).cck ∧
      (lastState inp s).zmn = (update inp s).zmn := by
  simpa [lastState] using settledState_frame inp s

theorem reportedState_frame (inp : UpdateInputs) (s : State) :
    (reportedState inp s).cfg = (update inp s).cfg ∧ (reportedState inp s).cck = (update inp s).cck ∧
      (reportedState inp s).zmn.filters = (update inp s).zmn.filters := by
  rw [update_cfg]
  cases point : inp.statusPoint
  · rw [reportedState_first point]; exact openedState_frame inp s
  · obtain ⟨cfg, cck, zmn⟩ := settledState_frame inp s
    rw [reportedState_middle point]; exact ⟨cfg, cck, by rw [zmn]⟩
  · obtain ⟨cfg, cck, zmn⟩ := lastState_frame inp s
    rw [reportedState_last point]; exact ⟨cfg, cck, by rw [zmn]⟩

theorem reportedState_wakeRefused (inp : UpdateInputs) (s : State) :
    (reportedState inp s).stc.wakeRefused = s.stc.wakeRefused := by
  have opened : (openedState inp s).stc.wakeRefused = s.stc.wakeRefused := (openedState_aside inp s).wakeRefused
  have settled : (settledState inp s).stc.wakeRefused = s.stc.wakeRefused := by
    rw [(settledState_aside inp s).wakeRefused, ← opened]; simp
  cases point : inp.statusPoint
  · rw [reportedState_first point, opened]
  · rw [reportedState_middle point, settled]
  · rw [reportedState_last point, ← settled]; simp [lastState]

/-- A STATUS is due by the time that the update leaves (R165). -/
theorem reportedState_due (inp : UpdateInputs) {s : State} (known : s.cfg.startState ≠ .straps) {n : Station}
    (station : s.cfg.station = some n) :
    statusDue (reportedState inp s) = true ↔ (update inp s).cck.ms.toNat % 4 = n.val % 4 := by
  obtain ⟨cfg, cck, -⟩ := reportedState_frame inp s
  have own : (reportedState inp s).cfg.station = some n := by rw [cfg, update_cfg, sampled_station inp known, station]
  simp [statusDue, cck, ownStation, own]

/-! ### The field factor (R35) -/

theorem settledState_factor (inp : UpdateInputs) (s : State) :
    (openedState inp s).mpr.factor = s.mpr.factor ∧ (settledState inp s).mpr.factor = s.mpr.factor := by
  have opened : (openedState inp s).mpr.factor = s.mpr.factor := (openedState_aside inp s).factor
  refine ⟨opened, ?_⟩
  rw [(settledState_aside inp s).factor, ← opened]; simp

/-- What the hold of an update leaves alone of the state that its reports leave. -/
theorem update_settled (inp : UpdateInputs) (s : State) :
    (update inp s).mpr.factor = (lastState inp s).mpr.factor ∧ (update inp s).dmr.stale = (settledState inp s).dmr.stale := by
  have held := settleHold_aside (demanded := false) s
    (operationUpdate inp.left (queued inp s.cfg.station.isSome (settledState inp s)))
  constructor
  · have kept := held.factor
    rw [operationUpdate_mpr, queued_eq] at kept
    rw [update_eq, queued_eq]
    simpa using kept
  · have kept := held.stale rfl
    rw [update_eq]
    simpa [showDemand] using kept

theorem reportedState_factor_of_last {inp : UpdateInputs} (last : inp.statusPoint = .last) (s : State) :
    (reportedState inp s).mpr.factor = (update inp s).mpr.factor := by
  rw [reportedState_last last, (update_settled inp s).1]

theorem reportedState_factor_of_other {inp : UpdateInputs} (other : inp.statusPoint ≠ .last) (s : State) :
    (reportedState inp s).mpr.factor = s.mpr.factor := by
  obtain ⟨opened, settled⟩ := settledState_factor inp s
  cases point : inp.statusPoint
  · rw [reportedState_first point, opened]
  · rw [reportedState_middle point, settled]
  · exact absurd point other

/-! ### Zones and demand (R27, R77) -/

theorem reportedState_zones {inp : UpdateInputs} (later : inp.statusPoint ≠ .beforeProfile) (s : State) :
    (reportedState inp s).zmn = (update inp s).zmn ∧ (reportedState inp s).dmr.stale = (update inp s).dmr.stale := by
  rw [(update_settled inp s).2]
  cases point : inp.statusPoint
  · exact absurd point later
  · rw [reportedState_middle point]; exact ⟨(settledState_frame inp s).2.2, rfl⟩
  · rw [reportedState_last point]; exact ⟨(lastState_frame inp s).2.2, by simp [lastState]⟩

theorem openedState_zones_of_first {inp : UpdateInputs} (zones : inp.zonesFirst = true) (s : State) :
    (openedState inp s).zmn = (update inp s).zmn := by
  rw [← (settledState_frame inp s).2.2, settledState, zones]
  simp [resulted, toServo_eq, withMotion, evaluated_zmn_of_later]

theorem openedState_zones_of_later {inp : UpdateInputs} (zones : inp.zonesFirst = false) (s : State) :
    (openedState inp s).zmn.active = s.zmn.active := by
  rw [openedState, zones]
  simp [evaluated_zmn_of_later, clocked, sampled, crewUpdate]

theorem openedState_stale_of_first {inp : UpdateInputs} (first : inp.demandFirst = true) (s : State) :
    (openedState inp s).dmr.stale = (update inp s).dmr.stale := by
  have kept := (settledState_aside inp s).stale (by simp [first])
  rw [(update_settled inp s).2, kept]
  simp

theorem openedState_stale_of_later {inp : UpdateInputs} (later : inp.demandFirst = false) (s : State) :
    (openedState inp s).dmr.stale = s.dmr.stale := (openedState_aside inp s).stale later

/-! ### Motion, homing, stops and jobs -/

/-- The parts of an update in which no hold begins (R88). -/
theorem update_eq_of_unbegun {inp : UpdateInputs} {s : State}
    (unbegun : s.stc.hold ≠ none ∨ (update inp s).stc.hold = none) :
    update inp s = startWork (showDemand (operationUpdate inp.left (queued inp s.cfg.station.isSome (settledState inp s)))) := by
  rw [update_eq, settleHold_of_unbegun (by simpa [update_eq] using unbegun)]

/-- An update in which no hold begins leaves motion, homing and stops as they are before its field factor. -/
theorem update_motion {inp : UpdateInputs} {s : State} (unbegun : s.stc.hold ≠ none ∨ (update inp s).stc.hold = none) :
    (update inp s).mpr.p = (settledState inp s).mpr.p ∧ (update inp s).mpr.v = (settledState inp s).mpr.v ∧
      (update inp s).hom = (settledState inp s).hom ∧ (update inp s).stc = (settledState inp s).stc := by
  rw [update_eq_of_unbegun unbegun]
  simp [operationUpdate_mpr, queued, updateFactor]

/-- While its operation is in time, no part of an update before its end makes it late (R127). -/
theorem settledState_inTime (inp : UpdateInputs) {s : State} (inTime : operationLate (ageOperation s.tsc) = false) :
    operationLate (settledState inp s).tsc = false := by
  have opened : operationLate (openedState inp s).tsc = true → operationLate (ageOperation s.tsc) = true :=
    (openedState_aside inp s).late
  have settled : operationLate (settledState inp s).tsc = true → operationLate (openedState inp s).tsc = true := by
    simpa using (settledState_aside inp s).late
  exact Bool.eq_false_iff.mpr fun late => absurd (opened (settled late)) (by simp [inTime])

theorem update_job {inp : UpdateInputs} {s : State} (unbegun : s.stc.hold ≠ none ∨ (update inp s).stc.hold = none)
    (inTime : operationLate (ageOperation s.tsc) = false) : (update inp s).tks = (settledState inp s).tks := by
  have kept : operationUpdate inp.left (queued inp s.cfg.station.isSome (settledState inp s)) =
      queued inp s.cfg.station.isSome (settledState inp s) := by
    simp [operationUpdate, settledState_inTime inp inTime]
  rw [update_eq_of_unbegun unbegun, kept]
  simp

theorem lastState_motion (inp : UpdateInputs) (s : State) :
    (lastState inp s).mpr.p = (settledState inp s).mpr.p ∧ (lastState inp s).mpr.v = (settledState inp s).mpr.v ∧
      (lastState inp s).hom = (settledState inp s).hom ∧ (lastState inp s).stc = (settledState inp s).stc ∧
      (lastState inp s).tks = (settledState inp s).tks := by
  simp [lastState, updateFactor]

/-- After its profile, an update in which no hold begins reports the motion, the homing and the stops that it leaves. -/
theorem reportedState_motion {inp : UpdateInputs} {s : State} (later : inp.statusPoint ≠ .beforeProfile)
    (unbegun : s.stc.hold ≠ none ∨ (update inp s).stc.hold = none) :
    (reportedState inp s).mpr.p = (update inp s).mpr.p ∧ (reportedState inp s).mpr.v = (update inp s).mpr.v ∧
      (reportedState inp s).hom = (update inp s).hom ∧ (reportedState inp s).stc = (update inp s).stc := by
  obtain ⟨p, v, hom, stc⟩ := update_motion unbegun
  rw [p, v, hom, stc]
  cases point : inp.statusPoint
  · exact absurd point later
  · rw [reportedState_middle point]; exact ⟨rfl, rfl, rfl, rfl⟩
  · obtain ⟨p, v, hom, stc, -⟩ := lastState_motion inp s
    rw [reportedState_last point]; exact ⟨p, v, hom, stc⟩

theorem reportedState_job {inp : UpdateInputs} {s : State} (later : inp.statusPoint ≠ .beforeProfile)
    (unbegun : s.stc.hold ≠ none ∨ (update inp s).stc.hold = none) (inTime : operationLate (ageOperation s.tsc) = false) :
    (reportedState inp s).tks = (update inp s).tks := by
  rw [update_job unbegun inTime]
  cases point : inp.statusPoint
  · exact absurd point later
  · rw [reportedState_middle point]
  · obtain ⟨-, -, -, -, tks⟩ := lastState_motion inp s
    rw [reportedState_last point, tks]

/-- Where the causes come later, a STATUS before the profile reports the state in which the update began. -/
theorem openedState_of_causesLater {inp : UpdateInputs} (later : inp.causesFirst = false) (s : State) :
    (openedState inp s).mpr = s.mpr ∧ (openedState inp s).hom = s.hom ∧ (openedState inp s).tks = s.tks ∧
      (openedState inp s).stc.drive = s.stc.drive ∧ (openedState inp s).stc.hold = s.stc.hold := by
  simp [openedState, clocked, causesAt, later, sampled, readHalt]

/-! ### The items -/

theorem reportedState_identity (inp : UpdateInputs) {s : State} (known : s.cfg.startState ≠ .straps) :
    (ownItems (reportedState inp s)).role = s.cfg.role.getD .axis ∧ (ownItems (reportedState inp s)).kind = ownKind s := by
  obtain ⟨params, role⟩ := sampled_identity inp known
  have cfg : (reportedState inp s).cfg = (sampled inp s).cfg := (reportedState_frame inp s).1.trans (update_cfg inp s)
  exact ⟨by simp [ownItems, cfg, role], by simp [ownItems, ownKind, isAxis, cfg, params, role]⟩

theorem isHomed_eq (s : State) : isHomed s = decide (s.hom.state = .homed) := by
  rw [Bool.eq_iff_iff]
  simp [isHomed]

theorem crewBits_congr {s t : State} (filters : t.zmn.filters = s.zmn.filters) : crewBits t = crewBits s := by
  simp only [crewBits, filters]

theorem reportedState_stamp (inp : UpdateInputs) (s : State) :
    (ownItems (reportedState inp s)).stamp = { ms16 := (update inp s).cck.ms.setWidth 16, phase := 0 } := by
  have cck := (reportedState_frame inp s).2.1
  simp [ownItems, now, CraneTime.stamp, low16, cck, update_phase]

/-! ### The settlement -/

/-- Settles O23: the clock by the wrap and the age of a step, the entries and the DEMAND by the part that writes each, the STATUS
by the state at its place in the update and what the later parts leave alone of it. -/
theorem updateClockAgesFiltersAndDemand : Obligations.UpdateClockAgesFiltersAndDemand := by
  unfold Obligations.UpdateClockAgesFiltersAndDemand
  refine ⟨fun inp s => ⟨_, rfl, ?_⟩, fun inp s => ⟨_, rfl, ?_⟩,
    fun inp s known => ⟨_, rfl, update_status_of_unknown inp, fun n station => ?_⟩⟩
  · exact ⟨update_phase inp s, update_stepCount inp s, update_of_owns inp, update_of_counts inp, update_of_unstepped inp,
      update_of_young inp, update_of_old inp⟩
  · refine ⟨update_peer inp s, update_demandEntry inp s, fun i => ?_, update_wheels inp s, by simp [update_eq],
      update_of_controlDown inp, update_of_controlUp inp⟩
    rw [update_filter]
    exact ⟨fun present => by rw [present]; rfl, fun clear more => by rw [clear, filterStep_of_clear _ more],
      fun clear last => by rw [clear, filterStep_of_full _ last]⟩
  · have due := reportedState_due inp known station
    have status := update_status inp (s := s) (by simp [station])
    refine ⟨fun other => by rw [status, if_neg (mt due.mp other)], fun now => ⟨_, by rw [status, if_pos (due.mpr now)], ?_⟩⟩
    obtain ⟨role, kind⟩ := reportedState_identity inp known
    obtain ⟨cfg, cck, filters⟩ := reportedState_frame inp s
    refine ⟨role, reportedState_wakeRefused inp s, crewBits_congr filters, congrArg Cck.timeState cck,
      congrArg Cck.timeStepped cck, congrArg Cck.syncLost cck, reportedState_stamp inp s, kind,
      congrArg Cfg.startState cfg, congrArg Cfg.faultReason cfg,
      fun last => congrArg (BitVec.ofNat 16) (reportedState_factor_of_last last s),
      fun other => congrArg (BitVec.ofNat 16) (reportedState_factor_of_other other s), fun later => ?_,
      fun later unbegun => ?_, fun first => ?_⟩
    · obtain ⟨zones, stale⟩ := reportedState_zones later s
      exact ⟨congrArg Zmn.active zones, stale⟩
    · obtain ⟨p, v, hom, stc⟩ := reportedState_motion later unbegun
      refine ⟨congrArg (· / 256) p, by rw [← hom]; exact isHomed_eq _, v, congrArg Stc.drive stc, congrArg Hom.state hom,
        congrArg Hom.outcome hom, congrArg Stc.hold stc, fun inTime => ?_⟩
      have tks := reportedState_job later unbegun inTime
      exact ⟨congrArg Tks.job tks, congrArg Tks.takeNumber tks, congrArg Tks.outcome tks⟩
    · rw [reportedState_first first]
      refine ⟨fun zones => congrArg Zmn.active (openedState_zones_of_first zones s),
        fun zones => openedState_zones_of_later zones s, fun demand => openedState_stale_of_first demand s,
        fun demand => openedState_stale_of_later demand s, fun causes => ?_⟩
      obtain ⟨mpr, hom, tks, drive, hold⟩ := openedState_of_causesLater causes s
      simp [ownItems, position, isHomed_eq, mpr, hom, tks, drive, hold]

end Sys2Proof.Machine
end

