-- ==== Sys2Proof/Proofs/Zones.lean ====
section
/-! SUPPORT. The evaluation of one zone, and what the evaluation of all of them leaves (R75 to R78). -/

namespace Sys2Proof.Machine

/-! ### The entry that a test reads (R56, R75, R76) -/

section
variable {s : State} {st : Station}

theorem peerEntry_of_own (own : isOwn st s = true) :
    peerEntry s st = { items := some (ownItems s), age := 0, offset := 0, offsetValid := true } := if_pos own

theorem peerEntry_of_other (other : isOwn st s = false) : peerEntry s st = s.ptb.peers[st] := if_neg (by simp [other])

theorem peerFresh_of_own (own : isOwn st s = true) : peerFresh s st = true := by
  rw [peerFresh, peerEntry_of_own own]; rfl

theorem peerFresh_of_young (other : isOwn st s = false) (young : s.ptb.peers[st].age ≤ 12) : peerFresh s st = true := by
  rw [peerFresh, peerEntry_of_other other]
  exact decide_eq_true young

theorem peerFresh_of_old (other : isOwn st s = false) (old : 12 < s.ptb.peers[st].age) : peerFresh s st = false := by
  rw [peerFresh, peerEntry_of_other other]
  exact decide_eq_false (Nat.not_le.mpr old)

end

/-! ### The tests (R75, R76) -/

section
variable {s : State} {n : Nat} {items : StatusItems}

theorem crewTest_of_own (input : Nat) (own : isOwn (stationOf n) s = true) :
    crewTest s n input = (s.zmn.filters[Fin.ofNat 4 input].present, .live) := by
  simp [crewTest, own]

theorem crewTest_of_old (input : Nat) (other : isOwn (stationOf n) s = false)
    (old : 12 < s.ptb.peers[stationOf n].age) : crewTest s n input = (true, .stale) := by
  simp [crewTest, other, peerFresh_of_old other old]

theorem crewTest_of_heard (input : Nat) (other : isOwn (stationOf n) s = false)
    (young : s.ptb.peers[stationOf n].age ≤ 12) (heard : s.ptb.peers[stationOf n].items = some items) :
    crewTest s n input = (items.crew.getLsbD (Fin.ofNat 4 input).val, .live) := by
  simp only [crewTest, other, peerFresh_of_young other young, peerEntry_of_other other, heard]
  rfl

/-- The own position is valid on a homed axis (R17, R36). -/
theorem rangeTest_of_own (lo hi : Int) (own : isOwn (stationOf n) s = true) :
    rangeTest s n lo hi =
      if isHomed s = true then (if lo ≤ s.mpr.p / 256 ∧ s.mpr.p / 256 ≤ hi then .inside else .outside) else .invalid := by
  simp only [rangeTest, peerFresh_of_own own, peerEntry_of_own own]
  rfl

theorem rangeTest_of_old (lo hi : Int) (other : isOwn (stationOf n) s = false)
    (old : 12 < s.ptb.peers[stationOf n].age) : rangeTest s n lo hi = .stale := by
  simp [rangeTest, peerFresh_of_old other old]

theorem rangeTest_of_heard (lo hi : Int) (other : isOwn (stationOf n) s = false)
    (young : s.ptb.peers[stationOf n].age ≤ 12) (heard : s.ptb.peers[stationOf n].items = some items) :
    rangeTest s n lo hi =
      if items.posValid then (if lo ≤ items.position ∧ items.position ≤ hi then .inside else .outside) else .invalid := by
  simp only [rangeTest, peerFresh_of_young other young, peerEntry_of_other other, heard]
  rfl

end

theorem RangeFinding.passes_iff (f : RangeFinding) : f.passes = true ↔ f ≠ .outside := by
  cases f <;> simp [RangeFinding.passes]

/-- A zone is active when crew are present and no range test finds its axis outside (R77). -/
theorem evaluateZone_active_iff (s : State) (z : ZoneEntry) :
    (evaluateZone s z).active = true ↔ (evaluateZone s z).crew = true ∧ (evaluateZone s z).axisA ≠ .outside ∧
      (evaluateZone s z).axisB ≠ some .outside := by
  by_cases second : z.bPresent = 1
  · simp [evaluateZone, second, RangeFinding.passes_iff, and_assoc]
  · simp [evaluateZone, second, RangeFinding.passes_iff]

/-! ### What an evaluation reads -/

section
variable {s t : State}

theorem isOwn_of_station (station : t.cfg.station = s.cfg.station) (st : Station) : isOwn st t = isOwn st s := by
  rw [isOwn, isOwn, station]

theorem crewTest_congr (station : t.cfg.station = s.cfg.station) (filters : t.zmn.filters = s.zmn.filters)
    (peers : t.ptb.peers = s.ptb.peers) (n input : Nat) : crewTest t n input = crewTest s n input := by
  have own := isOwn_of_station station (stationOf n)
  cases foreign : isOwn (stationOf n) s
  · simp only [crewTest, own, foreign, peerFresh, peerEntry_of_other foreign, peerEntry_of_other (own.trans foreign), peers,
      Bool.false_eq_true, if_false]
  · rw [crewTest_of_own input foreign, crewTest_of_own input (own.trans foreign), filters]

theorem rangeTest_congr (station : t.cfg.station = s.cfg.station) (peers : t.ptb.peers = s.ptb.peers) {n : Nat}
    (placed : isOwn (stationOf n) s = false ∨ t.mpr.p = s.mpr.p ∧ t.hom.state = s.hom.state) (lo hi : Int) :
    rangeTest t n lo hi = rangeTest s n lo hi := by
  have own := isOwn_of_station station (stationOf n)
  cases foreign : isOwn (stationOf n) s
  · simp only [rangeTest, peerFresh, peerEntry_of_other foreign, peerEntry_of_other (own.trans foreign), peers]
  · obtain ⟨p, home⟩ := placed.resolve_left (by simp [foreign])
    rw [rangeTest_of_own lo hi foreign, rangeTest_of_own lo hi (own.trans foreign), isHomed, isHomed, p, home]

/-- A zone whose axes are other stations is evaluated without the own position. -/
def zoneAbroad (s : State) (z : ZoneEntry) : Prop :=
  isOwn (stationOf z.aStation) s = false ∧ (z.bPresent = 1 → isOwn (stationOf z.bStation) s = false)

theorem evaluateZone_congr (station : t.cfg.station = s.cfg.station) (filters : t.zmn.filters = s.zmn.filters)
    (peers : t.ptb.peers = s.ptb.peers) {z : ZoneEntry}
    (placed : zoneAbroad s z ∨ t.mpr.p = s.mpr.p ∧ t.hom.state = s.hom.state) : evaluateZone t z = evaluateZone s z := by
  have axisA := rangeTest_congr station peers (placed.imp_left And.left) z.aLo z.aHi
  have axisB : (if z.bPresent = 1 then some (rangeTest t z.bStation z.bLo z.bHi) else none) =
      if z.bPresent = 1 then some (rangeTest s z.bStation z.bLo z.bHi) else none := by
    by_cases second : z.bPresent = 1
    · rw [if_pos second, if_pos second, rangeTest_congr station peers (placed.imp_left fun abroad => abroad.2 second)]
    · rw [if_neg second, if_neg second]
  simp only [evaluateZone, crewTest_congr station filters peers, axisA, axisB]

theorem memberZones_congr (params : t.cfg.params = s.cfg.params) (station : t.cfg.station = s.cfg.station) :
    memberZones t = memberZones s := by
  simp only [memberZones, namesOwn, params, station]

end

theorem mem_memberZones (s : State) (z : ZoneEntry) :
    z ∈ memberZones s ↔ ∃ b, s.cfg.params = some b ∧ z ∈ b.zones ∧ namesOwn z.members s = true := by
  unfold memberZones
  cases s.cfg.params <;> simp

/-! ### The evaluation of all zones (R77, R78) -/

/-- The zones of the node found active. -/
def activeZones (s : State) : List ZoneEntry := (memberZones s).filter fun z => (evaluateZone s z).active

/-- The numbers of zones as a set. -/
def zoneSet (zs : List ZoneEntry) : BitVec 8 := zs.foldl (fun m z => m ||| BitVec.ofNat 8 (2 ^ (z.number - 1))) 0

theorem zoneUpdate_of_up {s : State} (up : axisUp s = true ∨ controlUp s = true) :
    zoneUpdate s = { s with zmn := { s.zmn with
      active := zoneSet (activeZones s)
      records := Vector.ofFn fun i : Fin 8 => ((memberZones s).find? fun z => z.number == i.val + 1).map (evaluateZone s)
      memberCap := memberCapOf (ownVMax s) (activeZones s) } } := by
  have found : (((memberZones s).map fun z => (z, evaluateZone s z)).filter fun x => x.2.active).map (·.1) = activeZones s := by
    simp [activeZones, List.filter_map, Function.comp_def]
  have record (n : Nat) : (((memberZones s).map fun z => (z, evaluateZone s z)).find? fun x => x.1.number == n).map (·.2) =
      ((memberZones s).find? fun z => z.number == n).map (evaluateZone s) := by
    simp [List.find?_map, Function.comp_def]
  rw [zoneUpdate, if_pos (by simpa using up)]
  simp only [found, record, zoneSet]

theorem zoneUpdate_of_down {s : State} (axis : axisUp s = false) (control : controlUp s = false) : zoneUpdate s = s := by
  simp [zoneUpdate, axis, control]

theorem getLsbD_zoneSet {n : Nat} (place : n < 8) (zs : List ZoneEntry) :
    (zoneSet zs).getLsbD n = true ↔ ∃ z ∈ zs, z.number - 1 = n := by
  have joins (l : List ZoneEntry) : ∀ m : BitVec 8,
      (l.foldl (fun m z => m ||| BitVec.ofNat 8 (2 ^ (z.number - 1))) m).getLsbD n = true ↔
        m.getLsbD n = true ∨ ∃ z ∈ l, z.number - 1 = n := by
    induction l with
    | nil => simp
    | cons z l ih =>
      intro m
      have bit : (BitVec.ofNat 8 (2 ^ (z.number - 1))).getLsbD n = true ↔ z.number - 1 = n := by
        rw [BitVec.getLsbD_ofNat, Nat.testBit_two_pow]
        simp [place]
      rw [List.foldl_cons, ih, BitVec.getLsbD_or, Bool.or_eq_true, bit, or_assoc]
      simp
  simpa [zoneSet] using joins zs 0

theorem mem_activeZones {s : State} {z : ZoneEntry} :
    z ∈ activeZones s ↔ z ∈ memberZones s ∧ (evaluateZone s z).active = true := List.mem_filter

section
variable {s : State} (up : axisUp s = true ∨ controlUp s = true) (numbered : ∀ z ∈ memberZones s, 1 ≤ z.number ∧ z.number ≤ 8)
include up numbered

theorem zoneUpdate_active {n : Nat} (place : n < 8) :
    (zoneUpdate s).zmn.active.getLsbD n = true ↔ ∃ z ∈ activeZones s, z.number = n + 1 := by
  rw [zoneUpdate_of_up up, getLsbD_zoneSet place]
  refine exists_congr fun z => and_congr_right fun mem => ?_
  have first := (numbered z (mem_activeZones.mp mem).1).1
  omega

/-- A number that no zone of the node has is left without a record. -/
theorem zoneUpdate_of_unnumbered {n : Fin 8} (none : ∀ z ∈ memberZones s, z.number ≠ n.val + 1) :
    (zoneUpdate s).zmn.records[n] = Option.none ∧ (zoneUpdate s).zmn.active.getLsbD n.val = false := by
  constructor
  · simpa [zoneUpdate_of_up up] using none
  · rw [← Bool.not_eq_true, zoneUpdate_active up numbered n.isLt]
    rintro ⟨z, mem, number⟩
    exact none z (mem_activeZones.mp mem).1 number

/-- The record of a zone whose number no other zone of the node has. -/
theorem zoneUpdate_of_numbered (distinct : (memberZones s).Pairwise fun x y => x.number ≠ y.number) {n : Fin 8} {z : ZoneEntry}
    (mem : z ∈ memberZones s) (number : z.number = n.val + 1) :
    (zoneUpdate s).zmn.records[n] = some (evaluateZone s z) ∧
      (zoneUpdate s).zmn.active.getLsbD n.val = (evaluateZone s z).active := by
  have only (y : ZoneEntry) (other : y ∈ memberZones s) (same : y.number = n.val + 1) : y = z :=
    List.inj_on_of_nodup_map (List.pairwise_map.mpr distinct) other mem (same.trans number.symm)
  constructor
  · have found : (memberZones s).find? (fun y => y.number == n.val + 1) = some z := by
      cases first : (memberZones s).find? (fun y => y.number == n.val + 1) with
      | none => exact absurd number (by simpa using List.find?_eq_none.mp first z mem)
      | some y => rw [only y (List.mem_of_find?_eq_some first) (by simpa using List.find?_some first)]
    simp [zoneUpdate_of_up up, found]
  · rw [Bool.eq_iff_iff, zoneUpdate_active up numbered n.isLt]
    constructor
    · rintro ⟨y, active, same⟩
      obtain ⟨other, holds⟩ := mem_activeZones.mp active
      rwa [only y other same] at holds
    · exact fun active => ⟨z, mem_activeZones.mpr ⟨mem, active⟩, number⟩

end

/-! ### The member cap (R78) -/

theorem zoneCap_of_small {v : Nat} {z : ZoneEntry} (small : v * z.fraction < 256) : zoneCap v z = 0 := Nat.div_eq_of_lt small

/-- A fraction leaves no more than 255/256 of v_max. -/
theorem zoneCap_le {z : ZoneEntry} (bounded : z.fraction ≤ 255) (v : Nat) : zoneCap v z ≤ v * 255 / 256 :=
  Nat.div_le_div_right (Nat.mul_le_mul_left v bounded)

/-- Where zones are active, the member cap is the cap of one of them. -/
theorem memberCapOf_mem {v : Nat} {zs : List ZoneEntry} (active : zs ≠ []) (bounded : ∀ z ∈ zs, z.fraction ≤ 255) :
    ∃ z ∈ zs, memberCapOf v zs = zoneCap v z := by
  obtain ⟨-, least, whole | attained⟩ := memberCapOf_spec v zs
  · obtain ⟨z, mem⟩ := List.exists_mem_of_ne_nil zs active
    have below := zoneCap_le (bounded z mem) v
    have above := least z mem
    exact ⟨z, mem, by omega⟩
  · exact attained

theorem ownVMax_of_control {s : State} (control : controlUp s = true) : ownVMax s = 0 := by
  have role : s.cfg.role = some .control := by simp [controlUp, isControl] at control; exact control.1
  simp [ownVMax, isAxis, role]

theorem zoneUpdate_memberCap {s : State} (up : axisUp s = true ∨ controlUp s = true) :
    (zoneUpdate s).zmn.memberCap = memberCapOf (ownVMax s) (activeZones s) := by
  rw [zoneUpdate_of_up up]

/-- Settles O19: the cap is the least of a list (`memberCapOf_spec`) that the evaluation makes of the zones found active. -/
theorem memberCapOfTheActiveZones : Obligations.MemberCapOfTheActiveZones := by
  unfold Obligations.MemberCapOfTheActiveZones
  intro s up
  dsimp only
  change (activeZones s = [] → _) ∧ (∀ z ∈ activeZones s, _ ≤ zoneCap _ z) ∧ _
  rw [zoneUpdate_memberCap up]
  obtain ⟨below, least, -⟩ := memberCapOf_spec (ownVMax s) (activeZones s)
  refine ⟨fun none => by rw [none]; rfl, least, memberCapOf_mem, below, fun z _ bounded => zoneCap_le bounded _,
    fun control => ?_, fun numbered n place => zoneUpdate_active up numbered place, fun z => ⟨fun part => ?_, fun part => ?_, fun part => ?_,
      fun part v => ?_, fun v => zoneCap_of_small⟩⟩
  · exact Nat.le_zero.mp (ownVMax_of_control control ▸ below)
  all_goals simp [zoneCap, part]

end Sys2Proof.Machine
end

