-- ==== Sys2Proof/Proofs/ZonesOfUpdate.lean ====
section
/-! SUPPORT. The evaluation of the zones that an update makes: on which state, and what of it the update keeps (R73, R77, log 6). -/

namespace Sys2Proof.Machine

open Sys2Proof.Safety

/-- The state whose zones an update evaluates (log 6). -/
def zonedState (inp : UpdateInputs) (s : State) : State :=
  if inp.zonesFirst then clockDecide (clocked inp s) else resulted inp s

theorem zonedState_of_first {inp : UpdateInputs} (first : inp.zonesFirst = true) (s : State) :
    zonedState inp s = clockDecide (clocked inp s) := if_pos first

theorem zonedState_of_later {inp : UpdateInputs} (later : inp.zonesFirst = false) (s : State) :
    zonedState inp s = resulted inp s := if_neg (by simp [later])

theorem evaluated_zmn_of_now (demand : Bool) (s : State) : (evaluated true demand s).zmn = (zoneUpdate s).zmn := by
  cases demand <;> simp [evaluated]

/-- No part of an update writes ZMN after its evaluation. -/
theorem update_zmn (inp : UpdateInputs) (s : State) : (update inp s).zmn = (zoneUpdate (zonedState inp s)).zmn := by
  cases zones : inp.zonesFirst
  · rw [← (settledState_frame inp s).2.2, zonedState_of_later zones, settledState, zones]
    simp [evaluated_zmn_of_now]
  · rw [← openedState_zones_of_first zones, zonedState_of_first zones, openedState, zones, evaluated_zmn_of_now]

/-! ### What the evaluation of an update reads -/

theorem zonedState_filters (inp : UpdateInputs) (s : State) : (zonedState inp s).zmn.filters = (update inp s).zmn.filters := by
  rw [update_zmn, zoneUpdate_filters]

theorem zonedState_cfg (inp : UpdateInputs) (s : State) : (zonedState inp s).cfg = (sampled inp s).cfg := by
  unfold zonedState
  split
  · simp [clocked]
  · simp [resulted, toServo, withMotion, beforeMotion_eq]

/-- The peer entries stand as they were before the update ages them (R58). -/
theorem zonedState_peers (inp : UpdateInputs) (s : State) : (zonedState inp s).ptb.peers = s.ptb.peers := by
  unfold zonedState
  split
  · simp [clocked, causesAt_peers]
  · simp [resulted, toServo, withMotion, beforeMotion_eq, causesAt_peers]

/-- Before the profile and its causes, motion and homing are those of the state before the update. -/
theorem zonedState_of_firstBeforeCauses {inp : UpdateInputs} (zones : inp.zonesFirst = true) (causes : inp.causesFirst = false)
    (s : State) : (zonedState inp s).mpr = s.mpr ∧ (zonedState inp s).hom = s.hom := by
  rw [zonedState_of_first zones]
  simp [clocked, causesAt, causes]

section
variable {inp : UpdateInputs} {s : State}

/-- After the profile of a quiet update the position is the one that the update leaves. -/
theorem zonedState_of_quiet (later : inp.zonesFirst = false) (quiet : updateQuiet inp s) (on : s.stc.drive = .enabled)
    (idle : s.tks.job = .idle) (none : s.hom.state ≠ .homing) :
    (zonedState inp s).mpr.p = (update inp s).mpr.p ∧ (zonedState inp s).hom = s.hom := by
  obtain ⟨mpr, homed, -⟩ := update_kept inp quiet.1 (.inl (resulted_hold on none quiet))
  obtain ⟨-, -, -, hom⟩ := update_moves_quietly on none quiet (by simp [idle]) (by simp [idle]) (by simp [idle])
  rw [zonedState_of_later later]
  exact ⟨(congrArg Mpr.p mpr :).symm, homed.symm.trans hom⟩

variable (up : axisUp s = true ∨ controlUp s = true)
include up

theorem known_of_up : s.cfg.startState ≠ .straps := by
  rcases up with axis | control
  · intro straps
    simp [axisUp, straps] at axis
  · exact known_of_controlUp control

theorem zonedState_up : axisUp (zonedState inp s) = true ∨ controlUp (zonedState inp s) = true := by
  rw [axisUp_congr (zonedState_cfg inp s), controlUp_congr (zonedState_cfg inp s)]
  rcases up with axis | control
  · exact .inl ((axisUp_congr (sampled_up inp axis).1).trans axis)
  · exact .inr ((sampled_controlUp inp (known_of_controlUp control)).trans control)

theorem zonedState_station : (zonedState inp s).cfg.station = s.cfg.station := by
  rw [zonedState_cfg, sampled_station inp (known_of_up up)]

theorem zonedState_memberZones : memberZones (zonedState inp s) = memberZones s :=
  memberZones_congr (by rw [zonedState_cfg, (sampled_identity inp (known_of_up up)).1]) (zonedState_station up)

/-- The evaluation of an update is that of any state with its filters, its entries and, where a test reads it, its own position. -/
theorem evaluateZone_zonedState {r : State} (station : r.cfg.station = s.cfg.station)
    (filters : r.zmn.filters = (update inp s).zmn.filters) (peers : r.ptb.peers = s.ptb.peers) {z : ZoneEntry}
    (placed : zoneAbroad s z ∨ (zonedState inp s).mpr.p = r.mpr.p ∧ (zonedState inp s).hom = r.hom) :
    evaluateZone (zonedState inp s) z = evaluateZone r z := by
  refine evaluateZone_congr ((zonedState_station up).trans station.symm) ((zonedState_filters inp s).trans filters.symm)
    ((zonedState_peers inp s).trans peers.symm) (placed.imp (fun abroad => ?_) (And.imp_right (congrArg Hom.state)))
  simpa only [zoneAbroad, isOwn_of_station station] using abroad

variable (numbered : ∀ z ∈ memberZones s, 1 ≤ z.number ∧ z.number ≤ 8)
include numbered

theorem update_of_unnumbered {n : Fin 8} (none : ∀ z ∈ memberZones s, z.number ≠ n.val + 1) :
    (update inp s).zmn.records[n] = Option.none ∧ (update inp s).zmn.active.getLsbD n.val = false := by
  have zones := zonedState_memberZones (inp := inp) up
  simp only [update_zmn]
  exact zoneUpdate_of_unnumbered (zonedState_up up) (zones ▸ numbered) (zones ▸ none)

theorem update_of_numbered (distinct : (memberZones s).Pairwise fun x y => x.number ≠ y.number) {n : Fin 8} {z : ZoneEntry}
    (mem : z ∈ memberZones s) (number : z.number = n.val + 1) {r : State}
    (same : evaluateZone (zonedState inp s) z = evaluateZone r z) :
    (update inp s).zmn.records[n] = some (evaluateZone r z) ∧
      (update inp s).zmn.active.getLsbD n.val = (evaluateZone r z).active := by
  have zones := zonedState_memberZones (inp := inp) up
  simp only [update_zmn, ← same]
  exact zoneUpdate_of_numbered (zonedState_up up) (zones ▸ numbered) (zones ▸ distinct) (zones ▸ mem) number

end

/-! ### The settlement -/

/-- Settles O20: one zone by its tests, the records by the search for a number, an update by the state that it evaluates. -/
theorem zoneEvaluation : Obligations.ZoneEvaluation := by
  unfold Obligations.ZoneEvaluation
  refine ⟨fun s z => ?_, fun s => ?_, fun inp s up numbered distinct => ?_⟩
  · refine ⟨fun own => ?_, fun other old => ?_, fun items other young heard => ?_, rfl, rfl, evaluateZone_active_iff s z,
      fun n lo hi => ⟨fun own homed => ?_, fun own unhomed => ?_, rangeTest_of_old lo hi, fun items => rangeTest_of_heard lo hi⟩⟩
    · simp [evaluateZone, crewTest_of_own _ own]
    · simp [evaluateZone, crewTest_of_old _ other old]
    · simp only [evaluateZone, crewTest_of_heard _ other young heard, and_self]
    · rw [rangeTest_of_own lo hi own, if_pos homed]
    · rw [rangeTest_of_own lo hi own, if_neg (by simp [unhomed])]
  · refine ⟨mem_memberZones s, zoneUpdate_of_down, fun up numbered distinct => ⟨_, rfl, ?_, zoneUpdate_filters s,
      fun n => zoneUpdate_of_unnumbered up numbered, fun n z => zoneUpdate_of_numbered up numbered distinct⟩⟩
    rw [zoneUpdate_of_up up]
  · refine ⟨_, rfl, fun n => update_of_unnumbered up numbered, fun n z mem number =>
      ⟨fun placed => ?_, fun later quiet on idle none => ?_⟩⟩
    · refine update_of_numbered up numbered distinct mem number
        (evaluateZone_zonedState up (by rfl) (by rfl) (by rfl) (placed.imp_right ?_))
      rintro ⟨zones, causes⟩
      obtain ⟨mpr, hom⟩ := zonedState_of_firstBeforeCauses zones causes s
      exact ⟨congrArg Mpr.p mpr, hom⟩
    · exact update_of_numbered up numbered distinct mem number
        (evaluateZone_zonedState up (by rfl) (by rfl) (by rfl) (.inr (zonedState_of_quiet later quiet on idle none)))

end Sys2Proof.Machine
end

