-- ==== Sys2Proof/Proofs/StopLaws.lean ====
section
/-! SUPPORT. The law of the stops and the law of the jobs, and what keeps both: stops, holds, the drive, homing and takes (R85 to R99, R124). -/

namespace Sys2Proof.Machine

open Sys2Proof.Safety

/-! ### The two laws -/

/-- The drive state, the own hold and the holder set: what the stops in force and the drive's agreement with them are read from. -/
def Stc.standing (t : Stc) : DriveState × Option Hold × Vector (Option Hold) 16 := (t.drive, t.hold, t.holders)

/-- The drive agrees with the stops in force (R92, R93, R95). -/
def driveAgrees (s : State) : Prop :=
  (s.stc.drive = .waking ∨ s.stc.drive = .enabled → stopInForce s = false) ∧
  (s.stc.drive = .stopping → hardInForce s = false) ∧
  (s.stc.drive = .stopped → stopInForce s = true)

/-- A node with a local cause holds (R88). -/
def causesHeld (s : State) : Prop := ∀ c, causePresent s c = true → s.stc.hold.isSome = true

/-- An axis on which a take job may begin: ENABLED, homed, no park pending (R99, R108, R109). -/
def jobReady (s : State) : Prop := s.stc.drive = .enabled ∧ s.hom.state = .homed ∧ s.stc.parkPending = false

/-- A job that a stop aborts in t was one in s, or has begun on an axis that is ready in s. -/
def JobGoesOn (s t : State) : Prop := jobAbortable t.tks.job = true → jobAbortable s.tks.job = true ∨ jobReady s

theorem stopSafe_iff (s : State) : stopSafe s ↔ driveAgrees s ∧ causesHeld s := by
  simp only [stopSafe, driveAgrees, causesHeld, and_assoc]

theorem jobSafe_iff (s : State) : jobSafe s ↔ (jobAbortable s.tks.job = true → jobReady s) := Iff.rfl

theorem jobSafe_of_none {s : State} (none : jobAbortable s.tks.job = false) : jobSafe s := by
  simp [jobSafe_iff, none]

theorem noJob_of_unready {s : State} (safe : jobSafe s) (unready : ¬jobReady s) : jobAbortable s.tks.job = false := by
  rw [← Bool.not_eq_true]; exact fun held => unready (safe held)

/-- A job that a stop aborts is found on an ENABLED axis only. -/
theorem noJob_of_off {s : State} (safe : jobSafe s) (off : s.stc.drive ≠ .enabled) : jobAbortable s.tks.job = false :=
  noJob_of_unready safe fun ready => off ready.1

theorem driveAgrees_of_standing {s t : State} (standing : t.stc.standing = s.stc.standing) (agrees : driveAgrees s) :
    driveAgrees t := by
  simp only [Stc.standing, Prod.mk.injEq] at standing
  obtain ⟨drive, hold, holders⟩ := standing
  simpa only [driveAgrees, stopInForce, hardInForce, drive, hold, holders] using agrees

theorem driveAgrees_of_parked {s : State} (parked : s.stc.drive = .parked) : driveAgrees s := by simp [driveAgrees, parked]

theorem causePresent_of_localCauses {s t : State} (same : localCauses t = localCauses s) {c : Cause}
    (present : causePresent t c = true) : causePresent s c = true :=
  mem_localCauses.mp (same ▸ mem_localCauses.mpr present)

theorem causesHeld_of_localCauses {s t : State} (same : localCauses t = localCauses s)
    (hold : s.stc.hold.isSome = true → t.stc.hold.isSome = true) (held : causesHeld s) : causesHeld t :=
  fun c present => hold (held c (causePresent_of_localCauses same present))

theorem stopSafe_of_same {s t : State} (same : t.stc = s.stc ∧ t.svo.encFault = s.svo.encFault ∧ t.ptb.lost = s.ptb.lost ∧
    t.lnk.linkFault = s.lnk.linkFault) (safe : stopSafe s) : stopSafe t := by
  obtain ⟨stc, fault, lost, link⟩ := same
  rw [stopSafe_iff] at safe ⊢
  exact ⟨driveAgrees_of_standing (by rw [stc]) safe.1,
    causesHeld_of_localCauses (localCauses_congr (by rw [stc]) fault lost link) (by rw [stc]; exact id) safe.2⟩

/-- t keeps the law of the stops and the law of the jobs where s keeps them. -/
structure KeepsLaws (s t : State) : Prop where
  stops : stopSafe s → stopSafe t
  jobs : jobSafe s → jobSafe t

namespace KeepsLaws

variable {s t u : State}

theorem rfl : KeepsLaws s s := ⟨id, id⟩

theorem trans (x : KeepsLaws s t) (y : KeepsLaws t u) : KeepsLaws s u := ⟨y.stops ∘ x.stops, y.jobs ∘ x.jobs⟩

theorem ite {c : Prop} [Decidable c] (yes : c → KeepsLaws s t) (no : ¬c → KeepsLaws s u) : KeepsLaws s (if c then t else u) := by
  split
  · exact yes ‹_›
  · exact no ‹_›

/-- The drive and the stops stay, no cause comes, and a job that a stop aborts comes on a ready axis only. -/
theorem of_fewer (standing : t.stc.standing = s.stc.standing)
    (causes : ∀ c, causePresent t c = true → causePresent s c = true)
    (jobs : jobSafe s → jobSafe t) : KeepsLaws s t := by
  refine ⟨fun safe => ?_, jobs⟩
  obtain ⟨agrees, held⟩ := (stopSafe_iff s).mp safe
  have hold : t.stc.hold = s.stc.hold := (congrArg (fun x => x.2.1) standing :)
  exact (stopSafe_iff t).mpr ⟨driveAgrees_of_standing standing agrees, fun c present => hold ▸ held c (causes c present)⟩

/-- Nothing that the laws read changes. -/
theorem still (same : t.stc = s.stc ∧ t.svo.encFault = s.svo.encFault ∧ t.ptb.lost = s.ptb.lost ∧
    t.lnk.linkFault = s.lnk.linkFault ∧ t.hom.state = s.hom.state ∧ t.tks.job = s.tks.job) : KeepsLaws s t := by
  obtain ⟨stc, fault, lost, link, home, job⟩ := same
  exact ⟨stopSafe_of_same ⟨stc, fault, lost, link⟩, by simp only [jobSafe, stc, home, job, imp_self]⟩

/-- A change that leaves the stops and their causes as they are, with no job left that a stop aborts. -/
theorem jobless (same : t.stc = s.stc ∧ t.svo.encFault = s.svo.encFault ∧ t.ptb.lost = s.ptb.lost ∧
    t.lnk.linkFault = s.lnk.linkFault) (none : jobSafe s → jobAbortable t.tks.job = false) : KeepsLaws s t :=
  ⟨stopSafe_of_same same, fun safe => jobSafe_of_none (none safe)⟩

/-- A change of the takes alone, after which a job that a stop aborts was one before or has begun on a ready axis. -/
theorem takes (same : t.stc = s.stc ∧ t.svo = s.svo ∧ t.ptb = s.ptb ∧ t.hom = s.hom ∧ t.lnk.besideFifo = s.lnk.besideFifo)
    (job : JobGoesOn s t) : KeepsLaws s t := by
  obtain ⟨stc, svo, ptb, hom, link⟩ := same
  refine ⟨stopSafe_of_same ⟨stc, by rw [svo], by rw [ptb], (congrArg Lnk.linkFault link :)⟩, fun safe held => ?_⟩
  rw [stc, hom]
  exact (job held).elim safe id

/-- A change of drive state that the stops allow, with no job left that a stop aborts. -/
theorem entry (orders : t.stc.orders = s.stc.orders) (counts : t.svo.counts = s.svo.counts) (ptb : t.ptb = s.ptb)
    (link : t.lnk.linkFault = s.lnk.linkFault) (agrees : driveAgrees s → driveAgrees t)
    (none : jobSafe s → jobAbortable t.tks.job = false) : KeepsLaws s t := by
  refine ⟨fun safe => ?_, fun safe => jobSafe_of_none (none safe)⟩
  have hold : t.stc.hold = s.stc.hold := (congrArg Stc.hold orders :)
  have causes := localCauses_congr (congrArg Stc.latches orders :) (congrArg Svo.encFault counts :) (by rw [ptb]) link
  rw [stopSafe_iff] at safe ⊢
  exact ⟨agrees safe.1, causesHeld_of_localCauses causes (by rw [hold]; exact id) safe.2⟩

end KeepsLaws

/-! ### The reaction to the stops in force (R92, R93, R95, R99) -/

/-- Whatever the drive state was, a reaction leaves it in agreement with the stops in force. -/
theorem reactStops_agrees (s : State) : driveAgrees (reactStops s) := by
  have stopSame : stopInForce (reactStops s) = stopInForce s := stopInForce_reactStops s
  have hardSame : hardInForce (reactStops s) = hardInForce s := hardInForce_of_orders (reactStops_orders s)
  simp only [driveAgrees, stopSame, hardSame]
  cases stop : stopInForce s
  · have soft : hardInForce s = false := by
      rw [← Bool.not_eq_true]; exact fun hard => by simp [stopInForce_of_hard hard] at stop
    refine ⟨fun _ => rfl, fun _ => soft, fun stopped => ?_⟩
    rw [reactStops_of_free stop] at stopped
    by_cases was : s.stc.drive = .stopped
    · simp [leaveStopped_of_free was stop] at stopped
    · exact absurd (leaveStopped_of_other was ▸ stopped) was
  · obtain ⟨on, waking⟩ := reactStops_leaves stop
    refine ⟨fun at_ => (at_.elim waking on).elim, fun stopping => ?_, fun _ => rfl⟩
    rw [← Bool.not_eq_true]
    intro hard
    cases active : driveActive s.stc.drive
    · cases drive : s.stc.drive <;> simp [drive, driveActive] at active
      · simp [reactStops_of_parked drive, drive] at stopping
      · simp [reactStops_of_stopped drive, leaveStopped_of_stop stop, drive] at stopping
    · simp [reactStops_of_hard hard active] at stopping

theorem reactStops_stopSafe {s : State} (held : causesHeld s) : stopSafe (reactStops s) := by
  have hold : (reactStops s).stc.hold = s.stc.hold := (congrArg Stc.hold (reactStops_orders s) :)
  exact (stopSafe_iff _).mpr ⟨reactStops_agrees s,
    causesHeld_of_localCauses (reactStops_localCauses s) (by rw [hold]; exact id) held⟩

/-- A stop that takes the axis out of ENABLED leaves no job that it aborts (R99). -/
theorem reactStops_ends {s : State} (stop : stopInForce s = true)
    (found : jobAbortable s.tks.job = true → s.stc.drive = .enabled) : jobAbortable (reactStops s).tks.job = false := by
  cases held : jobAbortable s.tks.job
  · rw [reactStops_tks_of_none held, held]
  · rw [(reactStops_tks_of_abortable (found held) stop held).1]; rfl

theorem reactStops_jobs {s : State} (safe : jobSafe s) : jobSafe (reactStops s) := by
  cases stop : stopInForce s
  · by_cases stopped : s.stc.drive = .stopped
    · have none := noJob_of_off safe (by simp [stopped])
      exact jobSafe_of_none (by rw [reactStops_tks_of_none none, none])
    · rwa [reactStops_of_free stop, leaveStopped_of_other stopped]
  · exact jobSafe_of_none (reactStops_ends stop fun held => (safe held).1)

theorem reactStops_keeps (s : State) : KeepsLaws s (reactStops s) :=
  ⟨fun safe => reactStops_stopSafe ((stopSafe_iff s).mp safe).2, reactStops_jobs⟩

/-! ### Holds and causes (R85, R88) -/

@[simp] theorem queueSafety_linkFault (b : Body) (s : State) : (queueSafety b s).lnk.linkFault = s.lnk.linkFault :=
  (congrArg Lnk.linkFault (queueSafety_besideSafety b s) :)

/-- A change of STC's hold alone does not concern the law of the jobs. -/
theorem jobSafe_of_unheld {s t : State} (unheld : t.stc.unheld = s.stc.unheld) (hom : t.hom = s.hom) (tks : t.tks = s.tks)
    (safe : jobSafe s) : jobSafe t := by
  have drive : t.stc.drive = s.stc.drive := (congrArg Stc.drive unheld :)
  have park : t.stc.parkPending = s.stc.parkPending := (congrArg Stc.parkPending unheld :)
  simpa only [jobSafe, drive, park, hom, tks] using safe

/-- The hold formed again is there for every cause present. -/
theorem holdAgain_causesHeld (s : State) : causesHeld (holdAgain s) := by
  intro c present
  have listed := mem_localCauses.mpr (causePresent_of_localCauses (holdAgain_localCauses s) present)
  cases causes : localCauses s with
  | nil => simp [causes] at listed
  | cons x xs => simp [holdAgain_of_formed (s := s) (by rw [causes]; rfl)]

theorem holdAgain_jobs {s : State} (safe : jobSafe s) : jobSafe (holdAgain s) :=
  jobSafe_of_unheld (holdAgain_unheld s) (by simp) (by simp) safe

/-- A cause that arises leaves a node that holds, its drive in agreement with the stops. -/
theorem causeArises_stopSafe {c : Cause} {s : State} (present : causePresent s c = true) : stopSafe (causeArises c s) :=
  reactStops_stopSafe fun _ _ => holdFor_some c present

theorem holdFor_jobs (c : Cause) {s : State} (safe : jobSafe s) : jobSafe (holdFor c s) :=
  jobSafe_of_unheld (holdFor_unheld c s) (by simp) (by simp) safe

theorem causeArises_jobs (c : Cause) {s : State} (safe : jobSafe s) : jobSafe (causeArises c s) :=
  reactStops_jobs (holdFor_jobs c safe)

/-- Raising a cause by a change that leaves the drive and the stops as they are. -/
theorem raiseCause_keeps {c : Cause} {f : State → State} {s : State} (standing : (f s).stc.standing = s.stc.standing)
    (present : causePresent (f s) c = true) (jobs : jobSafe s → jobSafe (f s)) : KeepsLaws s (raiseCause c f s) := by
  refine .ite (fun before => ⟨fun safe => ?_, jobs⟩)
    fun _ => ⟨fun _ => causeArises_stopSafe present, fun safe => causeArises_jobs c (jobs safe)⟩
  have hold : (f s).stc.hold = s.stc.hold := (congrArg (fun x => x.2.1) standing :)
  obtain ⟨agrees, held⟩ := (stopSafe_iff s).mp safe
  exact (stopSafe_iff _).mpr ⟨driveAgrees_of_standing standing agrees, fun _ _ => hold ▸ held c before⟩

theorem raiseOverrun_keeps (s : State) : KeepsLaws s (raiseOverrun s) := raiseCause_keeps rfl rfl id
theorem raiseFollow_keeps (s : State) : KeepsLaws s (raiseFollow s) := raiseCause_keeps rfl rfl id
theorem raiseLinkFault_keeps (s : State) : KeepsLaws s (raiseLinkFault s) := raiseCause_keeps rfl rfl id
theorem openChain_keeps (s : State) : KeepsLaws s (openChain s) := raiseCause_keeps rfl rfl id
theorem raiseHalt_keeps (s : State) : KeepsLaws s (raiseHalt s) := .ite (fun _ => raiseCause_keeps rfl rfl id) fun _ => .rfl

theorem raisePeerLost_keeps (s : State) : KeepsLaws s (raisePeerLost lostUpdate s) := by
  refine .ite (fun arises => ?_) fun other => ?_
  · rw [Bool.and_eq_true] at arises
    exact ⟨fun _ => causeArises_stopSafe arises.2, fun safe => causeArises_jobs _ safe⟩
  · refine .of_fewer rfl (fun c present => ?_) id
    cases c
    case peerLost => simpa [present] using other
    all_goals exact present

theorem updateCauses_keeps (s : State) : KeepsLaws s (updateCauses s) := (raiseHalt_keeps s).trans (raisePeerLost_keeps _)

theorem settleHold_keeps (before s : State) : KeepsLaws s (settleHold before s) :=
  .ite (fun _ => ⟨fun _ => reactStops_stopSafe (holdAgain_causesHeld s), fun safe => reactStops_jobs (holdAgain_jobs safe)⟩)
    fun _ => .rfl

theorem setHolder_keeps (st : Station) (h : Option Hold) (s : State) : KeepsLaws s (setHolder st h s) :=
  .ite (fun _ => .rfl) fun _ => ⟨fun safe => reactStops_stopSafe (s := { s with stc := { s.stc with holders := s.stc.holders.set st h } })
    ((stopSafe_iff s).mp safe).2, fun safe => reactStops_jobs (by exact safe)⟩

theorem clearLatches_keeps (s : State) : KeepsLaws s (clearLatches s) := by
  refine .of_fewer rfl (fun c present => ?_) id
  cases c <;> simp_all [clearLatches, causePresent, causeCondition]

theorem resumeStops_keeps (s : State) : KeepsLaws s (resumeStops s) := by
  refine (clearLatches_keeps s).trans (.ite (fun _ => .rfl) fun _ => .ite (fun empty => ?_) fun _ => ?_)
  · refine ⟨fun _ => reactStops_stopSafe fun c present => ?_, fun safe => reactStops_jobs (jobSafe_of_unheld ?_ ?_ ?_ safe)⟩
    · have listed := mem_localCauses.mpr present
      rw [localCauses_congr (s := clearLatches s) (by simp [Stc.latches]) (by simp) (by simp) (by simp), List.isEmpty_iff.mp empty] at listed
      simp at listed
    all_goals simp [Stc.unheld]
  · exact ⟨fun _ => reactStops_stopSafe (holdAgain_causesHeld _), fun safe => reactStops_jobs (holdAgain_jobs safe)⟩

/-! ### The drive (R92 to R98) -/

theorem handOn_ends (f : HomeFail) (r : Reason) (s : State) : jobAbortable (handOn f r s).tks.job = false := by
  cases held : jobAbortable s.tks.job
  · rw [(handOn_takes_of_none f r held).1, held]
  · rw [(handOn_takes_of_abortable f r held).1]; rfl

theorem handOn_linkFault (f : HomeFail) (r : Reason) (s : State) : (handOn f r s).lnk.linkFault = s.lnk.linkFault :=
  (congrArg Lnk.linkFault (handOn_besideFifo f r s) :)

theorem handOn_keeps (f : HomeFail) (r : Reason) (s : State) : KeepsLaws s (handOn f r s) :=
  .entry (by simp) (by simp) (by simp) (handOn_linkFault f r s) (driveAgrees_of_standing (by simp)) fun _ => handOn_ends f r s

theorem enterParked_keeps {s : State} (none : jobSafe s → jobAbortable s.tks.job = false) : KeepsLaws s (enterParked s) :=
  .entry (by simp [Stc.orders]) (by simp [Svo.counts]) (by simp) (by simp) (fun _ => driveAgrees_of_parked (by simp))
    (by simpa using none)

theorem endStopping_keeps {s : State} (stopping : s.stc.drive = .stopping) : KeepsLaws s (endStopping s) := by
  rw [endStopping_eq stopping]
  refine .entry rfl rfl rfl rfl (fun _ => ?_) fun safe => noJob_of_off (s := s) safe (by simp [stopping])
  cases pending : s.stc.parkPending
  · cases stop : stopInForce s
    · exact driveAgrees_of_parked (by simp)
    · refine ⟨by simp, by simp, fun _ => ?_⟩
      rw [← stop]
      exact stopInForce_of_orders rfl
  · exact driveAgrees_of_parked (by simp)

theorem endWaking_keeps {s : State} (waking : s.stc.drive = .waking) : KeepsLaws s (endWaking s) := by
  have same : stopInForce (endWaking s) = stopInForce s := stopInForce_of_orders rfl
  have on : (endWaking s).stc.drive = .enabled := rfl
  refine .entry rfl rfl rfl rfl (fun agrees => ?_) fun safe => noJob_of_off (s := s) safe (by simp [waking])
  simp [driveAgrees, on, same, agrees.1 (.inl waking)]

theorem wakingUpdate_keeps (s : State) : KeepsLaws s (wakingUpdate s) := by
  have counted (n : Nat) : KeepsLaws s { s with stc := { s.stc with settle := n } } := .of_fewer rfl (fun _ => id) id
  exact .ite (fun waking => .ite (fun _ => (counted _).trans (endWaking_keeps waking)) fun _ => counted _) fun _ => .rfl

theorem restUpdate_keeps (r : Result) (s : State) : KeepsLaws s (restUpdate r s) := by
  refine .ite (fun _ => ?_) fun _ => .rfl
  split
  · exact endStopping_keeps ‹_›
  · exact .ite (fun pending => enterParked_keeps fun safe => noJob_of_unready safe (by simp [jobReady, pending])) fun _ => .rfl
  all_goals exact .rfl

theorem stopInForce_of_wakeAccepted {s : State} (accepted : wakeAccepted s = true) : stopInForce s = false := by
  simp only [wakeAccepted, Bool.and_eq_true, Bool.not_eq_true'] at accepted
  exact accepted.1.1.1.1

theorem takeWake_keeps (mask : StationMask) (s : State) : KeepsLaws s (takeWake mask s) := by
  have refuses : KeepsLaws s { s with stc := { s.stc with wakeRefused := true } } := .of_fewer rfl (fun _ => id) id
  refine .ite (fun _ => ?_) fun _ => .rfl
  split
  · next parked =>
    refine .ite (fun accepted => ?_) fun _ => refuses
    have free := stopInForce_of_wakeAccepted accepted
    refine ⟨fun safe => (stopSafe_iff _).mpr ⟨⟨fun _ => free, by simp, by simp⟩, ((stopSafe_iff s).mp safe).2⟩,
      fun safe => jobSafe_of_none (noJob_of_off (s := s) safe (by simp [parked]))⟩
  · exact refuses
  · exact refuses
  all_goals exact .rfl

theorem takePark_keeps (mask : StationMask) (s : State) : KeepsLaws s (takePark mask s) := by
  have handed : KeepsLaws s (handPark s) := handOn_keeps _ _ s
  have ended : jobAbortable (handPark s).tks.job = false := handOn_ends _ _ s
  have pends : KeepsLaws (handPark s) { handPark s with stc := { (handPark s).stc with parkPending := true } } :=
    .of_fewer rfl (fun _ => id) fun _ => jobSafe_of_none ended
  refine .ite (fun _ => ?_) fun _ => .rfl
  split
  · exact handed.trans (enterParked_keeps fun _ => ended)
  · exact handed.trans (.ite (fun _ => enterParked_keeps fun _ => ended) fun _ => pends.trans (.still (by simp)))
  · exact handed.trans pends
  all_goals exact .rfl

end Sys2Proof.Machine
end

