-- ==== Sys2Proof/Proofs/JobLaws.lean ====
section
/-! SUPPORT. Takes, homing and the loss of the encoder: where a job that a stop aborts begins, and that none outlives its axis (R51, R105 to R126). -/

namespace Sys2Proof.Machine

open Sys2Proof.Safety

/-! ### The job after each operation of TKS (R107 to R126) -/

namespace JobGoesOn

variable {s t u : State}

theorem of_job (same : t.tks.job = s.tks.job) : JobGoesOn s t := fun held => .inl (same ▸ held)

theorem of_idle (idle : t.tks.job = .idle) : JobGoesOn s t := fun held => by simp [idle, jobAbortable] at held

theorem of_was (was : jobAbortable s.tks.job = true) : JobGoesOn s t := fun _ => .inl was

theorem rfl : JobGoesOn s s := of_job (.refl _)

theorem ite {c : Prop} [Decidable c] (yes : c → JobGoesOn s t) (no : ¬c → JobGoesOn s u) : JobGoesOn s (if c then t else u) := by
  split
  · exact yes ‹_›
  · exact no ‹_›

end JobGoesOn

theorem refuse_job (n : Byte) (r : Reason) (s : State) : JobGoesOn s (refuse n r s) := by
  refine .ite (fun _ => .of_job rfl) fun _ => ?_
  by_cases own : s.tks.job ≠ .idle ∧ s.tks.jobTake = n
  · exact .of_idle (by simp [own])
  · exact .of_job (by simp [own])

/-- A PREPARE that passes its tests finds a ready axis (R108). -/
theorem jobReady_of_prepareFails {n : Byte} {s : State} (passes : prepareFails n s = none) : jobReady s := by
  unfold prepareFails at passes
  split at passes
  · cases passes
  · split at passes
    · cases passes
    · simp_all [jobReady, isHomed]

/-- A CUE that passes its tests finds a ready axis (R109). -/
theorem jobReady_of_cueTest {n i o : Byte} {s : State} {x : StoredTake × TakeMark × Nat} (passes : cueTest n i o s = .ok x) :
    jobReady s := by
  unfold cueTest at passes
  split at passes
  · cases passes
  · split at passes
    · cases passes
    · simp_all [jobReady, isHomed]

theorem takePrepare_job (n : Byte) (m : StationMask) (s : State) : JobGoesOn s (takePrepare n m s) := by
  refine .ite (fun _ => .rfl) fun _ => .ite (fun _ => refuse_job _ _ s) fun _ => .ite (fun _ => .rfl) fun _ =>
    .ite (fun _ => .rfl) fun _ => .ite (fun _ => refuse_job _ _ s) fun _ => ?_
  split
  · exact refuse_job _ _ s
  · exact fun _ => .inr (jobReady_of_prepareFails ‹_›)

theorem takeCue_job (n : Byte) (m : StationMask) (i o : Byte) (s : State) : JobGoesOn s (takeCue n m i o s) := by
  refine .ite (fun _ => .rfl) fun _ => .ite (fun _ => refuse_job _ _ s) fun _ => .ite (fun _ => .rfl) fun _ =>
    .ite (fun _ => .rfl) fun _ => .ite (fun _ => refuse_job _ _ s) fun _ => ?_
  split
  · exact refuse_job _ _ s
  · exact fun _ => .inr (jobReady_of_cueTest ‹_›)

theorem takeRoll_job (n : Byte) (t : Ms16) (s : State) : JobGoesOn s (takeRoll n t s) := by
  refine .ite (fun _ => .rfl) fun _ => ?_
  split
  case h_1 | h_2 =>
    refine .ite (fun _ => .rfl) fun _ => ?_
    split
    · exact refuse_job _ _ s
    · exact .of_job rfl
  case h_3 | h_4 => exact refuse_job _ _ s
  all_goals exact .rfl

theorem takeCut_job (n : Byte) (t : Ms16) (s : State) : JobGoesOn s (takeCut n t s) := by
  refine .ite (fun _ => .rfl) fun _ => ?_
  split
  · exact .ite (fun _ => .of_idle (by simp)) fun _ => .ite (fun _ => .of_idle (by simp)) fun _ => .of_job rfl
  · exact .ite (fun _ => .rfl) fun _ => .of_job rfl
  · exact refuse_job _ _ s
  all_goals exact .rfl

@[simp] theorem dropHeld_job (n : Byte) (s : State) : (dropHeld n s).tks.job = s.tks.job := by
  unfold dropHeld
  split
  · split <;> rfl
  · rfl

theorem takeAbort_job (own : Bool) (n r o : Byte) (s : State) : JobGoesOn s (takeAbort own n r o s) :=
  .ite (fun _ => .rfl) fun _ => .ite (fun _ => refuse_job _ _ s) fun _ => .ite (fun _ => .of_idle (by simp))
    fun _ => .of_idle (by simp)

@[simp] theorem setResult_job (n : Byte) (o : TakeOutcome) (s : State) : (setResult n o s).tks.job = s.tks.job := by
  unfold setResult; split <;> rfl

@[simp] theorem setIdleResult_job (n : Byte) (o : TakeOutcome) (s : State) : (setIdleResult n o s).tks.job = s.tks.job := by
  unfold setIdleResult; split <;> simp

@[simp] theorem takeDelete_job (n : Byte) (s : State) : (takeDelete n s).tks.job = s.tks.job := by
  unfold takeDelete; repeat' split
  all_goals simp

@[simp] theorem takeLock_job (n : Byte) (s : State) : (takeLock n s).tks.job = s.tks.job := by
  unfold takeLock; repeat' split
  all_goals simp

@[simp] theorem takeMark_job (t : Ms16) (s : State) : (takeMark t s).tks.job = s.tks.job := by
  unfold takeMark; dsimp only; repeat' split
  all_goals rfl

theorem handTake_job (own : Bool) (c : TakeCmd) (s : State) : JobGoesOn s (handTake own c s) := by
  cases c with
  | prepare n m => exact takePrepare_job n m s
  | cue n m i o => exact takeCue_job n m i o s
  | roll n t => exact takeRoll_job n t s
  | cut n t => exact takeCut_job n t s
  | abort n r o => exact takeAbort_job own n r o s
  | delete n => exact .of_job (takeDelete_job n s)
  | lock n => exact .of_job (takeLock_job n s)
  | unnamed => exact .rfl

/-- The update's part of TKS begins no job: it acts on one that a stop aborts only. -/
theorem takesUpdate_job (r : Result) (s : State) : JobGoesOn s (takesUpdate r s) := by
  cases held : jobAbortable s.tks.job
  · rw [takesUpdate_of_none r held]; exact .rfl
  · exact .of_was held

theorem storeWriteFailed_job (s : State) : JobGoesOn s (storeWriteFailed s) := by
  unfold storeWriteFailed
  split
  · exact .of_idle (by simp)
  · exact .of_idle rfl
  all_goals exact .rfl

@[simp] theorem lockEnds_job (n : Byte) (ok : Bool) (s : State) : (lockEnds n ok s).tks.job = s.tks.job := by
  unfold lockEnds; dsimp only; split <;> rfl

theorem programFailed_job (p : Program) (s : State) : JobGoesOn s (programFailed p s) := by
  have fails := storeWriteFailed_job (withdraw (p.address / Config.sectorBytes) s)
  unfold programFailed
  split
  · exact fails
  · exact fails
  · exact fails
  · exact .of_job (by simp)
  all_goals exact .rfl

theorem programMatched_job (w : ProgWork) (s : State) : JobGoesOn s (programMatched w s) := by
  unfold programMatched
  split
  case h_3 => exact .of_idle rfl
  case h_4 => exact .of_job (by simp)
  case h_5 => exact .ite (fun _ => .rfl) fun _ => .rfl
  all_goals exact .rfl

@[simp] theorem placeHeld_job (s : State) : (placeHeld s).tks.job = s.tks.job := by
  unfold placeHeld
  split
  · split <;> simp
  · rfl

theorem abortRunning_job (r : Reason) (s : State) : JobGoesOn s (abortRunning r s) :=
  .ite (fun _ => .of_idle (by simp)) fun _ => .rfl

/-! ### Takes queue commands only (R107) -/

@[simp] theorem refuse_besideFifo (n : Byte) (r : Reason) (s : State) : (refuse n r s).lnk.besideFifo = s.lnk.besideFifo := by
  unfold refuse; split
  · rfl
  · simp only [broadcastAbort_besideFifo]; split <;> simp

@[simp] theorem handTake_besideFifo (own : Bool) (c : TakeCmd) (s : State) :
    (handTake own c s).lnk.besideFifo = s.lnk.besideFifo := by
  cases c <;> simp only [handTake, takePrepare, takeCue, takeRoll, takeCut, takeAbort, takeDelete_frame, takeLock_frame]
  all_goals (repeat' split) <;> simp

@[simp] theorem placeHeld_besideFifo (s : State) : (placeHeld s).lnk.besideFifo = s.lnk.besideFifo := by
  unfold placeHeld
  split
  · split <;> simp
  · rfl

@[simp] theorem abortRunning_besideFifo (r : Reason) (s : State) : (abortRunning r s).lnk.besideFifo = s.lnk.besideFifo := by
  unfold abortRunning; split <;> simp

theorem handTake_keeps (own : Bool) (c : TakeCmd) (s : State) : KeepsLaws s (handTake own c s) :=
  .takes (by simp) (handTake_job own c s)

theorem takesUpdate_keeps (r : Result) (s : State) : KeepsLaws s (takesUpdate r s) := .takes (by simp) (takesUpdate_job r s)

/-! ### Homing (R42 to R51) -/

/-- A homing in progress leaves no job that a stop aborts. -/
theorem noJob_of_homing {s : State} (seeks : s.hom.state = .homing) (safe : jobSafe s) : jobAbortable s.tks.job = false :=
  noJob_of_unready safe (by simp [jobReady, seeks])

theorem failHoming_keeps (r : HomeFail) (s : State) : KeepsLaws s (failHoming r s) := by
  by_cases seeks : s.hom.state = .homing
  · exact .jobless (by simp) (by simpa using noJob_of_homing seeks)
  · rw [failHoming_of_none seeks]; exact .rfl

theorem becomeHomed_keeps {s : State} (none : jobSafe s → jobAbortable s.tks.job = false) : KeepsLaws s (becomeHomed s) := by
  have homed : KeepsLaws s { s with hom := doneHom } := .jobless (by simp) none
  have clamped : KeepsLaws s (clampedHome s) := .jobless (by simp [clampedHome]) (by simpa [clampedHome] using none)
  rw [becomeHomed_eq]
  exact .ite (fun _ => clamped.trans (raiseOverrun_keeps _)) fun _ => homed

theorem originChange_keeps (o : Count) (s : State) : KeepsLaws s (originChange o s) := .still (by simp [originChange])

theorem startHoming_keeps {s : State} (idle : s.tks.job = .idle) : KeepsLaws s (startHoming s) := by
  have none : jobAbortable s.tks.job = false := by rw [idle]; rfl
  have seek (capture : Bool) : KeepsLaws s (startSeek capture s) := .jobless (by simp [startSeek]) (by simp [none])
  unfold startHoming
  split
  · exact (originChange_keeps _ s).trans (becomeHomed_keeps (by simp [none]))
  all_goals exact seek _

theorem takeHome_keeps (mask : StationMask) (s : State) : KeepsLaws s (takeHome mask s) := by
  have refuses (o : HomeOutcome) : KeepsLaws s { s with hom := { s.hom with outcome := o } } := .still (by simp)
  exact .ite (fun _ => .ite (fun _ => .rfl) fun _ => .ite (fun _ => .ite startHoming_keeps fun _ => refuses _)
    fun _ => refuses _) fun _ => .rfl

theorem captureEdge_keeps (s : State) : KeepsLaws s (captureEdge s) :=
  .ite (fun _ => (originChange_keeps (homeOrigin s) s).trans (.still (by simp))) fun _ => .rfl

theorem stalled_keeps (s : State) : KeepsLaws s (stalled s) :=
  (originChange_keeps (homeOrigin s) s).trans (.still (by simp [stalled]))

theorem homingUpdate_keeps (r : Result) (s : State) : KeepsLaws s (homingUpdate r s) := by
  have travel (x : State) : KeepsLaws x (travelUpdate x) := .ite (fun _ => failHoming_keeps _ x) fun _ => .rfl
  have counted : KeepsLaws s { s with hom := { s.hom with stall := stallCount s } } := .still (by simp)
  have requested : KeepsLaws s (requestMode .hold s) := .still (by simp)
  refine .ite (fun seeks => ?_) fun _ => .rfl
  split
  · exact .ite (fun _ => .ite (fun _ => stalled_keeps s) fun _ => counted.trans (travel _)) fun _ => travel s
  · exact .ite (fun _ => becomeHomed_keeps (noJob_of_homing seeks)) fun _ => .rfl
  · exact .ite (fun _ => requested.trans (becomeHomed_keeps (noJob_of_homing (by simpa using seeks)))) fun _ => .rfl
  · exact .rfl

/-! ### The loss of the encoder (R19, R51) -/

theorem faultHoming_job (s : State) : JobGoesOn s (faultHoming s) := by
  cases runs : jobRunning s
  · exact .of_job (by rw [faultHoming_tks_of_none runs])
  · exact .of_idle (faultHoming_tks runs).1

@[simp] theorem faultHoming_linkFault (s : State) : (faultHoming s).lnk.linkFault = s.lnk.linkFault := by
  have aborts (x : State) : (abortRunning .stop x).lnk.linkFault = x.lnk.linkFault :=
    (congrArg Lnk.linkFault (abortRunning_besideFifo .stop x) :)
  unfold faultHoming
  rw [aborts]
  split <;> simp

/-- The loss of the encoder ends every job that a stop aborts: one that runs with the homing, another with the drive. -/
theorem encoderFault_ends (first : Bool) {s : State} (clear : s.svo.encFault = false) (safe : jobSafe s) :
    jobAbortable (encoderFault first s).tks.job = false := by
  have stop (x : State) (present : causePresent x .encoderFault = true) : stopInForce (holdFor .encoderFault x) = true :=
    stopInForce_of_hold (holdFor_some _ present)
  rw [encoderFault_eq clear]
  cases first
  · refine reactStops_ends (stop _ (by simp [causePresent, causeCondition, faulted])) fun held => ?_
    simp only [holdFor_frame, holdFor_drive, faultHoming_frame] at held ⊢
    rcases faultHoming_job (faulted s) held with was | ready
    · exact (safe was).1
    · exact ready.1
  · have ended : jobAbortable (causeArises .encoderFault (faulted s)).tks.job = false :=
      reactStops_ends (stop (faulted s) rfl) fun held => by
        simp only [holdFor_frame, holdFor_drive] at held ⊢
        exact (safe held).1
    have still : jobRunning (causeArises .encoderFault (faulted s)) = false := by
      rw [← Bool.not_eq_true]; exact fun runs => by simp [abortable_of_running runs] at ended
    simpa [faultHoming_tks_of_none still] using ended

theorem encoderFault_keeps (first : Bool) (s : State) : KeepsLaws s (encoderFault first s) := by
  cases clear : s.svo.encFault
  · refine ⟨fun _ => ?_, fun safe => jobSafe_of_none (encoderFault_ends first clear safe)⟩
    rw [encoderFault_eq clear]
    split
    · refine stopSafe_of_same ?_ (causeArises_stopSafe (c := .encoderFault) (s := faulted s) rfl)
      simp
    · exact causeArises_stopSafe (by simp [causePresent, causeCondition, faulted])
  · rw [encoderFault_of_present clear]; exact .still (by simp)

theorem encoderStep_keeps (q : QuadStep) (first : Bool) (s : State) : KeepsLaws s (encoderStep q first s) := by
  refine .ite (fun _ => .rfl) fun _ => ?_
  cases q
  · exact .still (by simp)
  · exact .still (by simp)
  · exact encoderFault_keeps _ s

end Sys2Proof.Machine
end

