-- ==== Sys2Proof/Proofs/StepLaws.lean ====
section
/-! SUPPORT. What keeps the law of the stops and the law of the jobs in each command of the table, and so in every step (O7, O9). -/

namespace Sys2Proof.Machine

open Sys2Proof.Safety

/-! ### Frames of the link (R155 to R164) -/

/-- A station heard leaves the lost set; no peer joins it (R60). -/
theorem recordStatus_keeps (st : Station) (i : StatusItems) (c : CraneTime) (s : State) :
    KeepsLaws s (recordStatus st i c s) := by
  refine .of_fewer rfl (fun x present => ?_) id
  cases x
  case peerLost =>
    simp only [causePresent, causeCondition, bne_iff_ne, ne_eq, recordStatus] at present ⊢
    exact fun empty => present (by simp [empty, withoutStation])
  all_goals exact present

@[simp] theorem recordDemand_lost (st : Station) (d : DemandItems) (s : State) : (recordDemand st d s).ptb.lost = s.ptb.lost := by
  unfold recordDemand; split <;> simp

@[simp] theorem handZero_lost (own : Bool) (b : Body) (s : State) : (handZero own b s).ptb.lost = s.ptb.lost := by
  unfold handZero
  split
  · split <;> simp
  · rfl

theorem receiveStatus_keeps (own : Bool) (st : Station) (i : StatusItems) (c : CraneTime) (s : State) :
    KeepsLaws s (receiveStatus own st i c s) := by
  have hears (o : Int) (v : Bool) (x : State) : KeepsLaws x (clockHears o v x) := .still (by simp)
  exact .ite (fun _ => .rfl) fun _ => .ite (fun _ => .still (by simp)) fun _ =>
    (recordStatus_keeps st i c s).trans ((hears _ _ _).trans (setHolder_keeps _ _ _))

@[simp] theorem lnkRestart_linkFault (l : Lnk) : l.restart.linkFault = l.linkFault := rfl

/-- A RESTART leaves the drive PARKED, no job, and a hold for every cause that is still present (R84, R176). -/
theorem restartPart_keeps (s : State) : KeepsLaws s (restartPart s) :=
  ⟨fun _ => (stopSafe_iff _).mpr ⟨driveAgrees_of_parked (restartPart_drive s), holdAgain_causesHeld (rebuilt s)⟩,
    fun _ => jobSafe_of_none (by simp [restartPart_eq, rebuilt, Tks.start, jobAbortable])⟩

theorem requestRestart_keeps (s : State) : KeepsLaws s (requestRestart s) :=
  .ite (fun _ => restartPart_keeps s) fun _ => .still (by simp)

theorem handBlocks_keeps (own : Bool) (f : Frame) (c : CraneTime) (s : State) : KeepsLaws s (handBlocks own f c s) := by
  unfold handBlocks
  split
  · exact setHolder_keeps _ _ s
  · exact setHolder_keeps _ _ s
  · exact .ite (fun _ => resumeStops_keeps s) fun _ => .rfl
  · exact takeWake_keeps _ s
  · exact takePark_keeps _ s
  · exact takeHome_keeps _ s
  · exact .ite (fun _ => requestRestart_keeps s) fun _ => .rfl
  · exact handTake_keeps own _ s
  · exact .still (by simp)
  · exact .still (by simp)
  · exact receiveStatus_keeps own _ _ c s

theorem handFrame_keeps (own : Bool) (f : Frame) (c : CraneTime) (s : State) : KeepsLaws s (handFrame own f c s) := by
  have joined : KeepsLaws s (joinQueue f own c s) := .still (by simp)
  exact joined.trans (.ite (fun _ => .still (by simp)) fun _ => handBlocks_keeps own f c _)

theorem startWork_keeps {s t : State} (keeps : KeepsLaws s t) : KeepsLaws s (startWork t) := keeps.trans (.still (by simp))

theorem deliver_keeps (st : Station) (b : Body) (s : State) : KeepsLaws s (deliver st b s) :=
  startWork_keeps (.trans (.still (by simp)) (handFrame_keeps _ _ _ _))

theorem hearLine_keeps (line : List Bool) (s : State) : KeepsLaws s (hearLine line s) := .still (by simp)

theorem applyPause_keeps (s : State) : KeepsLaws s (applyPause s) := .ite (fun _ => .still (by simp)) fun _ => .rfl

@[simp] theorem countBitError_linkFault (l : Lnk) : (countBitError l).linkFault = l.linkFault := rfl

@[simp] theorem abandonFrame_linkFault (l : Lnk) : (abandonFrame l).linkFault = l.linkFault := by
  unfold abandonFrame; dsimp only; repeat' split
  all_goals rfl

theorem failAttempt_keeps (s : State) : KeepsLaws s (failAttempt s) := by
  unfold failAttempt
  split
  · exact .rfl
  · exact .trans (.trans (.still (by simp)) (.ite (fun _ => raiseLinkFault_keeps _) fun _ => .rfl)) (applyPause_keeps _)

theorem dominantBit_keeps (s : State) : KeepsLaws s (dominantBit s) :=
  .ite (fun _ => .trans (.trans (.still (by simp)) (raiseLinkFault_keeps _)) (applyPause_keeps _)) fun _ => hearLine_keeps _ s

/-- A completion ends LINK-FAULT and raises nothing (R161). -/
theorem completed_keeps {s : State} {l : Lnk} (ended : l.linkFault = false) : KeepsLaws s { s with lnk := l } := by
  refine .of_fewer rfl (fun x present => ?_) id
  cases x
  case linkFault => simp [causePresent, causeCondition, ended] at present
  all_goals exact present

theorem clearSlot_linkFault (t : Tx) (l : Lnk) : (clearSlot t l).linkFault = l.linkFault := by
  unfold clearSlot; repeat' split
  all_goals rfl

theorem completeAttempt_keeps (s : State) : KeepsLaws s (completeAttempt s) := by
  have placed (x : State) : KeepsLaws x (placeHeld x) := .takes (by simp) (.of_job (by simp))
  have reduced (b : Body) (x : State) : KeepsLaws x (reduceSent b x) := .still (by simp)
  unfold completeAttempt
  split
  · exact .rfl
  · refine .ite (fun _ => completed_keeps rfl) fun _ => startWork_keeps ?_
    exact (completed_keeps (clearSlot_linkFault _ _)).trans ((placed _).trans ((reduced _ _).trans (handFrame_keeps _ _ _ _)))

theorem placeAbort_keeps (s : State) : KeepsLaws s (placeAbort s) := by
  unfold placeAbort
  split
  · exact .rfl
  · refine .ite (fun _ => .takes (by simp) (.of_job (by simp))) fun _ => ?_
    split
    · exact .ite (fun _ => completeAttempt_keeps s) fun _ => .rfl
    · exact .rfl

@[simp] theorem sendStartBit_linkFault (s : State) : (sendStartBit s).lnk.linkFault = s.lnk.linkFault := by
  unfold sendStartBit; repeat' split
  all_goals rfl

@[simp] theorem loseArbitration_linkFault (s : State) : (loseArbitration s).lnk.linkFault = s.lnk.linkFault := by
  unfold loseArbitration; split <;> rfl

@[simp] theorem releasePause_linkFault (s : State) : (releasePause s).lnk.linkFault = s.lnk.linkFault := by
  unfold releasePause; split <;> rfl

@[simp] theorem firstBit_linkFault (s : State) : (firstBit s).lnk.linkFault = s.lnk.linkFault := by
  unfold firstBit; repeat' split
  all_goals simp

@[simp] theorem discardFrame_linkFault (bits : List Bool) (s : State) : (discardFrame bits s).lnk.linkFault = s.lnk.linkFault := by
  unfold discardFrame; dsimp only; split <;> simp

@[simp] theorem tickLine_linkFault (l : Lnk) : (tickLine l).linkFault = l.linkFault := by
  unfold tickLine; split <;> simp

@[simp] theorem queueCommand_linkFault (b : Body) (s : State) : (queueCommand b s).lnk.linkFault = s.lnk.linkFault :=
  (congrArg Lnk.linkFault (queueCommand_besideFifo b s) :)

/-! ### The take memory, the clock and the companion port -/

theorem unitIdle_keeps {s t : State} (keeps : KeepsLaws s t) : KeepsLaws s (unitIdle t) := keeps.trans (.still (by simp))

theorem programMatched_keeps (w : ProgWork) (s : State) : KeepsLaws s (programMatched w s) :=
  .takes (by simp) (programMatched_job w s)

theorem programFailed_keeps (p : Program) (s : State) : KeepsLaws s (programFailed p s) := .takes (by simp) (programFailed_job p s)

theorem eraseResult_keeps (c : Nat) (ok : Bool) (s : State) : KeepsLaws s (eraseResult c ok s) := .still (by simp)

theorem programEnded_keeps (seen : Option (List Byte)) (reportOnly : Bool) (s : State) :
    KeepsLaws s (programEnded seen reportOnly s) := by
  have stored (m : Memory) : KeepsLaws s { s with flash := m } := .still (by simp)
  unfold programEnded
  split
  · exact .ite (fun _ => .rfl) fun _ => .ite (fun _ => .still (by simp)) fun _ => unitIdle_keeps
      (.ite (fun _ => (stored _).trans (programMatched_keeps _ _)) fun _ => (stored _).trans (programFailed_keeps _ _))
  all_goals exact .rfl

theorem eraseEnded_keeps (seen : Option (List Byte)) (reportOnly : Bool) (s : State) :
    KeepsLaws s (eraseEnded seen reportOnly s) := by
  have stored (m : Memory) : KeepsLaws s { s with flash := m } := .still (by simp)
  unfold eraseEnded
  split
  · exact .ite (fun _ => .rfl) fun _ => .ite (fun _ => .still (by simp)) fun _ => unitIdle_keeps
      ((stored _).trans (eraseResult_keeps _ _ _))
  all_goals exact .rfl

theorem operationUpdate_keeps (left : Option (List Byte)) (s : State) : KeepsLaws s (operationUpdate left s) := by
  have stored (m : Memory) : KeepsLaws s { s with flash := m } := .still (by simp)
  refine .ite (fun _ => (stored (leaveMemory left s.tsc.unit s.flash)).trans ?_) fun _ => .rfl
  unfold operationFailed
  dsimp only
  split
  · exact unitIdle_keeps (programFailed_keeps _ _)
  · exact unitIdle_keeps (eraseResult_keeps _ _ _)
  all_goals exact .rfl

theorem abortOwn_keeps (r : Reason) (s : State) : KeepsLaws s (abortOwn r s) := .takes (by simp) (.of_idle (by simp))

theorem moveTime_keeps (c : Int) (s : State) : KeepsLaws s (moveTime c s) := .still (by simp [moveTime])

theorem applyStep_keeps (t : Int) (s : State) : KeepsLaws s (applyStep t s) := by
  have clock (x : State) (k : Cck) : KeepsLaws x { x with cck := k } := .still (by simp)
  have aborts (x : State) : KeepsLaws x (abortRunning .sync x) := .ite (fun _ => abortOwn_keeps _ x) fun _ => .rfl
  exact .ite (fun _ => (moveTime_keeps _ s).trans ((clock _ _).trans (aborts _)))
    fun _ => (moveTime_keeps t s).trans ((clock _ _).trans (.ite (fun _ => abortOwn_keeps _ _) fun _ => .rfl))

theorem applyCorrection_keeps (s : State) : KeepsLaws s (applyCorrection s) := by
  have clock (x : State) (k : Cck) : KeepsLaws x { x with cck := k } := .still (by simp)
  have taken := clock s { s.cck with pending := none }
  unfold applyCorrection
  dsimp only
  split
  · exact .rfl
  · exact taken.trans ((moveTime_keeps _ _).trans (clock _ _))
  · exact taken.trans (moveTime_keeps _ _)
  · exact startWork_keeps (taken.trans (applyStep_keeps _ _))

theorem answered_keeps {s t x : State} (a : Answer) (r : Response) (keeps : KeepsLaws s t) : KeepsLaws s (answered x a r t) :=
  keeps.trans (.still (by simp))

theorem refused_keeps (a : Answer) (s : State) : KeepsLaws s (refused a s) := answered_keeps a .none .rfl

/-- A companion halt is a condition; the cause is its latch (R85). -/
theorem companionHalt_keeps (halts : Bool) (s : State) :
    KeepsLaws s { s with stc := { s.stc with companionHalt := halts } } := by
  refine .of_fewer rfl (fun x present => ?_) id
  cases x <;> exact present

theorem portHalt_keeps (s : State) : KeepsLaws s (portHalt s) :=
  .ite (fun _ => refused_keeps _ s) fun _ => answered_keeps _ _ ((companionHalt_keeps true s).trans (raiseHalt_keeps _))

theorem portUnhalt_keeps (s : State) : KeepsLaws s (portUnhalt s) :=
  .ite (fun _ => refused_keeps _ s) fun _ => answered_keeps _ _ (companionHalt_keeps false s)

theorem portRestart_keeps (s : State) : KeepsLaws s (portRestart s) := answered_keeps _ _ (requestRestart_keeps s)

theorem portSend_keeps (kind : Byte) (payload : List Byte) (s : State) : KeepsLaws s (portSend kind payload s) := by
  have queued (b : Body) : KeepsLaws s (queueCommand b s) := .still (by simp)
  refine .ite (fun _ => refused_keeps _ s) fun _ => ?_
  split
  · exact refused_keeps _ s
  · exact .ite (fun _ => answered_keeps _ _ (queued _)) fun _ => refused_keeps _ s

theorem portReceive_keeps (s : State) : KeepsLaws s (portReceive s) := by
  unfold portReceive
  split
  · exact refused_keeps _ s
  · exact .still (by simp)

theorem portFilter_keeps (kinds : BitVec 16) (s : State) : KeepsLaws s (portFilter kinds s) :=
  .ite (fun _ => refused_keeps _ s) fun _ => .ite (fun _ => answered_keeps _ _ (.still (by simp))) fun _ => refused_keeps _ s

theorem portSnapshot_keeps (sec index : Byte) (s : State) : KeepsLaws s (portSnapshot sec index s) := by
  unfold portSnapshot
  split
  · exact answered_keeps _ _ (.still (by simp))
  · exact refused_keeps _ s

theorem portConfigWrite_keeps (block : List Byte) (s : State) : KeepsLaws s (portConfigWrite block s) :=
  .ite (fun _ => refused_keeps _ s) fun _ => .ite (fun _ => startWork_keeps (answered_keeps _ _ (.still (by simp))))
    fun _ => refused_keeps _ s

theorem portFormat_keeps (s : State) : KeepsLaws s (portFormat s) :=
  .ite (fun _ => .ite (fun _ => startWork_keeps (answered_keeps _ _ (.still (by simp)))) fun _ => refused_keeps _ s)
    fun _ => refused_keeps _ s

/-! ### START (R168) -/

/-- START leaves both laws, whatever they were before. -/
theorem startPart_keeps (chainOpen : Bool) (memory : MemoryPower) (s : State) : KeepsLaws s (startPart chainOpen memory s) := by
  obtain ⟨-, stops, -, jobs, -⟩ := invariantsHoldAtReset
  have fresh (x : State) (same : x.stc = Stc.start ∧ x.svo = Svo.start ∧ x.ptb = Ptb.start ∧ x.lnk = Lnk.start ∧ x.hom = Hom.start ∧
      x.tks = Tks.start) : KeepsLaws s x := by
    obtain ⟨stc, svo, ptb, lnk, hom, tks⟩ := same
    have still : KeepsLaws State.reset x := .still (by simp [State.reset, stc, svo, ptb, lnk, hom, tks])
    exact ⟨fun _ => still.stops stops, fun _ => still.jobs jobs⟩
  exact .ite (fun _ => (fresh _ (by simp [State.reset])).trans (openChain_keeps _)) fun _ => fresh _ (by simp [State.reset])

/-! ### The update (R62 and what every chapter does at each update) -/

theorem cleanUpdate_keeps (s : State) : KeepsLaws s (cleanUpdate s) := by
  refine .ite (fun _ => .ite (fun _ => .of_fewer rfl (fun x present => ?_) id) fun _ => .still (by simp)) fun _ => .rfl
  cases x
  case encoderFault => simp [causePresent, causeCondition] at present
  all_goals exact present

theorem readHalt_keeps (inp : UpdateInputs) (s : State) : KeepsLaws s (readHalt inp s) := by
  refine .of_fewer rfl (fun x present => ?_) id
  cases x <;> exact present

theorem sampled_keeps (inp : UpdateInputs) (s : State) : KeepsLaws s (sampled inp s) := by
  have started : KeepsLaws s (crewUpdate inp.crew (startUpdate inp (stepAging (clockWrap (countUpdate s))))) :=
    .still (by simp)
  exact started.trans ((readHalt_keeps inp _).trans (cleanUpdate_keeps _))

theorem causesAt_keeps (here : Bool) (s : State) : KeepsLaws s (causesAt here s) :=
  .ite (fun _ => updateCauses_keeps s) fun _ => .rfl

theorem decided_keeps (inp : UpdateInputs) (known : Bool) (s : State) : KeepsLaws s (decided inp known s) :=
  .still (by simp [decided, statusAt_linkFault])

theorem toServo_keeps (inp : UpdateInputs) (s : State) : KeepsLaws s (toServo inp s).1 := by
  have moved (x : State) : KeepsLaws x (withMotion x).1 := .still (by simp [withMotion, servo_encFault])
  simp only [toServo, beforeMotion_eq]
  exact (sampled_keeps inp s).trans ((causesAt_keeps _ _).trans ((decided_keeps inp _ _).trans (moved _)))

theorem resultCauses_keeps (r : Result) (s : State) : KeepsLaws s (resultCauses r s) := by
  have raised : KeepsLaws s (if Config.followTrip ≤ s.svo.follow then raiseFollow s else s) :=
    .ite (fun _ => raiseFollow_keeps s) fun _ => .rfl
  exact raised.trans (.ite (fun _ => raiseOverrun_keeps _) fun _ => .rfl)

theorem takeResult_keeps (r : Result) (s : State) : KeepsLaws s (takeResult r s) :=
  (resultCauses_keeps r s).trans ((homingUpdate_keeps r _).trans ((restUpdate_keeps r _).trans
    ((wakingUpdate_keeps _).trans (takesUpdate_keeps r _))))

theorem queued_keeps (inp : UpdateInputs) (known : Bool) (s : State) : KeepsLaws s (queued inp known s) :=
  .still (by simp [queued, ageEntries, statusAt_linkFault, queueUpdateDemand_linkFault])

theorem afterMotion_keeps (inp : UpdateInputs) (known : Bool) (s : State) : KeepsLaws s (afterMotion inp known s) := by
  have evaluates (zones demand : Bool) (x : State) : KeepsLaws x (evaluated zones demand x) := .still (by simp)
  rw [afterMotion_eq]
  exact (evaluates _ _ s).trans ((causesAt_keeps _ _).trans ((queued_keeps inp known _).trans (operationUpdate_keeps _ _)))

theorem update_keeps (inp : UpdateInputs) (s : State) : KeepsLaws s (update inp s) := by
  have shown (x : State) : KeepsLaws x (showDemand x) := .still (by simp)
  exact startWork_keeps ((toServo_keeps inp s).trans ((takeResult_keeps _ _).trans ((afterMotion_keeps inp _ _).trans
    ((settleHold_keeps s _).trans (shown _)))))

theorem updateWhen_keeps (due : Bool) (inp : UpdateInputs) (s : State) : KeepsLaws s (updateWhen due inp s) :=
  .ite (fun _ => update_keeps inp s) fun _ => .rfl

/-! ### Every command, and every step -/

theorem exec_keeps (c : Instr) (s t : State) (taken : exec c s = .next t) : KeepsLaws s t := by
  cases c <;> cases taken
  case start chainOpen memory => exact startPart_keeps _ _ s
  case restartCommand => exact portRestart_keeps s
  case update inp => exact update_keeps inp s
  case correctionApply => exact applyCorrection_keeps s
  case timeOwn | timeSteppedClear | strapsRead | storeIdTimeout | encoderFaultEnd | stall | crewAbsent | followError |
      demandStale | peerLost | wakingEnd | flashTimeout => exact updateWhen_keeps _ _ s
  case encoderTransition => exact startWork_keeps (encoderStep_keeps _ _ s)
  case switchCapture => exact captureEdge_keeps s
  case chainOpen => exact startWork_keeps (openChain_keeps s)
  case chainClose =>
    refine .of_fewer rfl (fun x present => ?_) id
    cases x
    case chain => simp [causePresent, causeCondition] at present
    all_goals exact present
  case programComplete => exact programEnded_keeps _ _ s
  case eraseComplete => exact eraseEnded_keeps _ _ s
  case heldAbortPlace => exact placeAbort_keeps s
  case bitError => exact startWork_keeps ((hearLine_keeps _ s).trans (failAttempt_keeps _))
  case stuckLine => exact startWork_keeps ((hearLine_keeps _ s).trans (dominantBit_keeps _))
  case transmitComplete => exact completeAttempt_keeps s
  case restartFrame | stopFrame | releaseFrame | resume | wake | park | home | demandFrame | statusFrame | takePrepare |
      takeCue | takeRoll | takeCut | takeAbort | takeDelete | takeLock | mark => exact deliver_keeps _ _ s
  case send => exact portSend_keeps _ _ s
  case halt => exact startWork_keeps (portHalt_keeps s)
  case unhalt => exact portUnhalt_keeps s
  case receive => exact portReceive_keeps s
  case receiveCopyEnd => exact .ite (fun _ => .still (by simp)) fun _ => .rfl
  case filter => exact portFilter_keeps _ s
  case snapshot => exact portSnapshot_keeps _ _ s
  case configWrite => exact portConfigWrite_keeps _ s
  case format => exact portFormat_keeps s
  case transmitStart line => exact .still (by simp [startAttempt])
  case faultPauseEnd line => exact .still (by simp [endPause])
  case receivedStartBit line => exact .still (by simp [startBit])
  case buttonPress b => exact .ite (fun _ => .still (by simp)) fun _ => .rfl
  all_goals exact .still (by simp)

theorem step_keeps {s t : State} (stepped : step s = .next t) : KeepsLaws s t := by
  cases waiting : s.pending with
  | nil =>
    simp only [step, waiting] at stepped
    cases stepped
    exact .still (by simp [tick])
  | cons c rest =>
    rw [step_front waiting] at stepped
    exact .trans (.still (by simp)) (exec_keeps c { s with pending := rest } t stepped)

/-- Settles O7: every operation of a step keeps the law of the stops. -/
theorem stepKeepsStops : Obligations.StepKeepsStops := fun _ _ safe stepped => (step_keeps stepped).stops safe

/-- Settles O9: every operation of a step keeps the law of the jobs. -/
theorem stepKeepsJobs : Obligations.StepKeepsJobs := fun _ _ safe stepped => (step_keeps stepped).jobs safe

end Sys2Proof.Machine
end

