-- ==== Sys2Proof/Proofs/StopSources.lean ====
section
/-! SUPPORT. The hold that a cause set makes, the stop chain, and the STOP and RELEASE frames (R85 to R90, R101, R164). -/

namespace Sys2Proof.Machine

open Sys2Proof.Safety

/-! ### The hold that a cause set makes (R85, R88, R101) -/

theorem formHold_eq_none_iff (cs : List Cause) : formHold cs = none ↔ cs = [] := by
  cases cs <;> simp [formHold]

/-- The first cause names the hold. -/
theorem formHold_code {cs : List Cause} {h : Hold} (formed : formHold cs = some h) : h.code = cs.head? := by
  cases cs with
  | nil => cases formed
  | cons c cs => cases formed; rfl

/-- Any HARD cause makes the hold HARD. -/
theorem formHold_kind {cs : List Cause} {h : Hold} (formed : formHold cs = some h) :
    h.kind = .hard ↔ ∃ c ∈ cs, causeKind c = .hard := by
  cases cs with
  | nil => cases formed
  | cons c cs =>
    cases formed
    dsimp only
    split
    · next hard => exact iff_of_true rfl (by simpa using hard)
    · next soft => exact iff_of_false (by simp) (by simpa using soft)

/-- The code of a hold is the first cause present in the order of the table of R85. -/
theorem hold_code {s : State} {h : Hold} (formed : formHold (localCauses s) = some h) :
    h.code = causeOrder.find? (causePresent s) := by
  rw [formHold_code formed, localCauses, List.head?_filter]

theorem hold_kind {s : State} {h : Hold} (formed : formHold (localCauses s) = some h) :
    h.kind = .hard ↔ s.stc.chainOpen = true ∨ s.svo.encFault = true ∨ s.stc.followLatch = true := by
  rw [formHold_kind formed]
  constructor
  · rintro ⟨c, listed, hard⟩
    have present := mem_localCauses.mp listed
    cases c
    case chain => exact .inl present
    case encoderFault => exact .inr (.inl present)
    case followError => exact .inr (.inr present)
    all_goals cases hard
  · rintro (chain | fault | follow)
    · exact ⟨.chain, mem_localCauses.mpr chain, rfl⟩
    · exact ⟨.encoderFault, mem_localCauses.mpr fault, rfl⟩
    · exact ⟨.followError, mem_localCauses.mpr follow, rfl⟩

theorem localCauses_eq_nil_iff (s : State) : localCauses s = [] ↔ ∀ c, causePresent s c = false := by
  simp only [List.eq_nil_iff_forall_not_mem, mem_localCauses, Bool.not_eq_true]

theorem formHold_named {cs : List Cause} {h : Hold} (formed : formHold cs = some h) : h.code ≠ none := by
  cases cs with
  | nil => cases formed
  | cons c cs => cases formed; exact Option.some_ne_none c

theorem find?_cons_ite {α : Type} (p : α → Bool) (c : α) (cs : List α) :
    (c :: cs).find? p = if p c then some c else cs.find? p := by
  cases at_ : p c <;> simp [at_]

/-- The code of a hold by the conditions and latches, in the order of the table of R85. -/
theorem hold_code_eq {s : State} {h : Hold} (formed : formHold (localCauses s) = some h) :
    h.code =
      if s.stc.chainOpen then some .chain else if s.svo.encFault then some .encoderFault
      else if s.stc.followLatch then some .followError else if s.stc.haltLatch then some .halt
      else if s.ptb.lost != 0 then some .peerLost else if s.lnk.linkFault then some .linkFault
      else if s.stc.overrunLatch then some .overrun else none := by
  rw [hold_code formed]
  simp only [causeOrder, find?_cons_ite, List.find?_nil]
  rfl

/-! ### The stop chain (R86, R88) -/

/-- The stop chain line reads open. -/
def chainOpened (s : State) : State := { s with stc := { s.stc with chainOpen := true } }

/-- A HARD hold with code CHAIN, and its STOP queued. -/
def chainHeld (s : State) : State :=
  queueSafety (.stop .hard (some .chain))
    { chainOpened s with stc := { (chainOpened s).stc with hold := some { kind := .hard, code := some .chain } } }

theorem formHold_chainOpened (s : State) :
    formHold (localCauses (chainOpened s)) = some { kind := .hard, code := some .chain } := by
  have chain : causePresent (chainOpened s) .chain = true := rfl
  have causes : localCauses (chainOpened s) = .chain :: causeOrder.tail.filter (causePresent (chainOpened s)) := by
    simp [localCauses, causeOrder, List.filter_cons, chain]
  rw [causes]; rfl

theorem openChain_of_open {s : State} (isOpen : s.stc.chainOpen = true) : openChain s = chainOpened s := if_pos isOpen

theorem openChain_of_closed {s : State} (closed : s.stc.chainOpen = false) :
    openChain s = reactStops (holdFor .chain (chainOpened s)) :=
  if_neg (by simp [causePresent, causeCondition, closed])

/-- CHAIN begins a hold, or escalates a RAMP one. -/
theorem holdFor_chainOpened {s : State} (begins : s.stc.hold = none ∨ ∃ h, s.stc.hold = some h ∧ h.kind = .ramp) :
    holdFor .chain (chainOpened s) = chainHeld s := by
  rcases begins with none | ⟨h, held, ramp⟩
  · have free : (chainOpened s).stc.hold = Option.none := none
    simp only [holdFor, free, holdAgain_of_formed (formHold_chainOpened s)]
    rfl
  · have holds : (chainOpened s).stc.hold = some h := held
    simp only [holdFor, holds, ramp, causeKind, and_self, if_true]
    rfl

theorem exec_chainOpen {s t : State} (opens : openChain s = t) : exec .chainOpen s = .next (startWork t) :=
  congrArg (fun x => Host.Outcome.next (startWork x)) opens

/-! ### STOP and RELEASE frames (R89, R90, R164) -/

/-- A frame that sets or removes the sender's holder entry, of another station: the drive follows. -/
theorem deliver_holder_of_other {st : Station} {b : Body} {h : Option Hold} {s : State} (known : st ≠ 0)
    (other : isOwn st s = false)
    (hands : ∀ c t, handBlocks false { station := st, body := b } c t = setHolder st h t) :
    deliver st b s = startWork (reactStops { received st b s with
      stc := { s.stc with holders := s.stc.holders.set st h } }) := by
  have other' : isOwn st (received st b s) = false := (isOwn_congr st (by simp)).trans other
  have stc : (received st b s).stc = s.stc := by simp
  rw [deliver_eq known, hands, setHolder_of_other h known other', stc]

/-- Such a frame of station 0 or in the own name leaves the holder set alone. -/
theorem deliver_holder_of_none {st : Station} {b : Body} {h : Option Hold} {s : State} (none : st = 0 ∨ isOwn st s = true)
    (still : ∀ i, b ≠ .status i)
    (hands : ∀ c t, handBlocks false { station := st, body := b } c t = setHolder st h t) :
    deliver st b s = startWork (received st b s) := by
  by_cases zero : st = 0
  · subst zero
    exact deliver_zero_of_unmoved (.inl still)
  · have own : isOwn st s = true := none.resolve_left zero
    have own' : isOwn st (received st b s) = true := (isOwn_congr st (by simp)).trans own
    rw [deliver_eq zero, hands, setHolder_of_own h own']

/-- Settles O38: the stop chain by the hold it finds, the two frames by their sender. -/
theorem stopSources : Obligations.StopSources := by
  unfold Obligations.StopSources
  refine ⟨fun s => ?_, fun st kind code s => ?_⟩
  · have opens (closed : s.stc.chainOpen = false)
        (begins : s.stc.hold = none ∨ ∃ h, s.stc.hold = some h ∧ h.kind = .ramp) :
        openChain s = reactStops (chainHeld s) := by
      rw [openChain_of_closed closed, holdFor_chainOpened begins]
    refine ⟨fun isOpen => exec_chainOpen (openChain_of_open isOpen), fun closed none => exec_chainOpen (opens closed (.inl none)),
      fun h closed held ramp => exec_chainOpen (opens closed (.inr ⟨h, held, ramp⟩)),
      fun h closed held hard => exec_chainOpen ?_, rfl⟩
    rw [openChain_of_closed closed, holdFor_of_hard .chain (s := chainOpened s) held hard]
    rfl
  · refine ⟨fun known other => ⟨congrArg Host.Outcome.next (deliver_holder_of_other known other fun _ _ => rfl),
        congrArg Host.Outcome.next (deliver_holder_of_other known other fun _ _ => rfl)⟩,
      fun none => ⟨congrArg Host.Outcome.next (deliver_holder_of_none none (by simp) fun _ _ => rfl),
        congrArg Host.Outcome.next (deliver_holder_of_none none (by simp) fun _ _ => rfl)⟩⟩

end Sys2Proof.Machine
end

