-- ==== Sys2Proof/Proofs/ResumeAndHalt.lean ====
section
/-! SUPPORT. What the blocks read of a state that has received a frame, a RESUME, and the companion's halt and filter (R85, R87, R88, R100, R101, R164, R178 to R180). -/

namespace Sys2Proof.Machine

open Sys2Proof.Safety

/-! ### What the blocks read of a state that has received a frame (R164, R180) -/

/-- A received frame changes LNK and the receive queue only. -/
theorem received_eq (st : Station) (b : Body) (s : State) :
    received st b s = { s with lnk := (received st b s).lnk, cpt := (received st b s).cpt } := by
  have joined := joinQueue_eq { station := st, body := b } false (capturedTime s)
    { s with lnk := { s.lnk.frameEnd with receiving := false } }
  have lnk : (received st b s).lnk = { s.lnk.frameEnd with receiving := false } := by simp [received]
  rw [lnk]
  exact joined

theorem received_peerEntry (st : Station) (b : Body) (s : State) (x : Station) :
    peerEntry (received st b s) x = peerEntry s x := by
  rw [received_eq]; rfl

theorem received_rigReady (st : Station) (b : Body) (s : State) : rigReady (received st b s) = rigReady s := by
  rw [received_eq]; rfl

theorem received_localCauses (st : Station) (b : Body) (s : State) :
    localCauses (received st b s) = localCauses s := by
  have link : (received st b s).lnk.linkFault = s.lnk.linkFault := by simp [received, Lnk.frameEnd]
  exact localCauses_congr (congrArg Stc.latches (by simp)) (by simp) (by simp) link

/-! ### RESUME (R100, R101) -/

theorem resumeAccepted_iff (st : Station) (s : State) :
    resumeAccepted st s = true ↔ ∃ i, (peerEntry s st).items = some i ∧ i.role = .control := by
  cases known : (peerEntry s st).items <;> simp [resumeAccepted, known]

theorem resumeStops_of_free {s : State} (free : s.stc.hold = none) : resumeStops s = clearLatches s := by
  have cleared : (clearLatches s).stc.hold = none := free
  simp [resumeStops, cleared]

/-- With no cause left the hold ends, and RELEASE is queued. -/
theorem resumeStops_of_none {s : State} (held : s.stc.hold ≠ none) (none : localCauses (clearLatches s) = []) :
    resumeStops s = reactStops (queueSafety .release { clearLatches s with
      stc := { (clearLatches s).stc with hold := Option.none } }) := by
  have holds : (clearLatches s).stc.hold.isNone = false := by simpa [clearLatches, ← Option.isSome_iff_ne_none] using held
  simp [resumeStops, holds, none]

/-- With causes left the hold is formed again. -/
theorem resumeStops_of_formed {s : State} {h : Hold} (held : s.stc.hold ≠ none)
    (formed : formHold (localCauses (clearLatches s)) = some h) :
    resumeStops s = reactStops (queueSafety (.stop h.kind h.code) { clearLatches s with
      stc := { (clearLatches s).stc with hold := some h } }) := by
  have holds : (clearLatches s).stc.hold.isNone = false := by simpa [clearLatches, ← Option.isSome_iff_ne_none] using held
  have some : localCauses (clearLatches s) ≠ [] := fun none => by
    rw [(formHold_eq_none_iff _).mpr none] at formed; cases formed
  simp [resumeStops, holds, some, holdAgain_of_formed formed]

theorem deliver_resume_of_refused {st : Station} {s : State} (known : st ≠ 0)
    (refused : ∀ i, (peerEntry s st).items = some i → i.role ≠ .control) :
    deliver st .resume s = startWork (received st .resume s) := by
  have turned : ¬ resumeAccepted st (received st .resume s) = true := by
    rw [resumeAccepted_iff, received_peerEntry]
    rintro ⟨i, items, control⟩
    exact refused i items control
  rw [deliver_eq known]
  exact congrArg startWork (if_neg turned)

theorem deliver_resume_of_accepted {st : Station} {s : State} {i : StatusItems} (known : st ≠ 0)
    (items : (peerEntry s st).items = some i) (control : i.role = .control) :
    deliver st .resume s = startWork (resumeStops (received st .resume s)) := by
  have taken : resumeAccepted st (received st .resume s) = true :=
    (resumeAccepted_iff _ _).mpr ⟨i, by rw [received_peerEntry, items], control⟩
  rw [deliver_eq known]
  exact congrArg startWork (if_pos taken)

theorem clearLatches_eq (s : State) : clearLatches s = { s with stc := { s.stc with
    followLatch := false, overrunLatch := false
    haltLatch := s.stc.haltLatch && (s.stc.haltInput || s.stc.companionHalt) } } := rfl

/-- Settles O39: the RESUME by its sender and the hold it finds, then the code of the hold by the first cause present. -/
theorem resumeClearsAndReleases : Obligations.ResumeClearsAndReleases := by
  unfold Obligations.ResumeClearsAndReleases
  refine ⟨fun st s known => ?_, fun s => ⟨?_, fun h formed => ?_⟩⟩
  · intro r c
    have stc : r.stc = s.stc := by simp [r]
    have cleared : clearLatches r = c := by rw [clearLatches_eq, stc]
    refine ⟨fun refused => congrArg Host.Outcome.next (deliver_resume_of_refused known refused), fun i items control => ?_⟩
    have taken := deliver_resume_of_accepted known items control
    refine ⟨fun free => ?_, fun held none => ?_, fun held h formed => ?_⟩
    · rw [resumeStops_of_free (by rw [stc, free]), cleared] at taken
      exact congrArg Host.Outcome.next taken
    · rw [resumeStops_of_none (by rwa [stc]) (by rwa [cleared]), cleared] at taken
      exact congrArg Host.Outcome.next taken
    · rw [resumeStops_of_formed (by rwa [stc]) (by rwa [cleared]), cleared] at taken
      exact congrArg Host.Outcome.next taken
  · rw [formHold_eq_none_iff, localCauses_eq_nil_iff]
  · have code := hold_code_eq formed
    refine ⟨hold_kind formed, fun chain => by simp [code, chain], fun chain fault => by simp [code, chain, fault],
      fun chain fault follow => by simp [code, chain, fault, follow], fun chain fault follow => ?_⟩
    simp only [chain, fault, follow, Bool.false_eq_true, if_false] at code
    refine ⟨fun halt => by simp [code, halt], fun halt lost => ?_, fun halt lost link => by simp [code, halt, lost, link],
      fun halt lost link => ?_⟩
    · rw [code, if_neg (by simp [halt]), if_pos (bne_iff_ne.mpr lost)]
    · have last : s.stc.overrunLatch = true := by
        by_contra absent
        exact formHold_named formed (by simp [code, halt, lost, link, absent])
      simp [code, halt, lost, link, last]

/-! ### The companion halt and the filter (R87, R178, R179, R180) -/

/-- The companion halt stands, and HALT is latched with it (R87). -/
def haltRaised (s : State) : State := { s with stc := { s.stc with companionHalt := true, haltLatch := true } }

/-- A RAMP hold with code HALT, and its STOP queued. -/
def haltHeld (s : State) : State :=
  queueSafety (.stop .ramp (some .halt))
    { haltRaised s with stc := { (haltRaised s).stc with hold := some { kind := .ramp, code := some .halt } } }

/-- HALT as it stands does not arise again (R85). -/
theorem raiseHalt_of_latched {s : State} (latched : s.stc.haltLatch = true) (halt : s.stc.companionHalt = true) :
    raiseHalt s = s := by
  have same : { s with stc := { s.stc with haltLatch := true } } = s := by rw [← latched]
  have condition : causeCondition s .halt = true := by simp [causeCondition, halt]
  rw [raiseHalt, if_pos condition, raiseCause, if_pos (show causePresent s .halt = true from latched), same]

theorem raiseHalt_of_unlatched {s : State} (unlatched : s.stc.haltLatch = false) :
    raiseHalt { s with stc := { s.stc with companionHalt := true } } = causeArises .halt (haltRaised s) := by
  simp [raiseHalt, raiseCause, causeCondition, causePresent, unlatched, haltRaised]

/-- HALT is a RAMP cause and leaves any hold as it is (R88). -/
theorem holdFor_haltRaised_of_held {s : State} {h : Hold} (held : s.stc.hold = some h) :
    holdFor .halt (haltRaised s) = haltRaised s := by
  have holds : (haltRaised s).stc.hold = some h := held
  simp [holdFor, holds, causeKind]

theorem localCauses_haltRaised {s : State} (none : localCauses s = []) : localCauses (haltRaised s) = [.halt] := by
  have absent := (localCauses_eq_nil_iff s).mp none
  have others : ∀ c, c ≠ .halt → causePresent (haltRaised s) c = false := fun c other => by
    rw [← absent c]
    cases c with
    | halt => exact absurd rfl other
    | _ => rfl
  have halt : causePresent (haltRaised s) .halt = true := rfl
  simp [localCauses, causeOrder, halt, others]

theorem holdFor_haltRaised_of_free {s : State} (free : s.stc.hold = none) (none : localCauses s = []) :
    holdFor .halt (haltRaised s) = haltHeld s := by
  have holds : (haltRaised s).stc.hold = Option.none := free
  have formed : formHold (localCauses (haltRaised s)) = some { kind := .ramp, code := some .halt } := by
    rw [localCauses_haltRaised none]; rfl
  simp only [holdFor, holds, holdAgain_of_formed formed]
  rfl

/-- The hold that HALT leaves makes no stop HARD. -/
theorem hardInForce_holdFor_haltRaised {s : State} (causes : s.stc.hold = none → localCauses s = [])
    (soft : hardInForce s = false) : hardInForce (holdFor .halt (haltRaised s)) = false := by
  cases hold : s.stc.hold with
  | none =>
    rw [holdFor_haltRaised_of_free hold (causes hold)]
    simpa [hardInForce, hold, haltHeld, haltRaised] using soft
  | some h =>
    rw [holdFor_haltRaised_of_held hold]
    exact soft

theorem exec_halt {s : State} (taken : s.cfg.startState ≠ .configFault) : exec .halt s =
    .next (startWork (answered s .accepted .none (raiseHalt { s with stc := { s.stc with companionHalt := true } }))) :=
  congrArg (fun x => Host.Outcome.next (startWork x)) (if_neg taken)

theorem eq_of_stop_frame {s t : State}
    (frame : t.cfg = s.cfg ∧ t.cck = s.cck ∧ t.ptb = s.ptb ∧ t.chan = s.chan ∧ t.zmn = s.zmn ∧ t.flash = s.flash ∧
      t.freeCount = s.freeCount ∧ t.pending = s.pending) :
    t = { s with stc := t.stc, cpt := t.cpt, lnk := t.lnk, mpr := t.mpr, svo := t.svo, hom := t.hom, dmr := t.dmr
                 tks := t.tks, tsc := t.tsc } := by
  obtain ⟨cfg, cck, ptb, chan, zmn, flash, freeCount, pending⟩ := frame
  rw [← cfg, ← cck, ← ptb, ← chan, ← zmn, ← flash, ← freeCount, ← pending]

/-- Settles O57: the refusals, and where the port takes the command the halt by its latch and the filter by its bits. -/
theorem haltUnhaltAndFilter : Obligations.HaltUnhaltAndFilter := by
  unfold Obligations.HaltUnhaltAndFilter
  intro kinds s port
  refine ⟨fun fault => ⟨?_, ?_, ?_⟩, fun taken => ⟨?_, fun latched => ?_, fun unlatched => ?_, fun inside => ?_, fun outside => ?_⟩⟩
  · exact congrArg (fun x => Host.Outcome.next (startWork x)) (if_pos fault)
  · exact congrArg Host.Outcome.next (if_pos fault)
  · exact congrArg Host.Outcome.next (if_pos fault)
  · exact congrArg Host.Outcome.next (if_neg taken)
  · rw [exec_halt taken, raiseHalt_of_latched (by exact latched) rfl]
    rfl
  · rw [exec_halt taken, raiseHalt_of_unlatched unlatched]
    let x := holdFor .halt (haltRaised s)
    have orders := reactStops_orders x
    have unheld : x.stc.unheld = (haltRaised s).stc.unheld := holdFor_unheld .halt _
    have hold : (reactStops x).stc.hold = x.stc.hold := (congrArg Stc.hold orders :)
    have safety : (reactStops x).lnk.safety = x.lnk.safety := (congrArg Lnk.safety (reactStops_besideFifo x) :)
    have whole := eq_of_stop_frame (s := s) (t := startWork (answered s .accepted .none (reactStops x))) (by simp [x, haltRaised])
    refine ⟨startWork (answered s .accepted .none (reactStops x)), rfl, ?_⟩
    simp only [startWork_frame] at whole ⊢
    refine ⟨(congrArg Stc.companionHalt orders :).trans (congrArg Stc.companionHalt unheld :),
      (congrArg Stc.haltLatch orders :).trans (congrArg Stc.haltLatch unheld :), ?_, whole, fun h held => ?_,
      fun free none => ?_, fun on moves causes soft => ?_⟩
    · simp [answered, x, haltRaised, port]
    · have same : x = haltRaised s := holdFor_haltRaised_of_held held
      exact ⟨(hold.trans (congrArg (·.stc.hold) same)).trans held, safety.trans (congrArg (·.lnk.safety) same)⟩
    · have same : x = haltHeld s := holdFor_haltRaised_of_free free none
      exact ⟨hold.trans (congrArg (·.stc.hold) same), safety.trans (congrArg (·.lnk.safety) same)⟩
    · have drive : x.stc.drive = .enabled := (holdFor_drive .halt _).trans on
      have move : x.mpr.v ≠ 0 := by simpa [x, haltRaised] using moves
      have stops : reactStops x = stoppingDrive x := by
        rw [reactStops_of_ramp (hardInForce_holdFor_haltRaised causes soft)
          (stopInForce_of_hold (holdFor_some .halt rfl)) drive, enterStopping_of_move move]
      simp [answered, stops]
  · exact congrArg Host.Outcome.next ((if_neg taken).trans (if_pos inside))
  · exact congrArg Host.Outcome.next ((if_neg taken).trans (if_neg (Nat.not_lt.mpr outside)))

end Sys2Proof.Machine
end

