-- ==== Sys2Proof/Proofs/WakeAndPark.lean ====
section
/-! SUPPORT. WAKE and PARK by the drive state of the axis they name (R50, R96, R98). -/

namespace Sys2Proof.Machine

open Sys2Proof.Safety

/-! ### What WAKE and PARK read of a state that has received a frame -/

theorem received_isAxis (st : Station) (b : Body) (s : State) : isAxis (received st b s) = isAxis s := by
  rw [received_eq]; rfl

theorem received_namesOwn (st : Station) (b : Body) (mask : StationMask) (s : State) :
    namesOwn mask (received st b s) = namesOwn mask s := namesOwn_congr mask (by simp)

theorem wakeAccepted_iff {s : State} (axis : isAxis s = true) :
    wakeAccepted s = true ↔ stopInForce s = false ∧ localCauses s = [] ∧ rigReady s = true ∧
      s.cfg.startState = .parked ∧ s.cpt.writeState ≠ .inProgress := by
  simp [wakeAccepted, axisUp, axis, writeInProgress, and_assoc]

theorem received_wakeAccepted (st : Station) (b : Body) (s : State) :
    wakeAccepted (received st b s) = wakeAccepted s := by
  have stops : stopInForce (received st b s) = stopInForce s := by rw [received_eq]; rfl
  have up : axisUp (received st b s) = axisUp s := axisUp_congr (by simp)
  simp only [wakeAccepted, stops, received_localCauses, received_rigReady, up, writeInProgress, received_writeState]

/-! ### WAKE by the drive state (R96) -/

section
variable {mask : StationMask} {s : State}

theorem takeWake_of_unnamed (none : isAxis s = false ∨ namesOwn mask s = false) : takeWake mask s = s := by
  rcases none with off | other
  · simp [takeWake, off]
  · simp [takeWake, other]

variable (axis : isAxis s = true) (named : namesOwn mask s = true)
include axis named

theorem takeWake_of_accepted (parked : s.stc.drive = .parked) (accepted : wakeAccepted s = true) :
    takeWake mask s = { s with
      stc := { s.stc with drive := .waking, settle := 0, wakeRefused := false }
      svo := { s.svo with follow := 0 }, mpr := { s.mpr with mode := .hold, g := none } } := by
  simp [takeWake, axis, named, parked, accepted, setDrive]

theorem takeWake_of_refused
    (refused : s.stc.drive = .parked ∧ wakeAccepted s = false ∨ s.stc.drive = .stopping ∨ s.stc.drive = .stopped) :
    takeWake mask s = { s with stc := { s.stc with wakeRefused := true } } := by
  rcases refused with ⟨parked, turned⟩ | stopping | stopped
  · simp [takeWake, axis, named, parked, turned]
  · simp [takeWake, axis, named, stopping]
  · simp [takeWake, axis, named, stopped]

theorem takeWake_of_awake (awake : s.stc.drive = .waking ∨ s.stc.drive = .enabled) : takeWake mask s = s := by
  rcases awake with waking | on
  · simp [takeWake, axis, named, waking]
  · simp [takeWake, axis, named, on]

/-! ### PARK by the drive state (R98) -/

theorem takePark_of_waking (waking : s.stc.drive = .waking) : takePark mask s = enterParked (handPark s) := by
  simp [takePark, axis, named, waking]

theorem takePark_of_rest (on : s.stc.drive = .enabled) (rest : s.mpr.v = 0) :
    takePark mask s = enterParked (handPark s) := by
  have move : (handPark s).mpr.v = 0 := (v_of_course (handOn_course .park .parked s)).trans rest
  simp [takePark, axis, named, on, move]

theorem takePark_of_move (on : s.stc.drive = .enabled) (moves : s.mpr.v ≠ 0) :
    takePark mask s = { handPark s with
      stc := { s.stc with parkPending := true }, mpr := { (handPark s).mpr with mode := .hold, g := none } } := by
  have move : (handPark s).mpr.v ≠ 0 := (v_of_course (handOn_course .park .parked s)).trans_ne moves
  have stc : (handPark s).stc = s.stc := by rw [handPark_eq]; simp
  have waits : takePark mask s =
      requestMode .hold { handPark s with stc := { (handPark s).stc with parkPending := true } } := by
    simp [takePark, axis, named, on, move]
  rw [waits, requestMode_of_enabled (by exact (congrArg Stc.drive stc).trans on), stc]

theorem takePark_of_stopping (stopping : s.stc.drive = .stopping) :
    takePark mask s = { handPark s with stc := { s.stc with parkPending := true } } := by
  have stc : (handPark s).stc = s.stc := by rw [handPark_eq]; simp
  have waits : takePark mask s = { handPark s with stc := { (handPark s).stc with parkPending := true } } := by
    simp [takePark, axis, named, stopping]
  rw [waits, stc]

end

theorem takePark_of_none {mask : StationMask} {s : State}
    (none : isAxis s = false ∨ namesOwn mask s = false ∨ s.stc.drive = .parked ∨ s.stc.drive = .stopped) :
    takePark mask s = s := by
  rcases none with off | other | parked | stopped
  · simp [takePark, off]
  · simp [takePark, other]
  · simp [takePark, parked]
  · simp [takePark, stopped]

/-- What an accepted PARK does in every drive state: PARK is handed on, and the stops are left as they are. -/
theorem takePark_handed {mask : StationMask} {s : State} (axis : isAxis s = true) (named : namesOwn mask s = true)
    (active : s.stc.drive = .waking ∨ s.stc.drive = .enabled ∨ s.stc.drive = .stopping) :
    (takePark mask s).mpr.p = s.mpr.p ∧ (takePark mask s).dmr = s.dmr.disarm ∧
      (takePark mask s).hom = (handPark s).hom ∧ (takePark mask s).tks = (handPark s).tks ∧
      (takePark mask s).stc.orders = s.stc.orders := by
  have p : (handPark s).mpr.p = s.mpr.p := p_of_course (handOn_course .park .parked s)
  have dmr : (handPark s).dmr = s.dmr.disarm := handOn_dmr .park .parked s
  have stc : (handPark s).stc = s.stc := by rw [handPark_eq]; simp
  have parks : (enterParked (handPark s)).mpr.p = s.mpr.p ∧ (enterParked (handPark s)).dmr = s.dmr.disarm ∧
      (enterParked (handPark s)).hom = (handPark s).hom ∧ (enterParked (handPark s)).tks = (handPark s).tks ∧
      (enterParked (handPark s)).stc.orders = s.stc.orders := by
    refine ⟨by simp [p], ?_, by simp, by simp, by simp [Stc.orders]⟩
    rw [enterParked_dmr, dmr, ite_eq_right_iff]
    exact fun _ => rfl
  rcases active with waking | on | stopping
  · rw [takePark_of_waking axis named waking]
    exact parks
  · by_cases rest : s.mpr.v = 0
    · rw [takePark_of_rest axis named on rest]
      exact parks
    · rw [takePark_of_move axis named on rest]
      exact ⟨p, dmr, rfl, rfl, rfl⟩
  · rw [takePark_of_stopping axis named stopping]
    exact ⟨p, dmr, rfl, rfl, rfl⟩

theorem deliver_wake {st : Station} (known : st ≠ 0) (mask : StationMask) (s : State) :
    deliver st (.wake mask) s = startWork (takeWake mask (received st (.wake mask) s)) := deliver_eq known _ s

theorem deliver_park {st : Station} (known : st ≠ 0) (mask : StationMask) (s : State) :
    deliver st (.park mask) s = startWork (takePark mask (received st (.park mask) s)) := deliver_eq known _ s

theorem eq_of_park_frame {r t : State}
    (frame : t.cfg = r.cfg ∧ t.cck = r.cck ∧ t.ptb = r.ptb ∧ t.chan = r.chan ∧ t.zmn = r.zmn ∧ t.cpt = r.cpt ∧
      t.flash = r.flash ∧ t.freeCount = r.freeCount ∧ t.pending = r.pending) :
    t = { r with stc := t.stc, mpr := t.mpr, svo := t.svo, hom := t.hom, dmr := t.dmr, tks := t.tks, tsc := t.tsc
                 lnk := t.lnk } := by
  obtain ⟨cfg, cck, ptb, chan, zmn, cpt, flash, freeCount, pending⟩ := frame
  rw [← cfg, ← cck, ← ptb, ← chan, ← zmn, ← cpt, ← flash, ← freeCount, ← pending]

/-- Settles O40, by the drive state of the axis that the frame names. -/
theorem wakeAndParkByTheDriveState : Obligations.WakeAndParkByTheDriveState := by
  unfold Obligations.WakeAndParkByTheDriveState
  refine ⟨fun st mask s known => ?_, fun st mask s known => ?_⟩
  · intro r ok
    obtain ⟨-, -, -, -, -, mpr, svo, -, -, stc, -⟩ := received_frame st (.wake mask) s
    have axisEq : isAxis r = isAxis s := received_isAxis st _ s
    have namedEq : namesOwn mask r = namesOwn mask s := received_namesOwn st _ mask s
    have taken {t : State} (is : takeWake mask r = t) : exec (.wake st mask) s = .next (startWork t) :=
      is ▸ congrArg Host.Outcome.next (deliver_wake known mask s)
    refine ⟨fun none => taken (takeWake_of_unnamed (by rwa [axisEq, namedEq])), fun axis named => ?_⟩
    have accepted : wakeAccepted r = true ↔ ok := by rw [received_wakeAccepted]; exact wakeAccepted_iff axis
    rw [← axisEq] at axis
    rw [← namedEq] at named
    refine ⟨fun parked accepts => taken ?_, fun refused => taken ?_, fun awake => taken ?_⟩
    · rw [takeWake_of_accepted axis named (by rw [stc, parked]) (accepted.mpr accepts), stc, svo, mpr]
    · rw [takeWake_of_refused axis named (by rwa [stc, ← Bool.not_eq_true, accepted]), stc]
    · rw [takeWake_of_awake axis named (by rwa [stc])]
  · intro r
    obtain ⟨cfg, -, -, -, dmr, mpr, -, hom, -, stc, tks, -⟩ := received_frame st (.park mask) s
    have axisEq : isAxis r = isAxis s := received_isAxis st _ s
    have namedEq : namesOwn mask r = namesOwn mask s := received_namesOwn st _ mask s
    have taken : exec (.park st mask) s = .next (startWork (takePark mask r)) :=
      congrArg Host.Outcome.next (deliver_park known mask s)
    refine ⟨fun none => ?_, fun axis named active => ?_⟩
    · rw [taken, takePark_of_none (by rwa [axisEq, namedEq, stc])]
    rw [← axisEq] at axis
    rw [← namedEq] at named
    rw [← stc] at active
    obtain ⟨p', dmr', hom', tks', orders⟩ := takePark_handed axis named active
    have move : (handPark r).mpr.v = r.mpr.v := v_of_course (handOn_course .park .parked r)
    have whole := eq_of_park_frame (r := r) (t := startWork (takePark mask r)) (by simp)
    refine ⟨_, taken, ?_⟩
    simp only [startWork_frame] at whole ⊢
    refine ⟨fun waking => ?_, fun on rest => ?_, fun on moves => ?_, fun stopping => ?_, by rw [p', mpr], by rw [dmr', dmr]; rfl,
      fun seeks => ?_, fun none => ?_, fun held => ?_, fun none => ?_, (congrArg Stc.holders orders :).trans (by rw [← stc]; rfl),
      (congrArg Stc.hold orders :).trans (by rw [← stc]; rfl), whole⟩
    · rw [takePark_of_waking axis named (by rw [stc, waking])]
      simp
    · have parks := takePark_of_rest axis named (by rw [stc, on]) (by rw [mpr, rest])
      have drive : (takePark mask r).stc.drive = .parked := by rw [parks]; simp
      exact ⟨drive, by rw [parks]; simp, brakeEngaged_of_off (d := .parked) (by simpa using drive) (by simp)⟩
    · rw [takePark_of_move axis named (by rw [stc, on]) (by rwa [mpr])]
      exact ⟨by rw [stc, on], rfl, rfl, rfl, move.trans (by rw [mpr])⟩
    · rw [takePark_of_stopping axis named (by rw [stc, stopping])]
      exact ⟨by rw [stc, stopping], rfl, move.trans (by rw [mpr])⟩
    · rw [hom', handPark_eq, handOn_hom, hom, if_pos seeks]
      exact ⟨rfl, rfl, rfl⟩
    · rw [hom', handPark_eq, handOn_hom, hom, if_neg none]
    · rw [tks', handPark_eq, ← ownByte_congr cfg]
      exact handOn_takes_of_abortable _ _ (by rwa [tks])
    · rw [tks', handPark_eq, (handOn_takes_of_none _ _ (by rwa [tks])).1, tks]

end Sys2Proof.Machine
end

