-- ==== Sys2Proof/Proofs/StartValues.lean ====
section
/-! SUPPORT. START: the values it leaves, and what becomes of the take memory's operation in flight (R84, R86, R88, R127, R151, R168, R170, R171, R182). -/

namespace Sys2Proof.Machine

open Sys2Proof.Safety

/-! ### The state after START -/

/-- The erase that the memory still holds after a START (R170). -/
def startErase (memory : MemoryPower) (s : State) : Option Nat :=
  match memory with | .kept => stillHeld s | .lost _ => none

/-- The take memory as a START finds it (R151, R170). -/
def startFlash (memory : MemoryPower) (s : State) : Memory :=
  match memory with | .kept => endInMemory (memoryUnit s.tsc) s.flash | .lost left => lostMemory left s

/-- The node of a START with the chain closed. -/
def started (memory : MemoryPower) (s : State) : State :=
  { State.reset with
    cfg := { Cfg.start with heldErase := startErase memory s }
    flash := startFlash memory s, freeCount := s.freeCount, pending := s.pending }

theorem startPart_of_closed (memory : MemoryPower) (s : State) : startPart false memory s = started memory s := rfl

/-- A chain that reads open begins the HARD hold with code CHAIN, and the drive is PARKED already. -/
theorem startPart_of_open (memory : MemoryPower) (s : State) : startPart true memory s = chainHeld (started memory s) := by
  have opens : startPart true memory s = openChain (started memory s) := rfl
  rw [opens, openChain_of_closed rfl, holdFor_chainOpened (.inl rfl), reactStops_of_parked rfl]

/-- START by the line it reads and the memory it finds. -/
theorem startPart_eq (chainOpen : Bool) (memory : MemoryPower) (s : State) :
    startPart chainOpen memory s = { State.reset with
      cfg := { Cfg.start with heldErase := startErase memory s }
      stc := { Stc.start with
        chainOpen := chainOpen, hold := if chainOpen then some { kind := .hard, code := some .chain } else none }
      lnk := { Lnk.start with safety := if chainOpen then some (.stop .hard (some .chain)) else none }
      flash := startFlash memory s, freeCount := s.freeCount, pending := s.pending } := by
  cases chainOpen with
  | false => rfl
  | true => rw [startPart_of_open]; rfl

theorem startPart_firstCause (chainOpen : Bool) (memory : MemoryPower) (s : State) :
    firstCause (startPart chainOpen memory s) = if chainOpen then some .own else none := by
  rw [startPart_eq]
  cases chainOpen <;> rfl

theorem memWf_startFlash (memory : MemoryPower) {s : State} (w : memWf s.flash = true) :
    memWf (startFlash memory s) = true := by
  cases memory with
  | kept => exact memWf_endInMemory _ w
  | lost left => exact memWf_lostMemory left w

/-! ### The bytes that the operation in flight leaves alone (R127, R170) -/

/-- The address lies outside the sector. -/
def sectorSpares (c a : Nat) : Prop := a < c * 4096 ∨ c * 4096 + 4096 ≤ a

/-- The address lies outside the bytes that an operation writes. -/
def unitSpares (u : FlashUnit) (a : Nat) : Prop :=
  match u with
  | .programming p => a < p.address ∨ p.address + p.data.length ≤ a
  | .erasing c _ | .suspended c _ => sectorSpares c a
  | .idle | .reading _ => True

theorem unitSpares_memoryUnit {t : Tsc} {a : Nat} (spares : unitSpares t.unit a) : unitSpares (memoryUnit t) a := by
  unfold memoryUnit
  split
  · trivial
  · exact spares

theorem memRead_memErase_outside {m : Memory} {c a : Nat} (w : memWf m = true) (spares : sectorSpares c a) :
    memRead (memErase m c) a = memRead m a := by
  have other : ¬ a / Config.sectorBytes = c := by
    simp only [sectorSpares, Config.sectorBytes] at *
    omega
  rw [memRead_memErase c a w, if_neg other]

/-- What a cut-short erase leaves lies in its sector. -/
theorem memRead_leaveSector {m : Memory} {c a : Nat} (bs : List Byte) (w : memWf m = true) (spares : sectorSpares c a) :
    memRead (memStore m (memAddress c 0 0) (bs.take Config.sectorBytes)) a = memRead m a := by
  refine memRead_memStore_outside _ _ w ?_
  have short : (bs.take Config.sectorBytes).length ≤ Config.sectorBytes := List.length_take_le _ _
  have start : memAddress c 0 0 = c * 4096 := by simp [memAddress, Config.sectorBytes]
  have size : Config.sectorBytes = 4096 := rfl
  rw [start]
  exact spares.imp_right (by omega)

theorem memRead_leaveMemory (left : Option (List Byte)) {u : FlashUnit} {m : Memory} {a : Nat} (w : memWf m = true)
    (spares : unitSpares u a) : memRead (leaveMemory left u m) a = memRead m a := by
  cases left with
  | none => rfl
  | some bs =>
    cases u with
    | idle => rfl
    | reading j => rfl
    | programming p =>
      refine memRead_memStore_outside _ _ w (spares.imp_right fun after => ?_)
      have short : (bs.take p.data.length).length ≤ p.data.length := List.length_take_le _ _
      omega
    | erasing c b => exact memRead_leaveSector bs w spares
    | suspended c j => exact memRead_leaveSector bs w spares

theorem memRead_endInMemory {u : FlashUnit} {m : Memory} {a : Nat} (w : memWf m = true) (spares : unitSpares u a) :
    memRead (endInMemory u m) a = memRead m a := by
  cases u with
  | programming p =>
    refine memRead_memStore_outside _ _ w (spares.imp_right fun after => ?_)
    have short : (programmed (memRun m p.address p.data.length) p.data).length ≤ p.data.length := by simp [programmed]
    omega
  | erasing c b =>
    cases b with
    | false => exact memRead_memErase_outside w spares
    | true => rfl
  | idle => rfl
  | reading j => rfl
  | suspended c j => rfl

theorem sectorInErase_spared {s : State} {c a : Nat} (spares : unitSpares s.tsc.unit a)
    (held : ∀ c, s.cfg.heldErase = some c → sectorSpares c a) (inErase : sectorInErase s = some c) : sectorSpares c a := by
  have unit := unitSpares_memoryUnit spares
  unfold sectorInErase at inErase
  split at inErase
  next at_ => cases inErase; rwa [at_] at unit
  next at_ => cases inErase; rwa [at_] at unit
  all_goals exact held c inErase

theorem memRead_cutShort (left : Option (List Byte)) {s : State} {a : Nat} (w : memWf s.flash = true)
    (spares : unitSpares s.tsc.unit a) (held : ∀ c, s.cfg.heldErase = some c → sectorSpares c a) :
    memRead (cutShort left s) a = memRead s.flash a := by
  unfold cutShort
  split
  next c inErase => exact memRead_leaveMemory left w (sectorInErase_spared spares held inErase)
  next => exact memRead_leaveMemory left w (unitSpares_memoryUnit spares)

/-- A write of sector 0 that is cut short spares no address of that sector. -/
theorem memRead_lostMemory (left : Option (List Byte)) {s : State} {a : Nat} (w : memWf s.flash = true)
    (spares : unitSpares s.tsc.unit a) (held : ∀ c, s.cfg.heldErase = some c → sectorSpares c a)
    (block : ∀ m, blockCut s m = true → 4096 ≤ a) : memRead (lostMemory left s) a = memRead s.flash a := by
  have cut := memRead_cutShort left w spares held
  unfold lostMemory
  dsimp only
  split
  · next erased =>
    have beyond : sectorSpares 0 a := .inr (by simpa using block _ (Bool.and_eq_true_iff.mp erased).1)
    rw [memRead_memErase_outside (memWf_cutShort left w) beyond, cut]
  · exact cut

/-! ### A write of sector 0 cut short (R171, R182) -/

/-- An erased block has no format code. -/
theorem blockIntact_of_erased {m : Memory} (first : memRead m 0 = 255#8) (second : memRead m 1 = 255#8) :
    blockIntact (memRun m 0 371) = false := by
  have run : memRun m 0 371 = memRead m 0 :: memRead m 1 :: memRun m 2 369 := rfl
  have code : fieldNat (255#8 :: 255#8 :: memRun m 2 369) 0 2 = 65535 := rfl
  rw [run, first, second, blockIntact, code]
  simp [Config.formatCode]

theorem lostMemory_not_intact (left : Option (List Byte)) {s : State} (w : memWf s.flash = true)
    (cut : ∀ m, blockCut s m = true) : blockIntact (memRun (lostMemory left s) 0 371) = false := by
  have erases (a : Nat) (inside : a / Config.sectorBytes = 0) : memRead (memErase (cutShort left s) 0) a = 255#8 := by
    rw [memRead_memErase 0 a (memWf_cutShort left w), if_pos inside]
  unfold lostMemory
  simp only [cut, Bool.true_and]
  split
  · exact blockIntact_of_erased (erases 0 rfl) (erases 1 rfl)
  · next fails => exact (Bool.not_eq_true _).mp fails

/-- With no operation in flight a power loss leaves the memory as it was. -/
theorem lostMemory_of_still (left : Option (List Byte)) {s : State} (held : s.cfg.heldErase = none)
    (still : s.tsc.unit = .idle ∨ ∃ j, s.tsc.unit = .reading j) : lostMemory left s = s.flash := by
  have unit : memoryUnit s.tsc = .idle ∨ ∃ j, memoryUnit s.tsc = .reading j := by
    unfold memoryUnit
    split
    · exact .inl rfl
    · exact still
  have leaves : cutShort left s = s.flash := by
    rcases unit with idle | ⟨j, reads⟩
    · have none : sectorInErase s = none := by simp [sectorInErase, idle, held]
      cases left <;> simp [cutShort, none, idle, leaveMemory]
    · have none : sectorInErase s = none := by simp [sectorInErase, reads, held]
      cases left <;> simp [cutShort, none, reads, leaveMemory]
  have whole : blockCut s s.flash = false := by
    rcases still with idle | ⟨j, reads⟩
    · simp [blockCut, idle]
    · simp [blockCut, reads]
  simp [lostMemory, leaves, whole]

/-! ### The operation that START finds (R127, R170, R182) -/

/-- A memory that runs no operation holds what it held (R170). -/
theorem started_kept_still {s : State} (still : memoryUnit s.tsc = .idle ∨ ∃ j, memoryUnit s.tsc = .reading j) :
    startErase .kept s = s.cfg.heldErase ∧ startFlash .kept s = s.flash := by
  rcases still with idle | ⟨j, reads⟩
  · simp [startErase, stillHeld, startFlash, endInMemory, idle]
  · simp [startErase, stillHeld, startFlash, endInMemory, reads]

/-- A memory that keeps its power, by the operation it still runs (R127, R170). -/
theorem started_kept (s : State) :
    (s.tsc.reported = false →
      (∀ c j, s.tsc.unit = .suspended c j → startErase .kept s = some c ∧ startFlash .kept s = s.flash) ∧
      (∀ c, s.tsc.unit = .erasing c true → startErase .kept s = some c ∧ startFlash .kept s = s.flash) ∧
      (∀ c, s.tsc.unit = .erasing c false → startErase .kept s = none ∧ startFlash .kept s = memErase s.flash c) ∧
      (∀ p, s.tsc.unit = .programming p → startErase .kept s = none ∧
        startFlash .kept s = memStore s.flash p.address
          (List.zipWith (· &&& ·) (memRun s.flash p.address p.data.length) p.data))) ∧
    (s.tsc.reported = true → startErase .kept s = s.cfg.heldErase ∧ startFlash .kept s = s.flash) ∧
    (s.tsc.unit = .idle → startErase .kept s = s.cfg.heldErase ∧ startFlash .kept s = s.flash) ∧
    (∀ j, s.tsc.unit = .reading j → startErase .kept s = s.cfg.heldErase ∧ startFlash .kept s = s.flash) := by
  refine ⟨fun runs => ?_, fun ended => started_kept_still (.inl (if_pos ended)), fun idle => started_kept_still (.inl ?_),
    fun j reads => started_kept_still ?_⟩
  · have unit : memoryUnit s.tsc = s.tsc.unit := if_neg (by simp [runs])
    refine ⟨fun c j waits => ?_, fun c suspends => ?_, fun c erases => ?_, fun p programs => ?_⟩
    · simp [startErase, stillHeld, startFlash, endInMemory, unit, waits]
    · simp [startErase, stillHeld, startFlash, endInMemory, unit, suspends]
    · simp [startErase, stillHeld, startFlash, endInMemory, unit, erases]
    · simp [startErase, stillHeld, startFlash, endInMemory, programmed, unit, programs]
  · simp [memoryUnit, idle]
  · rw [memoryUnit, reads]
    exact (ite_eq_or_eq _ _ _).imp_right fun reads => ⟨j, reads⟩

theorem blockCut_of_sectorZero {s : State}
    (cut : (∃ u, s.tsc.unit = .erasing 0 u) ∨ (∃ j, s.tsc.unit = .suspended 0 j) ∨
      ∃ p, s.tsc.unit = .programming p ∧ p.work = .config 0) (m : Memory) : blockCut s m = true := by
  rcases cut with ⟨u, erases⟩ | ⟨j, waits⟩ | ⟨p, programs, first⟩
  · simp [blockCut, erases]
  · simp [blockCut, waits]
  · simp [blockCut, programs, first]

/-- A write of sector 0 in flight writes sector 0. -/
theorem beyond_of_blockCut {s : State} {m : Memory} {a : Nat} (spares : unitSpares s.tsc.unit a)
    (config : ∀ p i, s.tsc.unit = .programming p → p.work = .config i → 4096 ≤ a) (cut : blockCut s m = true) :
    4096 ≤ a := by
  have sector (c : Nat) (zero : (c == 0) = true) (spared : sectorSpares c a) : 4096 ≤ a := by
    obtain rfl : c = 0 := by simpa using zero
    simpa [sectorSpares] using spared
  unfold blockCut at cut
  split at cut
  next c u at_ => exact sector c cut (by rwa [at_] at spares)
  next c j at_ => exact sector c cut (by rwa [at_] at spares)
  next p at_ =>
    split at cut
    · next i work => exact config p i at_ work
    · cases cut
  all_goals cases cut

/-- Settles O5: the values, the lines and the first cause, then the take memory by its power. -/
theorem startResetsEveryBlock : Obligations.StartResetsEveryBlock := by
  unfold Obligations.StartResetsEveryBlock
  intro chainOpen memory s form
  have off := lines_of_parked (startPart_drive chainOpen memory s)
  have cause := startPart_firstCause chainOpen memory s
  have values := startPart_eq chainOpen memory s
  have erase : (startPart chainOpen memory s).cfg.heldErase = startErase memory s := by rw [values]
  have flash : (startPart chainOpen memory s).flash = startFlash memory s := by rw [values]
  refine ⟨startPart chainOpen memory s, rfl, ?_, ?_, off.2, off.1, cause, ?_⟩
  · rw [erase, flash]; exact values
  · rw [memoryForm, flash]; exact memWf_startFlash memory form
  rw [erase, flash]
  refine ⟨?_, ?_, fun a programs config erases waits held => ?_⟩
  · rintro rfl
    exact started_kept s
  · intro lost
    cases memory with
    | kept => exact absurd rfl lost
    | lost left => exact ⟨rfl, fun cut => lostMemory_not_intact left form (blockCut_of_sectorZero cut),
        fun held idle => lostMemory_of_still left held (.inl idle),
        fun j held reads => lostMemory_of_still left held (.inr ⟨j, reads⟩)⟩
  · have spares : unitSpares s.tsc.unit a := by
      cases unit : s.tsc.unit with
      | idle => trivial
      | reading j => trivial
      | programming p => exact programs p unit
      | erasing c u => exact erases c u unit
      | suspended c j => exact waits c j unit
    cases memory with
    | kept => exact memRead_endInMemory form (unitSpares_memoryUnit spares)
    | lost left => exact memRead_lostMemory left form spares held fun _ cut => beyond_of_blockCut spares config cut

end Sys2Proof.Machine
end

