-- ==== Sys2Proof/Proofs/TakeFrames.lean ====
section
/-! SUPPORT. What TKS reads of a state that has received a TAKE, and how it refuses and aborts (R105, R107, R119, R123, R164). -/

namespace Sys2Proof.Machine

open Sys2Proof.Safety

/-! ### A received TAKE (R164) -/

/-- A TAKE of a station 1..15 reaches TKS, and work is started after it (R139, R164). -/
theorem deliver_take {st : Station} (known : st ≠ 0) (c : TakeCmd) (s : State) :
    deliver st (.take c) s = startWork (handTake false c (received st (.take c) s)) := deliver_eq known _ s

section
variable (st : Station) (b : Body) (s : State)

@[simp] theorem received_fifo : (received st b s).lnk.fifo = s.lnk.fifo := by
  simp [received]

theorem received_axisUp : axisUp (received st b s) = axisUp s := axisUp_congr (by simp)

theorem received_controlUp : controlUp (received st b s) = controlUp s := controlUp_congr (by simp)

theorem received_ownByte : ownByte (received st b s) = ownByte s := ownByte_congr (by simp)

theorem received_prepareFails (n : Byte) : prepareFails n (received st b s) = prepareFails n s := by
  rw [received_eq]; rfl

theorem received_cueTest (n i o : Byte) : cueTest n i o (received st b s) = cueTest n i o s := by
  rw [received_eq]; rfl

theorem received_participantsReady (n : Byte) (job : JobState) :
    participantsReady n job (received st b s) = participantsReady n job s := by
  rw [received_eq]; rfl

end

theorem takeNumberOk_iff (n : Byte) : takeNumberOk n = true ↔ 1 ≤ n.toNat ∧ n.toNat ≤ 99 := decide_eq_true_iff

/-- A node is an AXIS or a CONTROL node, not both. -/
theorem controlUp_of_axisUp {s : State} (up : axisUp s = true) : controlUp s = false := by
  simp_all [axisUp, controlUp, isAxis, isControl]

/-! ### The broadcast of an ABORT (R107) -/

section
variable (n : Byte) (x : Reason) (s : State)

/-- A broadcast changes the command FIFO and the held ABORT alone. -/
theorem broadcastAbort_eq : broadcastAbort n x s = { s with
    tks := { s.tks with held := (broadcastAbort n x s).tks.held }, lnk := (broadcastAbort n x s).lnk } := by
  unfold broadcastAbort queueCommand
  repeat' split
  all_goals rfl

theorem broadcastAbort_of_room (room : s.lnk.fifo.length < 4) :
    broadcastAbort n x s = { s with lnk := { s.lnk with
      fifo := s.lnk.fifo ++ [.take (.abort n (reasonCode x) (ownByte s))] } } := by
  rw [broadcastAbort, if_pos ((fifoRoom_iff s).mpr room), queueCommand_of_room _ room]

end

/-! ### Refusals (R107, R119) -/

section
variable {n : Byte} {s : State}

/-- A node with no job refuses with the ABORT queued (R107). -/
theorem refuse_of_idle (x : Reason) (idle : s.tks.job = .idle) (room : s.lnk.fifo.length < 4) :
    refuse n x s = { s with
      tks := { s.tks with outcome := .refused (reasonCode x), takeNumber := n }
      lnk := { s.lnk with fifo := s.lnk.fifo ++ [.take (.abort n (reasonCode x) (ownByte s))] } } := by
  rw [refuse, if_neg (by simp [idle])]
  dsimp only
  rw [if_neg (by simp [idle])]
  exact broadcastAbort_of_room n x _ room

/-- In CLOSING a refusal is shown and not broadcast (R119, log 14). -/
theorem refuse_of_closing (x : Reason) (closing : s.tks.job = .closing) :
    refuse n x s = { s with tks := { s.tks with outcome := .refused (reasonCode x), takeNumber := n } } := if_pos closing

end

/-! ### The end of a job (R107, R123) -/

section
variable (o : TakeOutcome) {s : State}

/-- The effect of the end of a job on the axis is a request for HOLD (R123). -/
theorem endJob_eq : endJob o s = { s with
    tks := (endJob o s).tks, tsc := (endJob o s).tsc, mpr := (endJob o s).mpr } := by
  unfold endJob requestMode
  cases s.tks.job with
  | cueing | running | runout => dsimp only; split <;> rfl
  | _ => rfl

theorem endJob_takeNumber : (endJob o s).tks.takeNumber = s.tks.jobTake := by
  unfold endJob
  cases job : s.tks.job <;> simp [jobToIdle, dropPendingMarks]

theorem endJob_held : (endJob o s).tks.held = s.tks.held := by
  unfold endJob
  cases job : s.tks.job <;> simp [jobToIdle, dropPendingMarks]

theorem endJob_mpr_of_moving (moves : s.tks.job = .cueing ∨ s.tks.job = .running ∨ s.tks.job = .runout) :
    (endJob o s).mpr = (requestMode .hold s).mpr := by
  rcases moves with job | job | job <;> simp only [endJob, job] <;> rfl

/-- The end of a recording discards it, and its pending marks leave the list (R116, R138). -/
theorem endJob_of_recording (records : s.tks.job = .recording) :
    (endJob o s).tsc = releaseReadAhead (discardRecording s.tsc) ∧
      (endJob o s).tks.marks = s.tks.marks.filter (fun m => m.at_.isSome) ∧
      (endJob o s).tks.markLate = (s.tks.markLate || s.tks.marks.any fun m => m.at_.isNone) := by
  simp only [endJob, records]; exact ⟨rfl, rfl, rfl⟩

end

/-! ### A job ended and broadcast (R107) -/

/-- What is left where a job ends with an outcome and its ABORT is broadcast, and work is started after it. -/
structure JobEnded (x : Reason) (o : TakeOutcome) (s t : State) : Prop where
  job : t.tks.job = .idle
  takeNumber : t.tks.takeNumber = s.tks.jobTake
  mask : t.tks.mask = none
  rollTime : t.tks.rollTime = none
  cutTime : t.tks.cutTime = none
  outcome : t.tks.outcome = o
  fifo : s.lnk.fifo.length < 4 → t.lnk.fifo = s.lnk.fifo ++ [.take (.abort s.tks.jobTake (reasonCode x) (ownByte s))]
  frame : t = { s with tks := t.tks, tsc := t.tsc, lnk := t.lnk, mpr := t.mpr }
  mpr : s.tks.job ≠ .cueing ∧ s.tks.job ≠ .running ∧ s.tks.job ≠ .runout → t.mpr = s.mpr

theorem jobEnded (x : Reason) (o : TakeOutcome) (s : State) : JobEnded x o s (broadcastAbort s.tks.jobTake x (endJob o s)) := by
  have broadcast := broadcastAbort_eq s.tks.jobTake x (endJob o s)
  have tks := congrArg State.tks broadcast
  refine ⟨by simp, ?_, ?_, ?_, ?_, by simp, fun room => ?_, ?_, fun still => ?_⟩
  · rw [tks]; exact endJob_takeNumber o
  · rw [tks]; rfl
  · rw [tks]; rfl
  · rw [tks]; rfl
  · have own : ownByte (endJob o s) = ownByte s := ownByte_congr (by simp)
    rw [broadcastAbort_of_room _ _ _ (by simpa using room), own]
    simp
  · have ended := endJob_eq o (s := s)
    generalize endJob o s = e at *
    rw [broadcast, ended]
  · simpa using endJob_mpr o s still

theorem JobEnded.started {x : Reason} {o : TakeOutcome} {s t : State} (ended : JobEnded x o s t) : JobEnded x o s (startWork t) := by
  have work := startWork_eq t
  refine ⟨by simpa using ended.job, by simpa using ended.takeNumber, by simpa using ended.mask, by simpa using ended.rollTime,
    by simpa using ended.cutTime, by simpa using ended.outcome, fun room => by simpa using ended.fifo room, ?_,
    fun still => by simpa using ended.mpr still⟩
  generalize startWork t = u at *
  rw [work, ended.frame]

/-- A job's own take is refused as the job ends (R107). -/
theorem refuse_of_own {n : Byte} (x : Reason) {s : State} (busy : s.tks.job ≠ .idle) (unclosed : s.tks.job ≠ .closing)
    (own : s.tks.jobTake = n) : refuse n x s = broadcastAbort n x (endJob (.refused (reasonCode x)) s) := by
  have shown : ({ endJob (.refused (reasonCode x)) s with tks := { (endJob (.refused (reasonCode x)) s).tks with
      outcome := .refused (reasonCode x), takeNumber := n } } : State) = endJob (.refused (reasonCode x)) s := by
    rw [← own, ← endJob_takeNumber (.refused (reasonCode x))]
    rfl
  rw [refuse, if_neg unclosed, if_pos ⟨busy, own⟩]
  exact congrArg (broadcastAbort n x) shown

end Sys2Proof.Machine
end

