-- ==== Sys2Proof/Proofs/PrepareAndCue.lean ====
section
/-! SUPPORT. PREPARE and CUE: their tests in order, and what each leaves of the node (R105, R107 to R109, R143). -/

namespace Sys2Proof.Machine

open Sys2Proof.Safety

/-! ### The tests of a PREPARE (R108) -/

theorem lockedIn_any {n : Byte} {s : State} :
    (s.tsc.entry n).any DirEntry.lockedIn = true ↔ ¬∀ e, s.tsc.entry n = some e → e.lockedIn = false := by
  simp [Option.any_eq_true]

/-- The tests of R108 in their order. -/
theorem prepareFails_tests (n : Byte) (s : State) :
    let c1 := s.stc.drive = .enabled ∧ s.stc.parkPending = false
    let c2 := s.hom.state = .homed
    let c3 := s.tks.job = .idle ∧ s.mpr.mode = .hand
    let c4 := ∀ e, s.tsc.entry n = some e → e.lockedIn = false
    let c5 := s.tsc.directory.length < 32 ∨ s.tsc.entry n ≠ none
    let c6 := 2 ≤ s.tsc.erased ∧ 8 ≤ s.tsc.erased + s.tsc.eraseQueue.length
    (¬c1 → prepareFails n s = some .notEnabled) ∧
    (c1 → ¬c2 → prepareFails n s = some .notHomed) ∧
    (c1 → c2 → ¬c3 → prepareFails n s = some .busy) ∧
    (c1 → c2 → c3 → ¬c4 → prepareFails n s = some .locked) ∧
    (c1 → c2 → c3 → c4 → ¬c5 → prepareFails n s = some .directoryFull) ∧
    (c1 → c2 → c3 → c4 → c5 → ¬c6 → prepareFails n s = some .storeFull) ∧
    (c1 → c2 → c3 → c4 → c5 → c6 → prepareFails n s = none) := by
  intro c1 c2 c3 c4 c5 c6
  have t1 : (s.stc.drive ≠ .enabled ∨ s.stc.parkPending = true) ↔ ¬c1 := by simp [c1, or_iff_not_imp_left]
  have t2 : (!isHomed s) = true ↔ ¬c2 := by simp [c2, isHomed]
  have t3 : (s.tks.job ≠ .idle ∨ s.mpr.mode ≠ .hand) ↔ ¬c3 := by simp [c3, or_iff_not_imp_left]
  have t4 : (s.tsc.entry n).any DirEntry.lockedIn = true ↔ ¬c4 := lockedIn_any
  have t5 : ((s.tsc.entry n).isNone ∧ Config.directoryPlaces ≤ s.tsc.directory.length) ↔ ¬c5 := by
    simp [c5, Config.directoryPlaces, and_comm]
  have t6 : (s.tsc.erased < 2 ∨ s.tsc.erased + s.tsc.eraseQueue.length < 8) ↔ ¬c6 := by
    simp only [c6]; omega
  simp only [prepareFails, t1, t2, t3, t4, t5, t6]
  refine ⟨fun f => if_pos f, fun p1 f => ?_, fun p1 p2 f => ?_, fun p1 p2 p3 f => ?_, fun p1 p2 p3 p4 f => ?_,
    fun p1 p2 p3 p4 p5 f => ?_, fun p1 p2 p3 p4 p5 p6 => ?_⟩
  · rw [if_neg (not_not_intro p1), if_pos f]
  · rw [if_neg (not_not_intro p1), if_neg (not_not_intro p2), if_pos f]
  · rw [if_neg (not_not_intro p1), if_neg (not_not_intro p2), if_neg (not_not_intro p3), if_pos f]
  · rw [if_neg (not_not_intro p1), if_neg (not_not_intro p2), if_neg (not_not_intro p3), if_neg (not_not_intro p4), if_pos f]
  · rw [if_neg (not_not_intro p1), if_neg (not_not_intro p2), if_neg (not_not_intro p3), if_neg (not_not_intro p4),
      if_neg (not_not_intro p5), if_pos f]
  · rw [if_neg (not_not_intro p1), if_neg (not_not_intro p2), if_neg (not_not_intro p3), if_neg (not_not_intro p4),
      if_neg (not_not_intro p5), if_neg (not_not_intro p6)]

/-! ### PREPARE (R105, R107) -/

section
variable {n : Byte} {mask : StationMask} {s : State}

/-- A PREPARE that names no take, or not this node, or that finds a node not yet up, is ignored (R105). -/
theorem takePrepare_of_none
    (none : n.toNat = 0 ∨ 99 < n.toNat ∨ namesOwn mask s = false ∨ axisUp s = false ∧ controlUp s = false) :
    takePrepare n mask s = s := by
  unfold takePrepare
  have number (out : ¬(1 ≤ n.toNat ∧ n.toNat ≤ 99)) : takeNumberOk n = false := by
    rw [← Bool.not_eq_true, takeNumberOk_iff]; exact out
  rcases none with zero | high | other | ⟨axis, control⟩
  · rw [if_pos (by simp [number (by omega)])]
  · rw [if_pos (by simp [number (by omega)])]
  · rw [if_pos (by simp [other])]
  · simp [axis, control]

variable (number : takeNumberOk n = true) (named : namesOwn mask s = true)
include number named

theorem takePrepare_of_control (control : controlUp s = true) : takePrepare n mask s = refuse n .notEnabled s := by
  simp [takePrepare, number, named, control]

/-- The PREPARE in force, repeated, is ignored (R107). -/
theorem takePrepare_of_repeat (up : axisUp s = true) (prepared : s.tks.job = .prepared) (take : s.tks.jobTake = n)
    (given : s.tks.mask = some mask) : takePrepare n mask s = s := by
  simp [takePrepare, number, named, up, controlUp_of_axisUp up, prepared, take, given]

/-- An AXIS node with no job refuses for the first test that fails (R108). -/
theorem takePrepare_of_failing {x : Reason} (up : axisUp s = true) (idle : s.tks.job = .idle) (fails : prepareFails n s = some x) :
    takePrepare n mask s = refuse n x s := by
  simp [takePrepare, number, named, up, controlUp_of_axisUp up, idle, closingOn, fails]

/-- An AXIS node with no job takes a PREPARE that passes the tests (R108). -/
theorem takePrepare_of_passing (up : axisUp s = true) (idle : s.tks.job = .idle) (passes : prepareFails n s = none) :
    takePrepare n mask s = { s with tks := { s.tks with
      job := .prepared, takeNumber := n, jobTake := n, mask := some mask, outcome := .none } } := by
  simp [takePrepare, number, named, up, controlUp_of_axisUp up, idle, closingOn, passes]

end

theorem prepareFails_idle {n : Byte} {s : State} (passes : prepareFails n s = none) : s.tks.job = .idle := by
  by_contra busy
  obtain ⟨t1, t2, t3, -⟩ := prepareFails_tests n s
  have fails : prepareFails n s ≠ none := by
    by_cases c1 : s.stc.drive = .enabled ∧ s.stc.parkPending = false
    · by_cases c2 : s.hom.state = .homed
      · simp [t3 c1 c2 fun free => busy free.1]
      · simp [t2 c1 c2]
    · simp [t1 c1]
  exact fails passes

/-- Settles O47: the tests by their conditions, the frame by what TKS reads of the state that has received it. -/
theorem prepareIsTestedAndTaken : Obligations.PrepareIsTestedAndTaken := by
  unfold Obligations.PrepareIsTestedAndTaken
  refine ⟨prepareFails_tests, fun st n mask s known => ?_⟩
  intro r refusedWith
  have taken {t : State} (takes : takePrepare n mask r = t) : exec (.takePrepare st n mask) s = .next (startWork t) :=
    congrArg Host.Outcome.next ((deliver_take known _ s).trans (congrArg startWork takes))
  have tks : r.tks = s.tks := by simp [r]
  have refuses (x : Reason) (idle : s.tks.job = .idle) (room : s.lnk.fifo.length < 4) : refuse n x r = refusedWith x := by
    rw [refuse_of_idle x (by rwa [tks]) (by rwa [received_fifo]), tks, received_fifo, received_ownByte]
  refine ⟨fun none => taken (takePrepare_of_none ?_), fun low high named => ?_⟩
  · rwa [received_namesOwn, received_axisUp, received_controlUp]
  have number := (takeNumberOk_iff n).mpr ⟨low, high⟩
  rw [← received_namesOwn st (.take (.prepare n mask))] at named
  refine ⟨fun control idle room => taken ?_, fun up prepared take given => taken ?_,
    fun x up idle fails room => taken ?_, fun up passes => taken ?_⟩
  · rw [takePrepare_of_control number named (by rwa [received_controlUp]), refuses _ idle room]
  · exact takePrepare_of_repeat number named (by rwa [received_axisUp]) (by rwa [tks]) (by rwa [tks]) (by rwa [tks])
  · rw [takePrepare_of_failing number named (by rwa [received_axisUp]) (by rwa [tks]) (by rwa [received_prepareFails])]
    exact refuses x idle room
  · rw [takePrepare_of_passing number named (by rwa [received_axisUp]) (by rw [tks]; exact prepareFails_idle passes)
      (by rwa [received_prepareFails]), tks]

/-! ### The tests of a CUE (R109) -/

theorem cueMarks_start (s : State) (t : StoredTake) :
    cueMarks s t 0 0 =
      if 0 < t.length ∧ param s (fun b => b.lo) * 256 ≤ t.startPos ∧ t.startPos ≤ param s (fun b => b.hi) * 256 then
        some ({ index := 0, position := t.startPos, move := t.initialMove }, t.length)
      else none := rfl

/-- The take, the marks and the move at the in mark, once the node is ready for a CUE (R109). -/
theorem cueTest_of_ready {n i o : Byte} {s : State} {e : DirEntry} {t : StoredTake}
    (on : s.stc.drive = .enabled ∧ s.stc.parkPending = false) (homed : s.hom.state = .homed) (idle : s.tks.job = .idle)
    (entry : s.tsc.entry n = some e) (stored : e.stored = some t) :
    (t.state = .broken → cueTest n i o s = .error .broken) ∧
    (t.state ≠ .broken → cueMarks s t i.toNat o.toNat = none → cueTest n i o s = .error .badMark) ∧
    (∀ m k, t.state ≠ .broken → cueMarks s t i.toNat o.toNat = some (m, k) → m.move ≠ 0 → cueTest n i o s = .error .movingMark) ∧
    (∀ m k, t.state ≠ .broken → cueMarks s t i.toNat o.toNat = some (m, k) → m.move = 0 → cueTest n i o s = .ok (t, m, k)) := by
  refine ⟨fun broken => ?_, fun whole none => ?_, fun m k whole marks moves => ?_, fun m k whole marks rests => ?_⟩
  · simp [cueTest, on, isHomed, homed, idle, entry, stored, broken]
  · simp [cueTest, on, isHomed, homed, idle, entry, stored, whole, none]
  · simp [cueTest, on, isHomed, homed, idle, entry, stored, whole, marks, moves]
  · simp [cueTest, on, isHomed, homed, idle, entry, stored, whole, marks, rests]

/-- The tests of R109 in their order. -/
theorem cueTest_tests (n i o : Byte) (s : State) :
    let c1 := s.stc.drive = .enabled ∧ s.stc.parkPending = false
    let c2 := s.hom.state = .homed
    let c3 := s.tks.job = .idle
    (¬c1 → cueTest n i o s = .error .notEnabled) ∧
    (c1 → ¬c2 → cueTest n i o s = .error .notHomed) ∧
    (c1 → c2 → ¬c3 → cueTest n i o s = .error .busy) ∧
    (c1 → c2 → c3 → s.tsc.entry n = none → cueTest n i o s = .error .noTake) ∧
    ∀ e, c1 → c2 → c3 → s.tsc.entry n = some e → e.stored = none → cueTest n i o s = .error .broken := by
  intro c1 c2 c3
  have t1 : (s.stc.drive ≠ .enabled ∨ s.stc.parkPending = true) ↔ ¬c1 := by simp [c1, or_iff_not_imp_left]
  have t2 : (!isHomed s) = true ↔ ¬c2 := by simp [c2, isHomed]
  refine ⟨fun f => if_pos (t1.mpr f), fun p1 f => ?_, fun p1 p2 f => ?_, fun p1 p2 p3 none => ?_,
    fun e p1 p2 p3 entry none => ?_⟩
  · rw [cueTest, if_neg (by rw [t1]; exact not_not_intro p1), if_pos (t2.mpr f)]
  · rw [cueTest, if_neg (by rw [t1]; exact not_not_intro p1), if_neg (by rw [t2]; exact not_not_intro p2), if_pos f]
  · simp [cueTest, p1.1, p1.2, isHomed, show s.hom.state = .homed from p2, show s.tks.job = .idle from p3, none]
  · simp [cueTest, p1.1, p1.2, isHomed, show s.hom.state = .homed from p2, show s.tks.job = .idle from p3, entry, none]

/-- What a CUE that passes its tests finds (R109). -/
structure Cueable (n i o : Byte) (s : State) (t : StoredTake) (m : TakeMark) (k : Nat) : Prop where
  on : s.stc.drive = .enabled
  homed : s.hom.state = .homed
  idle : s.tks.job = .idle
  marks : cueMarks s t i.toNat o.toNat = some (m, k)

theorem cueable_of_ok {n i o : Byte} {s : State} {t : StoredTake} {m : TakeMark} {k : Nat}
    (passes : cueTest n i o s = .ok (t, m, k)) : Cueable n i o s t m k := by
  unfold cueTest at passes
  split at passes
  · cases passes
  next ready =>
  split at passes
  · cases passes
  next homed =>
  split at passes
  · cases passes
  next free =>
  have on : s.stc.drive = .enabled := by_contra fun off => ready (.inl off)
  refine ⟨on, by simpa [isHomed] using homed, not_not.mp free, ?_⟩
  repeat' split at passes
  all_goals cases passes
  assumption

/-- The in mark lies before the end index and inside the soft limits (R109). -/
theorem cueMarks_inside {s : State} {t : StoredTake} {i o : Nat} {m : TakeMark} {k : Nat} (marks : cueMarks s t i o = some (m, k)) :
    m.index < k ∧ param s (fun b => b.lo) * 256 ≤ m.position ∧ m.position ≤ param s (fun b => b.hi) * 256 := by
  unfold cueMarks at marks
  split at marks
  · split at marks
    next inside => cases marks; exact inside
    next => cases marks
  · cases marks

/-! ### The read-ahead a CUE asks for (R143) -/

section
variable (segs : List Segment) (endIndex : Nat)

theorem requestRead_eq (j : ReadJob) (t : Tsc) : requestRead j t = { t with
    reads := t.reads ++ [j], unit := (requestRead j t).unit, suspendAge := (requestRead j t).suspendAge } := by
  unfold requestRead
  dsimp only
  repeat' split
  all_goals rfl

/-- What a request into slot i keeps: the directory, the other slots and the reads asked for. -/
structure FetchKeeps (i : Fin 4) (t u : Tsc) : Prop where
  directory : u.directory = t.directory
  slots : ∀ j : Fin 4, j ≠ i → u.slots[j] = t.slots[j]
  reads : t.reads ≠ [] → u.reads ≠ []

theorem fetchInto_keeps (i : Fin 4) (t : Tsc) : FetchKeeps i t (fetchInto segs endIndex i t) := by
  have same : FetchKeeps i t t := ⟨rfl, fun _ _ => rfl, id⟩
  unfold fetchInto
  split
  · exact same
  split
  · rw [requestRead_eq]
    refine ⟨rfl, fun j other => ?_, fun _ => by simp⟩
    have apart : (i : Nat) ≠ j := fun at_ => other (Fin.ext at_.symm)
    simp [apart]
  · exact same

theorem fetchInto_slots {i : Fin 4} {t : Tsc} {w : TakePage} (next : t.nextPage = some w) (before : w.firstIndex < endIndex) :
    (fetchInto segs endIndex i t).slots = t.slots.set i (.requested w) ∧ (fetchInto segs endIndex i t).reads ≠ [] := by
  have asks : fetchInto segs endIndex i t = requestRead (.slot i w ((sectorOf segs w.seq).getD 0) false)
      { t with slots := t.slots.set i (.requested w), nextPage := some w.next } := by simp [fetchInto, next, before]
  rw [asks, requestRead_eq]
  exact ⟨rfl, by simp⟩

/-- A page begins at or before each index it holds (R128). -/
theorem firstIndex_pageOf_le (i : Nat) : (pageOf i).firstIndex ≤ i := by
  simp only [pageOf, TakePage.firstIndex, Config.segmentDeltas, Config.pageDeltas]
  omega

/-- The fill asks for the page of the in index first. -/
theorem fillReadAhead_first {inIndex : Nat} (t : Tsc) (before : inIndex < endIndex) :
    (fillReadAhead segs inIndex endIndex t).slots[(0 : Fin 4)] = .requested (pageOf inIndex) ∧
      (fillReadAhead segs inIndex endIndex t).reads ≠ [] ∧
      (fillReadAhead segs inIndex endIndex t).directory = t.directory := by
  unfold fillReadAhead
  dsimp only
  generalize start : ({ t with slots := Vector.replicate 4 .empty, nextPage := some (pageOf inIndex) } : Tsc) = a
  have next : a.nextPage = some (pageOf inIndex) := by rw [← start]
  have directory : a.directory = t.directory := by rw [← start]
  obtain ⟨slots, reads⟩ := fetchInto_slots segs endIndex (i := 0) next ((firstIndex_pageOf_le inIndex).trans_lt before)
  have slot : (fetchInto segs endIndex 0 a).slots[(0 : Fin 4)] = .requested (pageOf inIndex) := by simp [slots]
  have keeps (i : Fin 4) (u : Tsc) := fetchInto_keeps segs endIndex i u
  refine ⟨?_, ?_, ?_⟩
  · rw [(keeps 3 _).slots 0 (by decide), (keeps 2 _).slots 0 (by decide), (keeps 1 _).slots 0 (by decide), slot]
  · exact (keeps 3 _).reads ((keeps 2 _).reads ((keeps 1 _).reads reads))
  · rw [(keeps 3 _).directory, (keeps 2 _).directory, (keeps 1 _).directory, (keeps 0 _).directory, directory]

end

/-- With a read waiting, the work started is a read (R139). -/
theorem startWork_directory_of_reads {s : State} (reads : s.tsc.reads ≠ []) :
    (startWork s).tsc.directory = s.tsc.directory := by
  unfold startWork
  split
  · split
    · rfl
    · contradiction
  · rfl

/-! ### CUE (R105, R107, R109) -/

/-- The node with a CUE taken: CUEING, a GOTO to the in mark's position, the read-ahead asked for (R4, R109, R143). -/
def cueTaken (n : Byte) (given : CueItems) (t : StoredTake) (m : TakeMark) (k : Nat) (s : State) : State :=
  { s with
    tks := { s.tks with
      job := .cueing, takeNumber := n, jobTake := n, mask := some t.mask, inIndex := some m.index, endIndex := some k
      k := m.index, playMove := some m.move, cue := some given, outcome := .none }
    mpr := { s.mpr with mode := .goto_, g := some (max (travelLo s) (min (travelHi s) m.position)) }
    tsc := fillReadAhead t.segments m.index k s.tsc }

/-- The work started after a CUE is a read, and leaves the slots and the directory as the CUE has made them (R139). -/
theorem startWork_cueTaken (n : Byte) (given : CueItems) (t : StoredTake) {m : TakeMark} {k : Nat} (before : m.index < k) (s : State) :
    (startWork (cueTaken n given t m k s)).tsc.slots[(0 : Fin 4)] = .requested (pageOf m.index) ∧
      (startWork (cueTaken n given t m k s)).tsc.directory = s.tsc.directory := by
  obtain ⟨slot, reads, directory⟩ := fillReadAhead_first t.segments k s.tsc before
  have slots : (startWork (cueTaken n given t m k s)).tsc.slots = (fillReadAhead t.segments m.index k s.tsc).slots :=
    (congrArg Tsc.slots (startWork_stored (cueTaken n given t m k s)).queues :)
  exact ⟨by simpa [slots] using slot, (startWork_directory_of_reads reads).trans directory⟩

section
variable {n : Byte} {mask : StationMask} {i o : Byte} {s : State}
  (number : takeNumberOk n = true) (named : namesOwn mask s = true) (up : axisUp s = true)
include number named up

/-- The CUE in force, repeated, is ignored (R107, log 16). -/
theorem takeCue_of_repeat (job : s.tks.job = .cueing ∨ s.tks.job = .cued) (take : s.tks.jobTake = n)
    (given : s.tks.cue = some { mask := mask, inMark := i, outMark := o }) : takeCue n mask i o s = s := by
  simp [takeCue, number, named, up, controlUp_of_axisUp up, job, take, given]

theorem takeCue_of_failing {x : Reason} (idle : s.tks.job = .idle) (fails : cueTest n i o s = .error x) :
    takeCue n mask i o s = refuse n x s := by
  simp [takeCue, number, named, up, controlUp_of_axisUp up, idle, closingOn, fails]

theorem takeCue_of_passing {t : StoredTake} {m : TakeMark} {k : Nat} (passes : cueTest n i o s = .ok (t, m, k)) :
    takeCue n mask i o s = cueTaken n { mask := mask, inMark := i, outMark := o } t m k s := by
  obtain ⟨on, homed, idle, marks⟩ := cueable_of_ok passes
  obtain ⟨-, above, below⟩ := cueMarks_inside marks
  have isHomed : isHomed s = true := by simp [isHomed, homed]
  have ordered : travelLo s ≤ travelHi s := by
    simp only [travelLo, travelHi, isHomed, if_true]; exact above.trans below
  have target := requestGoto_of_enabled on m.position
  rw [if_pos isHomed, clampInt_eq ordered] at target
  simp [takeCue, number, named, up, controlUp_of_axisUp up, idle, closingOn, passes, target, cueTaken]

end

/-- Settles O48: the tests by their conditions, the frame by what TKS reads of the state that has received it. -/
theorem cueIsTestedAndTaken : Obligations.CueIsTestedAndTaken := by
  unfold Obligations.CueIsTestedAndTaken
  refine ⟨fun n i o s => ?_, fun st n mask i o s known low high named up => ?_⟩
  · obtain ⟨t1, t2, t3, t4, t5⟩ := cueTest_tests n i o s
    refine ⟨t1, t2, t3, t4, fun e on homed idle entry => ⟨t5 e on homed idle entry, fun t stored => ?_⟩⟩
    obtain ⟨broken, badMark, moving, passes⟩ := cueTest_of_ready (i := i) (o := o) on homed idle entry stored
    exact ⟨broken, badMark, moving, passes, cueMarks_start s t⟩
  · intro r
    have taken {t : State} (takes : takeCue n mask i o r = t) : exec (.takeCue st n mask i o) s = .next (startWork t) :=
      congrArg Host.Outcome.next ((deliver_take known _ s).trans (congrArg startWork takes))
    have tks : r.tks = s.tks := by simp [r]
    have number := (takeNumberOk_iff n).mpr ⟨low, high⟩
    rw [← received_namesOwn st (.take (.cue n mask i o))] at named
    rw [← received_axisUp st (.take (.cue n mask i o))] at up
    refine ⟨fun x idle fails room => taken ?_, fun job take given => taken ?_, fun x m k passes => ?_⟩
    · rw [takeCue_of_failing number named up (by rwa [tks]) (by rwa [received_cueTest]),
        refuse_of_idle x (by rwa [tks]) (by rwa [received_fifo]), tks, received_fifo, received_ownByte]
    · exact takeCue_of_repeat number named up (by rwa [tks]) (by rwa [tks]) (by rwa [tks])
    · rw [← received_cueTest st (.take (.cue n mask i o))] at passes
      have before := (cueMarks_inside (cueable_of_ok passes).marks).1
      obtain ⟨slot, directory⟩ := startWork_cueTaken n { mask := mask, inMark := i, outMark := o } x before r
      refine ⟨_, taken (takeCue_of_passing number named up passes), ?_⟩
      have lo : travelLo r = travelLo s := travelLo_congr (by simp [r]) (by simp [isHomed, r])
      have hi : travelHi r = travelHi s := travelHi_congr (by simp [r]) (by simp [isHomed, r])
      refine ⟨?_, ?_, fun _ => slot, ?_, ?_, ?_, ?_, ?_, ?_, ?_, ?_, ?_, directory.trans (by simp [r])⟩
      all_goals simp [cueTaken, r, lo, hi]

end Sys2Proof.Machine
end

