-- ==== Sys2Proof/Proofs/RollAndCut.lean ====
section
/-! SUPPORT. ROLL and CUT against their windows (R105, R107, R110 to R112, R118, R121). -/

namespace Sys2Proof.Machine

open Sys2Proof.Safety

theorem jobOn_iff (n : Byte) (s : State) : jobOn n s = true ↔ s.tks.job ≠ .idle ∧ s.tks.jobTake = n := by
  simp [jobOn]

/-! ### ROLL (R110 to R112) -/

/-- The distance of a roll time from the present index (R111). -/
def rollDistance (t : Ms16) (s : State) : Int := (t - s.cck.ms.setWidth 16).toInt

theorem rollFails_eq (n : Byte) (t : Ms16) (s : State) :
    rollFails n t s = if rollDistance t s < 5 then some .late else if 10000 < rollDistance t s then some .tooFar
      else if participantsReady n s.tks.job s then none else some .notCued := rfl

section
variable {n : Byte} {t : Ms16} {s : State}

/-- A ROLL is ignored by a job that is on another take or already rolls, and where a roll time is present (R105, R111). -/
theorem takeRoll_of_none (none : (s.tks.job = .prepared ∨ s.tks.job = .cued) ∧ s.tks.rollTime.isSome = true ∨ s.tks.job = .idle ∨
      s.tks.jobTake ≠ n ∨ s.tks.job = .recording ∨ s.tks.job = .running ∨ s.tks.job = .runout) : takeRoll n t s = s := by
  by_cases own : s.tks.jobTake = n
  · rcases none with ⟨job | job, present⟩ | job | other | job | job | job
    · simp [takeRoll, job, present]
    · simp [takeRoll, job, present]
    · simp [takeRoll, jobOn, job]
    · exact absurd own other
    · simp [takeRoll, job]
    · simp [takeRoll, job]
    · simp [takeRoll, job]
  · simp [takeRoll, jobOn, own]

variable (number : takeNumberOk n = true) (up : axisUp s = true) (own : s.tks.jobTake = n)
include number up own

theorem takeRoll_of_cueing (cueing : s.tks.job = .cueing) : takeRoll n t s = refuse n .notCued s := by
  simp [takeRoll, number, up, jobOn, cueing, own]

variable (waits : s.tks.job = .prepared ∨ s.tks.job = .cued) (absent : s.tks.rollTime = none)
include waits absent

theorem takeRoll_of_failing {x : Reason} (fails : rollFails n t s = some x) : takeRoll n t s = refuse n x s := by
  rcases waits with job | job <;> simp [takeRoll, number, up, jobOn, job, own, absent, fails]

theorem takeRoll_of_passing (passes : rollFails n t s = none) :
    takeRoll n t s = { s with tks := { s.tks with rollTime := some t, outcome := .none } } := by
  rcases waits with job | job <;> simp [takeRoll, number, up, jobOn, job, own, absent, passes]

end

/-! ### CUT (R118, R121) -/

section
variable {n : Byte} {t : Ms16} {s : State}

theorem takeCut_of_none (none : s.tks.job = .prepared ∨ s.tks.job = .cueing ∨ s.tks.job = .cued ∨ s.tks.job = .runout ∨
    s.tks.job = .idle) : takeCut n t s = s := by
  rcases none with job | job | job | job | job <;> simp [takeCut, job]

variable (number : takeNumberOk n = true) (up : axisUp s = true) (own : s.tks.jobTake = n)
include number up own

/-- While RECORDING a CUT is kept, or aborts the recording that it would leave without an update or that it does not reach (R118). -/
theorem takeCut_of_recording (records : s.tks.job = .recording) :
    takeCut n t s = if cutAhead t s < 0 ∨ (cutAhead t s = 0 ∧ s.tks.k = 0) then abortOwn .late s
      else if 10000 < cutAhead t s then abortOwn .tooFar s
      else { s with tks := { s.tks with cutTime := earliestCut t s } } := by
  simp only [takeCut, number, up, (jobOn_iff n s).mpr ⟨by simp [records], own⟩, records]
  rfl

/-- While RUNNING a CUT is kept, or ignored where it lies too far ahead (R121, log 37). -/
theorem takeCut_of_running (runs : s.tks.job = .running) :
    takeCut n t s = if 10000 < cutAhead t s then s else { s with tks := { s.tks with cutTime := earliestCut t s } } := by
  simp only [takeCut, number, up, (jobOn_iff n s).mpr ⟨by simp [runs], own⟩, runs]
  rfl

end

/-! ### The two frames -/

/-- A recording that a CUT aborts: its end, with its store dropped (R118, R138). -/
theorem abortOwn_started (x : Reason) {s : State} (records : s.tks.job = .recording) :
    JobEnded x (.aborted (reasonCode x) (ownByte s)) s (startWork (abortOwn x s)) ∧
      (startWork (abortOwn x s)).tsc.pageBuffer = [] ∧ (startWork (abortOwn x s)).tsc.writeQueue = [] := by
  have stored := startWork_stored (abortOwn x s)
  have dropped := (abortOwn_recording x records).2.2.1
  refine ⟨(jobEnded x _ s).started, ?_, ?_⟩
  · exact (congrArg Tsc.pageBuffer stored.queues :).trans (by rw [dropped]; rfl)
  · exact (congrArg Tsc.writeQueue stored.queues :).trans (by rw [dropped]; rfl)

/-- Settles O49: each frame by the job it finds and by the distance of its time, a refusal and an abort by the end of the job. -/
theorem rollAndCutAreTaken : Obligations.RollAndCutAreTaken := by
  unfold Obligations.RollAndCutAreTaken
  refine ⟨fun st n t s known low high up => ?_, fun st n t s known low high up own => ?_⟩
  · intro r d waiting refusedWith
    have number := (takeNumberOk_iff n).mpr ⟨low, high⟩
    have upR : axisUp r = true := (received_axisUp ..).trans up
    have taken {u : State} (takes : takeRoll n t r = u) : exec (.takeRoll st n t) s = .next (startWork u) :=
      congrArg Host.Outcome.next ((deliver_take known _ s).trans (congrArg startWork takes))
    have tks : r.tks = s.tks := by simp [r]
    have mpr : r.mpr = s.mpr := by simp [r]
    have distance : rollDistance t r = d := by simp [rollDistance, r, d]
    have ready (x : JobState) : participantsReady n x r = participantsReady n x s := received_participantsReady _ _ _ n x
    have fifo : r.lnk.fifo = s.lnk.fifo := received_fifo ..
    have byte : ownByte r = ownByte s := received_ownByte ..
    clear_value r
    have fails := rollFails_eq n t r
    rw [distance, tks, ready] at fails
    have refuses {x : Reason} (own : s.tks.jobTake = n) (busy : s.tks.job ≠ .idle) (unclosed : s.tks.job ≠ .closing)
        (still : s.tks.job ≠ .running ∧ s.tks.job ≠ .runout) (takes : takeRoll n t r = refuse n x r) : refusedWith x := by
      have ended := (jobEnded x (.refused (reasonCode x)) r).started
      rw [tks, own, ← refuse_of_own x (by rwa [tks]) (by rwa [tks]) (by rwa [tks]), ← takes] at ended
      refine ⟨_, taken rfl, ended.job, ended.rollTime, ended.mask, ?_, ended.outcome, fun room => ?_, ended.frame, fun other => ?_⟩
      · rw [ended.takeNumber, tks, own]
      · rw [ended.fifo (by rwa [fifo]), fifo, byte, tks, own]
      · rw [ended.mpr (by rw [tks]; exact ⟨other, still⟩), mpr]
    have waits (x : Reason) (w : waiting) (absent : s.tks.rollTime = none) (f : rollFails n t r = some x) : refusedWith x := by
      refine refuses w.2 ?_ ?_ ?_ (takeRoll_of_failing number upR (by rw [tks]; exact w.2) (by rw [tks]; exact w.1) (by rwa [tks]) f)
      all_goals rcases w.1 with job | job <;> simp [job]
    refine ⟨fun w absent early late ready => ?_, fun w absent early => waits _ w absent ?_, fun w absent late => waits _ w absent ?_,
      fun w absent early late unready => waits _ w absent ?_, fun cueing own => ?_, fun none => ?_⟩
    · have passes : rollFails n t r = none := by rw [fails, if_neg (by omega), if_neg (by omega), if_pos ready]
      exact taken ((takeRoll_of_passing number upR (by rw [tks]; exact w.2) (by rw [tks]; exact w.1) (by rwa [tks]) passes).trans
        (by rw [tks]))
    · rw [fails, if_pos early]
    · rw [fails, if_neg (by omega), if_pos late]
    · rw [fails, if_neg (by omega), if_neg (by omega), if_neg (by simp [unready])]
    · exact refuses own (by simp [cueing]) (by simp [cueing]) (by simp [cueing])
        (takeRoll_of_cueing number upR (by rwa [tks]) (by rwa [tks]))
    · refine taken (takeRoll_of_none ?_)
      rw [tks]
      exact none.imp_left fun w => ⟨w.1.1, w.2⟩
  · intro r d cut aborted
    have number := (takeNumberOk_iff n).mpr ⟨low, high⟩
    have upR : axisUp r = true := (received_axisUp ..).trans up
    have taken {u : State} (takes : takeCut n t r = u) : exec (.takeCut st n t) s = .next (startWork u) :=
      congrArg Host.Outcome.next ((deliver_take known _ s).trans (congrArg startWork takes))
    have tks : r.tks = s.tks := by simp [r]
    have ahead (c : Ms16) : cutAhead c r = (c - (s.cck.ms + 1).setWidth 16).toInt := by
      simp [cutAhead, diff16, nextMs16, low16, r]
    have earliest : earliestCut t r = cut := by
      cases given : s.tks.cutTime with
      | none => simp [earliestCut, tks, given, cut]
      | some c => simp [earliestCut, tks, given, cut, ahead, d]
    have fifo : r.lnk.fifo = s.lnk.fifo := received_fifo ..
    have byte : ownByte r = ownByte s := received_ownByte ..
    have own' : r.tks.jobTake = n := by rwa [tks]
    clear_value r
    have aborts {x : Reason} (records : s.tks.job = .recording) (takes : takeCut n t r = abortOwn x r) : aborted x := by
      obtain ⟨ended, buffer, queue⟩ := abortOwn_started x (s := r) (by rwa [tks])
      have frame := ended.frame
      rw [ended.mpr (by simp [tks, records])] at frame
      refine ⟨_, taken takes, ended.job, ended.cutTime, by rw [ended.outcome, byte], buffer, queue, frame, fun room => ?_⟩
      rw [ended.fifo (by rwa [fifo]), fifo, byte, own']
    have recording (records : s.tks.job = .recording) := takeCut_of_recording (t := t) number upR own' (by rwa [tks])
    have running (runs : s.tks.job = .running) := takeCut_of_running (t := t) number upR own' (by rwa [tks])
    rw [ahead, earliest, tks] at recording running
    refine ⟨fun records future leaves near => taken ?_, fun records late => aborts records ?_, fun records far => aborts records ?_,
      fun runs near => taken ?_, fun runs far => taken ?_, fun none => taken (takeCut_of_none (by rwa [tks]))⟩
    · rw [recording records, if_neg (by omega), if_neg (by omega)]
    · rw [recording records, if_pos late]
    · rw [recording records, if_neg (by omega), if_pos far]
    · rw [running runs, if_neg (by omega)]
    · rw [running runs, if_pos far]

end Sys2Proof.Machine
end

