-- ==== Sys2Proof/Proofs/AbortAndMark.lean ====
section
/-! SUPPORT. ABORT by the job it finds, MARK by its distance, and the marks of a recording at its updates (R105, R116, R118, R119, R123). -/

namespace Sys2Proof.Machine

open Sys2Proof.Safety

/-! ### ABORT (R105, R119, R123) -/

section
variable {n x o : Byte} {s : State}

theorem takeAbort_of_none (own : Bool) (none : s.tks.job = .idle ∨ s.tks.jobTake ≠ n) : takeAbort own n x o s = s := by
  rcases none with idle | other
  · simp [takeAbort, jobOn, idle]
  · simp [takeAbort, jobOn, other]

theorem dropHeld_eq (n : Byte) (s : State) :
    dropHeld n s = { s with tks := { s.tks with held := (dropHeld n s).tks.held } } := by
  unfold dropHeld
  split
  · split <;> rfl
  · rfl

theorem dropHeld_of_held {h : HeldAbort} (held : s.tks.held = some h) (same : h.n = n) : (dropHeld n s).tks.held = none := by
  simp [dropHeld, held, same]

variable (number : takeNumberOk n = true) (up : axisUp s = true) (take : s.tks.jobTake = n)
include number up take

theorem takeAbort_of_closing (own : Bool) (closing : s.tks.job = .closing) : takeAbort own n x o s = refuse n .busy s := by
  simp [takeAbort, number, up, jobOn, closing, take]

/-- Another station's ABORT ends the job and drops a held one for its take (R123). -/
theorem takeAbort_of_abortable (held : jobAbortable s.tks.job = true) :
    takeAbort false n x o s = dropHeld n (endJob (.aborted x o) s) := by
  have busy : s.tks.job ≠ .idle := fun idle => by simp [idle, jobAbortable] at held
  have unclosed : s.tks.job ≠ .closing := fun closing => by simp [closing, jobAbortable] at held
  simp [takeAbort, number, up, (jobOn_iff n s).mpr ⟨busy, take⟩, unclosed]

end

/-- What another station's ABORT leaves of the job that it ends (R123, R138, R143). -/
structure AbortedByAnother (n x o : Byte) (s t : State) : Prop where
  job : t.tks.job = .idle
  outcome : t.tks.outcome = .aborted x o
  mask : t.tks.mask = none
  rollTime : t.tks.rollTime = none
  cutTime : t.tks.cutTime = none
  takeNumber : t.tks.takeNumber = n
  moving : s.stc.drive = .enabled → s.tks.job = .cueing ∨ s.tks.job = .running ∨ s.tks.job = .runout →
    t.mpr = { s.mpr with mode := .hold, g := none }
  resting : s.tks.job = .prepared ∨ s.tks.job = .cued ∨ s.tks.job = .recording → t.mpr = s.mpr
  recording : s.tks.job = .recording → t.tsc.pageBuffer = [] ∧ t.tsc.writeQueue = [] ∧ t.tsc.recordingOf = none ∧
    t.tks.marks = s.tks.marks.filter (fun m => m.at_.isSome) ∧
    t.tks.markLate = (s.tks.markLate || s.tks.marks.any fun m => m.at_.isNone)
  slots : ∀ i : Fin 4, t.tsc.slots[i] = .empty
  nextPage : t.tsc.nextPage = none
  held : ∀ h, s.tks.held = some h → h.n = n → t.tks.held = none
  frame : t = { s with tks := t.tks, tsc := t.tsc, mpr := t.mpr }

theorem abortedByAnother {n : Byte} (x o : Byte) {s : State} (take : s.tks.jobTake = n) :
    AbortedByAnother n x o s (startWork (dropHeld n (endJob (.aborted x o) s))) := by
  have work := startWork_eq (dropHeld n (endJob (.aborted x o) s))
  have stored := startWork_stored (dropHeld n (endJob (.aborted x o) s))
  have drops := dropHeld_eq n (endJob (.aborted x o) s)
  have dropped {h : HeldAbort} (held : s.tks.held = some h) (same : h.n = n) :
      (startWork (dropHeld n (endJob (.aborted x o) s))).tks.held = none := by
    simpa using dropHeld_of_held ((endJob_held (.aborted x o)).trans held) same
  have ended := endJob_eq (.aborted x o) (s := s)
  have mpr : (startWork (dropHeld n (endJob (.aborted x o) s))).mpr = (endJob (.aborted x o) s).mpr := by simp
  have tks : (startWork (dropHeld n (endJob (.aborted x o) s))).tks =
      { (endJob (.aborted x o) s).tks with held := (startWork (dropHeld n (endJob (.aborted x o) s))).tks.held } := by
    simpa using congrArg State.tks drops
  have tsc : (dropHeld n (endJob (.aborted x o) s)).tsc = (endJob (.aborted x o) s).tsc := by simp
  rw [tsc] at stored
  generalize startWork (dropHeld n (endJob (.aborted x o) s)) = t at *
  have slots : t.tsc.slots = Vector.replicate 4 .empty := (congrArg Tsc.slots stored.queues :)
  refine ⟨by rw [tks]; rfl, by rw [tks]; rfl, by rw [tks]; rfl, by rw [tks]; rfl, by rw [tks]; rfl, ?_, fun on moves => ?_,
    fun rests => ?_, fun records => ?_, fun i => by simp [slots], (congrArg Tsc.nextPage stored.queues :), fun h held same => dropped held same, ?_⟩
  · rw [tks]; exact (endJob_takeNumber (.aborted x o)).trans take
  · rw [mpr, endJob_mpr_of_moving _ moves, requestMode_of_enabled on]
  · exact mpr.trans (endJob_mpr _ s (by rcases rests with job | job | job <;> simp [job]))
  · obtain ⟨discards, marks, late⟩ := endJob_of_recording (.aborted x o) records
    rw [discards] at stored
    have none : t.tsc.outline = Option.none := by
      rw [stored.outline, Tsc.outline,
        show (releaseReadAhead (discardRecording s.tsc)).recordingOf = Option.none from discardRecording_recordingOf s.tsc]
      rfl
    exact ⟨(congrArg Tsc.pageBuffer stored.queues :), (congrArg Tsc.writeQueue stored.queues :), recordingOf_of_outline none,
      by rw [tks, ← marks], by rw [tks, ← late]⟩
  · rw [work, drops, ended]

/-! ### MARK (R116) -/

/-- A mark entered in a list that rises, where none has its index, leaves a list that rises. -/
theorem insertMark_sorted (m : JobMark) : ∀ ms : List JobMark, (∀ x ∈ ms, x.index ≠ m.index) →
    ms.Pairwise (fun a b => a.index < b.index) → (insertMark m ms).Pairwise fun a b => a.index < b.index
  | [], _, _ => List.pairwise_singleton _ _
  | y :: ys, other, rises => by
    obtain ⟨first, rest⟩ := List.pairwise_cons.mp rises
    have apart := other y List.mem_cons_self
    simp only [insertMark]
    split
    · next before =>
      refine List.pairwise_cons.mpr ⟨fun z listed => ?_, rises⟩
      rcases List.mem_cons.mp listed with rfl | later
      · exact before
      · exact before.trans (first z later)
    · next after =>
      refine List.pairwise_cons.mpr ⟨fun z listed => ?_, insertMark_sorted m ys (fun x h => other x (List.mem_cons_of_mem y h)) rest⟩
      rcases List.mem_cons.mp ((insertMark_perm m ys).mem_iff.mp listed) with rfl | later
      · omega
      · exact first z later

/-- The index that a mark time names while RECORDING (R116). -/
def markIndex (t : Ms16) (s : State) : Nat := s.tks.k + (cutAhead t s).toNat

/-- The mark as it enters the list: stored at once where it is for the present index, pending else (R116). -/
def enteredMark (t : Ms16) (s : State) : JobMark :=
  { index := markIndex t s, at_ := if cutAhead t s = 0 then some (s.mpr.p, s.tks.prevMove.getD 0) else none }

section
variable {t : Ms16} {s : State}

theorem takeMark_of_none (none : axisUp s = false ∨ s.tks.job ≠ .recording) : takeMark t s = s := by
  rcases none with down | other
  · simp [takeMark, down]
  · simp [takeMark, other]

variable (up : axisUp s = true) (records : s.tks.job = .recording)
include up records

/-- A mark while RECORDING: late, doubled, surplus, or entered (R116). -/
theorem takeMark_of_recording :
    takeMark t s =
      if cutAhead t s < 0 then { s with tks := { s.tks with markLate := true } }
      else if (s.tks.marks.any fun m => m.index == markIndex t s) then s
      else if 12 ≤ s.tks.marks.length then { s with tks := { s.tks with marksFull := true } }
      else { s with tks := { s.tks with marks := insertMark (enteredMark t s) s.tks.marks } } := by
  unfold takeMark
  rw [if_neg (by simp [up, records])]
  rfl

end

/-! ### The marks of a recording at an update (R116, R118) -/

section
variable {inp : UpdateInputs} {s : State} {e : DirEntry} {r : Recording}

/-- The marks of a recording once an update has stored the pending one of the index it ends at (R116). -/
def marksStored (t s : State) : List JobMark :=
  s.tks.marks.map fun m =>
    if m.index = s.tks.k + 1 ∧ m.at_ = none then { m with at_ := some (t.mpr.p, t.mpr.p - s.mpr.p) } else m

/-- The recorded move stores the pending mark with the position and the move of the update's result (R116). -/
theorem Records.recorded_marks (rec : Records inp s e r) (u : Tsc) :
    (recorded (toServo inp s).2.made u (toServo inp s).1).tks.marks = marksStored (update inp s) s ∧
      (recorded (toServo inp s).2.made u (toServo inp s).1).tks.markLate = s.tks.markLate := by
  obtain ⟨tks, -⟩ := rec.found
  have p : (update inp s).mpr.p = (toServo inp s).1.mpr.p := by
    rw [rec.takes.mpr, recordingUpdate_mpr _ (by rw [tks, rec.job])]
  rw [marksStored, ← rec.made, p, ← tks]
  exact ⟨rfl, rfl⟩

/-- A recording closed with the marks xs: the stored ones go to the take close, and a pending one is late (R116, R136). -/
structure MarksClosed (late : Bool) (xs : List JobMark) (t : State) : Prop where
  job : t.tks.job = .closing
  marks : t.tks.marks = xs.filter (fun m => m.at_.isSome)
  markLate : t.tks.markLate = (late || xs.any fun m => m.at_.isNone)
  closing : t.tsc.closing.map (·.marks) = some (xs.filterMap fun m =>
    m.at_.map fun x => { index := m.index, position := x.1, move := x.2 })

theorem beginClosing_marks (endPos : Int) {x : State} (room : x.tsc.writeQueue.length < 6) :
    MarksClosed x.tks.markLate x.tks.marks (beginClosing endPos x) := by
  obtain ⟨tks, -⟩ := beginClosing_of_room endPos room
  refine ⟨by rw [tks], by rw [tks]; rfl, by rw [tks]; rfl, ?_⟩
  unfold beginClosing
  dsimp only
  obtain ⟨taken, -, closing⟩ := requestClose_of_room
    { length := x.tks.k, endPos := endPos
      marks := x.tks.marks.filterMap fun m =>
        m.at_.map fun x => ({ index := m.index, position := x.1, move := x.2 } : TakeMark) } room
  rw [if_neg (by simp [taken])]
  exact (congrArg (Option.map TakeClose.marks) closing :)

theorem MarksClosed.of_takes {late : Bool} {xs : List JobMark} {x t : State} (closes : MarksClosed late xs x) (takes : TakesOf x t) :
    MarksClosed late xs t := by
  obtain ⟨-, tks, -, queues, -⟩ := takes
  exact ⟨by rw [tks, closes.job], by rw [tks, closes.marks], by rw [tks, closes.markLate],
    (congrArg (fun u : Tsc => u.closing.map (·.marks)) queues :).trans closes.closing⟩

variable (rec : Records inp s e r)
include rec

theorem Records.marks_uncut (short : s.tsc.pageBuffer.length + 1 < 127) (inside : ¬(0 < r.count ∧ r.count % 1905 = 0))
    (uncut : s.tks.cutTime = none) :
    (update inp s).tks.marks = marksStored (update inp s) s ∧ (update inp s).tks.markLate = s.tks.markLate := by
  have tks := (rec.moves uncut).tks
  rw [rec.within short inside] at tks
  rw [tks]
  exact rec.recorded_marks _

variable (known : s.cck.timeState ≠ .unset) {c : Ms16} (cut : s.tks.cutTime = some c)
include known cut

/-- A cut time still ahead: the update records its move and goes on (R118). -/
theorem Records.marks_ahead (short : s.tsc.pageBuffer.length + 1 < 127) (inside : ¬(0 < r.count ∧ r.count % 1905 = 0))
    (ahead : 0 < (c - (s.cck.ms + 1).setWidth 16).toInt - 1) :
    (update inp s).tks.marks = marksStored (update inp s) s ∧ (update inp s).tks.markLate = s.tks.markLate := by
  have tks := rec.takes.tks
  rw [recordingUpdate, rec.cut known cut] at tks
  dsimp only at tks
  rw [if_neg (by omega), if_neg (fun both => by omega), rec.within short inside] at tks
  rw [tks]
  exact rec.recorded_marks _

/-- At the cut point the recording closes with the marks that the update's move has stored (R116, R118). -/
theorem Records.marks_cut (short : s.tsc.pageBuffer.length + 1 < 127) (inside : ¬(0 < r.count ∧ r.count % 1905 = 0))
    (room : s.tsc.writeQueue.length < 6) (now : (c - (s.cck.ms + 1).setWidth 16).toInt - 1 = 0) :
    MarksClosed s.tks.markLate (marksStored (update inp s) s) (update inp s) := by
  obtain ⟨tks, aged, -⟩ := rec.found
  have takes := rec.takes
  rw [recordingUpdate, rec.cut known cut] at takes
  dsimp only at takes
  have job : (recorded (toServo inp s).2.made (accepted (recordedDelta inp s) (toServo inp s).1.tsc) (toServo inp s).1).tks.job =
      .recording := by rw [← rec.job, ← tks]; rfl
  rw [if_neg (by omega), rec.within short inside, if_pos ⟨now, job⟩] at takes
  have queue : (toServo inp s).1.tsc.writeQueue.length < 6 := by rwa [aged.queue]
  have closes := beginClosing_marks (toServo inp s).1.mpr.p
    (x := recorded (toServo inp s).2.made (accepted (recordedDelta inp s) (toServo inp s).1.tsc) (toServo inp s).1) queue
  obtain ⟨marks, late⟩ := rec.recorded_marks (accepted (recordedDelta inp s) (toServo inp s).1.tsc)
  rw [marks, late] at closes
  exact closes.of_takes takes

/-- A cut time already reached closes the recording with the marks it has (R116, R118). -/
theorem Records.marks_past (room : s.tsc.writeQueue.length < 6) (past : (c - (s.cck.ms + 1).setWidth 16).toInt - 1 < 0) :
    MarksClosed s.tks.markLate s.tks.marks (update inp s) := by
  obtain ⟨tks, aged, -⟩ := rec.found
  have takes := rec.takes
  rw [recordingUpdate, rec.cut known cut] at takes
  dsimp only at takes
  rw [if_pos past] at takes
  have closes := beginClosing_marks ((toServo inp s).1.mpr.p - (toServo inp s).2.made) (x := (toServo inp s).1) (by rwa [aged.queue])
  rw [tks] at closes
  exact closes.of_takes takes

end

/-- Settles O50: the ABORT by the job, the MARK by its distance and the list, the update by the cut time in force. -/
theorem abortAndMarkAreTaken : Obligations.AbortAndMarkAreTaken := by
  unfold Obligations.AbortAndMarkAreTaken
  refine ⟨fun st n x o s known low high up => ?_, fun st t s known => ?_,
    fun inp s e r on job homed quiet clock records timely short inside room => ?_⟩
  · intro r
    have number := (takeNumberOk_iff n).mpr ⟨low, high⟩
    have upR : axisUp r = true := (received_axisUp ..).trans up
    have taken {u : State} (takes : takeAbort false n x o r = u) : exec (.takeAbort st n x o) s = .next (startWork u) :=
      congrArg Host.Outcome.next ((deliver_take known _ s).trans (congrArg startWork takes))
    have tks : r.tks = s.tks := by simp [r]
    have mpr : r.mpr = s.mpr := by simp [r]
    have stc : r.stc = s.stc := by simp [r]
    clear_value r
    refine ⟨fun none => taken (takeAbort_of_none false (by rwa [tks])), fun closing take => taken ?_, fun held take => ?_⟩
    · rw [takeAbort_of_closing number upR (by rwa [tks]) false (by rwa [tks]), refuse_of_closing _ (by rwa [tks]), tks]
    · have ends := abortedByAnother x o (n := n) (s := r) (by rwa [tks])
      have ⟨job, outcome, mask, rollTime, cutTime, takeNumber, moving, resting, recording, slots, nextPage, dropped, frame⟩ := ends
      rw [tks] at moving resting recording dropped
      rw [mpr] at moving resting
      rw [stc] at moving
      exact ⟨_, taken (takeAbort_of_abortable number upR (by rwa [tks]) (by rwa [tks])), job, outcome, mask, rollTime, cutTime,
        takeNumber, moving, resting, recording, slots, nextPage, dropped, frame⟩
  · intro r d i there
    have upR : axisUp r = axisUp s := received_axisUp ..
    have taken {u : State} (takes : takeMark t r = u) : exec (.mark st t) s = .next (startWork u) :=
      congrArg Host.Outcome.next ((deliver_eq known _ s).trans (congrArg startWork takes))
    have tks : r.tks = s.tks := by simp [r]
    have mpr : r.mpr = s.mpr := by simp [r]
    have ahead : cutAhead t r = d := by simp [cutAhead, diff16, nextMs16, low16, r, d]
    have index : markIndex t r = i := by rw [markIndex, ahead, tks]
    have entered : enteredMark t r = { index := i, at_ := if d = 0 then some (s.mpr.p, s.tks.prevMove.getD 0) else none } := by
      rw [enteredMark, index, ahead, tks, mpr]
    have listed : (s.tks.marks.any fun m => m.index == i) = true ↔ there := by simp [there]
    clear_value r
    refine ⟨fun none => taken (takeMark_of_none (by rwa [upR, tks])), fun up job => ?_⟩
    have marks := takeMark_of_recording (t := t) (s := r) (upR.trans up) (by rwa [tks])
    rw [ahead, index, entered, tks] at marks
    refine ⟨fun late => taken ?_, fun future twice => taken ?_, fun future once full => taken ?_, fun future once few => ?_⟩
    · rw [marks, if_pos late]
    · rw [marks, if_neg (by omega), if_pos (listed.mpr twice)]
    · rw [marks, if_neg (by omega), if_neg (mt listed.mp once), if_pos full]
    · rw [if_neg (by omega), if_neg (mt listed.mp once), if_neg (by omega)] at marks
      refine ⟨_, taken marks, by simp, ?_, fun rises => ?_⟩
      · simpa using insertMark_perm _ s.tks.marks
      · simpa using insertMark_sorted _ s.tks.marks (fun m member same => once ⟨m, member, same⟩) rises
  · have live : Records inp s e r := ⟨on, job, homed, quiet, records, timely⟩
    refine ⟨_, rfl, live.marks_uncut short inside, fun c cut => ⟨live.marks_ahead clock cut short inside, fun now => ?_,
      fun past => ?_⟩⟩
    · have closes := live.marks_cut clock cut short inside room now
      exact ⟨closes.job, closes.marks, closes.markLate, closes.closing⟩
    · have closes := live.marks_past clock cut room past
      exact ⟨closes.job, closes.marks, closes.markLate, closes.closing⟩

end Sys2Proof.Machine
end

