-- ==== Sys2Proof/Proofs/DeleteAndLock.lean ====
section
/-! SUPPORT. DELETE and LOCK of a take, by its entry in the directory and the job in progress (R119, R125, R126, R145, R146). -/

namespace Sys2Proof.Machine

open Sys2Proof.Safety

/-! ### The results that are shown (R125, R126; log 15) -/

/-- The job record with the result of a DELETE, shown unless another take's job is in progress (R125, log 15). -/
def Tks.withResult (n : Byte) (o : TakeOutcome) (t : Tks) : Tks :=
  if t.job = .idle ∨ t.jobTake = n then { t with takeNumber := n, outcome := o } else t

/-- The job record with the result of a LOCK, shown while the job is IDLE (R126). -/
def Tks.withIdleResult (n : Byte) (o : TakeOutcome) (t : Tks) : Tks :=
  if t.job = .idle then { t with takeNumber := n, outcome := o } else t

theorem setResult_eq (n : Byte) (o : TakeOutcome) (s : State) : setResult n o s = { s with tks := s.tks.withResult n o } := by
  unfold setResult Tks.withResult; split <;> rfl

theorem setIdleResult_eq (n : Byte) (o : TakeOutcome) (s : State) :
    setIdleResult n o s = { s with tks := s.tks.withIdleResult n o } := by
  unfold setIdleResult Tks.withIdleResult
  split
  · next idle => rw [setResult, if_pos (.inl idle)]
  · rfl

/-! ### The directory without a deleted take (R130, R146) -/

/-- The entries of take n, emptied, leave the directory. -/
theorem filter_emptied (n : Byte) (l : List DirEntry) :
    (l.map fun e => if e.number = n then { e with stored := none, recording := none } else e).filter
        (fun e => e.stored.isSome || e.recording.isSome) =
      (l.filter fun e => e.number ≠ n).filter fun e => e.stored.isSome || e.recording.isSome := by
  induction l with
  | nil => rfl
  | cons e l ih =>
    rw [List.map_cons, List.filter_cons, List.filter_cons, ih]
    by_cases own : e.number = n
    · simp [own]
    · simp [own, List.filter_cons]

theorem deleteTake_of_entry {n : Byte} {t : Tsc} {e : DirEntry} (entry : t.entry n = some e) :
    deleteTake n t = { t with
      directory := (t.directory.filter fun x => x.number ≠ n).filter fun x => x.stored.isSome || x.recording.isSome
      eraseQueue := t.eraseQueue ++ (e.segments.filter fun g => !g.retire).map (·.sector)
      bad := t.bad ++ (e.segments.filter fun g => g.retire).map (·.sector) } := by
  simp only [deleteTake, entry, ← filter_emptied]
  rfl

/-! ### DELETE (R125, R146) -/

section
variable {n : Byte} {s : State}

theorem takeDelete_of_none (none : s.tsc.entry n = none) : takeDelete n s = s := by
  simp [takeDelete, none]

theorem takeLock_of_none (none : s.tsc.entry n = none) : takeLock n s = s := by
  simp [takeLock, none]

variable {e : DirEntry} (number : takeNumberOk n = true) (up : axisUp s = true) (entry : s.tsc.entry n = some e)
include number up entry

theorem takeDelete_of_locked (locked : e.lockedIn = true) :
    takeDelete n s = { s with tks := s.tks.withResult n (.refused (reasonCode .locked)) } := by
  simp [takeDelete, number, up, entry, locked, setResult_eq]

theorem takeDelete_of_busy (free : e.lockedIn = false) (busy : jobOn n s = true) :
    takeDelete n s = { s with tks := s.tks.withResult n (.refused (reasonCode .busy)) } := by
  simp [takeDelete, number, up, entry, free, busy, setResult_eq]

theorem takeDelete_of_free (free : e.lockedIn = false) (idle : jobOn n s = false) :
    takeDelete n s = { s with tks := s.tks.withResult n .completed, tsc := deleteTake n s.tsc } := by
  simp [takeDelete, number, up, entry, free, idle, setResult_eq]

/-! ### LOCK (R119, R126, R145) -/

/-- A LOCK of the take whose recording closes is refused, and shown (R119). -/
theorem takeLock_of_closing (closing : s.tks.job = .closing) (own : s.tks.jobTake = n) :
    takeLock n s = { s with tks := { s.tks with takeNumber := n, outcome := .refused (reasonCode .busy) } } := by
  have closes : closingOn n s = true := by simp [closingOn, closing, own, jobOn]
  simp [takeLock, number, up, entry, closes, setResult, own]

variable (unclosed : closingOn n s = false)
include unclosed

theorem takeLock_of_unstored (none : e.stored = none) :
    takeLock n s = { s with tks := s.tks.withIdleResult n (.refused (reasonCode .busy)) } := by
  simp [takeLock, number, up, entry, unclosed, none, setIdleResult_eq]

variable {x : StoredTake} (stored : e.stored = some x)
include stored

theorem takeLock_of_pending (pending : x.lockPending = true) : takeLock n s = s := by
  simp [takeLock, number, up, entry, unclosed, stored, pending]

variable (fresh : x.lockPending = false)
include fresh

theorem takeLock_of_locked (locked : x.state = .locked) :
    takeLock n s = { s with tks := s.tks.withIdleResult n .completed } := by
  simp [takeLock, number, up, entry, unclosed, stored, fresh, locked, setIdleResult_eq]

theorem takeLock_of_broken (broken : x.state = .broken) :
    takeLock n s = { s with tks := s.tks.withIdleResult n (.refused (reasonCode .broken)) } := by
  simp [takeLock, number, up, entry, unclosed, stored, fresh, broken, setIdleResult_eq]

theorem takeLock_of_busy (complete : x.state = .complete) (busy : jobOn n s = true) :
    takeLock n s = { s with tks := s.tks.withIdleResult n (.refused (reasonCode .busy)) } := by
  simp [takeLock, number, up, entry, unclosed, stored, fresh, complete, busy, setIdleResult_eq]

/-- A LOCK makes a COMPLETE take lock-pending and asks for its program (R145). -/
theorem takeLock_of_complete (complete : x.state = .complete) (idle : jobOn n s = false) :
    takeLock n s = { s with
      tks := s.tks.withIdleResult n .completed
      tsc := { s.tsc.mapStored n (fun x => { x with lockPending := true }) with
        closeList := s.tsc.closeList ++ [.lock n] } } := by
  simp [takeLock, number, up, entry, unclosed, stored, fresh, complete, idle, setIdleResult_eq]
  rfl

end

theorem jobOn_eq_false_iff (n : Byte) (s : State) : jobOn n s = false ↔ s.tks.job = .idle ∨ s.tks.jobTake ≠ n := by
  rw [← Bool.not_eq_true, jobOn_iff, not_and_or, not_not]

/-- Settles O51: each frame by the entry of the take, its stored take, and the job in progress. -/
theorem deleteAndLock : Obligations.DeleteAndLock := by
  unfold Obligations.DeleteAndLock
  intro st n s known low high up rd rl shown shownIdle
  have number := (takeNumberOk_iff n).mpr ⟨low, high⟩
  have deletes {u : State} (takes : takeDelete n rd = u) : exec (.takeDelete st n) s = .next (startWork u) :=
    congrArg Host.Outcome.next ((deliver_take known _ s).trans (congrArg startWork takes))
  have locks {u : State} (takes : takeLock n rl = u) : exec (.takeLock st n none) s = .next (startWork u) :=
    congrArg Host.Outcome.next ((deliver_take known _ s).trans (congrArg startWork takes))
  have upD : axisUp rd = true := (received_axisUp ..).trans up
  have upL : axisUp rl = true := (received_axisUp ..).trans up
  have tksD : rd.tks = s.tks := by simp [rd]
  have tksL : rl.tks = s.tks := by simp [rl]
  have tscD : rd.tsc = s.tsc := by simp [rd]
  have tscL : rl.tsc = s.tsc := by simp [rl]
  have shows (o : TakeOutcome) : rd.tks.withResult n o = shown o := by rw [tksD]; rfl
  have showsIdle (o : TakeOutcome) : rl.tks.withIdleResult n o = shownIdle o := by rw [tksL]; rfl
  clear_value rd rl
  refine ⟨fun none => ⟨deletes (takeDelete_of_none (by rwa [tscD])), locks (takeLock_of_none (by rwa [tscL]))⟩, fun e entry => ?_⟩
  have entryD : rd.tsc.entry n = some e := by rwa [tscD]
  have entryL : rl.tsc.entry n = some e := by rwa [tscL]
  have busyD (busy : s.tks.job ≠ .idle) (own : s.tks.jobTake = n) : jobOn n rd = true := by
    rw [jobOn_iff, tksD]; exact ⟨busy, own⟩
  have busyL (busy : s.tks.job ≠ .idle) (own : s.tks.jobTake = n) : jobOn n rl = true := by
    rw [jobOn_iff, tksL]; exact ⟨busy, own⟩
  have freeD (free : s.tks.job = .idle ∨ s.tks.jobTake ≠ n) : jobOn n rd = false := by rwa [jobOn_eq_false_iff, tksD]
  have freeL (free : s.tks.job = .idle ∨ s.tks.jobTake ≠ n) : jobOn n rl = false := by rwa [jobOn_eq_false_iff, tksL]
  refine ⟨fun locked => deletes ?_, fun free busy own => deletes ?_, fun free idle => deletes ?_, fun closing own => locks ?_,
    fun other => ?_⟩
  · rw [takeDelete_of_locked number upD entryD locked, shows]
  · rw [takeDelete_of_busy number upD entryD free (busyD busy own), shows]
  · rw [takeDelete_of_free number upD entryD free (freeD idle), shows, deleteTake_of_entry entryD, tscD]
  · rw [takeLock_of_closing number upL entryL (by rwa [tksL]) (by rwa [tksL]), tksL]
  have unclosed : closingOn n rl = false := by
    rw [closingOn, jobOn, tksL]
    rcases other with job | take
    · simp [job]
    · simp [take]
  refine ⟨fun none => locks ?_, fun x stored => ⟨fun pending => locks ?_, fun fresh locked => locks ?_, fun fresh broken => locks ?_,
    fun fresh complete busy own => locks ?_, fun fresh complete idle => locks ?_⟩⟩
  · rw [takeLock_of_unstored number upL entryL unclosed none, showsIdle]
  · exact takeLock_of_pending number upL entryL unclosed stored pending
  · rw [takeLock_of_locked number upL entryL unclosed stored fresh locked, showsIdle]
  · rw [takeLock_of_broken number upL entryL unclosed stored fresh broken, showsIdle]
  · rw [takeLock_of_busy number upL entryL unclosed stored fresh complete (busyL busy own), showsIdle]
  · rw [takeLock_of_complete number upL entryL unclosed stored fresh complete (freeL idle), showsIdle, tscL]

end Sys2Proof.Machine
end

