-- ==== Sys2Proof/Proofs/WorkGoesOn.lean ====
section
/-! SUPPORT. What the flash unit leaves of the node as it goes on to its next work: the directory and the close-and-lock list (R129, R130, R139). -/

namespace Sys2Proof.Machine

open Sys2Proof.Safety

/-! ### The directory and the close-and-lock list as work is started (R129, R139) -/

/-- Work that is started may flag a sector of the recording as programmed, and changes nothing else of the directory (R129). -/
theorem startWork_directory (s : State) : ∃ f : Recording → Recording,
    (startWork s).tsc.directory = s.tsc.directory.map fun e => { e with recording := e.recording.map f } := by
  have same : ∃ f : Recording → Recording, s.tsc.directory = s.tsc.directory.map fun e => { e with recording := e.recording.map f } :=
    ⟨id, by simp⟩
  unfold startWork
  repeat' split
  · exact same
  · exact ⟨markSector _, rfl⟩
  · exact same
  · exact ⟨markSector _, rfl⟩
  all_goals exact same

/-- The list stays, or its head leaves it where nothing is left to program for it (R139). -/
theorem startWork_closeList (s : State) : (startWork s).tsc.closeList = s.tsc.closeList ∨
    ∃ w rest, s.tsc.closeList = w :: rest ∧ w ≠ .configErase ∧ closeProgram s w = none ∧
      startWork s = { s with tsc := { s.tsc with closeList := rest } } := by
  unfold startWork
  repeat' split
  · exact .inl rfl
  · exact .inl rfl
  · exact .inl rfl
  · exact .inl rfl
  · next w rest other list _ none => exact .inr ⟨w, rest, list, other, none, rfl⟩
  all_goals exact .inl rfl

/-- With a recording and its take close at hand there is something to program for the take close (R136). -/
theorem closeProgram_takeClose {s : State} {c : TakeClose} (records : s.tsc.recordingOf ≠ none) (closing : s.tsc.closing = some c) :
    (closeProgram s .takeClose).isSome = true := by
  obtain ⟨⟨e, r⟩, found⟩ := Option.ne_none_iff_exists'.mp records
  simp [closeProgram, found, closing]

/-- What a state keeps where the flash unit goes on to its next work (R139). -/
structure WorkGoesOn (a t : State) : Prop where
  frame : t = { a with tsc := t.tsc }
  stored : Stored a.tsc t.tsc
  directory : ∃ f : Recording → Recording,
    t.tsc.directory = a.tsc.directory.map fun e => { e with recording := e.recording.map f }
  within : ∀ w ∈ t.tsc.closeList, w ∈ a.tsc.closeList
  next : (∀ w, a.tsc.closeList.head? = some w → w = .configErase ∨ (closeProgram t w).isSome = true) →
    t.tsc.closeList = a.tsc.closeList

theorem startWork_goesOn (s : State) : WorkGoesOn s (startWork s) := by
  refine ⟨startWork_eq s, startWork_stored s, startWork_directory s, fun x listed => ?_, fun due => ?_⟩
  · rcases startWork_closeList s with same | ⟨w, rest, list, -, -, drops⟩
    · rwa [same] at listed
    · rw [drops] at listed
      rw [list]
      exact List.mem_cons_of_mem w listed
  · rcases startWork_closeList s with same | ⟨w, rest, list, other, none, drops⟩
    · exact same
    · have left : closeProgram (startWork s) w = Option.none := by rw [drops, ← none]; rfl
      exact ((due w (by rw [list]; rfl)).elim other fun programs => by simp [left] at programs).elim

/-- A flash unit that has become IDLE goes on to its next work where no RESTART waits for it (R139, R151). -/
theorem unitIdle_goesOn {s : State} (settled : s.tsc.draining = false) : WorkGoesOn s (unitIdle s) := by
  have idles : unitIdle s = startWork { s with tsc := { s.tsc with unit := .idle, suspendAge := 0, reported := false } } := by
    simp [unitIdle, settled]
  have freed : Stored s.tsc { s.tsc with unit := .idle, suspendAge := 0, reported := false } := .of_unit (by rfl) (by rfl)
  rw [idles]
  obtain ⟨frame, stored, directory, within, next⟩ :=
    startWork_goesOn { s with tsc := { s.tsc with unit := .idle, suspendAge := 0, reported := false } }
  exact ⟨frame, ⟨stored.queues.trans freed.queues, stored.outline.trans freed.outline, stored.pool.trans freed.pool⟩, directory,
    within, next⟩

/-! ### What the node keeps as its unit goes on -/

namespace WorkGoesOn

variable {a t : State} (goes : WorkGoesOn a t)
include goes

theorem tks : t.tks = a.tks := by rw [goes.frame]
theorem lnk : t.lnk = a.lnk := by rw [goes.frame]
theorem cpt : t.cpt = a.cpt := by rw [goes.frame]
theorem eraseQueue : t.tsc.eraseQueue = a.tsc.eraseQueue := (congrArg Tsc.eraseQueue goes.stored.queues :)
theorem bad : t.tsc.bad = a.tsc.bad := (congrArg Tsc.bad goes.stored.queues :)
theorem closing : t.tsc.closing = a.tsc.closing := (congrArg Tsc.closing goes.stored.queues :)
theorem writeQueue : t.tsc.writeQueue = a.tsc.writeQueue := (congrArg Tsc.writeQueue goes.stored.queues :)

/-- The list stays where something is left to program for its head. -/
theorem leaves {ws : List CloseWork} (list : a.tsc.closeList = ws)
    (due : ∀ w, ws.head? = some w → w = .configErase ∨ (closeProgram t w).isSome = true) : t.tsc.closeList = ws :=
  (goes.next (by rwa [list])).trans list

/-- The stored takes of the directory stay as they are. -/
theorem storedTakes : t.tsc.directory.map (·.stored) = a.tsc.directory.map (·.stored) := by
  obtain ⟨f, directory⟩ := goes.directory
  rw [directory, List.map_map]
  rfl

theorem storedTake (n : Byte) : (t.tsc.entry n).bind (·.stored) = (a.tsc.entry n).bind (·.stored) := by
  obtain ⟨f, directory⟩ := goes.directory
  rw [Tsc.entry, directory, List.find?_map, Option.bind_map]
  rfl

/-- An entry without a recording stays as it is. -/
theorem mem_of_unrecorded {e : DirEntry} (unrecorded : e.recording = none) (listed : e ∈ a.tsc.directory) : e ∈ t.tsc.directory := by
  obtain ⟨f, directory⟩ := goes.directory
  rw [directory]
  exact List.mem_map.mpr ⟨e, listed, by cases e; simp_all⟩

theorem unrecorded (none : a.tsc.recordingOf = none) : t.tsc.recordingOf = Option.none :=
  recordingOf_of_outline (by rw [goes.stored.outline, Tsc.outline, none]; rfl)

theorem records (recording : a.tsc.recordingOf ≠ none) : t.tsc.recordingOf ≠ none := by
  have outline := goes.stored.outline
  simp only [Tsc.outline] at outline
  intro none
  rw [none] at outline
  exact recording (by simpa using outline.symm)

end WorkGoesOn

end Sys2Proof.Machine
end

