-- ==== Sys2Proof/Proofs/ProgramsVerified.lean ====
section
/-! SUPPORT. The end of a program and its verify: the bytes in the memory, and what a match or a mismatch leads to (R119, R126, R127, R134 to R138, R142, R145, R182). -/

namespace Sys2Proof.Machine

open Sys2Proof.Safety

/-! ### The bytes of a program (R127, R142) -/

theorem memRun_length (m : Memory) : ∀ (n a : Nat), (memRun m a n).length = n
  | 0, _ => rfl
  | n + 1, a => by rw [memRun, List.length_cons, memRun_length m n (a + 1)]

theorem programMade_length (p : Program) (s : State) : (programMade p s).length = p.data.length := by
  unfold programMade programmed
  split <;> simp [memRun_length]

theorem leftRun_length (given : Option (List Byte)) (made : List Byte) : (leftRun given made).length = made.length := by
  cases given with
  | none => rfl
  | some bs => simp only [leftRun, List.length_append, List.length_take, List.length_drop]; omega

/-- The bytes that a verify reads where a program was made (R142, logs 8 and 22). -/
def verified (seen : Option (List Byte)) (p : Program) (s : State) : List Byte := leftRun seen (programMade p s)

/-- The node once a program has left its bytes in the memory (R127). -/
def programLeft (seen : Option (List Byte)) (p : Program) (s : State) : State :=
  { s with flash := memStore s.flash p.address (verified seen p s) }

section
variable (seen : Option (List Byte)) {p : Program} {s : State}

theorem verified_length : (verified seen p s).length = p.data.length := (leftRun_length _ _).trans (programMade_length p s)

/-- A program changes no byte but its own. -/
theorem programLeft_outside (form : memoryForm s) {a : Nat} (outside : a < p.address ∨ p.address + p.data.length ≤ a) :
    memRead (programLeft seen p s).flash a = memRead s.flash a :=
  memRead_memStore_outside _ _ form (by rwa [verified_length])

theorem programLeft_inside (form : memoryForm s) (inside : p.address + p.data.length ≤ 16777216) :
    memRun (programLeft seen p s).flash p.address p.data.length = verified seen p s := by
  have run := memRun_memStore (verified seen p s) p.address form (by rwa [verified_length])
  rwa [verified_length] at run

/-- Status's report alone, given twice, changes nothing (R127). -/
theorem programEnded_of_reported (programs : s.tsc.unit = .programming p) (reported : s.tsc.reported = true) :
    programEnded seen true s = s := by
  simp [programEnded, programs, reported]

/-- Status's report alone makes the program in the memory and starts the verify (R127, R142). -/
theorem programEnded_of_report (programs : s.tsc.unit = .programming p) (running : s.tsc.reported = false) :
    programEnded seen true s = operationReported (programLeft seen p s) := by
  simp [programEnded, programs, running, programLeft, verified]

/-- The end of the verify judges the bytes that stand in the memory (R142). -/
theorem programEnded_of_verify (programs : s.tsc.unit = .programming p) :
    programEnded seen false s =
      unitIdle (if verified seen p s = p.data then programMatched p.work (programLeft seen p s)
        else programFailed p (programLeft seen p s)) := by
  rw [programEnded, programs]
  rfl

end

/-! ### A take's entry under a change of its parts (R130) -/

section
variable {n : Byte} {t : Tsc} {e : DirEntry}

/-- The entry of n, changed, is found where it keeps its number and a part. -/
theorem entry_mapEntry {f : DirEntry → DirEntry} (number : ∀ x, (f x).number = x.number) (entry : t.entry n = some e)
    (kept : ((f e).stored.isSome || (f e).recording.isSome) = true) : (t.mapEntry n f).entry n = some (f e) := by
  have found (l : List DirEntry) (entry : l.find? (fun x => x.number == n) = some e) :
      ((l.map fun x => if x.number = n then f x else x).filter fun x => x.stored.isSome || x.recording.isSome).find?
        (fun x => x.number == n) = some (f e) := by
    induction l with
    | nil => cases entry
    | cons x l ih =>
      by_cases own : x.number = n
      · obtain rfl : x = e := by simpa [own] using entry
        simp [own, kept, number]
      · have later := ih (by simpa [own] using entry)
        rw [List.map_cons, if_neg own, List.filter_cons]
        split
        · simpa [own] using later
        · exact later
  exact found t.directory entry

theorem storedTake_mapStored {f : StoredTake → StoredTake} {x : StoredTake} (entry : t.entry n = some e) (stored : e.stored = some x) :
    ((t.mapStored n f).entry n).bind (·.stored) = some (f x) := by
  rw [Tsc.mapStored, entry_mapEntry (f := fun e => { e with stored := e.stored.map f }) (fun _ => rfl) entry (by simp [stored])]
  simp [stored]

/-- The entry that holds the recording is in the directory. -/
theorem recordingOf_mem {r : Recording} (records : t.recordingOf = some (e, r)) : e ∈ t.directory := by
  obtain ⟨x, listed, found⟩ := List.exists_of_findSome?_eq_some records
  obtain ⟨y, -, same⟩ := Option.map_eq_some_iff.mp found
  cases same
  exact listed

theorem entry_of_mem (listed : e ∈ t.directory) : ∃ x, t.entry e.number = some x :=
  Option.isSome_iff_exists.mp (List.find?_isSome.mpr ⟨e, listed, by simp⟩)

end

/-! ### A recording that becomes the stored take (R137) -/

/-- The stored take that a verified take close makes of a recording (R137). -/
def completedTake (r : Recording) (c : TakeClose) : StoredTake :=
  { generation := r.generation, state := .complete, lockPending := false, mask := r.mask, startPos := r.startPos
    initialMove := r.initialMove, length := c.length, endPos := some c.endPos, marks := c.marks, segments := r.segments }

section
variable {t : Tsc} {e : DirEntry} {r : Recording} {c : TakeClose} (records : t.recordingOf = some (e, r)) (closing : t.closing = some c)
include records closing

theorem completeRecording_eq :
    completeRecording t = retireSegments (match e.stored with | some old => old.segments | none => [])
      (Tsc.mapEntry e.number (fun x => { x with stored := some (completedTake r c), recording := none })
        { t with closing := none }) := by
  simp only [completeRecording, records, closing]
  rfl

theorem completeRecording_storedTake :
    ((completeRecording t).entry e.number).bind (·.stored) = some (completedTake r c) := by
  obtain ⟨x, entry⟩ := entry_of_mem (recordingOf_mem records)
  have found := entry_mapEntry (t := { t with closing := none }) (n := e.number) (e := x)
    (f := fun x => { x with stored := some (completedTake r c), recording := none }) (fun _ => rfl) entry rfl
  rw [completeRecording_eq records closing]
  exact (congrArg (fun x : Option DirEntry => x.bind (·.stored)) found :)

theorem completeRecording_retires {old : StoredTake} (stored : e.stored = some old) :
    (completeRecording t).eraseQueue = t.eraseQueue ++ (old.segments.filter fun g => !g.retire).map (·.sector) ∧
      (completeRecording t).bad = t.bad ++ (old.segments.filter fun g => g.retire).map (·.sector) := by
  rw [completeRecording_eq records closing, stored]
  exact ⟨rfl, rfl⟩

end

/-! ### What a verify leads to (R134 to R138, R145, R182) -/

theorem stepVerified_of_head {t : Tsc} {w : WriteEntry} {rest : List WriteEntry} {st : RecordStep} {more : List RecordStep}
    (queue : t.writeQueue = w :: rest) (steps : w.steps = st :: more) :
    stepVerified t = { t with writeQueue := if more = [] then rest else { w with steps := more } :: rest } := by
  cases more with
  | nil => simp [stepVerified, queue, steps]
  | cons x xs => simp [stepVerified, queue, steps]

/-- What the end of a lock makes of its stored take (R145). -/
def lockResult (ok : Bool) (x : StoredTake) : StoredTake :=
  if ok then { x with state := .locked, lockPending := false }
  else { x with
    lockPending := false, segments := x.segments.map fun g => if g.seq = 0 then { g with retire := true } else g }

theorem lockEnds_eq (n : Byte) (ok : Bool) (s : State) :
    lockEnds n ok s = { s with
      tsc := closeDone (s.tsc.mapStored n (lockResult ok))
      tks := if s.tks.job = .idle then { s.tks with
        takeNumber := n, outcome := if ok then .completed else .refused (reasonCode .storeWrite) } else s.tks } := by
  unfold lockEnds
  dsimp only
  split <;> rfl

theorem programMatched_config (i : Nat) (s : State) :
    programMatched (.config i) s = { s with
      tsc := closeDone s.tsc
      cpt := if i = 1 then { s.cpt with writeState := .done, writeBuffer := none } else s.cpt } := by
  simp only [programMatched]
  split <;> rfl

/-- A failed verify in a close withdraws the sector, discards the recording and ends the job (R119, R129, R135, R138). -/
theorem programFailed_of_closing {p : Program} {s : State} (work : p.work = .segClose ∨ p.work = .takeClose)
    (closing : s.tks.job = .closing) :
    programFailed p s = closingEnds (.aborted (reasonCode .storeWrite) (ownByte s))
      { s with tsc := discardRecording { s.tsc with bad := s.tsc.bad ++ [p.address / 4096] } } := by
  have fails : programFailed p s = storeWriteFailed (withdraw (p.address / Config.sectorBytes) s) := by
    rcases work with work | work <;> simp only [programFailed, work]
  have closing' : (withdraw (p.address / Config.sectorBytes) s).tks.job = .closing := closing
  rw [fails, storeWriteFailed, closing']
  rfl

/-- The programmed sectors of a discarded recording are to be erased, but for those withdrawn (R138). -/
theorem discardRecording_eraseQueue {t : Tsc} {e : DirEntry} {r : Recording} (records : t.recordingOf = some (e, r)) :
    (discardRecording t).eraseQueue =
      t.eraseQueue ++ (r.segments.filter fun g => g.programmed && !t.bad.contains g.sector).map (·.sector) := by
  simp [discardRecording, records]

/-- A discarded recording leaves its entry where a take is stored in it (R138). -/
theorem mem_discardRecording {t : Tsc} {e : DirEntry} (listed : e ∈ t.directory) (stored : e.stored.isSome = true) :
    { e with recording := none } ∈ (discardRecording t).directory :=
  List.mem_filter.mpr ⟨List.mem_map.mpr ⟨e, listed, rfl⟩, stored⟩

/-- A match or a mismatch leaves a RESTART that waits for the unit waiting (R151). -/
theorem programMatched_draining (w : ProgWork) (s : State) : (programMatched w s).tsc.draining = s.tsc.draining := by
  unfold programMatched
  split
  case h_1 =>
    unfold stepVerified
    repeat' split
    all_goals rfl
  case h_3 => simp only [closingEnds, jobToIdle, releaseReadAhead, completeRecording]; split <;> rfl
  case h_4 => rw [lockEnds_eq]; rfl
  case h_5 => dsimp only; split <;> rfl
  all_goals rfl

theorem storeWriteFailed_draining (s : State) : (storeWriteFailed s).tsc.draining = s.tsc.draining := by
  unfold storeWriteFailed
  split
  · next records => rw [(abortOwn_recording .storeWrite records).2.2.1]; rfl
  all_goals rfl

theorem programFailed_draining (p : Program) (s : State) : (programFailed p s).tsc.draining = s.tsc.draining := by
  have fails := storeWriteFailed_draining (withdraw (p.address / Config.sectorBytes) s)
  unfold programFailed
  split
  · exact fails
  · exact fails
  · exact fails
  · rw [lockEnds_eq]; rfl
  all_goals rfl

/-! ### The end of a program in the node -/

theorem eq_of_frame {s t : State} (frame : t.cfg = s.cfg ∧ t.cck = s.cck ∧ t.ptb = s.ptb ∧ t.chan = s.chan ∧ t.dmr = s.dmr ∧
    t.mpr = s.mpr ∧ t.svo = s.svo ∧ t.hom = s.hom ∧ t.zmn = s.zmn ∧ t.stc = s.stc ∧ t.freeCount = s.freeCount ∧
    t.pending = s.pending) : t = { s with flash := t.flash, tsc := t.tsc, tks := t.tks, cpt := t.cpt, lnk := t.lnk } := by
  obtain ⟨cfg, cck, ptb, chan, dmr, mpr, svo, hom, zmn, stc, freeCount, pending⟩ := frame
  rw [← cfg, ← cck, ← ptb, ← chan, ← dmr, ← mpr, ← svo, ← hom, ← zmn, ← stc, ← freeCount, ← pending]

/-- The node as the end of a program and its verify leaves it. -/
structure ProgramJudged (seen : Option (List Byte)) (p : Program) (s t : State) : Prop where
  flash : t.flash = (programLeft seen p s).flash
  frame : t = { s with flash := t.flash, tsc := t.tsc, tks := t.tks, cpt := t.cpt, lnk := t.lnk }
  matched : verified seen p s = p.data → WorkGoesOn (programMatched p.work (programLeft seen p s)) t
  failed : verified seen p s ≠ p.data → WorkGoesOn (programFailed p (programLeft seen p s)) t

theorem programEnded_judged (seen : Option (List Byte)) {p : Program} {s : State} (programs : s.tsc.unit = .programming p)
    (settled : s.tsc.draining = false) : ProgramJudged seen p s (programEnded seen false s) := by
  rw [programEnded_of_verify seen programs]
  by_cases agrees : verified seen p s = p.data
  · have goes := unitIdle_goesOn (s := programMatched p.work (programLeft seen p s)) (by rwa [programMatched_draining])
    rw [if_pos agrees]
    exact ⟨by simp, eq_of_frame (by simp [programLeft]), fun _ => goes, absurd agrees⟩
  · have goes := unitIdle_goesOn (s := programFailed p (programLeft seen p s)) (by rwa [programFailed_draining])
    rw [if_neg agrees]
    exact ⟨by simp, eq_of_frame (by simp [programLeft]), fun same => absurd same agrees, fun _ => goes⟩

/-- Settles O54: the bytes in the memory, then what the verify leads to by the work of the program. -/
theorem programsAreVerified : Obligations.ProgramsAreVerified := by
  unfold Obligations.ProgramsAreVerified
  intro seen s p form programs inside settled made left matched leaves
  have bytes : verified seen p s = left := by cases seen <;> rfl
  have stands : memRun (programLeft seen p s).flash p.address p.data.length = left :=
    (programLeft_inside seen form inside).trans bytes
  refine ⟨fun reported => congrArg Host.Outcome.next (programEnded_of_reported seen programs reported),
    fun running => ⟨_, congrArg Host.Outcome.next (programEnded_of_report seen programs running),
      fun a outside => programLeft_outside seen form outside, stands, rfl⟩, ?_⟩
  obtain ⟨flash, frame, goes, fails⟩ := programEnded_judged seen programs settled
  rw [bytes] at goes fails
  refine ⟨programEnded seen false s, rfl, ?_⟩
  generalize programEnded seen false s = t at *
  refine ⟨fun a outside => by rw [flash]; exact programLeft_outside seen form outside, by rw [flash, stands], frame,
    fun st w rest more work same queue steps => ?_, fun ws e r c work same list records closing => ?_,
    fun work other closing => ?_, fun work same e r c records closing job => ?_, fun n e x work entry stored => ?_,
    fun i work => ?_, fun work => ?_⟩
  · have goes := goes same
    rw [work] at goes
    have steps := stepVerified_of_head queue steps
    refine ⟨goes.tks, goes.lnk, goes.cpt, fun due => goes.leaves ?_ due, goes.writeQueue.trans ?_⟩
    · exact (congrArg Tsc.closeList steps :)
    · exact (congrArg Tsc.writeQueue steps :)
  · have goes := goes same
    rw [work] at goes
    have list' : (closeDone s.tsc).closeList = .takeClose :: ws := by rw [closeDone, list]; rfl
    have closing' : t.tsc.closing = some c := goes.closing.trans closing
    have records' : t.tsc.recordingOf ≠ none := goes.records (show s.tsc.recordingOf ≠ none by simp [records])
    refine ⟨goes.tks, goes.lnk, goes.cpt, goes.leaves list' fun x head => .inr ?_, goes.storedTakes, goes.closing⟩
    obtain rfl : x = .takeClose := by simpa using head.symm
    exact closeProgram_takeClose records' closing'
  · have fails := fails other
    rw [programFailed_of_closing (s := programLeft seen p s) work closing] at fails
    refine ⟨by rw [fails.tks]; rfl, by rw [fails.tks]; rfl, by rw [fails.tks]; rfl, fails.lnk, fails.cpt, fails.bad, ?_,
      fails.closing, fun e listed stored => ?_, fun e r records => ?_⟩
    · exact fails.unrecorded (discardRecording_recordingOf _)
    · exact fails.mem_of_unrecorded rfl (mem_discardRecording listed stored)
    · rw [fails.eraseQueue]
      exact discardRecording_eraseQueue (t := { s.tsc with bad := s.tsc.bad ++ [p.address / 4096] }) records
  · have goes := goes same
    rw [work] at goes
    refine ⟨by rw [goes.tks]; rfl, by rw [goes.tks]; rfl, by rw [goes.tks]; rfl, goes.lnk, goes.cpt,
      fun ws list due => goes.leaves ?_ due, ?_, fun old stored => ?_⟩
    · have completes := completeRecording_eq (t := closeDone s.tsc) records closing
      exact (congrArg Tsc.closeList completes :).trans (by simp [retireSegments, Tsc.mapEntry, closeDone, list])
    · exact (goes.storedTake e.number).trans (completeRecording_storedTake (t := closeDone s.tsc) records closing)
    · obtain ⟨erases, withdraws⟩ := completeRecording_retires (t := closeDone s.tsc) records closing stored
      exact ⟨goes.eraseQueue.trans erases, goes.bad.trans withdraws⟩
  · obtain ⟨ok, ends, verdict⟩ : ∃ ok, WorkGoesOn (lockEnds n ok (programLeft seen p s)) t ∧ (ok = true ↔ matched) := by
      by_cases same : matched
      · have goes := goes same
        rw [work] at goes
        exact ⟨true, goes, iff_of_true rfl same⟩
      · have fails := fails same
        simp only [programFailed, work] at fails
        exact ⟨false, fails, iff_of_false Bool.false_ne_true same⟩
    rw [lockEnds_eq] at ends
    have result : (t.tsc.entry n).bind (·.stored) = some (lockResult ok x) :=
      (ends.storedTake n).trans (storedTake_mapStored entry stored)
    refine ⟨ends.lnk, ends.cpt, ends.eraseQueue, ends.bad, fun ws list due => ends.leaves ?_ due, fun same => ?_, fun other => ?_, ?_⟩
    · exact (congrArg List.tail list :)
    · rw [result, lockResult, if_pos (verdict.mpr same)]
    · rw [result, lockResult, if_neg (mt verdict.mp other)]
    · rw [ends.tks]
      simp only [verdict]
      rfl
  · by_cases same : matched
    · have goes := goes same
      rw [work, programMatched_config] at goes
      refine ⟨goes.tks, goes.lnk, goes.eraseQueue, goes.bad, fun _ last => ?_, fun _ first => ?_,
        fun _ ws list due => goes.leaves (congrArg List.tail list :) due, absurd same⟩
      · rw [goes.cpt, if_pos last]; rfl
      · rw [goes.cpt, if_neg first]; rfl
    · have fails := fails same
      simp only [programFailed, work] at fails
      refine ⟨fails.tks, fails.lnk, fails.eraseQueue, fails.bad, fun m => absurd m same, fun m => absurd m same,
        fun m => absurd m same, fun _ => ⟨fails.cpt, fun j listed => ?_⟩⟩
      simpa [configFails] using fails.within _ listed
  · by_cases same : matched
    · have goes := goes same
      rw [work] at goes
      exact ⟨goes.tks, goes.lnk, goes.cpt⟩
    · have fails := fails same
      simp only [programFailed, work] at fails
      exact ⟨fails.tks, fails.lnk, fails.cpt⟩

end Sys2Proof.Machine
end

