-- ==== Sys2Proof/Proofs/MemoryForm.lean ====
section
/-! SUPPORT. The take memory's canonical form: which operations of a step write the memory, and that each keeps the form (R127). -/

namespace Sys2Proof.Machine

open Sys2Proof.Safety

/-! ### Commands that write no byte of the memory -/

@[simp] theorem requestRestart_flash (s : State) : (requestRestart s).flash = s.flash := by
  unfold requestRestart; split
  · simp [restartPart]
  · rfl

@[simp] theorem receiveStatus_flash (own : Bool) (st : Station) (i : StatusItems) (c : CraneTime) (s : State) :
    (receiveStatus own st i c s).flash = s.flash := by
  unfold receiveStatus
  repeat' split
  all_goals simp

/-- No frame handed to the blocks writes the memory (R164). -/
@[simp] theorem handFrame_flash (own : Bool) (f : Frame) (c : CraneTime) (s : State) : (handFrame own f c s).flash = s.flash := by
  have blocks (x : State) : (handBlocks own f c x).flash = x.flash := by
    unfold handBlocks
    split
    case h_3 => split <;> simp
    case h_7 => split <;> simp
    all_goals simp
  simp only [handFrame]
  split
  · simp
  · rw [blocks]; simp

@[simp] theorem deliver_flash (st : Station) (b : Body) (s : State) : (deliver st b s).flash = s.flash := by simp [deliver]

@[simp] theorem completeAttempt_flash (s : State) : (completeAttempt s).flash = s.flash := by
  unfold completeAttempt
  repeat' split
  all_goals simp

@[simp] theorem placeAbort_flash (s : State) : (placeAbort s).flash = s.flash := by
  unfold placeAbort
  repeat' split
  all_goals simp

/-- No transaction of the companion port writes the memory: a CONFIG-WRITE only asks TSC for it (R178, R182). -/
@[simp] theorem port_flash (s : State) :
    (∀ kind payload, (portSend kind payload s).flash = s.flash) ∧ (portHalt s).flash = s.flash ∧ (portUnhalt s).flash = s.flash ∧
    (portReceive s).flash = s.flash ∧ (portCopyEnd s).flash = s.flash ∧ (∀ kinds, (portFilter kinds s).flash = s.flash) ∧
    (∀ sec index, (portSnapshot sec index s).flash = s.flash) ∧ (∀ block, (portConfigWrite block s).flash = s.flash) ∧
    (portFormat s).flash = s.flash ∧ (portRestart s).flash = s.flash := by
  refine ⟨fun kind payload => ?_, ?_, ?_, ?_, ?_, fun kinds => ?_, fun sec index => ?_, fun block => ?_, ?_, ?_⟩
  · unfold portSend; repeat' split
    all_goals simp
  · unfold portHalt; split <;> simp
  · unfold portUnhalt; split <;> simp
  · unfold portReceive; split <;> simp
  · unfold portCopyEnd; split <;> rfl
  · unfold portFilter; repeat' split
    all_goals simp
  · unfold portSnapshot; split <;> simp
  · unfold portConfigWrite; repeat' split
    all_goals simp
  · unfold portFormat; repeat' split
    all_goals simp
  · simp [portRestart]

@[simp] theorem applyCorrection_flash (s : State) : (applyCorrection s).flash = s.flash := by
  unfold applyCorrection applyStep
  repeat' split
  all_goals simp

/-! ### Operations that write it -/

theorem memoryForm_of_flash {t : State} {m : Memory} (flash : t.flash = m) (form : memWf m = true) : memoryForm t := by
  rwa [memoryForm, flash]

/-- A program leaves its bytes in the memory, and the form with them (R127). -/
theorem programEnded_form (seen : Option (List Byte)) (reportOnly : Bool) {s : State} (form : memoryForm s) :
    memoryForm (programEnded seen reportOnly s) := by
  unfold programEnded
  split
  case h_1 p _ =>
    have stored : memWf (memStore s.flash p.address (leftRun seen (programMade p s))) = true := memWf_memStore _ _ form
    dsimp only
    repeat' split
    · exact form
    · exact stored
    · exact memoryForm_of_flash (by simp) stored
    · exact memoryForm_of_flash (by simp) stored
  all_goals exact form

theorem eraseMade_form (sector : Nat) {s : State} (form : memoryForm s) : memWf (eraseMade sector s) = true := by
  unfold eraseMade; split
  · exact form
  · exact memWf_memErase sector form

/-- An erase leaves its sector erased, but for the bytes its check is given, and the form with it (R127, R140). -/
theorem eraseEnded_form (seen : Option (List Byte)) (reportOnly : Bool) {s : State} (form : memoryForm s) :
    memoryForm (eraseEnded seen reportOnly s) := by
  unfold eraseEnded
  split
  case h_1 sector _ _ =>
    have stored : memWf (memStore (eraseMade sector s) (memAddress sector 0 0)
        (leftRun seen (memRun (eraseMade sector s) (memAddress sector 0 0) Config.pageBytes))) = true :=
      memWf_memStore _ _ (eraseMade_form sector form)
    dsimp only
    repeat' split
    · exact form
    · exact stored
    · exact memoryForm_of_flash (by simp) stored
  all_goals exact form

/-- An operation that has run out of its updates leaves its run of bytes, and the form with it (R127, log 9). -/
theorem operationUpdate_form (left : Option (List Byte)) {s : State} (form : memoryForm s) : memoryForm (operationUpdate left s) := by
  have kept : memWf (leaveMemory left s.tsc.unit s.flash) = true := memWf_leaveMemory left s.tsc.unit form
  unfold operationUpdate operationFailed
  split
  · dsimp only
    split
    · exact memoryForm_of_flash (by simp) kept
    · exact memoryForm_of_flash (by simp) kept
    all_goals exact kept
  · exact form

/-- The start sequence writes the memory only where it finishes a held erase (R170). -/
theorem startUpdate_form (inp : UpdateInputs) {s : State} (form : memoryForm s) : memoryForm (startUpdate inp s) := by
  unfold startUpdate
  split
  · exact memoryForm_of_flash (by simp) form
  · unfold pollStore
    dsimp only
    repeat' split
    · exact memoryForm_of_flash (by simp) form
    · exact form
    · exact memWf_finishErase form
    · exact form

theorem judgeIdentification_form (b0 b1 b2 : Byte) {s : State} (form : memoryForm s) :
    memoryForm (judgeIdentification b0 b1 b2 s) := by
  unfold judgeIdentification
  split
  · have finished := memWf_finishErase (s := { s with cfg := { s.cfg with
      resumeIssued := true, identIssued := true, identAnswer := some { b0 := b0, b1 := b1, b2 := b2 } } }) form
    dsimp only
    split
    · exact finished
    · exact memoryForm_of_flash (by simp) finished
  · exact form

/-- An update writes the memory at a held erase's end and at the failure of an operation (R127, R170). -/
theorem update_form (inp : UpdateInputs) {s : State} (form : memoryForm s) : memoryForm (update inp s) := by
  have opened : memoryForm (sampled inp s) :=
    memoryForm_of_flash (m := (startUpdate inp (stepAging (clockWrap (countUpdate s)))).flash) (by simp [sampled])
      (startUpdate_form inp (memoryForm_of_flash (by simp) form))
  unfold update
  dsimp only
  refine memoryForm_of_flash
    (m := (afterMotion inp s.cfg.station.isSome (takeResult (toServo inp s).2 (toServo inp s).1)).flash) (by simp) ?_
  rw [afterMotion_eq]
  exact operationUpdate_form _ (memoryForm_of_flash (by simp [toServo, withMotion, beforeMotion_eq]) opened)

theorem updateWhen_form (due : Bool) (inp : UpdateInputs) {s : State} (form : memoryForm s) :
    memoryForm (updateWhen due inp s) := by
  unfold updateWhen; split
  · exact update_form inp form
  · exact form

/-! ### Every command, and every step -/

theorem exec_form {c : Instr} {s t : State} (taken : exec c s = .next t) (form : memoryForm s) : memoryForm t := by
  cases c <;> cases taken
  case start chainOpen memory =>
    rw [memoryForm, startPart_eq]
    exact memWf_startFlash memory form
  case update => exact update_form _ form
  case timeOwn | timeSteppedClear | strapsRead | storeIdTimeout | encoderFaultEnd | stall | crewAbsent | followError |
      demandStale | peerLost | wakingEnd | flashTimeout => exact updateWhen_form _ _ form
  case identification => exact judgeIdentification_form _ _ _ form
  case programComplete => exact programEnded_form _ _ form
  case eraseComplete => exact eraseEnded_form _ _ form
  case chainClose => exact form
  all_goals exact memoryForm_of_flash (by simp) form

/-- Settles O6: a tick leaves the memory alone, and every command keeps the form. -/
theorem stepKeepsMemoryForm : Obligations.StepKeepsMemoryForm := by
  unfold Obligations.StepKeepsMemoryForm
  intro s t form stepped
  cases waiting : s.pending with
  | nil =>
    simp only [step, waiting] at stepped
    cases stepped
    exact memoryForm_of_flash (by simp) form
  | cons c rest =>
    rw [step_front waiting] at stepped
    exact exec_form stepped (memoryForm_of_flash rfl form)

end Sys2Proof.Machine
end

