-- ==== Sys2Proof/Proofs/FlashArbiter.lean ====
section
/-! SUPPORT. The flash arbiter: the work that is started by its rank, reads, and the suspend (R127, R139 to R145, R182). -/

namespace Sys2Proof.Machine

open Sys2Proof.Safety

/-! ### Work by its rank (R139) -/

section
variable {s : State}

/-- An operation in flight, or a RESTART that waits for it, is left alone (R139, R151). -/
theorem startWork_of_busy (busy : s.tsc.unit ≠ .idle ∨ s.tsc.draining = true) : startWork s = s :=
  if_neg fun ⟨idle, settled⟩ => busy.elim (fun other => other idle) fun waits => by simp [settled] at waits

variable (idle : s.tsc.unit = .idle) (settled : s.tsc.draining = false)
include idle settled

theorem startWork_of_read {j : ReadJob} {rest : List ReadJob} (reads : s.tsc.reads = j :: rest) :
    startWork s = { s with tsc := { s.tsc with unit := .reading j, reads := rest, opAge := 0 } } := by
  rw [startWork, if_pos ⟨idle, settled⟩, reads]

variable (unread : s.tsc.reads = [])
include unread

theorem startWork_of_write {w : WriteEntry} {ws : List WriteEntry} {e : DirEntry} {r : Recording}
    (queue : s.tsc.writeQueue = w :: ws) (records : s.tsc.recordingOf = some (e, r)) :
    startWork s = { s with tsc := startProgram (recordProgram e.number r w (w.steps.headD .page)) s.tsc } := by
  rw [startWork, if_pos ⟨idle, settled⟩, unread, queue, records]

variable (unwritten : s.tsc.writeQueue = [])
include unwritten

theorem startWork_of_configErase {ws : List CloseWork} (list : s.tsc.closeList = .configErase :: ws) :
    startWork s = { s with tsc := s.tsc.issue (.erasing 0 false) } := by
  rw [startWork, if_pos ⟨idle, settled⟩, unread, unwritten, list]

theorem startWork_of_program {w : CloseWork} {ws : List CloseWork} {p : Program} (list : s.tsc.closeList = w :: ws)
    (programs : closeProgram s w = some p) : startWork s = { s with tsc := startProgram p s.tsc } := by
  have other : w ≠ .configErase := by rintro rfl; cases programs
  rw [startWork, if_pos ⟨idle, settled⟩, unread, unwritten, list]
  cases w <;> simp_all

variable (unclosed : s.tsc.closeList = [])
include unclosed

/-- With nothing to program, no gate of R140 holds an erase back but the node's own state. -/
theorem startWork_of_erase {c : Nat} {rest : List Nat} (queue : s.tsc.eraseQueue = c :: rest) (up : axisUp s = true) :
    startWork s = { s with tsc := s.tsc.issue (.erasing c false) } := by
  have gate : eraseGate s = true := by simp [eraseGate, up, unwritten]
  rw [startWork, if_pos ⟨idle, settled⟩, unread, unwritten, unclosed, queue]
  exact if_pos gate

theorem startWork_of_nothing (rest : s.tsc.eraseQueue = [] ∨ axisUp s = false) : startWork s = s := by
  rw [startWork, if_pos ⟨idle, settled⟩, unread, unwritten, unclosed]
  cases queue : s.tsc.eraseQueue with
  | nil => rfl
  | cons c more =>
    have gate : eraseGate s = false := by simp [eraseGate, rest.resolve_left (by simp [queue])]
    simp [gate]

end

/-! ### The programs of the close-and-lock list (R136, R145, R182) -/

theorem closeProgram_configPage {s : State} {bs : List Byte} (i : Nat) (buffer : s.cpt.writeBuffer = some bs) :
    closeProgram s (.configPage i) =
      some { work := .config i, address := i * 256, data := (bs.drop (i * 256)).take 256 } := by
  simp [closeProgram, buffer, memAddress, field, Config.pageBytes]

theorem closeProgram_lock {s : State} {n : Byte} {e : DirEntry} {x : StoredTake} {g : Segment} (entry : s.tsc.entry n = some e)
    (stored : e.stored = some x) (first : x.segments.find? (fun y => y.seq == 0) = some g) :
    closeProgram s (.lock n) = some { work := .lock n, address := g.sector * 4096 + 255, data := [0] } := by
  simp [closeProgram, entry, stored, sectorOf, first, memAddress, Config.sectorBytes]

section
variable {s : State} {e : DirEntry} {r : Recording} {c : TakeClose} {g : Segment}
  (records : s.tsc.recordingOf = some (e, r)) (closing : s.tsc.closing = some c)
include records closing

theorem closeProgram_segClose (last : r.segments.find? (fun y => y.seq == (c.length - 1) / 1905) = some g) :
    closeProgram s .segClose = some
      { work := .segClose, address := g.sector * 4096 + 24
        data := segClosePart (if c.length % 1905 = 0 then 1905 else c.length % 1905) } := by
  have place : sectorOf r.segments ((c.length - 1) / 1905) = some g.sector := by rw [sectorOf, last]; rfl
  have count : (if c.length % 1905 = 0 then 1905 else c.length % 1905) = lastCount c.length := rfl
  rw [count]
  simp [closeProgram, records, closing, place, memAddress, Config.sectorBytes, Config.segmentDeltas]

theorem closeProgram_takeClose_eq (first : r.segments.find? (fun y => y.seq == 0) = some g) :
    closeProgram s .takeClose =
      some { work := .takeClose, address := g.sector * 4096 + 32, data := takeClosePart c } := by
  simp [closeProgram, records, closing, sectorOf, first, memAddress, Config.sectorBytes]

end

/-! ### Reads and the suspend (R141, R143, R144) -/

theorem requestRead_of_erasing (j : ReadJob) {t : Tsc} {c : Nat} (erases : t.unit = .erasing c false) (running : t.reported = false) :
    requestRead j t = { t with reads := t.reads ++ [j], unit := .erasing c true, suspendAge := 0 } := by
  simp [requestRead, erases, running]

theorem requestRead_of_other (j : ReadJob) {t : Tsc} (other : (∀ c, t.unit ≠ .erasing c false) ∨ t.reported = true) :
    requestRead j t = { t with reads := t.reads ++ [j] } := by
  unfold requestRead
  dsimp only
  split
  · next c erases =>
    exact if_pos (other.resolve_left fun none => none c erases)
  · rfl

/-- What a page's bytes make of its slot (R143, R144). -/
theorem readResult_slot (i : Fin 4) (w : TakePage) (sector : Nat) (second : Bool) (bs : List Byte) (t : Tsc) :
    readResult (.slot i w sector second) bs t =
      if checkMatches bs = true then { t with
        slots := t.slots.set i (.filled sector w (pageDeltas bs 127))
        rereads := if second then min 65535 (t.rereads + 1) else t.rereads }
      else if second then { t with slots := t.slots.set i (.failed w), nextPage := none }
      else { t with reads := .slot i w sector true :: t.reads } := by
  have count : satInc 65535 t.rereads = min 65535 (t.rereads + 1) := satInc_eq 65535 _
  rw [← count]
  rfl

theorem readBytes_slot (seen : Option (List Byte)) (m : Memory) (i : Fin 4) (w : TakePage) (sector : Nat) (second : Bool) :
    readBytes seen m (.slot i w sector second) = seen.getD (memRun m (sector * 4096 + w.page * 256) 256) := by
  have place : memAddress sector w.page 0 = sector * 4096 + w.page * 256 := by
    simp [memAddress, Config.sectorBytes, Config.pageBytes]
  rw [readBytes, place]
  cases seen <;> rfl

theorem readEnded_of_reading (seen : Option (List Byte)) {s : State} {i : Fin 4} {w : TakePage} {sector : Nat} {second : Bool}
    (reads : s.tsc.unit = .reading (.slot i w sector second)) :
    readEnded seen s = unitIdle { s with
      tsc := readResult (.slot i w sector second) (seen.getD (memRun s.flash (sector * 4096 + w.page * 256) 256)) s.tsc } := by
  rw [readEnded, reads, ← readBytes_slot seen s.flash i w sector second]

theorem readEnded_of_suspended (seen : Option (List Byte)) {s : State} {c : Nat} {i : Fin 4} {w : TakePage} {sector : Nat}
    {second : Bool} (reads : s.tsc.unit = .suspended c (some (.slot i w sector second))) :
    readEnded seen s = { s with
      tsc := suspendedWork c
        (readResult (.slot i w sector second) (seen.getD (memRun s.flash (sector * 4096 + w.page * 256) 256)) s.tsc) } := by
  rw [readEnded, reads, ← readBytes_slot seen s.flash i w sector second]

theorem readEnded_of_dropped (seen : Option (List Byte)) {s : State} :
    (s.tsc.unit = .reading .dropped → readEnded seen s = unitIdle s) ∧
      ∀ c, s.tsc.unit = .suspended c (some .dropped) → readEnded seen s = { s with tsc := suspendedWork c s.tsc } := by
  constructor
  · intro dropped
    rw [readEnded, dropped]
  · intro c dropped
    rw [readEnded, dropped]
    rfl

theorem eraseSuspended_of_asked {s : State} {c : Nat} (asked : s.tsc.unit = .erasing c true) :
    eraseSuspended s = { s with tsc := suspendedWork c s.tsc } := by
  rw [eraseSuspended, asked]

theorem unitIdle_of_settled {s : State} (settled : s.tsc.draining = false) :
    unitIdle s = startWork { s with tsc := { s.tsc with unit := .idle, suspendAge := 0, reported := false } } := by
  simp [unitIdle, settled]

theorem unitIdle_of_draining {s : State} (waits : s.tsc.draining = true) :
    unitIdle s = { s with tsc := Tsc.start s.tsc.cursor s.tsc.rereads } := by
  simp [unitIdle, waits]

/-- Settles O52: the work by its rank, a read asked for, and the ends of a suspend and of a read. -/
theorem workIsStartedAndReadsFill : Obligations.WorkIsStartedAndReadsFill := by
  unfold Obligations.WorkIsStartedAndReadsFill
  refine ⟨fun s => ⟨(startWork s).tsc, startWork_eq s, fun busy => ?_, fun idle settled => ⟨fun j rest reads => ?_,
      fun w ws e r unread queue records => ?_, fun unread unwritten => ?_⟩⟩,
    fun j t => ⟨fun c erases running => requestRead_of_erasing j erases running, requestRead_of_other j⟩, fun seen s => ?_⟩
  · rw [startWork_of_busy busy]
  · rw [startWork_of_read idle settled reads]
  · rw [startWork_of_write idle settled unread queue records]
    refine ⟨_, rfl, rfl, rfl, queue, fun step => ?_, fun step => ?_, fun step => ?_⟩
    all_goals
      rw [step]
      simp [recordProgram, memAddress, Config.sectorBytes, Config.pageBytes, Config.segmentDeltas]
  · have programs {w : CloseWork} {ws : List CloseWork} {p : Program} (list : s.tsc.closeList = w :: ws)
        (program : closeProgram s w = some p) : (startWork s).tsc.unit = .programming p := by
      rw [startWork_of_program idle settled unread unwritten list program]
      rfl
    refine ⟨fun ws list => ?_, fun i ws bs list buffer => programs list (closeProgram_configPage i buffer),
      fun n ws e x g list entry stored first => programs list (closeProgram_lock entry stored first),
      fun ws e r c list records closing g last => programs list (closeProgram_segClose records closing last),
      fun ws e r c list records closing g first => programs list (closeProgram_takeClose_eq records closing first),
      fun c rest list queue up => ?_, fun list rest => ?_⟩
    · rw [startWork_of_configErase idle settled unread unwritten list]; rfl
    · rw [startWork_of_erase idle settled unread unwritten list queue up]; rfl
    · rw [startWork_of_nothing idle settled unread unwritten list rest]
  · obtain ⟨dropped, droppedThere⟩ := readEnded_of_dropped seen (s := s)
    refine ⟨fun c asked => congrArg Host.Outcome.next (eraseSuspended_of_asked asked), fun at_ => congrArg Host.Outcome.next (dropped at_),
      fun c at_ => congrArg Host.Outcome.next (droppedThere c at_), fun i w sector second => ?_, unitIdle_of_settled, unitIdle_of_draining⟩
    dsimp only
    rw [← readResult_slot]
    exact ⟨fun at_ => congrArg Host.Outcome.next (readEnded_of_reading seen at_),
      fun c at_ => congrArg Host.Outcome.next (readEnded_of_suspended seen at_)⟩

end Sys2Proof.Machine
end

