-- ==== Sys2Proof/Proofs/StoreEnds.lean ====
section
/-! SUPPORT. A verify that ends the recording, and the end of an erase with its check (R127, R129, R132, R135, R138, R140, R182). -/

namespace Sys2Proof.Machine

open Sys2Proof.Safety

/-! ### STORE-WRITE ends the recording (R115, R119, R135, R138) -/

/-- What is left where a failed verify ends a recording or its close. -/
structure WriteFailed (s t : State) : Prop where
  frame : t = { s with tsc := t.tsc, tks := t.tks, lnk := t.lnk }
  tsc : t.tsc = releaseReadAhead (discardRecording s.tsc)
  job : t.tks.job = .idle
  outcome : t.tks.outcome = .aborted (reasonCode .storeWrite) (ownByte s)
  takeNumber : t.tks.takeNumber = s.tks.jobTake
  broadcasts : s.tks.job = .recording → s.lnk.fifo.length < 4 →
    t.lnk = { s.lnk with fifo := s.lnk.fifo ++ [.take (.abort s.tks.jobTake (reasonCode .storeWrite) (ownByte s))] }
  silent : s.tks.job = .closing → t.lnk = s.lnk

theorem storeWriteFailed_of_recording {s : State} (records : s.tks.job = .recording) : WriteFailed s (storeWriteFailed s) := by
  obtain ⟨job, outcome, tsc, -⟩ := abortOwn_recording .storeWrite records
  have ended := jobEnded .storeWrite (.aborted (reasonCode .storeWrite) (ownByte s)) s
  have fails : storeWriteFailed s = abortOwn .storeWrite s := by rw [storeWriteFailed, records]
  have own : ownByte (endJob (.aborted (reasonCode .storeWrite) (ownByte s)) s) = ownByte s := ownByte_congr (by simp)
  have mpr : (abortOwn .storeWrite s).mpr = s.mpr := ended.mpr (by simp [records])
  have frame : abortOwn .storeWrite s = { s with
      tks := (abortOwn .storeWrite s).tks, tsc := (abortOwn .storeWrite s).tsc, lnk := (abortOwn .storeWrite s).lnk
      mpr := (abortOwn .storeWrite s).mpr } := ended.frame
  rw [fails]
  refine ⟨by rw [mpr] at frame; exact frame, tsc, job, outcome, ended.takeNumber, fun _ room => ?_,
    fun closing => by simp [records] at closing⟩
  rw [abortOwn, broadcastAbort_of_room _ _ _ (by simpa using room), own]
  simp

theorem storeWriteFailed_of_closing {s : State} (closing : s.tks.job = .closing) : WriteFailed s (storeWriteFailed s) := by
  have fails : storeWriteFailed s =
      closingEnds (.aborted (reasonCode .storeWrite) (ownByte s)) { s with tsc := discardRecording s.tsc } := by
    rw [storeWriteFailed, closing]
  rw [fails]
  exact ⟨rfl, rfl, rfl, rfl, rfl, fun records => by simp [closing] at records, fun _ => rfl⟩

theorem storeWriteFailed_ends {s : State} (job : s.tks.job = .recording ∨ s.tks.job = .closing) : WriteFailed s (storeWriteFailed s) :=
  job.elim storeWriteFailed_of_recording storeWriteFailed_of_closing

/-- A program of a recording: of its pages, or of its close. -/
def Program.records (p : Program) : Prop := (∃ st, p.work = .record st) ∨ p.work = .segClose ∨ p.work = .takeClose

theorem programFailed_of_records {p : Program} (records : p.records) (s : State) :
    programFailed p s = storeWriteFailed (withdraw (p.address / 4096) s) := by
  rcases records with ⟨st, work⟩ | work | work <;> simp only [programFailed, work, Config.sectorBytes]

/-- A discarded recording queues no BAD sector for an erase (R138). -/
theorem not_mem_discardRecording_eraseQueue {t : Tsc} {c : Nat} (withdrawn : c ∈ t.bad) (unqueued : c ∉ t.eraseQueue) :
    c ∉ (discardRecording t).eraseQueue := by
  simp only [discardRecording, List.mem_append, List.mem_map, List.mem_filter, not_or]
  refine ⟨unqueued, ?_⟩
  rintro ⟨g, ⟨-, kept⟩, rfl⟩
  simp [withdrawn] at kept

/-- Settles O55: the failed verify withdraws the sector, discards the recording and ends its job. -/
theorem verifyFailureEndsTheRecording : Obligations.VerifyFailureEndsTheRecording := by
  unfold Obligations.VerifyFailureEndsTheRecording
  intro seen s p st programs settled work mismatch job
  obtain ⟨-, frame, -, fails⟩ := programEnded_judged seen programs settled
  have goes := fails mismatch
  rw [programFailed_of_records (.inl ⟨st, work⟩)] at goes
  have ended := storeWriteFailed_ends (s := withdraw (p.address / 4096) (programLeft seen p s)) job
  refine ⟨programEnded seen false s, rfl, ?_⟩
  generalize programEnded seen false s = t at *
  generalize storeWriteFailed (withdraw (p.address / 4096) (programLeft seen p s)) = a at *
  have cpt : t.cpt = s.cpt := goes.cpt.trans (by rw [ended.frame]; rfl)
  have queue : t.tsc.eraseQueue = (discardRecording { s.tsc with bad := s.tsc.bad ++ [p.address / 4096] }).eraseQueue := by
    rw [goes.eraseQueue, ended.tsc]; rfl
  refine ⟨by rw [cpt] at frame; exact frame, by rw [goes.bad, ended.tsc]; rfl, fun unqueued => ?_, by rw [goes.tks, ended.job],
    by rw [goes.tks, ended.outcome]; rfl, ?_, by rw [goes.writeQueue, ended.tsc]; rfl, ?_, fun e r records => ?_,
    fun records room => goes.lnk.trans (ended.broadcasts records room), fun closing => goes.lnk.trans (ended.silent closing)⟩
  · rw [queue]
    exact not_mem_discardRecording_eraseQueue (by simp) unqueued
  · exact (congrArg Tsc.pageBuffer goes.stored.queues :).trans (by rw [ended.tsc]; rfl)
  · refine goes.unrecorded ?_
    rw [ended.tsc]
    exact discardRecording_recordingOf _
  · rw [queue]
    exact discardRecording_eraseQueue (t := { s.tsc with bad := s.tsc.bad ++ [p.address / 4096] }) records

/-! ### The bytes of an erase (R127, R140) -/

theorem memRun_erased {m : Memory} : ∀ (n a : Nat), (∀ b, a ≤ b → b < a + n → memRead m b = 255) →
    memRun m a n = List.replicate n 255
  | 0, _, _ => rfl
  | n + 1, a, erased => by
    rw [memRun, erased a (by omega) (by omega), memRun_erased n (a + 1) fun b _ _ => erased b (by omega) (by omega)]
    rfl

theorem leftRun_of_length {seen : Option (List Byte)} {made : List Byte} (whole : ∀ bs, seen = some bs → bs.length = made.length) :
    leftRun seen made = seen.getD made := by
  cases seen with
  | none => rfl
  | some bs =>
    have length := whole bs rfl
    simp [leftRun, ← length]

/-- Page 0 of the sector as the check of its erase reads it (R140). -/
def checkedPage (seen : Option (List Byte)) (c : Nat) (s : State) : List Byte := leftRun seen (memRun (eraseMade c s) (c * 4096) 256)

/-- The node once an erase has left the sector in the memory (R127). -/
def eraseLeft (seen : Option (List Byte)) (c : Nat) (s : State) : State :=
  { s with flash := memStore (eraseMade c s) (c * 4096) (checkedPage seen c s) }

section
variable (seen : Option (List Byte)) {c : Nat} {u : Bool} {s : State}

theorem checkedPage_length : (checkedPage seen c s).length = 256 := (leftRun_length _ _).trans (memRun_length _ _ _)

theorem eraseMade_outside (form : memoryForm s) {a : Nat} (outside : sectorSpares c a) :
    memRead (eraseMade c s) a = memRead s.flash a := by
  unfold eraseMade
  split
  · rfl
  · exact memRead_memErase_outside form outside

/-- An erase reported ended leaves the sector as it stands, one that runs leaves it erased (R127). -/
theorem eraseMade_inside (form : memoryForm s) {a : Nat} (lo : c * 4096 ≤ a) (hi : a < c * 4096 + 4096) :
    memRead (eraseMade c s) a = if s.tsc.reported then memRead s.flash a else 255 := by
  have own : a / Config.sectorBytes = c := by simp only [Config.sectorBytes]; omega
  unfold eraseMade
  split
  · rfl
  · rw [memRead_memErase c a form, if_pos own]; rfl

theorem checkedPage_eq (form : memoryForm s) (whole : ∀ bs, seen = some bs → bs.length = 256) :
    checkedPage seen c s = seen.getD (if s.tsc.reported then memRun s.flash (c * 4096) 256 else List.replicate 256 255) := by
  rw [checkedPage, leftRun_of_length fun bs given => (whole bs given).trans (memRun_length _ _ _).symm]
  congr 1
  split
  · next reported => rw [eraseMade, if_pos reported]
  · next running =>
    refine memRun_erased _ _ fun b lo hi => ?_
    have before : b < c * 4096 + 4096 := hi.trans (Nat.add_lt_add_left (by decide) _)
    rw [eraseMade_inside form lo before, if_neg running]

theorem eraseLeft_outside (form : memoryForm s) {a : Nat} (outside : sectorSpares c a) :
    memRead (eraseLeft seen c s).flash a = memRead s.flash a := by
  refine (memRead_memStore_outside _ _ (eraseMade_form c form) ?_).trans (eraseMade_outside form outside)
  rw [checkedPage_length]
  exact outside.imp_right (by omega)

theorem eraseLeft_page (form : memoryForm s) (inside : c ≤ 4095) :
    memRun (eraseLeft seen c s).flash (c * 4096) 256 = checkedPage seen c s := by
  have fits : c * 4096 + (checkedPage seen c s).length ≤ Config.memoryBytes := by
    rw [checkedPage_length]; simp only [Config.memoryBytes]; omega
  have run := memRun_memStore (checkedPage seen c s) (c * 4096) (eraseMade_form c form) fits
  rwa [checkedPage_length] at run

theorem eraseLeft_rest (form : memoryForm s) {a : Nat} (lo : c * 4096 + 256 ≤ a) (hi : a < c * 4096 + 4096) :
    memRead (eraseLeft seen c s).flash a = if s.tsc.reported then memRead s.flash a else 255 := by
  have after : c * 4096 + (checkedPage seen c s).length ≤ a := by rwa [checkedPage_length]
  have within : c * 4096 ≤ a := (Nat.le_add_right _ _).trans lo
  exact (memRead_memStore_outside _ _ (eraseMade_form c form) (.inr after)).trans (eraseMade_inside form within hi)

/-! ### The end of an erase and its check (R127, R132, R140, R182) -/

theorem memAddress_sector (c : Nat) : memAddress c 0 0 = c * 4096 := by simp [memAddress, Config.sectorBytes]

/-- Status's report alone, given twice, changes nothing (R127). -/
theorem eraseEnded_of_reported (erases : s.tsc.unit = .erasing c u) (reported : s.tsc.reported = true) :
    eraseEnded seen true s = s := by
  simp [eraseEnded, erases, reported]

/-- Status's report alone ends a suspend asked for and starts the check (R127, R141). -/
theorem eraseEnded_of_report (erases : s.tsc.unit = .erasing c u) (running : s.tsc.reported = false) :
    eraseEnded seen true s = operationReported { eraseLeft seen c s with
      tsc := { s.tsc with unit := .erasing c false, suspendAge := 0 } } := by
  simp [eraseEnded, erases, running, eraseLeft, checkedPage, memAddress_sector, Config.pageBytes]

theorem eraseEnded_of_check (erases : s.tsc.unit = .erasing c u) :
    eraseEnded seen false s = unitIdle (eraseResult c (allErased (checkedPage seen c s)) (eraseLeft seen c s)) := by
  rw [eraseEnded, erases]
  simp only [Bool.false_and, Bool.false_eq_true, if_false, memAddress_sector]
  rfl

end

section
variable (s : State)

/-- A take sector leaves the queue's head for the pool or for BAD (R132, R140). -/
theorem eraseResult_of_take {c : Nat} (take : c ≠ 0) (ok : Bool) : eraseResult c ok s = { s with tsc := { s.tsc with
    eraseQueue := s.tsc.eraseQueue.tail, bad := if ok then s.tsc.bad else s.tsc.bad ++ [c] } } := by
  rw [eraseResult, if_neg take]
  cases ok <;> rfl

/-- The block's sector: its programs follow, or the write has FAILED (R182). -/
theorem eraseResult_of_block (ok : Bool) :
    eraseResult 0 ok s = if ok then { s with tsc := closeDone s.tsc } else configFails s := if_pos rfl

theorem configFails_unlisted (i : Nat) : .configPage i ∉ (configFails s).tsc.closeList := by simp [configFails]

/-- An erase's result leaves a RESTART that waits for the unit waiting (R151). -/
theorem eraseResult_waits (c : Nat) (ok : Bool) : (eraseResult c ok s).tsc.draining = s.tsc.draining ∧
    (eraseResult c ok s).tsc.cursor = s.tsc.cursor ∧ (eraseResult c ok s).tsc.rereads = s.tsc.rereads := by
  by_cases take : c = 0
  · subst take
    rw [eraseResult_of_block]
    cases ok <;> exact ⟨rfl, rfl, rfl⟩
  · rw [eraseResult_of_take s take]
    exact ⟨rfl, rfl, rfl⟩

/-- Neither the erase's result nor what the unit goes on to reaches beyond the store and the port's write. -/
theorem eraseResult_eq (c : Nat) (ok : Bool) :
    eraseResult c ok s = { s with tsc := (eraseResult c ok s).tsc, cpt := (eraseResult c ok s).cpt } := by
  by_cases take : c = 0
  · subst take
    rw [eraseResult_of_block]
    cases ok <;> rfl
  · rw [eraseResult_of_take s take]

theorem unitIdle_eq : unitIdle s = { s with tsc := (unitIdle s).tsc } := by
  cases waits : s.tsc.draining with
  | true => rw [unitIdle_of_draining waits]
  | false => exact (unitIdle_goesOn waits).frame

end

/-- Settles O53: the bytes of the sector, then the queue, BAD and the write by the check. -/
theorem eraseLeavesTheSectorErased : Obligations.EraseLeavesTheSectorErased := by
  unfold Obligations.EraseLeavesTheSectorErased
  intro seen s c u form erases inside whole page stored leaves
  have checked : checkedPage seen c s = page := checkedPage_eq seen form whole
  have left {t : State} (flash : t.flash = (eraseLeft seen c s).flash) : stored t := by
    dsimp only [stored]
    rw [flash]
    exact ⟨fun a outside => eraseLeft_outside seen form outside, (eraseLeft_page seen form inside).trans checked,
      fun a lo hi => eraseLeft_rest seen form lo hi⟩
  refine ⟨fun reported => congrArg Host.Outcome.next (eraseEnded_of_reported seen erases reported),
    fun running => ⟨_, congrArg Host.Outcome.next (eraseEnded_of_report seen erases running), left rfl, rfl⟩,
    eraseEnded seen false s, rfl, ?_⟩
  have ends := eraseEnded_of_check seen erases
  rw [checked] at ends
  obtain ⟨draining, cursor, rereads⟩ := eraseResult_waits (eraseLeft seen c s) c (allErased page)
  have result := eraseResult_eq (eraseLeft seen c s) c (allErased page)
  have idles := unitIdle_eq (eraseResult c (allErased page) (eraseLeft seen c s))
  rw [← ends, result] at idles
  refine ⟨left (by rw [idles]), ?_, fun waits => ?_, fun settled => ⟨fun rest take queue => ?_, fun block => ?_⟩⟩
  · rw [idles]; rfl
  · rw [ends, unitIdle_of_draining (draining.trans waits), cursor, rereads]
    rfl
  · have goes := unitIdle_goesOn (draining.trans settled)
    rw [← ends, eraseResult_of_take _ take] at goes
    refine ⟨goes.cpt, fun due => goes.leaves rfl due, by rw [goes.eraseQueue]; exact congrArg List.tail queue, fun good => ?_,
      fun bad => ?_⟩
    · rw [goes.bad]; exact if_pos good
    · rw [goes.bad]; exact if_neg bad
  · subst block
    have goes := unitIdle_goesOn (draining.trans settled)
    rw [← ends, eraseResult_of_block] at goes
    by_cases good : allErased page = true
    · rw [if_pos good] at goes
      exact ⟨goes.eraseQueue, goes.bad, fun _ => ⟨goes.cpt, fun ws list due => goes.leaves (congrArg List.tail list :) due⟩,
        absurd good⟩
    · rw [if_neg good] at goes
      exact ⟨goes.eraseQueue, goes.bad, fun same => absurd same good,
        fun _ => ⟨goes.cpt, fun i listed => configFails_unlisted _ i (goes.within _ listed)⟩⟩

end Sys2Proof.Machine
end

