-- ==== Sys2Proof/Proofs/PortStore.lean ====
section
/-! SUPPORT. The port's commands on the take memory: CONFIG_WRITE and FORMAT (R147, R178, R182). -/

namespace Sys2Proof.Machine

open Sys2Proof.Safety

section
variable (block : List Byte) (s : State)

theorem writeInProgress_iff : writeInProgress s = true ↔ s.cpt.writeState = .inProgress := by simp [writeInProgress]

theorem writeState_iff : writeState s = true ↔ s.cfg.startState = .parked ∧ s.stc.drive = .parked ∨ s.cfg.startState = .run ∨
    s.cfg.startState = .configFault := by
  simp [writeState, or_assoc]

theorem portConfigWrite_of_inProgress (writes : s.cpt.writeState = .inProgress) : portConfigWrite block s = refused .busy s :=
  if_pos ((writeInProgress_iff s).mpr writes)

variable (unwritten : s.cpt.writeState ≠ .inProgress)
include unwritten

theorem portConfigWrite_of_closed (closed : ¬writeState s = true) : portConfigWrite block s = refused .notNow s := by
  rw [portConfigWrite, if_neg (mt (writeInProgress_iff s).mp unwritten), if_neg closed]

theorem portConfigWrite_of_open (open_ : writeState s = true) : portConfigWrite block s =
    startWork (answered s .accepted .none { s with
      cpt := { s.cpt with writeState := .inProgress, writeBuffer := some block }
      tsc := { s.tsc with closeList := s.tsc.closeList ++ [.configErase, .configPage 0, .configPage 1] } }) := by
  rw [portConfigWrite, if_neg (mt (writeInProgress_iff s).mp unwritten), if_pos open_]

end

/-! ### FORMAT (R147) -/

theorem formatFree_iff (s : State) : formatFree s = true ↔ s.tks.job = .idle ∧ ∀ n, .lock n ∉ s.tsc.closeList := by
  have unlocked : (s.tsc.closeList.all fun w => match w with | .lock _ => false | _ => true) = true ↔
      ∀ n, .lock n ∉ s.tsc.closeList := by
    rw [List.all_eq_true]
    refine ⟨fun all n listed => by simpa using all _ listed, fun none w listed => ?_⟩
    cases w with
    | lock n => exact absurd listed (none n)
    | segClose | takeClose | configErase | configPage => rfl
  rw [formatFree, Bool.and_eq_true, beq_iff_eq]
  exact and_congr_right fun _ => unlocked

theorem portFormat_of_closed {s : State} (closed : axisUp s = false ∨ s.stc.drive ≠ .parked) : portFormat s = refused .notNow s := by
  refine if_neg fun open_ => ?_
  obtain ⟨up, parked⟩ := Bool.and_eq_true_iff.mp open_
  exact closed.elim (fun down => by simp [down] at up) fun other => other (beq_iff_eq.mp parked)

theorem portFormat_of_open {s : State} (up : axisUp s = true) (parked : s.stc.drive = .parked) : portFormat s =
    if formatFree s then startWork (answered s .accepted .none { s with tsc := formatStore s.tsc }) else refused .busy s := by
  simp [portFormat, up, parked]

/-- The sectors of the directory that a failed verify or lock has retired (R129, R145). -/
def retiredSectors (t : Tsc) : List Nat := ((t.directory.flatMap DirEntry.segments).filter (·.retire)).map (·.sector)

/-- The sectors that FORMAT adds to the erase queue (R147). -/
def formatQueue (t : Tsc) : List Nat :=
  ((List.range 4095).map (· + 1)).filter fun c => !t.bad.contains c && !t.eraseQueue.contains c && !(retiredSectors t).contains c

section
variable (t : Tsc)

theorem formatStore_eq : formatStore t =
    { t with directory := [], eraseQueue := t.eraseQueue ++ formatQueue t, bad := t.bad ++ retiredSectors t } := rfl

theorem mem_retiredSectors (c : Nat) :
    c ∈ retiredSectors t ↔ ∃ e ∈ t.directory, ∃ g ∈ e.segments, g.sector = c ∧ g.retire = true := by
  simp only [retiredSectors, List.mem_map, List.mem_filter, List.mem_flatMap]
  constructor
  · rintro ⟨g, ⟨⟨e, listed, part⟩, retired⟩, at_⟩
    exact ⟨e, listed, g, part, at_, retired⟩
  · rintro ⟨e, listed, g, part, at_, retired⟩
    exact ⟨g, ⟨⟨e, listed, part⟩, retired⟩, at_⟩

theorem mem_formatQueue (c : Nat) :
    c ∈ formatQueue t ↔ (1 ≤ c ∧ c ≤ 4095) ∧ c ∉ t.bad ∧ c ∉ t.eraseQueue ∧ c ∉ retiredSectors t := by
  have range : (∃ x, x < 4095 ∧ x + 1 = c) ↔ 1 ≤ c ∧ c ≤ 4095 :=
    ⟨fun ⟨x, low, at_⟩ => by omega, fun ⟨low, high⟩ => ⟨c - 1, by omega, by omega⟩⟩
  simp [formatQueue, range, and_assoc]

theorem formatQueue_nodup : (formatQueue t).Nodup :=
  (List.nodup_range.map fun a b same => by simpa using same).filter _

/-- FORMAT queues no sector twice (R147). -/
theorem formatStore_nodup (nodup : t.eraseQueue.Nodup) : (formatStore t).eraseQueue.Nodup :=
  nodup.append (formatQueue_nodup t) fun c queued added => ((mem_formatQueue t c).mp added).2.2.1 queued

end

/-- Settles O59: each command by its gates, and the store that FORMAT leaves. -/
theorem configWriteAndFormat : Obligations.ConfigWriteAndFormat := by
  unfold Obligations.ConfigWriteAndFormat
  intro block s port here free
  refine ⟨fun writes => congrArg Host.Outcome.next (portConfigWrite_of_inProgress block s writes),
    fun unwritten closed => congrArg Host.Outcome.next (portConfigWrite_of_closed block s unwritten (mt (writeState_iff s).mp closed)),
    fun unwritten open_ => congrArg Host.Outcome.next (portConfigWrite_of_open block s unwritten ((writeState_iff s).mpr open_)),
    fun closed => congrArg Host.Outcome.next (portFormat_of_closed closed), fun up parked busy => ?_, fun up parked idle => ?_⟩
  · have formats := portFormat_of_open up parked
    rw [if_neg (mt (formatFree_iff s).mp busy)] at formats
    exact congrArg Host.Outcome.next formats
  · have formats := portFormat_of_open up parked
    rw [if_pos ((formatFree_iff s).mpr idle)] at formats
    refine ⟨formatStore s.tsc, congrArg Host.Outcome.next formats, rfl, ⟨_, rfl⟩, ⟨_, rfl⟩,
      formatStore_nodup s.tsc, fun c low high => ⟨?_, ?_⟩⟩
    · rw [formatStore_eq, List.mem_append, mem_retiredSectors]
    · rw [formatStore_eq]
      dsimp only
      rw [List.mem_append, List.mem_append, mem_formatQueue]
      grind

end Sys2Proof.Machine
end

