-- ==== Sys2Proof/Proofs/FlightKept.lean ====
section
/-! SUPPORT. What the stops and the takes of an update leave of the program or erase in flight (R127, R138, R141). -/

namespace Sys2Proof.Machine

open Sys2Proof.Safety

/-! ### The operation in flight, in the store -/

/-- A program or an erase is in flight: an operation that can run out of its updates (R127). -/
def FlashUnit.operates : FlashUnit → Bool
  | .programming _ | .erasing _ _ => true
  | .idle | .reading _ | .suspended _ _ => false

/-- The operation in flight goes on: a program of the recording may be abandoned (R138), an erase told to suspend (R141). -/
inductive UnitGoesOn (t u : Tsc) : Prop
  | same (unit : u.unit = t.unit) (age : u.suspendAge = t.suspendAge)
  | abandons (p : Program) (programs : t.unit = .programming p) (after : u.unit = .programming (abandon p))
      (age : u.suspendAge = t.suspendAge)
  | suspends (c : Nat) (erases : t.unit = .erasing c false) (running : t.reported = false) (after : u.unit = .erasing c true)
      (age : u.suspendAge = 0)
  | other (none : t.unit.operates = false)

/-- What a part of an update keeps of the operation in flight and of what its failure reads. -/
structure FlightGoesOn (t u : Tsc) : Prop where
  reported : u.reported = t.reported
  opAge : u.opAge = t.opAge
  draining : u.draining = t.draining
  bad : u.bad = t.bad
  listed : ∀ w ∈ u.closeList, w ∈ t.closeList ∨ w = .segClose ∨ w = .takeClose
  unit : UnitGoesOn t u

theorem abandon_of_other {p : Program} (other : ¬p.records) : abandon p = p := by
  unfold abandon
  cases work : p.work with
  | record st => exact absurd (.inl ⟨st, work⟩) other
  | segClose => exact absurd (.inr (.inl work)) other
  | takeClose => exact absurd (.inr (.inr work)) other
  | lock | config | abandoned => rfl

/-- An abandoned program is no longer the recording's. -/
theorem abandon_not_records (p : Program) : ¬(abandon p).records := by
  unfold abandon
  cases work : p.work <;> simp [Program.records, work]

theorem abandon_abandon (p : Program) : abandon (abandon p) = abandon p := abandon_of_other (abandon_not_records p)

theorem UnitGoesOn.trans {t u v : Tsc} (reported : u.reported = t.reported) (x : UnitGoesOn t u) (y : UnitGoesOn u v) :
    UnitGoesOn t v := by
  cases x with
  | same unit age =>
    cases y with
    | same unit' age' => exact .same (unit'.trans unit) (age'.trans age)
    | abandons p programs after age' => exact .abandons p (unit ▸ programs) after (age'.trans age)
    | suspends c erases running after age' => exact .suspends c (unit ▸ erases) (reported ▸ running) after age'
    | other none => exact .other (unit ▸ none)
  | abandons p programs after age =>
    cases y with
    | same unit' age' => exact .abandons p programs (unit'.trans after) (age'.trans age)
    | abandons q programs' after' age' =>
      obtain rfl : abandon p = q := by simpa [after] using programs'
      exact .abandons p programs (abandon_abandon p ▸ after') (age'.trans age)
    | suspends c erases => simp [after] at erases
    | other none => simp [after, FlashUnit.operates] at none
  | suspends c erases running after age =>
    cases y with
    | same unit' age' => exact .suspends c erases running (unit'.trans after) (age'.trans age)
    | abandons q programs' => simp [after] at programs'
    | suspends d erases' => simp [after] at erases'
    | other none => simp [after, FlashUnit.operates] at none
  | other none => exact .other none

namespace FlightGoesOn

variable {t u v : Tsc}

theorem rfl : FlightGoesOn t t := ⟨.refl _, .refl _, .refl _, .refl _, fun _ => .inl, .same (.refl _) (.refl _)⟩

theorem trans (x : FlightGoesOn t u) (y : FlightGoesOn u v) : FlightGoesOn t v := by
  refine ⟨y.reported.trans x.reported, y.opAge.trans x.opAge, y.draining.trans x.draining, y.bad.trans x.bad,
    fun w listed => ?_, x.unit.trans x.reported y.unit⟩
  rcases y.listed w listed with before | closes
  · exact x.listed w before
  · exact .inr closes

/-- An operation that is no playback's leaves the unit and its counts alone. -/
theorem of_ages (ages : u.ages = t.ages) (unit : u.unit = t.unit) (draining : u.draining = t.draining) (bad : u.bad = t.bad)
    (listed : ∀ w ∈ u.closeList, w ∈ t.closeList ∨ w = .segClose ∨ w = .takeClose) : FlightGoesOn t u := by
  simp only [Tsc.ages, Prod.mk.injEq] at ages
  obtain ⟨opAge, suspendAge, reported⟩ := ages
  exact ⟨reported, opAge, draining, bad, listed, .same unit suspendAge⟩

/-- What is done before another operation. -/
theorem before (then_ : FlightGoesOn u v) (ages : u.ages = t.ages) (unit : u.unit = t.unit) (draining : u.draining = t.draining)
    (bad : u.bad = t.bad) (listed : ∀ w ∈ u.closeList, w ∈ t.closeList ∨ w = .segClose ∨ w = .takeClose) : FlightGoesOn t v :=
  (of_ages ages unit draining bad listed).trans then_

end FlightGoesOn

theorem releaseReadAhead_goesOn (t : Tsc) : FlightGoesOn t (releaseReadAhead t) := by
  refine ⟨rfl, rfl, rfl, rfl, fun _ => .inl, ?_⟩
  cases unit : t.unit with
  | idle | reading | suspended => exact .other (by rw [unit]; rfl)
  | programming | erasing => exact .same (by simp [releaseReadAhead, unit]) rfl

theorem discardRecording_goesOn (t : Tsc) : FlightGoesOn t (discardRecording t) := by
  refine ⟨rfl, rfl, rfl, rfl, fun w listed => .inl (List.mem_of_mem_filter listed), ?_⟩
  cases unit : t.unit with
  | programming p => exact .abandons p unit (by simp [discardRecording, unit]) rfl
  | idle | reading | suspended => exact .other (by rw [unit]; rfl)
  | erasing => exact .same (by simp [discardRecording, unit]) rfl

theorem allocate_goesOn (seq : Nat) (t : Tsc) : FlightGoesOn t (allocate seq t).1 := by
  unfold allocate
  split
  · exact .rfl
  · exact .of_ages rfl rfl rfl rfl fun _ => .inl

theorem formPage_goesOn (i : Nat) (t : Tsc) : FlightGoesOn t (formPage i t).1 := by
  unfold formPage
  dsimp only
  repeat' split
  all_goals exact .of_ages rfl rfl rfl rfl fun _ => .inl

theorem acceptDelta_goesOn (d : Int) (t : Tsc) : FlightGoesOn t (acceptDelta d t).1 := by
  have allots (seq : Nat) (c : Prop) [Decidable c] :
      FlightGoesOn t (if c then allocate seq t else (t, StoreReport.quiet)).1 := by
    split
    · exact allocate_goesOn seq t
    · exact .rfl
  unfold acceptDelta
  split
  · exact .rfl
  · next r _ =>
    have first := allots (r.count / Config.segmentDeltas) (0 < r.count ∧ r.count % Config.segmentDeltas = 0)
    generalize (if 0 < r.count ∧ r.count % Config.segmentDeltas = 0 then allocate (r.count / Config.segmentDeltas) t
      else (t, StoreReport.quiet)) = x at *
    have counted : FlightGoesOn t (accepted d x.1) := first.trans (.of_ages rfl rfl rfl rfl fun _ => .inl)
    dsimp only
    split
    · exact first
    · split
      · exact counted.trans (formPage_goesOn _ _)
      · exact counted

theorem openRecording_goesOn (n : Byte) (mask : StationMask) (p v : Int) (t : Tsc) :
    FlightGoesOn t (openRecording n mask p v t).1 := by
  unfold openRecording
  dsimp only
  split
  · exact .before (allocate_goesOn 0 _) rfl rfl rfl rfl fun _ => .inl
  · split
    · exact .before (allocate_goesOn 0 _) rfl rfl rfl rfl fun _ => .inl
    · exact .of_ages rfl rfl rfl rfl fun _ => .inl

theorem requestClose_goesOn (c : TakeClose) (t : Tsc) : FlightGoesOn t (requestClose c t).1 := by
  have page : FlightGoesOn t (lastPage c t).1 := by
    unfold lastPage
    split
    · exact .rfl
    · exact formPage_goesOn _ _
  rw [requestClose_eq]
  refine page.trans (.of_ages rfl rfl rfl rfl fun w listed => ?_)
  rcases List.mem_append.mp listed with before | closes
  · exact .inl before
  · refine .inr ?_
    split at closes
    · exact .inr (by simpa using closes)
    · simpa using closes

/-- A read asked for may tell an erase to suspend (R141). -/
theorem requestRead_goesOn (j : ReadJob) (t : Tsc) : FlightGoesOn t (requestRead j t) := by
  by_cases asks : (∃ c, t.unit = .erasing c false) ∧ t.reported = false
  · obtain ⟨⟨c, erases⟩, running⟩ := asks
    rw [requestRead_of_erasing j erases running]
    exact ⟨rfl, rfl, rfl, rfl, fun _ => .inl, .suspends c erases running rfl rfl⟩
  · have other : (∀ c, t.unit ≠ .erasing c false) ∨ t.reported = true := by
      by_contra none
      simp only [not_or, not_forall, not_not, Bool.not_eq_true] at none
      exact asks none
    rw [requestRead_of_other j other]
    exact .of_ages rfl rfl rfl rfl fun _ => .inl

theorem fetchInto_goesOn (segs : List Segment) (endIndex : Nat) (i : Fin 4) (t : Tsc) : FlightGoesOn t (fetchInto segs endIndex i t) := by
  unfold fetchInto
  split
  · exact .rfl
  · split
    · exact .before (requestRead_goesOn _ _) rfl rfl rfl rfl fun _ => .inl
    · exact .rfl

theorem tookDelta_goesOn (segs : List Segment) (endIndex k : Nat) (t : Tsc) : FlightGoesOn t (tookDelta segs endIndex k t) := by
  unfold tookDelta
  split
  · split
    · exact .before (fetchInto_goesOn _ _ _ _) rfl rfl rfl rfl fun _ => .inl
    · exact .rfl
  · exact .rfl

/-! ### The operation in flight, in the node -/

/-- What a part of an update that goes from s to t keeps: a job that no stop aborts is left alone, and its store with it. -/
structure FlightKept (s t : State) : Prop where
  store : FlightGoesOn s.tsc t.tsc
  alone : jobAbortable s.tks.job = false → t.tks = s.tks ∧ t.tsc = s.tsc ∧ t.lnk.fifo = s.lnk.fifo

namespace FlightKept

variable {s t u : State}

theorem rfl : FlightKept s s := ⟨.rfl, fun _ => ⟨.refl _, .refl _, .refl _⟩⟩

theorem trans (x : FlightKept s t) (y : FlightKept t u) : FlightKept s u := by
  refine ⟨x.store.trans y.store, fun none => ?_⟩
  obtain ⟨tks, tsc, fifo⟩ := x.alone none
  obtain ⟨tks', tsc', fifo'⟩ := y.alone (tks ▸ none)
  exact ⟨tks'.trans tks, tsc'.trans tsc, fifo'.trans fifo⟩

theorem ite {c : Prop} [Decidable c] (yes : c → FlightKept s t) (no : ¬c → FlightKept s u) :
    FlightKept s (if c then t else u) := by
  split
  · exact yes ‹_›
  · exact no ‹_›

theorem of_frame (tks : t.tks = s.tks) (tsc : t.tsc = s.tsc) (fifo : t.lnk.fifo = s.lnk.fifo) : FlightKept s t :=
  ⟨tsc ▸ .rfl, fun _ => ⟨tks, tsc, fifo⟩⟩

/-- A part of a job that a stop aborts. -/
theorem of_job (held : jobAbortable s.tks.job = true) (store : FlightGoesOn s.tsc t.tsc) : FlightKept s t :=
  ⟨store, fun none => by simp [held] at none⟩

end FlightKept

theorem endJob_goesOn (o : TakeOutcome) (s : State) : FlightGoesOn s.tsc (endJob o s).tsc := by
  have released : FlightGoesOn s.tsc (releaseReadAhead s.tsc) := releaseReadAhead_goesOn s.tsc
  unfold endJob
  cases s.tks.job with
  | recording => exact (discardRecording_goesOn s.tsc).trans (releaseReadAhead_goesOn _)
  | cueing | running | runout => simpa [jobToIdle] using released
  | idle | prepared | cued | closing => exact released

theorem abortOwn_goesOn (r : Reason) (s : State) : FlightGoesOn s.tsc (abortOwn r s).tsc := by
  rw [abortOwn, (broadcastAbort_frame ..).2.2.2.2.2.2.2.2.2.2.1]
  exact endJob_goesOn _ s

/-! ### Stops and causes -/

theorem handOn_kept (f : HomeFail) (r : Reason) (s : State) : FlightKept s (handOn f r s) := by
  cases held : jobAbortable s.tks.job with
  | false =>
    obtain ⟨tks, tsc, lnk⟩ := handOn_takes_of_none f r held
    exact .of_frame tks tsc (congrArg Lnk.fifo lnk)
  | true =>
    have handed : (disarm (failHoming f s)).tsc = s.tsc := by simp
    refine .of_job held ?_
    rw [handOn, handedToTakes_of_abortable (by simpa using held), ← handed]
    exact abortOwn_goesOn r _

theorem reactStops_kept (s : State) : FlightKept s (reactStops s) := by
  by_cases on : s.stc.drive = .enabled
  · cases stop : stopInForce s
    · rw [reactStops_of_free stop, leaveStopped_of_other (by simp [on])]
      exact .rfl
    · obtain ⟨x, -, -, -, tks, tsc, lnk, -, -, leftTks, leftTsc, leftLnk⟩ := reactStops_of_enabled on stop
      have handed := handOn_kept .stop .stop x
      refine ⟨by rw [leftTsc, ← tsc]; exact handed.store, fun none => ?_⟩
      obtain ⟨tksX, tscX, fifoX⟩ := handed.alone (tks ▸ none)
      exact ⟨by rw [leftTks, tksX, tks], by rw [leftTsc, tscX, tsc], by rw [leftLnk, fifoX, lnk]⟩
  · obtain ⟨-, -, tks, tsc, lnk⟩ := reactStops_of_other on
    exact .of_frame tks tsc (by rw [lnk])

theorem holdAgain_flight (s : State) : FlightKept s (holdAgain s) :=
  .of_frame (by simp) (by simp) (congrArg Lnk.fifo (holdAgain_besideSafety s) :)

theorem causeArises_flight (c : Cause) (s : State) : FlightKept s (causeArises c s) :=
  .trans (.of_frame (by simp) (by simp) (congrArg Lnk.fifo (holdFor_besideSafety c s) :)) (reactStops_kept _)

theorem raiseCause_flight (c : Cause) {f : State → State} {s : State} (set : FlightKept s (f s)) :
    FlightKept s (raiseCause c f s) :=
  .ite (fun _ => set) fun _ => set.trans (causeArises_flight c _)

theorem raiseOverrun_flight (s : State) : FlightKept s (raiseOverrun s) := raiseCause_flight _ (.of_frame rfl rfl rfl)

theorem raiseFollow_flight (s : State) : FlightKept s (raiseFollow s) := raiseCause_flight _ (.of_frame rfl rfl rfl)

theorem causesAt_flight (here : Bool) (s : State) : FlightKept s (causesAt here s) := by
  have halt : FlightKept s (raiseHalt s) := .ite (fun _ => raiseCause_flight _ (.of_frame rfl rfl rfl)) fun _ => .rfl
  have lost : FlightKept s (lostUpdate (raiseHalt s)) := halt.trans (.of_frame rfl rfl rfl)
  exact .ite (fun _ => .ite (fun _ => lost.trans (causeArises_flight _ _)) fun _ => lost) fun _ => .rfl

theorem settleHold_flight (before s : State) : FlightKept s (settleHold before s) :=
  .ite (fun _ => (holdAgain_flight s).trans (reactStops_kept _)) fun _ => .rfl

/-! ### The result, taken -/

theorem homingUpdate_flight (r : Result) (s : State) : FlightKept s (homingUpdate r s) := by
  have homed (x : State) : FlightKept x (becomeHomed x) := by
    rw [becomeHomed_eq]
    have clamped : FlightKept x (clampedHome x) := .of_frame rfl rfl rfl
    exact .ite (fun _ => clamped.trans (raiseOverrun_flight _)) fun _ => .of_frame rfl rfl rfl
  have travel (x : State) : FlightKept x (travelUpdate x) :=
    .ite (fun _ => .of_frame (by simp) (by simp) (by simp)) fun _ => .rfl
  have counted : FlightKept s { s with hom := { s.hom with stall := stallCount s } } := .of_frame rfl rfl rfl
  have requested : FlightKept s (requestMode .hold s) := .of_frame (by simp) (by simp) (by simp)
  have backsOff : FlightKept s (stalled s) := .of_frame (by simp) (by simp) (by simp)
  refine .ite (fun _ => ?_) fun _ => .rfl
  split
  · exact .ite (fun _ => .ite (fun _ => backsOff) fun _ => counted.trans (travel _)) fun _ => travel s
  · exact .ite (fun _ => homed s) fun _ => .rfl
  · exact .ite (fun _ => requested.trans (homed _)) fun _ => .rfl
  · exact .rfl

theorem restUpdate_flight (r : Result) (s : State) : FlightKept s (restUpdate r s) := by
  refine .ite (fun _ => ?_) fun _ => .rfl
  split
  · rw [endStopping_eq ‹_›]
    exact .of_frame rfl rfl rfl
  · exact .ite (fun _ => .of_frame (by simp) (by simp) (by simp)) fun _ => .rfl
  all_goals exact .rfl

theorem wakingUpdate_flight (s : State) : FlightKept s (wakingUpdate s) :=
  .ite (fun _ => .ite (fun _ => .of_frame rfl rfl rfl) fun _ => .of_frame rfl rfl rfl) fun _ => .rfl

/-! ### The takes -/

theorem storeReport_goesOn (r : StoreReport) (s : State) : FlightGoesOn s.tsc (storeReport r s).tsc := by
  unfold storeReport
  split
  · exact abortOwn_goesOn _ s
  · split
    · rw [(storeLow_eq s).2.1]; exact .rfl
    · exact .rfl

theorem recordMove_goesOn (made : Int) (s : State) : FlightGoesOn s.tsc (recordMove made s).tsc :=
  (acceptDelta_goesOn _ _).trans
    (storeReport_goesOn _ (recorded made (acceptDelta (made - s.tks.prevMove.getD 0) s.tsc).1 s))

theorem beginClosing_goesOn (endPos : Int) (s : State) : FlightGoesOn s.tsc (beginClosing endPos s).tsc := by
  unfold beginClosing
  dsimp only
  split
  · exact abortOwn_goesOn _ s
  · exact requestClose_goesOn _ _

theorem recordingUpdate_goesOn (r : Result) (s : State) : FlightGoesOn s.tsc (recordingUpdate r s).tsc := by
  unfold recordingUpdate
  dsimp only
  repeat' split
  · exact beginClosing_goesOn _ s
  · exact (recordMove_goesOn _ s).trans (beginClosing_goesOn _ _)
  · exact recordMove_goesOn _ s
  · exact recordMove_goesOn _ s

theorem playbackResult_goesOn (r : Result) (s : State) : FlightGoesOn s.tsc (playbackResult r s).tsc := by
  unfold playbackResult
  split
  · exact abortOwn_goesOn _ s
  · exact abortOwn_goesOn _ s
  · rw [playbackCut_tsc]; exact .rfl
  · dsimp only
    split
    · simpa [beginRunout] using tookDelta_goesOn _ _ _ s.tsc
    · simpa using tookDelta_goesOn _ _ _ s.tsc

theorem takesUpdate_goesOn (r : Result) (s : State) : FlightGoesOn s.tsc (takesUpdate r s).tsc := by
  unfold takesUpdate
  cases s.tks.job with
  | idle | closing => exact .rfl
  | prepared =>
    dsimp only
    split
    · exact (openRecording_goesOn _ _ _ _ _).trans (storeReport_goesOn _ (opened s))
    · exact .rfl
  | cueing =>
    dsimp only
    split
    · simpa using FlightGoesOn.rfl
    · exact .rfl
  | cued =>
    dsimp only
    split
    · simpa [beginPlayback] using FlightGoesOn.rfl
    · exact .rfl
  | recording => exact recordingUpdate_goesOn r s
  | running => exact playbackResult_goesOn r s
  | runout =>
    dsimp only
    split
    · exact releaseReadAhead_goesOn s.tsc
    · exact .rfl

theorem takesUpdate_flight (r : Result) (s : State) : FlightKept s (takesUpdate r s) := by
  cases held : jobAbortable s.tks.job with
  | false => rw [takesUpdate_of_none r held]; exact .rfl
  | true => exact .of_job held (takesUpdate_goesOn r s)

theorem takeResult_flight (r : Result) (s : State) : FlightKept s (takeResult r s) := by
  have follow : FlightKept s (if Config.followTrip ≤ s.svo.follow then raiseFollow s else s) :=
    .ite (fun _ => raiseFollow_flight s) fun _ => .rfl
  have causes : FlightKept s (resultCauses r s) := follow.trans (.ite (fun _ => raiseOverrun_flight _) fun _ => .rfl)
  exact causes.trans ((homingUpdate_flight r _).trans ((restUpdate_flight r _).trans
    ((wakingUpdate_flight _).trans (takesUpdate_flight r _))))

/-! ### An update up to its store's part -/

/-- The node as the store's part of an update finds it. -/
def dueState (inp : UpdateInputs) (s : State) : State := queued inp s.cfg.station.isSome (settledState inp s)

theorem update_of_due (inp : UpdateInputs) (s : State) :
    update inp s = startWork (showDemand (settleHold s (operationUpdate inp.left (dueState inp s)))) := update_eq inp s

/-- The operation in flight, aged, goes on to the store's part of the update (R127). -/
theorem dueState_flight (inp : UpdateInputs) (s : State) : FlightKept (countUpdate s) (dueState inp s) := by
  have samples : FlightKept (countUpdate s) (sampled inp s) :=
    .of_frame (sampled_frame inp s).2.2.2.2.2.1 (sampled_frame inp s).2.2.2.2.2.2.1 (by simp [countUpdate])
  have decides (x : State) : FlightKept x (decided inp s.cfg.station.isSome x) :=
    .of_frame (by simp) (by simp) (by simp [decided, statusAt_fifo])
  have moves (x : State) : FlightKept x (withMotion x).1 :=
    .of_frame (by simp [withMotion]) (by simp [withMotion]) (by simp [withMotion])
  have evaluates (x : State) : FlightKept x (evaluated (!inp.zonesFirst) (!inp.demandFirst) x) :=
    .of_frame (by simp) (by simp) (by simp)
  have queues (x : State) : FlightKept x (queued inp s.cfg.station.isSome x) :=
    .of_frame (by simp) (by simp) (queued_fifo inp _ x)
  have servoed : FlightKept (countUpdate s) (toServo inp s).1 := by
    rw [toServo, beforeMotion_eq]
    exact samples.trans ((causesAt_flight _ _).trans ((decides _).trans (moves _)))
  exact servoed.trans ((takeResult_flight _ _).trans ((evaluates _).trans ((causesAt_flight _ _).trans (queues _))))

theorem dueState_cpt (inp : UpdateInputs) (s : State) : (dueState inp s).cpt = s.cpt := by
  simp [dueState, settledState, resulted, toServo, withMotion, beforeMotion_eq]

end Sys2Proof.Machine
end

