-- ==== Sys2Proof/Proofs/FlashTimeouts.lean ====
section
/-! SUPPORT. An operation that runs out of its updates: its failure in the update, and what the rest of the update leaves of it (R115, R119, R126, R127, R135, R137, R138, R140, R145, R182). -/

namespace Sys2Proof.Machine

open Sys2Proof.Safety

/-! ### An operation in time, and one that is late (R127) -/

section
variable {t u : Tsc}

theorem UnitGoesOn.operates (goes : UnitGoesOn t u) (operates : t.unit.operates = true) : u.unit.operates = true := by
  cases goes with
  | same unit => rwa [unit]
  | abandons p _ after => rw [after]; rfl
  | suspends c _ _ after => rw [after]; rfl
  | other none => simp [none] at operates

theorem FlightGoesOn.programs (goes : FlightGoesOn t u) {p : Program} (programs : t.unit = .programming p) :
    u.unit = .programming p ∨ u.unit = .programming (abandon p) := by
  cases goes.unit with
  | same unit => exact .inl (unit.trans programs)
  | abandons q programs' after =>
    obtain rfl : p = q := by simpa [programs] using programs'
    exact .inr after
  | suspends c erases => simp [programs] at erases
  | other none => simp [programs, FlashUnit.operates] at none

theorem FlightGoesOn.erases (goes : FlightGoesOn t u) {c : Nat} {b : Bool} (erases : t.unit = .erasing c b) :
    ∃ b', u.unit = .erasing c b' := by
  cases goes.unit with
  | same unit => exact ⟨b, unit.trans erases⟩
  | abandons p programs => simp [erases] at programs
  | suspends d erases' _ after =>
    obtain ⟨rfl, -⟩ : c = d ∧ b = false := by simpa [erases] using erases'
    exact ⟨true, after⟩
  | other none => simp [erases, FlashUnit.operates] at none

/-- An erase told to suspend counts on. -/
theorem FlightGoesOn.suspending (goes : FlightGoesOn t u) {c : Nat} (asked : t.unit = .erasing c true) :
    u.unit = .erasing c true ∧ u.suspendAge = t.suspendAge := by
  cases goes.unit with
  | same unit age => exact ⟨unit.trans asked, age⟩
  | abandons p programs => simp [asked] at programs
  | suspends d erases => simp [asked] at erases
  | other none => simp [asked, FlashUnit.operates] at none

/-- The suspend issued in an update has its first update in the next (R127). -/
theorem FlightGoesOn.suspends (goes : FlightGoesOn t u) {c : Nat} (erases : t.unit = .erasing c false)
    (asked : u.unit = .erasing c true) : u.suspendAge = 0 := by
  cases goes.unit with
  | same unit => simp [unit, erases] at asked
  | abandons p programs => simp [erases] at programs
  | suspends d _ _ _ age => exact age
  | other none => simp [erases, FlashUnit.operates] at none

/-- The updates of a verify or check read do not count. -/
theorem FlightGoesOn.reportedAge (goes : FlightGoesOn t u) (operates : t.unit.operates = true) (told : t.reported = true) :
    u.suspendAge = t.suspendAge := by
  cases goes.unit with
  | same _ age => exact age
  | abandons _ _ _ age => exact age
  | suspends _ _ running => simp [told] at running
  | other none => simp [none] at operates

/-- No part of an update makes the operation in flight late. -/
theorem FlightGoesOn.timely (goes : FlightGoesOn t u) (operates : t.unit.operates = true) (timely : operationLate t = false) :
    operationLate u = false := by
  rw [← Bool.not_eq_true, operationLate_iff] at timely ⊢
  rw [goes.reported, goes.opAge]
  cases goes.unit with
  | same _ age => rwa [age]
  | abandons _ _ _ age => rwa [age]
  | suspends _ _ _ _ age =>
    rw [age]
    rintro ⟨running, late⟩
    exact timely ⟨running, .inl (late.resolve_right (by decide))⟩
  | other none => simp [none] at operates

theorem ageOperation_timely {c : Nat} {b : Bool} (running : t.reported = false) (erases : t.unit = .erasing c b)
    (op : t.opAge + 1 < 1000) (suspend : t.suspendAge + 1 < 1000) : operationLate (ageOperation t) = false := by
  rw [← Bool.not_eq_true, operationLate_iff, ageOperation_of_erasing running erases]
  cases b <;> simp only [Bool.false_eq_true, if_false, if_true] <;> omega

/-- The operation has run out of its updates, or its suspend of its own. -/
def Tsc.overdue (t : Tsc) : Prop :=
  t.reported = false ∧ t.unit.operates = true ∧ (1000 ≤ t.opAge ∨ ∃ c, t.unit = .erasing c true ∧ 1000 ≤ t.suspendAge)

theorem Tsc.overdue.late (due : t.overdue) (goes : FlightGoesOn t u) : operationLate u = true := by
  obtain ⟨running, -, late | ⟨c, asked, late⟩⟩ := due
  · exact (operationLate_iff u).mpr ⟨goes.reported.trans running, .inl (by rw [goes.opAge]; exact late)⟩
  · exact (operationLate_iff u).mpr ⟨goes.reported.trans running, .inr (by rw [(goes.suspending asked).2]; exact late)⟩

theorem ageOperation_overdue (running : t.reported = false) (operates : t.unit.operates = true)
    (last : t.opAge = 999 ∨ ∃ c, t.unit = .erasing c true ∧ t.suspendAge = 999) : (ageOperation t).overdue := by
  cases unit : t.unit with
  | idle | reading | suspended => simp [unit, FlashUnit.operates] at operates
  | programming p =>
    rw [ageOperation_of_programming running unit]
    refine ⟨running, operates, .inl ?_⟩
    rcases last with op | ⟨c, asked, -⟩
    · exact Nat.le_of_eq (congrArg (· + 1) op).symm
    · simp [unit] at asked
  | erasing c b =>
    rw [ageOperation_of_erasing running unit]
    refine ⟨running, operates, last.imp (fun op => Nat.le_of_eq (congrArg (· + 1) op).symm) ?_⟩
    rintro ⟨d, asked, age⟩
    obtain ⟨-, rfl⟩ : c = d ∧ b = true := by simpa [unit] using asked
    exact ⟨d, asked, Nat.le_of_eq (congrArg (· + 1) age).symm⟩

end

/-! ### The update's end after a failure -/

/-- What starting work leaves of the store for the conclusions of a failed operation. -/
structure StoreLeft (a t : Tsc) : Prop where
  eraseQueue : t.eraseQueue = a.eraseQueue
  closing : t.closing = a.closing
  writeQueue : t.writeQueue = a.writeQueue
  pageBuffer : t.pageBuffer = a.pageBuffer
  storedTake : ∀ n, (t.entry n).bind (·.stored) = (a.entry n).bind (·.stored)
  unrecorded : a.recordingOf = none → t.recordingOf = none

theorem StoreLeft.trans {a t u : Tsc} (x : StoreLeft a t) (y : StoreLeft t u) : StoreLeft a u :=
  ⟨y.eraseQueue.trans x.eraseQueue, y.closing.trans x.closing, y.writeQueue.trans x.writeQueue, y.pageBuffer.trans x.pageBuffer,
    fun n => (y.storedTake n).trans (x.storedTake n), y.unrecorded ∘ x.unrecorded⟩

theorem WorkGoesOn.left {a t : State} (goes : WorkGoesOn a t) : StoreLeft a.tsc t.tsc :=
  ⟨goes.eraseQueue, goes.closing, goes.writeQueue, (congrArg Tsc.pageBuffer goes.stored.queues :), goes.storedTake, goes.unrecorded⟩

/-- What an update leaves of r, the node in which its operation has failed and the unit is to become IDLE. -/
structure UpdateFails (r t : State) : Prop where
  cpt : t.cpt = r.cpt
  bad : t.tsc.bad = r.tsc.bad
  listed : ∀ w ∈ t.tsc.closeList, w ∈ r.tsc.closeList ∨ w = .segClose ∨ w = .takeClose
  tks : jobAbortable r.tks.job = false → t.tks = r.tks
  fifo : jobAbortable r.tks.job = false → t.lnk.fifo = r.lnk.fifo
  left : jobAbortable r.tks.job = false → StoreLeft r.tsc t.tsc
  starts : jobAbortable r.tks.job = false → ∃ h : State, h.tsc = (unitIdle r).tsc ∧ t.tsc = (startWork h).tsc

theorem settleHold_cpt (before s : State) : (settleHold before s).cpt = s.cpt := by
  unfold settleHold
  split <;> simp

section
variable {inp : UpdateInputs} {s : State}

theorem update_fails {r : State} (late : operationLate (dueState inp s).tsc = true)
    (failed : operationFailed inp.left (dueState inp s) = unitIdle r) (settled : r.tsc.draining = false) :
    UpdateFails r (update inp s) := by
  have idles := unitIdle_goesOn settled
  have held := settleHold_flight s (unitIdle r)
  have heldCpt := settleHold_cpt s (unitIdle r)
  have starts := startWork_goesOn (showDemand (settleHold s (unitIdle r)))
  have whole : update inp s = startWork (showDemand (settleHold s (unitIdle r))) := by
    rw [update_of_due, operationUpdate, if_pos late, failed]
  rw [whole]
  generalize settleHold s (unitIdle r) = h at *
  have alone (none : jobAbortable r.tks.job = false) :
      h.tks = (unitIdle r).tks ∧ h.tsc = (unitIdle r).tsc ∧ h.lnk.fifo = (unitIdle r).lnk.fifo :=
    held.alone (by rwa [idles.tks])
  have shown : (showDemand h).tsc = h.tsc := rfl
  refine ⟨starts.cpt.trans (heldCpt.trans idles.cpt), starts.bad.trans (held.store.bad.trans idles.bad),
    fun w listed => ?_, fun none => ?_, fun none => ?_, fun none => ?_, fun none => ⟨showDemand h, shown.trans (alone none).2.1, rfl⟩⟩
  · exact (held.store.listed w (starts.within w listed)).imp_left (idles.within w)
  · exact starts.tks.trans ((alone none).1.trans idles.tks)
  · exact (congrArg Lnk.fifo starts.lnk).trans ((alone none).2.2.trans (congrArg Lnk.fifo idles.lnk))
  · have left := starts.left
    rw [shown, (alone none).2.1] at left
    exact idles.left.trans left

/-! ### The failure of the operation in flight -/

/-- The node with the bytes that the failed operation has left in the memory (R127, log 9). -/
def leftState (inp : UpdateInputs) (s : State) : State :=
  { dueState inp s with flash := leaveMemory inp.left (dueState inp s).tsc.unit (dueState inp s).flash }

theorem operationFailed_of_erasing {c : Nat} {b : Bool} (erases : (dueState inp s).tsc.unit = .erasing c b) :
    operationFailed inp.left (dueState inp s) = unitIdle (eraseResult c false (leftState inp s)) := by
  rw [leftState, operationFailed]
  dsimp only
  rw [erases]

theorem operationFailed_of_programming {p : Program} (programs : (dueState inp s).tsc.unit = .programming p) :
    operationFailed inp.left (dueState inp s) = unitIdle (programFailed p (leftState inp s)) := by
  rw [leftState, operationFailed]
  dsimp only
  rw [programs]

theorem leftState_frame : (leftState inp s).cfg = (dueState inp s).cfg ∧ (leftState inp s).tks = (dueState inp s).tks ∧
    (leftState inp s).tsc = (dueState inp s).tsc ∧ (leftState inp s).lnk = (dueState inp s).lnk ∧
    (leftState inp s).cpt = (dueState inp s).cpt := by
  simp only [leftState, and_self]

theorem leftState_cpt : (leftState inp s).cpt = s.cpt := leftState_frame.2.2.2.2.trans (dueState_cpt inp s)

/-- The job that no stop aborts finds the store as the update began, but for the operation's count. -/
theorem leftState_alone (none : jobAbortable s.tks.job = false) :
    (leftState inp s).tks = s.tks ∧ (leftState inp s).tsc = ageOperation s.tsc ∧ (leftState inp s).lnk.fifo = s.lnk.fifo := by
  rw [leftState_frame.2.1, leftState_frame.2.2.1, leftState_frame.2.2.2.1]
  exact (dueState_flight inp s).alone none

theorem leftState_ownByte (up : axisUp s = true) : ownByte (leftState inp s) = ownByte s := by
  have due : (dueState inp s).cfg = (sampled inp s).cfg := (queued_frame ..).1.trans (settledState_cfg inp s)
  exact ownByte_congr (leftState_frame.1.trans (due.trans (sampled_up inp up).1))

theorem leftState_bad : (leftState inp s).tsc.bad = s.tsc.bad := by
  rw [leftState_frame.2.2.1]
  exact (dueState_flight inp s).store.bad.trans (congrArg Tsc.bad (ageOperation_aged s.tsc).queues :)

theorem leftState_draining : (leftState inp s).tsc.draining = s.tsc.draining := by
  rw [leftState_frame.2.2.1]
  exact (dueState_flight inp s).store.draining.trans (congrArg Tsc.draining (ageOperation_aged s.tsc).queues :)

/-! ### No work left (R139) -/

/-- Nothing waits for the flash unit. -/
structure Tsc.Unoccupied (t : Tsc) : Prop where
  reads : t.reads = []
  writes : t.writeQueue = []
  closes : t.closeList = []
  erases : t.eraseQueue = []

theorem startWork_of_unoccupied (none : s.tsc.Unoccupied) : startWork s = s := by
  by_cases free : s.tsc.unit = .idle ∧ s.tsc.draining = false
  · exact startWork_of_nothing free.1 free.2 none.reads none.writes none.closes (.inl none.erases)
  · exact if_neg free

theorem unitIdle_of_unoccupied (settled : s.tsc.draining = false) (none : s.tsc.Unoccupied) :
    unitIdle s = { s with tsc := { s.tsc with unit := .idle, suspendAge := 0, reported := false } } :=
  (unitIdle_of_settled settled).trans (startWork_of_unoccupied ⟨none.reads, none.writes, none.closes, none.erases⟩)

/-- The write of sector 0 has FAILED, and what was not started is dropped (R182). -/
theorem UpdateFails.of_config {t : State} (update : UpdateFails (configFails (leftState inp s)) t) :
    t.cpt = { s.cpt with writeState := .failed, writeBuffer := none } ∧ .configErase ∉ t.tsc.closeList ∧
      ∀ i, .configPage i ∉ t.tsc.closeList := by
  have dropped {w : CloseWork} (config : w = .configErase ∨ ∃ i, w = .configPage i) : w ∉ t.tsc.closeList := by
    intro listed
    have left := update.listed w listed
    rcases config with rfl | ⟨i, rfl⟩ <;> simp [configFails] at left
  refine ⟨update.cpt.trans ?_, dropped (.inl rfl), fun i => dropped (.inr ⟨i, rfl⟩)⟩
  exact congrArg (fun x : Cpt => { x with writeState := .failed, writeBuffer := none }) leftState_cpt

/-! ### The node whose operation fails in the update (R127) -/

structure FailsIn (inp : UpdateInputs) (s : State) : Prop where
  settled : s.tsc.draining = false
  operates : s.tsc.unit.operates = true
  running : s.tsc.reported = false
  last : s.tsc.opAge = 999 ∨ ∃ c, s.tsc.unit = .erasing c true ∧ s.tsc.suspendAge = 999
  up : axisUp s = true

namespace FailsIn

variable (fails : FailsIn inp s)
include fails

theorem overdue : (ageOperation s.tsc).overdue := ageOperation_overdue fails.running fails.operates fails.last

theorem late : operationLate (dueState inp s).tsc = true := fails.overdue.late (dueState_flight inp s).store

theorem exec_eq : exec (.flashTimeout inp) s = .next (update inp s) := by
  have due : flashLateDue s = true := by
    rw [flashLateDue, fails.overdue.late .rfl, Bool.true_and]
    have operates := fails.operates
    cases unit : s.tsc.unit <;> simp [unit, FlashUnit.operates] at operates ⊢
  show Host.Outcome.next (updateWhen (flashLateDue s) inp s) = _
  rw [updateWhen, if_pos due]

theorem leftSettled : (leftState inp s).tsc.draining = false := leftState_draining.trans fails.settled

theorem ofErase {c : Nat} {b : Bool} (erases : s.tsc.unit = .erasing c b) :
    UpdateFails (eraseResult c false (leftState inp s)) (update inp s) := by
  obtain ⟨b', unit⟩ := (dueState_flight inp s).store.erases ((ageOperation_unit s.tsc).trans erases)
  exact update_fails fails.late (operationFailed_of_erasing unit)
    ((eraseResult_waits (leftState inp s) c false).1.trans fails.leftSettled)

theorem ofProgram {p : Program} (programs : (dueState inp s).tsc.unit = .programming p) :
    UpdateFails (programFailed p (leftState inp s)) (update inp s) :=
  update_fails fails.late (operationFailed_of_programming programs)
    ((programFailed_draining p (leftState inp s)).trans fails.leftSettled)

/-- A program of the block or of a lock is not the recording's to abandon. -/
theorem ofOther {p : Program} (programs : s.tsc.unit = .programming p) (other : ¬p.records) :
    UpdateFails (programFailed p (leftState inp s)) (update inp s) := by
  have unit := (dueState_flight inp s).store.programs ((ageOperation_unit s.tsc).trans programs)
  rw [abandon_of_other other, or_self] at unit
  exact fails.ofProgram unit

theorem ofAlone {p : Program} (programs : s.tsc.unit = .programming p) (none : jobAbortable s.tks.job = false) :
    UpdateFails (programFailed p (leftState inp s)) (update inp s) := by
  have tsc : (dueState inp s).tsc = ageOperation s.tsc := ((dueState_flight inp s).alone none).2.1
  exact fails.ofProgram (by rw [tsc, ageOperation_unit, programs])

/-! ### A failed erase (R140, R182) -/

section
variable {c : Nat} {b : Bool} (erases : s.tsc.unit = .erasing c b)
include erases

theorem take_bad (take : c ≠ 0) : (update inp s).tsc.bad = s.tsc.bad ++ [c] := by
  rw [(fails.ofErase erases).bad, eraseResult_of_take _ take]
  exact congrArg (· ++ [c]) leftState_bad

/-- With no job running the failed erase leaves the queue, and with nothing else to do the unit stays IDLE. -/
theorem take_alone (take : c ≠ 0) (idle : s.tks.job = .idle) : (update inp s).tsc.eraseQueue = s.tsc.eraseQueue.tail ∧
    (s.tsc.reads = [] → s.tsc.writeQueue = [] → s.tsc.closeList = [] → s.tsc.eraseQueue.tail = [] →
      (update inp s).tsc.unit = .idle) := by
  have fails' := fails.ofErase erases
  have settled := (eraseResult_waits (leftState inp s) c false).1.trans fails.leftSettled
  obtain ⟨tks, tsc, -⟩ := leftState_alone (inp := inp) (s := s) (by rw [idle]; rfl)
  obtain ⟨reads, writes, closes, queue⟩ : (eraseResult c false (leftState inp s)).tsc.reads = s.tsc.reads ∧
      (eraseResult c false (leftState inp s)).tsc.writeQueue = s.tsc.writeQueue ∧
      (eraseResult c false (leftState inp s)).tsc.closeList = s.tsc.closeList ∧
      (eraseResult c false (leftState inp s)).tsc.eraseQueue = s.tsc.eraseQueue.tail := by
    rw [eraseResult_of_take _ take, tsc, ageOperation_counts]
    exact ⟨rfl, rfl, rfl, rfl⟩
  have alone : jobAbortable (eraseResult c false (leftState inp s)).tks.job = false := by
    rw [eraseResult_of_take _ take, tks, idle]; rfl
  generalize eraseResult c false (leftState inp s) = r at *
  refine ⟨(fails'.left alone).eraseQueue.trans queue, fun noReads noWrites noCloses noErases => ?_⟩
  have none : r.tsc.Unoccupied := ⟨reads.trans noReads, writes.trans noWrites, closes.trans noCloses, queue.trans noErases⟩
  obtain ⟨h, idles, starts⟩ := fails'.starts alone
  rw [unitIdle_of_unoccupied settled none] at idles
  have rests : h.tsc.Unoccupied := by
    rw [idles]
    exact ⟨none.reads, none.writes, none.closes, none.erases⟩
  rw [starts, startWork_of_unoccupied rests, idles]

end

/-! ### A failed program (R115, R119, R126, R135, R137, R138, R145, R182) -/

section
variable {p : Program}

/-- A failed program of a recording, or of its close, ends the recording and its job. -/
theorem ends_recording {t : State} (update : UpdateFails (programFailed p (leftState inp s)) t) (records : p.records)
    (job : (leftState inp s).tks.job = .recording ∨ (leftState inp s).tks.job = .closing) :
    (t.tks.job = .idle ∧ t.tks.outcome = .aborted (reasonCode .storeWrite) (ownByte s) ∧
        t.tks.takeNumber = (leftState inp s).tks.jobTake) ∧
      (t.tsc.bad = s.tsc.bad ++ [p.address / 4096] ∧ t.tsc.recordingOf = none ∧ t.tsc.closing = none ∧ t.tsc.writeQueue = [] ∧
        t.tsc.pageBuffer = []) ∧
      ((leftState inp s).tks.job = .closing → t.lnk.fifo = (leftState inp s).lnk.fifo) ∧
      ((leftState inp s).tks.job = .recording → (leftState inp s).lnk.fifo.length < 4 →
        t.lnk.fifo = (leftState inp s).lnk.fifo ++
          [.take (.abort (leftState inp s).tks.jobTake (reasonCode .storeWrite) (ownByte s))]) := by
  have own := leftState_ownByte (inp := inp) fails.up
  have bad := leftState_bad (inp := inp) (s := s)
  rw [programFailed_of_records records] at update
  generalize leftState inp s = x at *
  obtain ⟨-, tsc, idle, outcome, takeNumber, broadcasts, silent⟩ := storeWriteFailed_ends (s := withdraw (p.address / 4096) x) job
  generalize storeWriteFailed (withdraw (p.address / 4096) x) = r at *
  have alone : jobAbortable r.tks.job = false := by rw [idle]; rfl
  have left := update.left alone
  have tks := update.tks alone
  have ownX : ownByte (withdraw (p.address / 4096) x) = ownByte s := own
  rw [ownX] at outcome broadcasts
  refine ⟨⟨by rw [tks, idle], by rw [tks, outcome], by rw [tks, takeNumber]; rfl⟩,
    ⟨?_, left.unrecorded ?_, by rw [left.closing, tsc]; rfl, by rw [left.writeQueue, tsc]; rfl, by rw [left.pageBuffer, tsc]; rfl⟩,
    fun closes => ?_, fun records room => ?_⟩
  · rw [update.bad, tsc, ← bad]; rfl
  · rw [tsc]; exact discardRecording_recordingOf _
  · rw [update.fifo alone, silent closes]; rfl
  · rw [update.fifo alone, broadcasts records room]; rfl

/-- A lock whose program fails leaves its take COMPLETE with the retire mark, and is refused (R126, R145). -/
theorem lock_fails {n : Byte} {e : DirEntry} {x : StoredTake} (programs : s.tsc.unit = .programming p) (work : p.work = .lock n)
    (idle : s.tks.job = .idle) (entry : s.tsc.entry n = some e) (stored : e.stored = some x) :
    ((update inp s).tsc.entry n).bind (·.stored) = some (lockResult false x) ∧
      (update inp s).tks = { s.tks with takeNumber := n, outcome := .refused (reasonCode .storeWrite) } ∧
      (update inp s).tsc.bad = s.tsc.bad := by
  obtain ⟨tks, tsc, -⟩ := leftState_alone (inp := inp) (s := s) (by rw [idle]; rfl)
  have update := fails.ofAlone programs (by rw [idle]; rfl)
  have bad := leftState_bad (inp := inp) (s := s)
  have failed : programFailed p (leftState inp s) = lockEnds n false (leftState inp s) := by simp only [programFailed, work]
  rw [failed, lockEnds_eq, if_pos (by rw [tks, idle])] at update
  generalize leftState inp s = y at *
  have alone : jobAbortable y.tks.job = false := by rw [tks, idle]; rfl
  refine ⟨?_, ?_, update.bad.trans bad⟩
  · rw [(update.left alone).storedTake n]
    exact storedTake_mapStored (t := y.tsc) (by rw [tsc, (ageOperation_aged s.tsc).entry]; exact entry) stored
  · rw [update.tks alone, tks]; rfl

/-- An abandoned program that fails is not acted on (R138). -/
theorem abandoned_fails (programs : s.tsc.unit = .programming p) (work : p.work = .abandoned) (idle : s.tks.job = .idle) :
    (update inp s).tks = s.tks ∧ (update inp s).cpt = s.cpt ∧ (update inp s).tsc.bad = s.tsc.bad ∧
      (update inp s).tsc.eraseQueue = s.tsc.eraseQueue := by
  obtain ⟨tks, tsc, -⟩ := leftState_alone (inp := inp) (s := s) (by rw [idle]; rfl)
  have update := fails.ofAlone programs (by rw [idle]; rfl)
  have failed : programFailed p (leftState inp s) = leftState inp s := by simp only [programFailed, work]
  rw [failed] at update
  have alone : jobAbortable (leftState inp s).tks.job = false := by rw [tks, idle]; rfl
  have queue : (ageOperation s.tsc).eraseQueue = s.tsc.eraseQueue := (congrArg Tsc.eraseQueue (ageOperation_aged s.tsc).queues :)
  exact ⟨(update.tks alone).trans tks, update.cpt.trans leftState_cpt, update.bad.trans leftState_bad,
    by rw [(update.left alone).eraseQueue, tsc, queue]⟩

end

end FailsIn

/-! ### A recording at a quiet update (R115) -/

theorem settledState_of_calm (calm : causeFree s) :
    settledState inp s = evaluated (!inp.zonesFirst) (!inp.demandFirst) (resulted inp s) := by
  obtain ⟨young, input, companion⟩ := resulted_inputs inp calm
  exact causesAt_calm _ (peersYoung_of (s := resulted inp s) (by simp) (by simp) young) (by simpa using input)
    (by simpa using companion)

/-- A recorded move inside a page and a segment leaves the recording, its operation and the FIFO as they were. -/
theorem leftState_of_recording {e : DirEntry} {r : Recording} (on : s.stc.drive = .enabled) (homed : s.hom.state = .homed)
    (quiet : updateQuiet inp s) (job : s.tks.job = .recording) (uncut : s.tks.cutTime = none)
    (records : s.tsc.recordingOf = some (e, r)) (short : s.tsc.pageBuffer.length + 1 < 127)
    (inside : ¬(0 < r.count ∧ r.count % 1905 = 0)) :
    (leftState inp s).tks.job = .recording ∧ (leftState inp s).tks.jobTake = s.tks.jobTake ∧
      (leftState inp s).lnk.fifo = s.lnk.fifo ∧ (leftState inp s).tsc.unit = s.tsc.unit := by
  obtain ⟨tks, tsc, fifo⟩ := toServo_takes inp quiet.1
  have aged := ageOperation_aged s.tsc
  have due : (dueState inp s).tks = (resulted inp s).tks ∧ (dueState inp s).tsc = (resulted inp s).tsc ∧
      (dueState inp s).lnk.fifo = (resulted inp s).lnk.fifo := by
    rw [dueState, settledState_of_calm quiet.1]
    simp [queued_fifo]
  rw [leftState_frame.2.1, leftState_frame.2.2.1, leftState_frame.2.2.2.1, due.1, due.2.1, due.2.2,
    resulted_of_quiet on (by simp [homed]) quiet]
  generalize (toServo inp s).2 = result
  generalize (toServo inp s).1 = x at *
  have none : cutDistance x = Option.none := by rw [cutDistance, tks, uncut]; rfl
  have taken := acceptDelta_within (t := x.tsc) (result.made - x.tks.prevMove.getD 0)
    (by rw [tsc, aged.recording]; exact records) (by rw [tsc, aged.buffer]; exact short) inside
  rw [takesUpdate, tks, job]
  dsimp only
  rw [recordingUpdate, none]
  dsimp only
  rw [recordMove_quiet taken]
  refine ⟨?_, ?_, fifo, ?_⟩
  · rw [← job, ← tks]; rfl
  · rw [← tks]; rfl
  · rw [← ageOperation_unit s.tsc, ← tsc]; rfl

/-! ### An operation in time (R127) -/

/-- The operation in flight goes on through an update in which it is not late. -/
theorem update_goesOn (operates : s.tsc.unit.operates = true) (timely : operationLate (ageOperation s.tsc) = false) :
    FlightGoesOn (ageOperation s.tsc) (update inp s).tsc := by
  have due := (dueState_flight inp s).store
  have aged : (countUpdate s).tsc.unit.operates = true := (congrArg FlashUnit.operates (ageOperation_unit s.tsc)).trans operates
  have intime := due.timely aged timely
  have held := (settleHold_flight s (dueState inp s)).store
  have busy := held.unit.operates (due.unit.operates aged)
  rw [update_of_due, operationUpdate, if_neg (by rw [intime]; exact Bool.false_ne_true)]
  generalize settleHold s (dueState inp s) = h at *
  rw [startWork_of_busy]
  · exact due.trans held
  · refine .inl fun idle => ?_
    rw [show h.tsc.unit = .idle from idle] at busy
    simp [FlashUnit.operates] at busy

end

/-- Settles O30: the failure of each operation by its work, and the counts of one in time. -/
theorem flashTimeoutFailsTheOperation : Obligations.FlashTimeoutFailsTheOperation := by
  unfold Obligations.FlashTimeoutFailsTheOperation
  refine ⟨?_, fun inp s => ⟨update inp s, rfl, fun told work => ?_, fun c erases running op suspend => ?_,
    fun c asked running op suspend => ?_⟩⟩
  · intro inp s running settled up last own
    refine ⟨fun c b erases => ?_, fun p programs => ?_⟩
    · have fails : FailsIn inp s := ⟨settled, by rw [erases]; rfl, running, last, up⟩
      refine ⟨update inp s, fails.exec_eq, fun take => ?_, fun block => ?_⟩
      · have bad := fails.take_bad erases take
        exact ⟨by rw [bad]; simp, fun idle => ⟨bad, fails.take_alone erases take idle⟩⟩
      · have failed := fails.ofErase erases
        rw [block, eraseResult_of_block] at failed
        exact UpdateFails.of_config failed
    · have fails : FailsIn inp s := ⟨settled, by rw [programs]; rfl, running, last, up⟩
      refine ⟨update inp s, fails.exec_eq, fun i work => ?_, fun n e x work idle entry stored => ?_,
        fun records closing => ?_, fun st e r work job on homed quiet uncut records short inside => ?_, fun work idle => ?_⟩
      · have failed := fails.ofOther programs (by simp [Program.records, work])
        simp only [programFailed, work] at failed
        obtain ⟨cpt, -, pages⟩ := UpdateFails.of_config failed
        exact ⟨cpt, pages⟩
      · exact fails.lock_fails programs work idle entry stored
      · have alone : jobAbortable s.tks.job = false := by rw [closing]; rfl
        obtain ⟨tks, -, fifo⟩ := leftState_alone (inp := inp) alone
        obtain ⟨⟨job, outcome, takeNumber⟩, ⟨bad, recording, close, writes, -⟩, silent, -⟩ :=
          fails.ends_recording (fails.ofAlone programs alone) records (.inr (by rw [tks, closing]))
        rw [tks] at takeNumber silent
        exact ⟨job, outcome, takeNumber, bad, recording, close, writes, (silent closing).trans fifo⟩
      · obtain ⟨jobX, take, fifo, unit⟩ := leftState_of_recording on homed quiet job uncut records short inside
        rw [leftState_frame.2.2.1, programs] at unit
        obtain ⟨⟨ended, outcome, -⟩, ⟨bad, recording, -, writes, buffer⟩, -, broadcasts⟩ :=
          fails.ends_recording (fails.ofProgram unit) (.inl ⟨st, work⟩) (.inl jobX)
        rw [take, fifo] at broadcasts
        exact ⟨ended, outcome, bad, recording, writes, buffer, broadcasts jobX⟩
      · exact fails.abandoned_fails programs work idle
  · have operates : s.tsc.unit.operates = true := by
      rcases work with ⟨p, unit⟩ | ⟨c, u, unit⟩ <;> rw [unit] <;> rfl
    have goes := update_goesOn (inp := inp) operates (by simp [ageOperation_of_reported told, operationLate, told])
    rw [ageOperation_of_reported told] at goes
    exact ⟨goes.reported.trans told, goes.opAge, goes.reportedAge operates told⟩
  · have aged := ageOperation_of_erasing running erases
    have goes := update_goesOn (inp := inp) (s := s) (by rw [erases]; rfl) (ageOperation_timely running erases op suspend)
    rw [aged] at goes
    exact ⟨goes.opAge, fun asked => goes.suspends erases asked⟩
  · have aged := ageOperation_of_erasing running asked
    have goes := update_goesOn (inp := inp) (s := s) (by rw [asked]; rfl) (ageOperation_timely running asked op suspend)
    rw [aged] at goes
    exact ⟨(goes.suspending asked).1, goes.opAge, (goes.suspending asked).2⟩

end Sys2Proof.Machine
end

