-- ==== Sys2Proof/Proofs/ScanGroups.lean ====
section
/-! SUPPORT. The assembly pass: the groups of a take number, a group's conditions for COMPLETE, and the group kept (R131, R149, R150). -/

namespace Sys2Proof.Machine

open Sys2Proof.Safety

/-! ### The notes that stay in a group (R149) -/

theorem keepFirst_concat (xs : List ScanNote) (x : ScanNote) : keepFirst (xs ++ [x]) =
    if (keepFirst xs).any (fun y => y.seq == x.seq) then keepFirst xs else keepFirst xs ++ [x] := by
  simp [keepFirst, List.foldl_append]

/-- What stays of a list of notes: some of them, one for each sequence. -/
structure Kept (xs ys : List ScanNote) : Prop where
  sub : ∀ y ∈ ys, y ∈ xs
  distinct : ys.Pairwise fun x y => x.seq ≠ y.seq
  covers : ∀ x ∈ xs, ∃ y ∈ ys, y.seq = x.seq

theorem keepFirst_kept (xs : List ScanNote) : Kept xs (keepFirst xs) := by
  induction xs using List.reverseRecOn with
  | nil => exact ⟨by simp [keepFirst], by simp [keepFirst], by simp⟩
  | append_singleton xs x ih =>
    obtain ⟨sub, distinct, covers⟩ := ih
    rw [keepFirst_concat]
    split
    · next there =>
      obtain ⟨y, kept, same⟩ := List.any_eq_true.mp there
      refine ⟨fun y kept => by simp [sub y kept], distinct, fun z listed => ?_⟩
      rcases List.mem_append.mp listed with before | last
      · exact covers z before
      · exact ⟨y, kept, by simpa [List.mem_singleton.mp last] using same⟩
    · next new =>
      have other : ∀ y ∈ keepFirst xs, y.seq ≠ x.seq := by simpa using new
      refine ⟨fun y kept => ?_, List.pairwise_append.mpr ⟨distinct, by simp, by simpa using other⟩, fun z listed => ?_⟩
      · exact (List.mem_append.mp kept).elim (fun kept => by simp [sub y kept]) fun last => by simp_all
      · rcases List.mem_append.mp listed with before | last
        · obtain ⟨y, kept, same⟩ := covers z before
          exact ⟨y, by simp [kept], same⟩
        · exact ⟨x, by simp, by rw [List.mem_singleton.mp last]⟩

/-- Notes come in ascending sector, so the lower sector of a sequence stays. -/
theorem keepFirst_lowest {xs : List ScanNote} (ascends : xs.Pairwise fun x y => x.sector < y.sector) :
    ∀ x ∈ keepFirst xs, ∀ y ∈ xs, y.seq = x.seq → x.sector ≤ y.sector := by
  induction xs using List.reverseRecOn with
  | nil => simp
  | append_singleton xs z ih =>
    obtain ⟨before, -, last⟩ := List.pairwise_append.mp ascends
    have below : ∀ x ∈ xs, x.sector < z.sector := fun x listed => last x listed z (by simp)
    have kept := keepFirst_kept xs
    intro x stays y listed same
    rw [keepFirst_concat] at stays
    by_cases there : (keepFirst xs).any (fun y => y.seq == z.seq) = true
    · rw [if_pos there] at stays
      rcases List.mem_append.mp listed with earlier | final
      · exact ih before x stays y earlier same
      · rw [List.mem_singleton.mp final]
        exact (below x (kept.sub x stays)).le
    · rw [if_neg there] at stays
      have other : ∀ w ∈ keepFirst xs, w.seq ≠ z.seq := by simpa using there
      rcases List.mem_append.mp stays with stays | new
      · rcases List.mem_append.mp listed with earlier | final
        · exact ih before x stays y earlier same
        · rw [List.mem_singleton.mp final] at same
          exact absurd same.symm (other x stays)
      · obtain rfl := List.mem_singleton.mp new
        rcases List.mem_append.mp listed with earlier | final
        · obtain ⟨w, stays, again⟩ := kept.covers y earlier
          exact absurd (again.trans same) (other w stays)
        · rw [List.mem_singleton.mp final]

/-- Two notes of one sector are the same note. -/
theorem note_of_sector {xs : List ScanNote} (ascends : xs.Pairwise fun x y => x.sector < y.sector) {x y : ScanNote}
    (hx : x ∈ xs) (hy : y ∈ xs) (same : x.sector = y.sector) : x = y := by
  have distinct : (xs.map (·.sector)).Nodup := List.pairwise_map.mpr (ascends.imp fun below => below.ne)
  exact List.inj_on_of_nodup_map distinct hx hy same

theorem mem_keepFirst {xs : List ScanNote} (ascends : xs.Pairwise fun x y => x.sector < y.sector) (x : ScanNote) :
    x ∈ keepFirst xs ↔ x ∈ xs ∧ ∀ y ∈ xs, y.seq = x.seq → x.sector ≤ y.sector := by
  have kept := keepFirst_kept xs
  refine ⟨fun stays => ⟨kept.sub x stays, keepFirst_lowest ascends x stays⟩, fun ⟨listed, lowest⟩ => ?_⟩
  obtain ⟨z, stays, same⟩ := kept.covers x listed
  have below := keepFirst_lowest ascends z stays x listed same.symm
  have above := lowest z (kept.sub z stays) same
  rwa [note_of_sector ascends listed (kept.sub z stays) (le_antisymm above below)]

/-! ### The sequence order (R149) -/

theorem insertSeq_perm (x : ScanNote) : ∀ ys, (insertSeq x ys).Perm (x :: ys)
  | [] => .refl _
  | y :: ys => by
    rw [insertSeq]
    split
    · exact .refl _
    · exact ((insertSeq_perm x ys).cons y).trans (.swap x y ys)

theorem insertSeq_ascends (x : ScanNote) : ∀ ys : List ScanNote, ys.Pairwise (fun a b => a.seq < b.seq) → (∀ y ∈ ys, y.seq ≠ x.seq) →
    (insertSeq x ys).Pairwise fun a b => a.seq < b.seq
  | [], _, _ => by simp [insertSeq]
  | y :: ys, ascends, other => by
    obtain ⟨first, rest⟩ := List.pairwise_cons.mp ascends
    have apart := other y (by simp)
    rw [insertSeq]
    split
    · next below =>
      refine List.pairwise_cons.mpr ⟨fun z listed => ?_, ascends⟩
      rcases List.mem_cons.mp listed with rfl | later
      · exact below
      · exact below.trans (first z later)
    · refine List.pairwise_cons.mpr ⟨fun z listed => ?_, insertSeq_ascends x ys rest fun z later => other z (by simp [later])⟩
      rcases List.mem_cons.mp ((insertSeq_perm x ys).mem_iff.mp listed) with rfl | later
      · omega
      · exact first z later

/-- Notes of distinct sequences come out in ascending sequence. -/
theorem foldl_insertSeq (xs : List ScanNote) : ∀ acc : List ScanNote, acc.Pairwise (fun a b => a.seq < b.seq) →
    (acc ++ xs).Pairwise (fun a b => a.seq ≠ b.seq) →
    (xs.foldl (fun acc x => insertSeq x acc) acc).Perm (acc ++ xs) ∧
      (xs.foldl (fun acc x => insertSeq x acc) acc).Pairwise fun a b => a.seq < b.seq := by
  induction xs with
  | nil => intro acc ascends _; exact ⟨by simp, ascends⟩
  | cons x xs ih =>
    intro acc ascends distinct
    have moved : (insertSeq x acc ++ xs).Perm (acc ++ x :: xs) :=
      ((insertSeq_perm x acc).append_right xs).trans List.perm_middle.symm
    have other : ∀ y ∈ acc, y.seq ≠ x.seq := fun y listed => (List.pairwise_append.mp distinct).2.2 y listed x (by simp)
    have apart := (moved.pairwise_iff (R := fun a b : ScanNote => a.seq ≠ b.seq) fun ne => ne.symm).mpr distinct
    obtain ⟨perm, sorted⟩ := ih (insertSeq x acc) (insertSeq_ascends x acc ascends other) apart
    exact ⟨perm.trans moved, sorted⟩

theorem sortSeq_spec {xs : List ScanNote} (distinct : xs.Pairwise fun a b => a.seq ≠ b.seq) :
    (sortSeq xs).Perm xs ∧ (sortSeq xs).Pairwise fun a b => a.seq < b.seq := foldl_insertSeq xs [] .nil distinct

/-! ### The groups of a take number (R149) -/

/-- The group of a number's generation. -/
def groupAt (notes : List ScanNote) (n : Byte) (b : BitVec 8) : Group :=
  { number := n, generation := b, notes := sortSeq (groupNotes notes n b) }

section
variable {notes : List ScanNote} {n : Byte}

theorem groupsOf_eq (notes : List ScanNote) (n : Byte) : groupsOf notes n = (List.range 256).filterMap fun i =>
    if groupNotes notes n (BitVec.ofNat 8 i) = [] then none else some (groupAt notes n (BitVec.ofNat 8 i)) := by
  rw [groupsOf]
  congr 1
  funext i
  split
  · next none => rw [if_pos none]
  · next x xs some_ => rw [if_neg (by simp [some_]), groupAt, some_]

theorem mem_groupsOf (g : Group) : g ∈ groupsOf notes n ↔ ∃ b, groupNotes notes n b ≠ [] ∧ g = groupAt notes n b := by
  simp only [groupsOf_eq, List.mem_filterMap, List.mem_range, Option.ite_none_left_eq_some, Option.some.injEq]
  refine ⟨fun ⟨i, _, some_, at_⟩ => ⟨_, some_, at_.symm⟩, fun ⟨b, some_, at_⟩ => ⟨b.toNat, b.isLt, ?_⟩⟩
  rw [BitVec.ofNat_toNat, BitVec.setWidth_eq]
  exact ⟨some_, at_.symm⟩

/-- The groups come by their generation. -/
theorem groupsOf_ascends : (groupsOf notes n).Pairwise fun g h => g.generation.toNat < h.generation.toNat := by
  rw [groupsOf_eq, List.pairwise_filterMap]
  refine List.pairwise_lt_range.imp_of_mem fun {i j} hi hj below g group h group' => ?_
  obtain ⟨-, ⟨⟩⟩ := Option.ite_none_left_eq_some.mp group
  obtain ⟨-, ⟨⟩⟩ := Option.ite_none_left_eq_some.mp group'
  have inside : i < 256 ∧ j < 256 := ⟨List.mem_range.mp hi, List.mem_range.mp hj⟩
  simpa [groupAt, Nat.mod_eq_of_lt inside.1, Nat.mod_eq_of_lt inside.2] using below

/-- The notes of a number's generation. -/
def notesOf (notes : List ScanNote) (n : Byte) (b : BitVec 8) : List ScanNote :=
  notes.filter fun x => x.number == n && x.generation == b

theorem mem_notesOf {b : BitVec 8} (x : ScanNote) : x ∈ notesOf notes n b ↔ x ∈ notes ∧ x.number = n ∧ x.generation = b := by
  simp [notesOf]

theorem groupNotes_kept (notes : List ScanNote) (n : Byte) (b : BitVec 8) : Kept (notesOf notes n b) (groupNotes notes n b) :=
  keepFirst_kept _

theorem mem_groupNotes (ascends : notes.Pairwise fun x y => x.sector < y.sector) {b : BitVec 8} (x : ScanNote) :
    x ∈ groupNotes notes n b ↔ x ∈ notes ∧ x.number = n ∧ x.generation = b ∧
      ∀ y ∈ notes, y.number = n → y.generation = b → y.seq = x.seq → x.sector ≤ y.sector := by
  have kept : x ∈ groupNotes notes n b ↔ x ∈ notesOf notes n b ∧ ∀ y ∈ notesOf notes n b, y.seq = x.seq → x.sector ≤ y.sector :=
    mem_keepFirst (ascends.sublist List.filter_sublist) x
  simp only [kept, mem_notesOf, and_imp, and_assoc]

theorem groupAt_notes (b : BitVec 8) : (groupAt notes n b).notes.Perm (groupNotes notes n b) ∧
    (groupAt notes n b).notes.Pairwise fun x y => x.seq < y.seq := sortSeq_spec (groupNotes_kept notes n b).distinct

/-- A note's generation has its group. -/
theorem groupsOf_covers {x : ScanNote} (listed : x ∈ notes) (number : x.number = n) :
    groupAt notes n x.generation ∈ groupsOf notes n := by
  obtain ⟨y, kept, -⟩ := (groupNotes_kept notes n x.generation).covers x ((mem_notesOf x).mpr ⟨listed, number, rfl⟩)
  exact (mem_groupsOf _).mpr ⟨_, List.ne_nil_of_mem kept, rfl⟩

theorem groupsOf_number {g : Group} (group : g ∈ groupsOf notes n) : g.number = n := by
  obtain ⟨b, -, rfl⟩ := (mem_groupsOf g).mp group
  rfl

theorem groupsOf_notes {g : Group} (group : g ∈ groupsOf notes n) : g.notes ≠ [] := by
  obtain ⟨b, some_, rfl⟩ := (mem_groupsOf g).mp group
  exact fun none => some_ (List.Perm.nil_eq (none ▸ (groupAt_notes b).1)).symm

end

/-! ### The conditions for COMPLETE (R149) -/

theorem sequencesRun_iff : ∀ (xs : List ScanNote) (k : Nat),
    sequencesRun k xs = true ↔ ∀ i y, xs[i]? = some y → y.seq = k + i
  | [], k => by simp [sequencesRun]
  | x :: xs, k => by
    rw [sequencesRun, Bool.and_eq_true, beq_iff_eq, sequencesRun_iff xs (k + 1)]
    constructor
    · rintro ⟨first, rest⟩ i y at_
      cases i with
      | zero => simpa [← (Option.some.inj at_ : x = y)] using first
      | succ i => rw [rest i y at_]; omega
    · intro all
      exact ⟨all 0 x rfl, fun i y at_ => by rw [all (i + 1) y at_]; omega⟩

/-- The count of a segment that is the last, or is not. -/
def countsIn (last : Bool) (y : ScanNote) : Prop :=
  ∃ k, y.segCount = some k ∧ (last = false → k = 1905) ∧ (last = true → 1 ≤ k ∧ k ≤ 1905)

theorem countsRun_iff : ∀ (xs : List ScanNote) (x : ScanNote),
    countsRun (x :: xs) = true ↔ ∀ i y, (x :: xs)[i]? = some y → i ≤ xs.length → countsIn (decide (i = xs.length)) y
  | [], x => by
    have only : countsRun [x] = true ↔ countsIn true x := by
      cases count : x.segCount with
      | none => simp [countsRun, countsIn, count]
      | some k =>
        have told : countsRun [x] = decide (1 ≤ k ∧ k ≤ Config.segmentDeltas) := by rw [countsRun, count]
        rw [told, decide_eq_true_iff]
        simp [countsIn, count, Config.segmentDeltas]
    rw [only]
    constructor
    · intro count i y at_ short
      obtain rfl : i = 0 := Nat.le_zero.mp short
      obtain rfl : x = y := Option.some.inj at_
      exact count
    · exact fun all => all 0 x rfl le_rfl
  | z :: xs, x => by
    have first : (x.segCount == some Config.segmentDeltas) = true ↔ countsIn false x := by
      cases count : x.segCount <;> simp [countsIn, count, Config.segmentDeltas]
    rw [countsRun, Bool.and_eq_true, first, countsRun_iff xs z]
    · constructor
      · rintro ⟨head, rest⟩ i y at_ short
        cases i with
        | zero =>
          obtain rfl : x = y := Option.some.inj at_
          simpa using head
        | succ i => simpa using rest i y at_ (by simpa using short)
      · intro all
        exact ⟨by simpa using all 0 x rfl (by simp), fun i y at_ short => by simpa using all (i + 1) y at_ (by simpa using short)⟩
    · simp

theorem countSum_eq (xs : List ScanNote) : countSum xs = (xs.map fun y => y.segCount.getD 0).sum := by
  rw [countSum, List.sum_eq_foldl_nat, List.foldl_map]

/-- What every segment of a COMPLETE take agrees with its first in. -/
def agreesWith (x y : ScanNote) : Prop := y.mask = x.mask ∧ y.startPos = x.startPos ∧ y.initialMove = x.initialMove

section
variable {g : Group} {x : ScanNote} {xs : List ScanNote} (notes : g.notes = x :: xs)
include notes

theorem complete_iff (c : TakeClose) : g.complete = some c ↔ x.close = some c ∧ sequencesRun 0 (x :: xs) = true ∧
    countsRun (x :: xs) = true ∧ (∀ y ∈ xs, agreesWith x y) ∧ c.length = countSum (x :: xs) := by
  rw [Group.complete, notes]
  cases close : x.close with
  | none => simp [close]
  | some d =>
    simp only [close, Option.ite_none_right_eq_some, Bool.and_eq_true, beq_iff_eq, List.all_eq_true, agreesWith, and_assoc]
    constructor
    · rintro ⟨run, counts, all, sum, same⟩
      exact ⟨same, run, counts, all, Option.some.inj same ▸ sum⟩
    · rintro ⟨same, run, counts, all, sum⟩
      exact ⟨run, counts, all, Option.some.inj same ▸ sum, same⟩

/-- The four conditions, read note by note. -/
theorem complete_iff_notes (c : TakeClose) : g.complete = some c ↔
    x.close = some c ∧ c.length = ((x :: xs).map (fun y => y.segCount.getD 0)).sum ∧
    ∀ (i : Nat) (y : ScanNote), (x :: xs)[i]? = some y →
      y.seq = i ∧ y.mask = x.mask ∧ y.startPos = x.startPos ∧ y.initialMove = x.initialMove ∧
      ∃ k, y.segCount = some k ∧ (i < xs.length → k = 1905) ∧ (i = xs.length → 1 ≤ k ∧ k ≤ 1905) := by
  rw [complete_iff notes c, sequencesRun_iff, countsRun_iff, countSum_eq]
  have inside {i : Nat} {y : ScanNote} (at_ : (x :: xs)[i]? = some y) : i ≤ xs.length :=
    Nat.lt_succ_iff.mp (List.getElem?_eq_some_iff.mp at_).1
  have counts {i : Nat} (short : i ≤ xs.length) (y : ScanNote) : countsIn (decide (i = xs.length)) y ↔
      ∃ k, y.segCount = some k ∧ (i < xs.length → k = 1905) ∧ (i = xs.length → 1 ≤ k ∧ k ≤ 1905) := by
    have before : decide (i = xs.length) = false ↔ i < xs.length := by rw [decide_eq_false_iff_not]; omega
    simp only [countsIn, before, decide_eq_true_eq]
  constructor
  · rintro ⟨close, run, segs, agree, sum⟩
    refine ⟨close, sum, fun i y at_ => ?_⟩
    have same : agreesWith x y := by
      rcases List.mem_cons.mp (List.mem_of_getElem? at_) with rfl | later
      · exact ⟨rfl, rfl, rfl⟩
      · exact agree y later
    obtain ⟨mask, startPos, initialMove⟩ := same
    exact ⟨by simpa using run i y at_, mask, startPos, initialMove, (counts (inside at_) y).mp (segs i y at_ (inside at_))⟩
  · rintro ⟨close, sum, all⟩
    refine ⟨close, fun i y at_ => by simpa using (all i y at_).1, fun i y at_ short => ?_, fun y later => ?_, sum⟩
    · obtain ⟨-, -, -, -, segs⟩ := all i y at_
      exact (counts short y).mpr segs
    · obtain ⟨i, at_⟩ := List.mem_iff_getElem?.mp later
      obtain ⟨-, mask, startPos, initialMove, -⟩ := all (i + 1) y at_
      exact ⟨mask, startPos, initialMove⟩

/-! ### The stored take of a group (R149) -/

theorem take_of_broken (broken : g.complete = none) : g.take =
    { generation := g.generation, state := .broken, lockPending := false, mask := x.mask, startPos := x.startPos
      initialMove := x.initialMove, length := 0, endPos := none, marks := []
      segments := (x :: xs).map fun y => { sector := y.sector, seq := y.seq, programmed := true, retire := false } } := by
  rw [Group.take, broken, notes]; rfl

theorem take_of_complete {c : TakeClose} (complete : g.complete = some c) : g.take =
    { generation := g.generation, state := if x.locked then .locked else .complete, lockPending := false, mask := x.mask
      startPos := x.startPos, initialMove := x.initialMove, length := c.length, endPos := some c.endPos, marks := c.marks
      segments := (x :: xs).map fun y => { sector := y.sector, seq := y.seq, programmed := true, retire := false } } := by
  rw [Group.take, complete, notes]; rfl

end

theorem take_segments (g : Group) : g.take.segments =
    g.notes.map fun y => { sector := y.sector, seq := y.seq, programmed := true, retire := false } := by
  rw [Group.take]
  cases g.complete <;> rfl

theorem take_lockPending (g : Group) : g.take.lockPending = false := by
  rw [Group.take]
  cases g.complete <;> rfl

/-! ### The group kept (R131, R150) -/

/-- Of two generations at most one is newer than the other (R131). -/
theorem newer_asymm {a b : BitVec 8} (ab : newer a b = true) : newer b a = false := by
  have less : ∀ x y : BitVec 8, newer x y = true ↔ (1 ≤ (x - y).toNat ∧ (x - y).toNat ≤ 127) ∨
      ((x - y).toNat = 128 ∧ y.toNat < x.toNat) := by
    intro x y; simp [newer]
  rw [← Bool.not_eq_true, less]
  rw [less] at ab
  rw [BitVec.toNat_sub] at *
  have := a.isLt
  have := b.isLt
  omega

theorem newestGroup_eq_none : ∀ gs, newestGroup gs = none ↔ gs = []
  | [] => by simp [newestGroup]
  | g :: gs => by
    rw [newestGroup]
    split
    · simp
    · split <;> simp

theorem newestGroup_mem : ∀ {gs : List Group} {k : Group}, newestGroup gs = some k → k ∈ gs
  | g :: gs, k, found => by
    rw [newestGroup] at found
    split at found
    · simp_all
    · next h rest =>
      have later := newestGroup_mem rest
      split at found
      · simp_all
      · rw [← Option.some.inj found]; exact List.mem_cons_of_mem g later

/-- A group newer than every other is the newest. -/
theorem newestGroup_of_newest : ∀ {gs : List Group} {g : Group}, g ∈ gs →
    (∀ h ∈ gs, h = g ∨ newer g.generation h.generation = true) → newestGroup gs = some g
  | a :: gs, g, listed, newest => by
    rw [newestGroup]
    cases rest : newestGroup gs with
    | none =>
      obtain rfl := (newestGroup_eq_none gs).mp rest
      exact congrArg some (List.mem_singleton.mp listed).symm
    | some h =>
      dsimp only
      rcases List.mem_cons.mp listed with rfl | later
      · rcases newest h (List.mem_cons_of_mem g (newestGroup_mem rest)) with rfl | above
        · split <;> rfl
        · rw [if_pos above]
      · obtain rfl : h = g := Option.some.inj (rest.symm.trans (newestGroup_of_newest later fun h listed => newest h (by simp [listed])))
        rcases newest a (by simp) with rfl | above
        · split <;> rfl
        · rw [if_neg (by simp [newer_asymm above])]

/-- The groups of a number among which the one kept is the newest: the COMPLETE ones, if there are any (R150). -/
def candidates (gs : List Group) : List Group :=
  if ∃ h ∈ gs, h.complete ≠ none then gs.filter fun g => g.complete.isSome else gs

theorem mem_candidates {gs : List Group} (g : Group) :
    g ∈ candidates gs ↔ g ∈ gs ∧ ((∃ h ∈ gs, h.complete ≠ none) → g.complete ≠ none) := by
  unfold candidates
  split
  · next some_ => simp only [List.mem_filter, Option.isSome_iff_ne_none, some_, true_implies]
  · next none => simp only [none, false_implies, and_true]

theorem keptGroup_eq (gs : List Group) : keptGroup gs = newestGroup (candidates gs) := by
  unfold keptGroup candidates
  split
  · next k found =>
    obtain ⟨listed, complete⟩ := List.mem_filter.mp (newestGroup_mem found)
    rw [if_pos ⟨k, listed, Option.isSome_iff_ne_none.mp complete⟩, found]
  · next none =>
    have empty := (newestGroup_eq_none _).mp none
    rw [if_neg]
    rintro ⟨h, listed, complete⟩
    have there : h ∈ gs.filter fun g => g.complete.isSome := List.mem_filter.mpr ⟨listed, Option.isSome_iff_ne_none.mpr complete⟩
    rw [empty] at there
    exact List.not_mem_nil there

theorem keptGroup_eq_none (gs : List Group) : keptGroup gs = none ↔ gs = [] := by
  rw [keptGroup_eq, newestGroup_eq_none]
  constructor
  · intro empty
    rw [List.eq_nil_iff_forall_not_mem] at empty ⊢
    intro g listed
    by_cases some_ : ∃ h ∈ gs, h.complete ≠ none
    · obtain ⟨h, there, complete⟩ := some_
      exact empty h ((mem_candidates h).mpr ⟨there, fun _ => complete⟩)
    · exact empty g ((mem_candidates g).mpr ⟨listed, fun any => absurd any some_⟩)
  · rintro rfl
    simp [candidates]

theorem keptGroup_candidate {gs : List Group} {k : Group} (kept : keptGroup gs = some k) : k ∈ candidates gs :=
  newestGroup_mem (by rwa [keptGroup_eq] at kept)

theorem keptGroup_mem {gs : List Group} {k : Group} (kept : keptGroup gs = some k) : k ∈ gs :=
  ((mem_candidates k).mp (keptGroup_candidate kept)).1

end Sys2Proof.Machine
end

