-- ==== Sys2Proof/Proofs/ScanResolved.lean ====
section
/-! SUPPORT. The read pass and the resolution pass of the scan: the directory, and what goes to the erase queue (R148, R150, R173). -/

namespace Sys2Proof.Machine

open Sys2Proof.Safety

/-! ### The read pass (R148) -/

theorem seenOr_eq (seen : Option (List Byte)) (held : List Byte) : seenOr seen held = seen.getD held := by cases seen <;> rfl

theorem classify_of_erased {page : List Byte} (erased : page.all (· == 255) = true) : classify page = .erased := if_pos erased

theorem classify_of_dirty {page : List Byte} (written : page.all (· == 255) = false)
    (other : partRead (field page 0 24) ≠ .valid ∨ fieldNat page 0 1 = 0 ∨ 99 < fieldNat page 0 1) : classify page = .dirty := by
  have unerased : ¬allErased page = true := fun erased => Bool.false_ne_true (written.symm.trans erased)
  rw [classify, if_neg unerased, if_neg]
  rintro ⟨valid, low, high⟩
  rcases other with invalid | zero | above
  · exact invalid valid
  · omega
  · omega

theorem classify_of_inUse {page : List Byte} (written : page.all (· == 255) = false) (valid : partRead (field page 0 24) = .valid)
    (low : 1 ≤ fieldNat page 0 1) (high : fieldNat page 0 1 ≤ 99) : classify page = .inUse := by
  have unerased : ¬allErased page = true := fun erased => Bool.false_ne_true (written.symm.trans erased)
  rw [classify, if_neg unerased, if_pos ⟨valid, low, high⟩]

section
variable {sector : Nat} {page : List Byte} {t : Tsc}

theorem scanSector_of_erased (class_ : classify page = .erased) : scanSector sector page t = { t with scanNext := sector + 1 } := by
  rw [scanSector, class_]

theorem scanSector_of_dirty (class_ : classify page = .dirty) :
    scanSector sector page t = { t with scanNext := sector + 1, eraseQueue := t.eraseQueue ++ [sector] } := by
  rw [scanSector, class_]

/-- The generations remembered once a note of one is made (R131, R148). -/
def remembered (note : ScanNote) (t : Tsc) : Vector (Option (BitVec 8)) 100 :=
  match t.generations[generationPlace note.number] with
  | none => t.generations.set (generationPlace note.number) (some note.generation)
  | some g =>
    if newer note.generation g then t.generations.set (generationPlace note.number) (some note.generation) else t.generations

theorem scanSector_of_inUse (class_ : classify page = .inUse) : scanSector sector page t = { t with
    scanNext := sector + 1, scanNotes := t.scanNotes ++ [noteOf sector page], generations := remembered (noteOf sector page) t } := by
  rw [scanSector, class_]
  rfl

/-- A note's generation is remembered in its number's place where it is newer, and no other place changes. -/
theorem remembered_getElem (note : ScanNote) (t : Tsc) (k : Fin 100) : (remembered note t)[k] =
    if k = generationPlace note.number then
      match t.generations[k] with
      | none => some note.generation
      | some old => if newer note.generation old then some note.generation else some old
    else t.generations[k] := by
  unfold remembered
  split
  · next none =>
    by_cases own : k = generationPlace note.number
    · subst own; simp [none]
    · have apart : ¬(generationPlace note.number).val = k.val := fun same => own (Fin.ext same.symm)
      simp [own, apart]
  · next old some_ =>
    by_cases own : k = generationPlace note.number
    · subst own
      by_cases above : newer note.generation old = true <;> simp [some_, above]
    · have apart : ¬(generationPlace note.number).val = k.val := fun same => own (Fin.ext same.symm)
      split <;> simp [apart]

end

theorem scanRead_eq (seen : Option (List Byte)) {s : State} (scans : s.cfg.startState = .scan) (more : s.tsc.scanNext ≤ 4095) :
    scanRead seen s = { s with tsc :=
      { scanSector s.tsc.scanNext (seen.getD (memRun s.flash (s.tsc.scanNext * 4096) 256)) s.tsc with
        unit := if s.tsc.scanNext + 1 ≤ 4095 then .reading .scan else .idle } } := by
  have next (page : List Byte) : (scanSector s.tsc.scanNext page s.tsc).scanNext = s.tsc.scanNext + 1 := by
    rw [scanSector]
    cases classify page <;> rfl
  have goesOn (page : List Byte) : (if (scanSector s.tsc.scanNext page s.tsc).scanNext ≤ Config.lastSector then FlashUnit.reading .scan
      else .idle) = if s.tsc.scanNext + 1 ≤ 4095 then .reading .scan else .idle := by
    rw [next]; rfl
  rw [scanRead, if_pos ⟨scans, more⟩]
  dsimp only
  rw [seenOr_eq, memAddress_sector, goesOn]
  rfl

/-! ### The takes kept (R150) -/

theorem mem_takeNumbers (n : Byte) : n ∈ takeNumbers ↔ 1 ≤ n.toNat ∧ n.toNat ≤ 99 := by
  simp only [takeNumbers, List.mem_map, List.mem_range]
  refine ⟨?_, fun ⟨low, high⟩ => ⟨n.toNat - 1, by omega, ?_⟩⟩
  · rintro ⟨i, small, rfl⟩
    simp only [BitVec.toNat_ofNat]
    omega
  · rw [Nat.sub_add_cancel low, BitVec.ofNat_toNat, BitVec.setWidth_eq]

theorem takeNumbers_ascends : takeNumbers.Pairwise fun m n => m.toNat < n.toNat := by
  refine List.pairwise_map.mpr (List.pairwise_lt_range.imp_of_mem fun {i j} hi hj below => ?_)
  have inside := And.intro (List.mem_range.mp hi) (List.mem_range.mp hj)
  simp only [BitVec.toNat_ofNat]
  omega

/-- The takes kept, by their numbers. -/
def keptTakes (notes : List ScanNote) : List (Byte × StoredTake) :=
  takeNumbers.filterMap fun n => (keptGroup (groupsOf notes n)).map fun g => (n, g.take)

section
variable {notes : List ScanNote}

theorem keptGroup_number {n : Byte} {g : Group} (kept : keptGroup (groupsOf notes n) = some g) : g.number = n :=
  groupsOf_number (keptGroup_mem kept)

theorem mem_keptTakes (n : Byte) (x : StoredTake) : (n, x) ∈ keptTakes notes ↔
    (1 ≤ n.toNat ∧ n.toNat ≤ 99) ∧ ∃ g, keptGroup (groupsOf notes n) = some g ∧ g.take = x := by
  simp only [keptTakes, List.mem_filterMap, Option.map_eq_some_iff, Prod.mk.injEq, ← mem_takeNumbers]
  constructor
  · rintro ⟨m, listed, g, kept, rfl, take⟩
    exact ⟨listed, g, kept, take⟩
  · rintro ⟨listed, g, kept, take⟩
    exact ⟨n, listed, g, kept, rfl, take⟩

theorem keptTakes_ascends : (keptTakes notes).Pairwise fun x y => x.1.toNat < y.1.toNat := by
  rw [keptTakes, List.pairwise_filterMap]
  refine takeNumbers_ascends.imp fun below x hx y hy => ?_
  obtain ⟨g, -, rfl⟩ := Option.map_eq_some_iff.mp hx
  obtain ⟨h, -, rfl⟩ := Option.map_eq_some_iff.mp hy
  exact below

end

/-! ### The takes that the directory has places for (R150) -/

/-- LOCKED before COMPLETE before BROKEN. -/
def takeRank (x : StoredTake) : Nat := match x.state with | .locked => 0 | .complete => 1 | .broken => 2

/-- One take goes before another: by its rank, then by its number. -/
def goesBefore (x y : Byte × StoredTake) : Prop :=
  takeRank x.2 < takeRank y.2 ∨ takeRank x.2 = takeRank y.2 ∧ x.1.toNat < y.1.toNat

/-- The takes by their rank. -/
def ranked (l : List (Byte × StoredTake)) : List (Byte × StoredTake) :=
  l.filter (fun x => x.2.state == .locked) ++ l.filter (fun x => x.2.state == .complete) ++ l.filter (fun x => x.2.state == .broken)

/-- The numbers that the directory has places for. -/
def chosen (l : List (Byte × StoredTake)) : List Byte := ((ranked l).take 32).map (·.1)

/-- The takes that get a place. -/
def placed (l : List (Byte × StoredTake)) : List (Byte × StoredTake) := l.filter fun x => (chosen l).contains x.1

section
variable {l : List (Byte × StoredTake)}

theorem ranked_perm : ∀ l, (ranked l).Perm l
  | [] => .refl _
  | x :: l => by
    have rest := ranked_perm l
    unfold ranked at *
    cases state : x.2.state with
    | locked => simpa [List.filter_cons, state] using rest.cons x
    | complete =>
      simp only [List.filter_cons, state, List.append_assoc] at *
      exact List.perm_middle.trans (rest.cons x)
    | broken =>
      simp only [List.filter_cons, state] at *
      exact List.perm_middle.trans (rest.cons x)

theorem ranked_ascends (ascends : l.Pairwise fun x y => x.1.toNat < y.1.toNat) : (ranked l).Pairwise goesBefore := by
  have within (st : StoredState) : (l.filter fun x => x.2.state == st).Pairwise goesBefore := by
    refine (ascends.sublist List.filter_sublist).imp_of_mem fun {x y} hx hy below => .inr ⟨?_, below⟩
    have same : x.2.state = st ∧ y.2.state = st :=
      ⟨by simpa using (List.mem_filter.mp hx).2, by simpa using (List.mem_filter.mp hy).2⟩
    rw [takeRank, takeRank, same.1, same.2]
  have state {st : StoredState} {x : Byte × StoredTake} (listed : x ∈ l.filter fun x => x.2.state == st) : x.2.state = st := by
    simpa using (List.mem_filter.mp listed).2
  unfold ranked
  refine List.pairwise_append.mpr ⟨List.pairwise_append.mpr ⟨within _, within _, fun x hx y hy => ?_⟩, within _, fun x hx y hy => ?_⟩
  · exact .inl (by rw [takeRank, takeRank, state hx, state hy]; decide)
  · rcases List.mem_append.mp hx with hx | hx
    · exact .inl (by rw [takeRank, takeRank, state hx, state hy]; decide)
    · exact .inl (by rw [takeRank, takeRank, state hx, state hy]; decide)

theorem distinct_numbers (ascends : l.Pairwise fun x y => x.1.toNat < y.1.toNat) : (l.map (·.1)).Nodup :=
  List.pairwise_map.mpr (ascends.imp fun below same => by rw [same] at below; exact lt_irrefl _ below)

/-- Of entries with distinct numbers, those with the numbers of the first n are the first n. -/
theorem filter_taken (distinct : (l.map (·.1)).Nodup) (n : Nat) :
    l.filter (fun x => ((l.take n).map (·.1)).contains x.1) = l.take n := by
  have apart : ∀ x ∈ l.drop n, x.1 ∉ (l.take n).map (·.1) := by
    rw [← List.take_append_drop n l, List.map_append] at distinct
    exact fun x later first => (List.nodup_append.mp distinct).2.2 _ first _ (List.mem_map_of_mem later) rfl
  calc l.filter (fun x => ((l.take n).map (·.1)).contains x.1)
      = (l.take n ++ l.drop n).filter fun x => ((l.take n).map (·.1)).contains x.1 := by rw [List.take_append_drop]
    _ = l.take n ++ [] := by
      rw [List.filter_append]
      congr 1
      · exact List.filter_eq_self.mpr fun x first => List.contains_iff_mem.mpr (List.mem_map_of_mem first)
      · exact List.filter_eq_nil_iff.mpr fun x later => mt List.contains_iff_mem.mp (apart x later)
    _ = l.take n := List.append_nil _

theorem placed_perm (ascends : l.Pairwise fun x y => x.1.toNat < y.1.toNat) : (placed l).Perm ((ranked l).take 32) := by
  have distinct : ((ranked l).map (·.1)).Nodup := ((ranked_perm l).map _).nodup_iff.mpr (distinct_numbers ascends)
  rw [← filter_taken distinct 32]
  exact ((ranked_perm l).filter _).symm

theorem placed_length (ascends : l.Pairwise fun x y => x.1.toNat < y.1.toNat) : (placed l).length ≤ 32 := by
  rw [(placed_perm ascends).length_eq]
  exact List.length_take_le _ _

/-- A take without a place comes behind 32 takes that have one. -/
theorem placed_of_left (ascends : l.Pairwise fun x y => x.1.toNat < y.1.toNat) {x : Byte × StoredTake} (listed : x ∈ l)
    (left : x ∉ placed l) : (placed l).length = 32 ∧ ∀ y ∈ placed l, goesBefore y x := by
  have perm := placed_perm ascends
  have there : x ∈ (ranked l).take 32 ++ (ranked l).drop 32 := by
    rw [List.take_append_drop]
    exact (ranked_perm l).mem_iff.mpr listed
  have behind : x ∈ (ranked l).drop 32 := (List.mem_append.mp there).resolve_left fun first => left (perm.mem_iff.mpr first)
  have order := ranked_ascends ascends
  rw [← List.take_append_drop 32 (ranked l)] at order
  refine ⟨?_, fun y first => (List.pairwise_append.mp order).2.2 y (perm.mem_iff.mp first) x behind⟩
  have long : 0 < ((ranked l).drop 32).length := List.length_pos_of_mem behind
  rw [List.length_drop] at long
  rw [perm.length_eq, List.length_take]
  omega

end

/-! ### The resolution pass (R149, R150) -/

/-- The directory that the resolution makes of the notes. -/
def resolvedDirectory (notes : List ScanNote) : List DirEntry :=
  (placed (keptTakes notes)).map fun x => { number := x.1, stored := some x.2, recording := none }

/-- The sectors of the takes left over. -/
def leftOver (notes : List ScanNote) : List Nat :=
  ((keptTakes notes).filter fun x => !(chosen (keptTakes notes)).contains x.1).flatMap fun x => x.2.segments.map (·.sector)

theorem resolveScan_eq (t : Tsc) : resolveScan t = { t with
    scanNotes := [], scanNext := 4096, directory := resolvedDirectory t.scanNotes
    eraseQueue := t.eraseQueue ++ duplicateSectors t.scanNotes ++
      (takeNumbers.map (groupsOf t.scanNotes)).flatMap discardedSectors ++ leftOver t.scanNotes } := by
  have kept : ((takeNumbers.map (groupsOf t.scanNotes)).filterMap fun gs => (keptGroup gs).map fun g => (g.number, g.take)) =
      keptTakes t.scanNotes := by
    rw [List.filterMap_map, keptTakes]
    congr 1
    funext n
    show (keptGroup (groupsOf t.scanNotes n)).map _ = _
    cases group : keptGroup (groupsOf t.scanNotes n) with
    | none => rfl
    | some g => exact congrArg (fun m => some (m, g.take)) (keptGroup_number group)
  unfold resolveScan
  dsimp only
  rw [kept]
  rfl

section
variable {notes : List ScanNote}

theorem mem_resolvedDirectory (e : DirEntry) : e ∈ resolvedDirectory notes ↔
    e.recording = none ∧ ∃ x, e.stored = some x ∧ (e.number, x) ∈ placed (keptTakes notes) := by
  simp only [resolvedDirectory, List.mem_map]
  constructor
  · rintro ⟨x, there, rfl⟩
    exact ⟨rfl, x.2, rfl, there⟩
  · rintro ⟨unrecorded, x, stored, there⟩
    exact ⟨(e.number, x), there, by cases e; simp_all⟩

/-- An entry of the directory is of a take kept. -/
theorem resolvedDirectory_kept {e : DirEntry} (listed : e ∈ resolvedDirectory notes) : (1 ≤ e.number.toNat ∧ e.number.toNat ≤ 99) ∧
    ∃ g, keptGroup (groupsOf notes e.number) = some g ∧ e.stored = some g.take := by
  obtain ⟨-, x, stored, there⟩ := (mem_resolvedDirectory e).mp listed
  obtain ⟨number, g, kept, rfl⟩ := (mem_keptTakes e.number x).mp (List.mem_filter.mp there).1
  exact ⟨number, g, kept, stored⟩

theorem resolvedDirectory_length : (resolvedDirectory notes).length ≤ 32 := by
  rw [resolvedDirectory, List.length_map]
  exact placed_length keptTakes_ascends

theorem resolvedDirectory_ascends : (resolvedDirectory notes).Pairwise fun x y => x.number.toNat < y.number.toNat :=
  List.pairwise_map.mpr (keptTakes_ascends.sublist List.filter_sublist)

/-- A number has no entry where no group of it is kept or its take has no place. -/
theorem resolvedDirectory_lacks (n : Byte) : ((resolvedDirectory notes).find? fun e => e.number == n).isNone = true ↔
    ∀ x, (n, x) ∉ placed (keptTakes notes) := by
  simp only [Option.isNone_iff_eq_none, List.find?_eq_none, beq_iff_eq]
  constructor
  · exact fun none x there => none _ ((mem_resolvedDirectory ⟨n, some x, Option.none⟩).mpr ⟨rfl, x, rfl, there⟩) rfl
  · intro none e listed number
    obtain ⟨-, x, -, there⟩ := (mem_resolvedDirectory e).mp listed
    exact none x (number ▸ there)

theorem mem_placed_iff {n : Byte} {x : StoredTake} (kept : (n, x) ∈ keptTakes notes) :
    (n, x) ∈ placed (keptTakes notes) ↔ (chosen (keptTakes notes)).contains n = true := by
  rw [placed, List.mem_filter, and_iff_right kept]

/-- The notes whose sequence a lower sector of their group carries leave the groups. -/
theorem duplicateSectors_eq (ascends : notes.Pairwise fun x y => x.sector < y.sector) : duplicateSectors notes =
    (notes.filter fun x => notes.any fun y => y.number == x.number && y.generation == x.generation && y.seq == x.seq &&
      decide (y.sector < x.sector)).map (·.sector) := by
  rw [duplicateSectors]
  congr 1
  refine List.filter_congr fun x listed => ?_
  have stays : (groupNotes notes x.number x.generation).contains x = true ↔
      ∀ y ∈ notes, y.number = x.number → y.generation = x.generation → y.seq = x.seq → x.sector ≤ y.sector := by
    simp only [List.contains_iff_mem, mem_groupNotes ascends, listed, true_and]
  rw [Bool.eq_iff_iff, Bool.not_eq_true', ← Bool.not_eq_true, stays, List.any_eq_true]
  simp only [Bool.and_eq_true, beq_iff_eq, decide_eq_true_eq, not_forall, not_le, exists_prop, and_assoc]

/-- The groups not kept are those of another generation than the one kept. -/
theorem discardedSectors_eq (gs : List Group) : discardedSectors gs =
    (gs.filter fun g => (keptGroup gs).any fun k => k.generation != g.generation).flatMap fun g => g.notes.map (·.sector) := by
  cases kept : keptGroup gs with
  | none => simp [discardedSectors, kept]
  | some k =>
    have sides (g : Group) : (g.generation != k.generation) = (k.generation != g.generation) := bne_comm
    simp [discardedSectors, kept, sides]

theorem discarded_eq : (takeNumbers.map (groupsOf notes)).flatMap discardedSectors = takeNumbers.flatMap fun n =>
    ((groupsOf notes n).filter fun g => (keptGroup (groupsOf notes n)).any fun k => k.generation != g.generation).flatMap
      fun g => g.notes.map (·.sector) := by
  rw [List.flatMap_map]
  exact List.flatMap_congr fun n _ => discardedSectors_eq (groupsOf notes n)

/-- Where a take of a number is kept, the number is chosen or has no entry. -/
theorem chosen_iff_of_kept {n : Byte} {g : Group} (listed : n ∈ takeNumbers) (kept : keptGroup (groupsOf notes n) = some g) :
    (!(chosen (keptTakes notes)).contains n) = ((resolvedDirectory notes).find? fun e => e.number == n).isNone := by
  have there : (n, g.take) ∈ keptTakes notes := (mem_keptTakes n _).mpr ⟨(mem_takeNumbers n).mp listed, g, kept, rfl⟩
  have only {x : StoredTake} (listed : (n, x) ∈ placed (keptTakes notes)) : x = g.take := by
    obtain ⟨-, h, keptH, rfl⟩ := (mem_keptTakes n x).mp (List.mem_filter.mp listed).1
    rw [Option.some.inj (keptH.symm.trans kept)]
  rw [Bool.eq_iff_iff, Bool.not_eq_true', ← Bool.not_eq_true, resolvedDirectory_lacks, ← mem_placed_iff there]
  exact ⟨fun unplaced x listed => unplaced (only listed ▸ listed), fun none => none _⟩

theorem leftOver_eq : leftOver notes =
    (takeNumbers.filter fun n => ((resolvedDirectory notes).find? fun e => e.number == n).isNone).flatMap fun n =>
      match keptGroup (groupsOf notes n) with | some g => g.notes.map (·.sector) | none => [] := by
  have part (l : List Byte) (sub : ∀ n ∈ l, n ∈ takeNumbers) :
      ((l.filterMap fun n => (keptGroup (groupsOf notes n)).map fun g => (n, g.take)).filter fun x =>
          !(chosen (keptTakes notes)).contains x.1).flatMap (fun x => x.2.segments.map (·.sector)) =
        (l.filter fun n => ((resolvedDirectory notes).find? fun e => e.number == n).isNone).flatMap fun n =>
          match keptGroup (groupsOf notes n) with | some g => g.notes.map (·.sector) | none => [] := by
    induction l with
    | nil => rfl
    | cons n l ih =>
      have rest := ih fun m listed => sub m (by simp [listed])
      cases kept : keptGroup (groupsOf notes n) with
      | none =>
        rw [List.filterMap_cons, kept, List.filter_cons]
        dsimp only [Option.map_none]
        split
        · rw [List.flatMap_cons, kept, rest]; rfl
        · exact rest
      | some g =>
        rw [List.filterMap_cons, kept]
        dsimp only [Option.map_some]
        rw [List.filter_cons, List.filter_cons, chosen_iff_of_kept (sub n (by simp)) kept]
        split
        · rw [List.flatMap_cons, List.flatMap_cons, rest, kept, take_segments, List.map_map]; rfl
        · exact rest
  exact part takeNumbers fun n => id

end

/-! ### The end of the scan (R149, R150, R173) -/

/-- Work that is started leaves a directory without a recording as it is. -/
theorem startWork_directory_of_unrecorded {s : State} (unrecorded : ∀ e ∈ s.tsc.directory, e.recording = none) :
    (startWork s).tsc.directory = s.tsc.directory := by
  obtain ⟨f, directory⟩ := startWork_directory s
  rw [directory]
  refine (List.map_congr_left fun e listed => ?_).trans (List.map_id _)
  have none := unrecorded e listed
  cases e
  simp_all

/-- The notes that the resolution finds: those of the sectors read, and of those still to be read (log 18). -/
def scannedStore (s : State) : Tsc := scanRest s.flash 4095 s.tsc

/-- What the end of the scan leaves. -/
structure Resolved (s t : State) : Prop where
  frame : t = { s with cfg := { s.cfg with startState := .parked }, tsc := t.tsc }
  notes : t.tsc.scanNotes = []
  directory : t.tsc.directory = resolvedDirectory (scannedStore s).scanNotes
  eraseQueue : t.tsc.eraseQueue = (resolveScan (scannedStore s)).eraseQueue

theorem scanEnded_resolved {s : State} (scans : s.cfg.startState = .scan) : Resolved s (scanEnded s) := by
  have ends : scanEnded s = startWork { s with
      cfg := { s.cfg with startState := .parked }, tsc := { resolveScan (scannedStore s) with unit := .idle } } := if_pos scans
  have resolved := resolveScan_eq (scannedStore s)
  have frame := startWork_eq { s with
    cfg := { s.cfg with startState := .parked }, tsc := { resolveScan (scannedStore s) with unit := .idle } }
  have queues := (startWork_stored { s with
    cfg := { s.cfg with startState := .parked }, tsc := { resolveScan (scannedStore s) with unit := .idle } }).queues
  rw [ends]
  refine ⟨frame, (congrArg Tsc.scanNotes queues :).trans ?_, (startWork_directory_of_unrecorded fun e listed => ?_).trans ?_,
    (congrArg Tsc.eraseQueue queues :)⟩
  · exact (congrArg Tsc.scanNotes resolved :)
  · have listed : e ∈ (resolveScan (scannedStore s)).directory := listed
    rw [resolved] at listed
    exact ((mem_resolvedDirectory e).mp listed).1
  · exact (congrArg Tsc.directory resolved :)

/-- With every sector read the store is resolved as it stands. -/
theorem scannedStore_of_read {s : State} (read : s.tsc.scanNext = 4096) : scannedStore s = s.tsc := by
  have done : ¬s.tsc.scanNext ≤ Config.lastSector := by rw [read]; decide
  exact if_neg done

/-- Settles O33: a sector read by its class, the end of the scan, and the groups that its notes form. -/
theorem scanReadsAndResolves : Obligations.ScanReadsAndResolves := by
  unfold Obligations.ScanReadsAndResolves
  refine ⟨fun seen s scans more => ?_, fun s scans => ?_, fun notes n ascends => ?_, fun g x xs notes => ?_, fun gs => ?_,
    fun s scans read ascends => ?_⟩
  · intro c page unit n g
    have reads : exec (.scanSectorRead seen) s = .next { s with tsc := { scanSector c page s.tsc with unit := unit } } :=
      congrArg Host.Outcome.next (scanRead_eq seen scans more)
    refine ⟨fun erased => ?_, fun written other => ?_, fun written valid low high => ?_⟩
    · rw [reads, scanSector_of_erased (classify_of_erased erased)]
    · rw [reads, scanSector_of_dirty (classify_of_dirty written other)]
    · have number : (generationPlace (noteOf c page).number).val = n := by
        show (Fin.ofNat 100 (BitVec.ofNat 8 n).toNat).val = n
        simp only [Fin.val_ofNat, BitVec.toNat_ofNat]
        omega
      have place (k : Fin 100) : k = generationPlace (noteOf c page).number ↔ k.val = n := by rw [Fin.ext_iff, number]
      rw [scanSector_of_inUse (classify_of_inUse written valid low high)] at reads
      refine ⟨_, reads, rfl, fun k other => ?_, fun k own => ?_⟩
      · exact (remembered_getElem _ s.tsc k).trans (if_neg (mt (place k).mp other))
      · exact (remembered_getElem _ s.tsc k).trans (if_pos ((place k).mpr own))
  · obtain ⟨frame, notes, directory, -⟩ := scanEnded_resolved scans
    refine ⟨scanEnded s, rfl, frame, notes, by rw [directory]; exact resolvedDirectory_length, fun e listed => ?_⟩
    rw [directory] at listed
    obtain ⟨-, g, -, stored⟩ := resolvedDirectory_kept listed
    exact ⟨((mem_resolvedDirectory e).mp listed).1, g.take, stored, take_lockPending g⟩
  · refine ⟨groupsOf_ascends, fun x listed number => ⟨_, groupsOf_covers listed number, rfl⟩, fun g group => ?_⟩
    refine ⟨groupsOf_number group, groupsOf_notes group, ?_⟩
    obtain ⟨b, -, rfl⟩ := (mem_groupsOf g).mp group
    obtain ⟨perm, order⟩ := groupAt_notes (notes := notes) (n := n) b
    exact ⟨order, fun x => perm.mem_iff.trans (mem_groupNotes ascends x)⟩
  · have segments : g.take.segments.map (fun y => (y.sector, y.seq)) = (x :: xs).map fun y => (y.sector, y.seq) := by
      rw [take_segments, notes, List.map_map]; rfl
    refine ⟨complete_iff_notes notes, ?_⟩
    cases complete : g.complete with
    | none =>
      rw [take_of_broken notes complete] at segments ⊢
      exact ⟨rfl, rfl, rfl, rfl, rfl, segments, fun _ => ⟨rfl, rfl, rfl⟩, fun c same => by cases same⟩
    | some c =>
      rw [take_of_complete notes complete] at segments ⊢
      exact ⟨rfl, rfl, rfl, rfl, rfl, segments, fun none => by (cases none), fun d same => by cases same; exact ⟨rfl, rfl, rfl, rfl⟩⟩
  · intro candidate
    refine ⟨keptGroup_eq_none gs, fun k kept => ⟨(mem_candidates k).mp (keptGroup_candidate kept), fun g is newest => ?_⟩⟩
    have newestG := newestGroup_of_newest ((mem_candidates g).mpr is) fun h listed => newest h ((mem_candidates h).mp listed)
    rw [keptGroup_eq] at kept
    exact Option.some.inj (kept.symm.trans newestG)
  · intro kept rank
    obtain ⟨-, -, directory, queue⟩ := scanEnded_resolved scans
    rw [scannedStore_of_read read] at directory queue
    have entry (n : Byte) : (scanEnded s).tsc.entry n = (resolvedDirectory s.tsc.scanNotes).find? fun e => e.number == n := by
      rw [Tsc.entry, directory]
    refine ⟨scanEnded s, rfl, by rw [directory]; exact resolvedDirectory_ascends, fun e listed => ?_, fun n g low high group lacks => ?_, ?_⟩
    · rw [directory] at listed
      obtain ⟨⟨low, high⟩, held⟩ := resolvedDirectory_kept listed
      exact ⟨low, high, held⟩
    · rw [entry, resolvedDirectory_lacks] at lacks
      have there : (n, g.take) ∈ keptTakes s.tsc.scanNotes := (mem_keptTakes n _).mpr ⟨⟨low, high⟩, g, group, rfl⟩
      obtain ⟨full, before⟩ := placed_of_left keptTakes_ascends there (lacks _)
      rw [directory]
      refine ⟨by rw [resolvedDirectory, List.length_map, full], fun e listed x stored => ?_⟩
      obtain ⟨-, y, storedY, placedY⟩ := (mem_resolvedDirectory e).mp listed
      obtain rfl : y = x := Option.some.inj (storedY.symm.trans stored)
      exact before (e.number, y) placedY
    · have unlisted : (fun n => ((scanEnded s).tsc.entry n).isNone) =
          fun n => ((resolvedDirectory s.tsc.scanNotes).find? fun e => e.number == n).isNone := funext fun n => by rw [entry]
      rw [queue, resolveScan_eq, unlisted]
      exact congrArg₂ (· ++ ·) (congrArg₂ (· ++ ·) (congrArg (s.tsc.eraseQueue ++ ·) (duplicateSectors_eq ascends)) discarded_eq)
        leftOver_eq

end Sys2Proof.Machine
end
